-- ==== Sys2Proof/Word.lean ====
section
/-! DEFINITION. The word types of the XK1 and their plainest arithmetic. -/

namespace Sys2Proof

/-- One byte of storage (R103). -/
abbrev Byte := BitVec 8
/-- A 32-bit word: one vector-register element, one word of code (R193, R210). -/
abbrev W32 := BitVec 32
/-- A 64-bit value: a k register, a pair, a descriptor word (R182, R193). -/
abbrev W64 := BitVec 64
/-- A 58-bit virtual address of code or data (R29, R211). -/
abbrev VAddr := BitVec 58
/-- One bit for each position of a context: position 64 × strip + lane (R154, R179). A block has at most 1,024 items (R4). -/
abbrev Lanes := BitVec 1024

end Sys2Proof
end

