-- ==== Sys2Proof/Syntax.lean ====
section
/-! DEFINITION. The steps of the XK1 as data: one constructor of Instr for each row of the opcode table.
The instruction rows carry their operands as the formats of R214-R228 give them; the event rows carry what
they act on. -/

namespace Sys2Proof

/-- A guard `?pN` or `?!pN` (R214). -/
structure Guard where
  p : Fin 16
  neg : Bool
  deriving DecidableEq, Repr

/-- A source operand of the 9-bit operand space (R216). -/
inductive Src where
  | v (n : Fin 384)
  | k (n : Fin 64)
  | b (n : Fin 4)
  | zero
  | idx
  | bidx
  | iidx
  | lane
  deriving DecidableEq, Repr

/-- A destination operand (R216): `zero` discards. -/
inductive Dst where
  | v (n : Fin 384)
  | k (n : Fin 64)
  | zero
  deriving DecidableEq, Repr

/-- The b operand: a source, or the ib immediate of R215 and R228 (nine bits without the leading word, sign-extended here). -/
inductive BSrc where
  | reg (x : Src)
  | imm (i : BitVec 16)
  deriving DecidableEq, Repr

/-- A distance operand of `slup` and `sldn`: a k register or an immediate (R302). -/
inductive KImm where
  | k (n : Fin 64)
  | imm (i : BitVec 16)
  deriving DecidableEq, Repr

/-- An address operand of `xatom` and `dred`: an even vector register (a pair) or a k register (R335). -/
inductive ASrc where
  | v (n : Fin 384)
  | k (n : Fin 64)
  deriving DecidableEq, Repr

/-- Rounding modes (R198). -/
inductive Rm where
  | rne | rz | ru | rd | rna
  deriving DecidableEq, Repr

/-- The options of a leading word before a slot-L instruction (R225, R226); `rm = none` is code 0b111. -/
structure PfxL where
  msk : Fin 16
  z : Bool
  rm : Option Rm
  deriving DecidableEq, Repr

/-- Guard, no-write-back bit and leading word of a slot-L instruction. -/
structure LOpt where
  g : Guard
  nw : Bool
  pfx : Option PfxL
  deriving DecidableEq, Repr

/-- Integer types (R219). -/
inductive IntTy where
  | i32 | n32 | i64 | n64 | i16x2 | n16x2 | i8x4 | n8x4
  deriving DecidableEq, Repr

/-- Floating-point types (R219). -/
inductive FTy where
  | f32 | f64 | bf16x2 | f16x2
  deriving DecidableEq, Repr

/-- A type read through the table that sf selects (R283, R302). -/
inductive NumTy where
  | int (t : IntTy)
  | fp (t : FTy)
  deriving DecidableEq, Repr

/-- Integer relations (R281). -/
inductive Rel where
  | eq | ne | lt | le | gt | ge
  deriving DecidableEq, Repr

/-- Floating-point relations (R296). -/
inductive FRel where
  | eq | ne | lt | le | gt | ge | un | ord
  deriving DecidableEq, Repr

/-- Operations of `red` and `scan` (R306). -/
inductive RedOp where
  | add | min | max | and | or | xor
  deriving DecidableEq, Repr

/-- Modes of `vote` (R310). -/
inductive VoteMode where
  | all | any | eq
  deriving DecidableEq, Repr

/-- Orders (R108). -/
inductive Order where
  | rlx | acq | rel | ar
  deriving DecidableEq, Repr

/-- Scopes (R107). -/
inductive Scope where
  | ctx | blk | dev | sys | pod
  deriving DecidableEq, Repr

/-- Access sizes of the memory opcodes with the quad form (R224). -/
inductive MSize where
  | i32 | n32 | i64 | n64 | i16 | n16 | i8 | n8 | quad
  deriving DecidableEq, Repr

/-- The operations of `atom` and `xatom` with their sizes (R327); a Bool is the width, true for 64 bits. -/
inductive AtomOp where
  | add (t : IntTy) | min (t : IntTy) | max (t : IntTy) | exch (t : IntTy)
  | and (wide : Bool) | or (wide : Bool) | xor (wide : Bool)
  | fadd (wide : Bool)
  deriving DecidableEq, Repr

/-- The types of `dred` (R344). -/
inductive DredTy where
  | f32 | f64 | i32 | i64
  deriving DecidableEq, Repr

/-- The operations of `dred` (R344). -/
inductive DredOp where
  | add | min | max
  deriving DecidableEq, Repr

/-- In-flight counters (R82). -/
inductive Path where
  | sh | sp | cp | ga | xa | co
  deriving DecidableEq, Repr

/-- Status registers (R237). -/
inductive SrName where
  | lanes | tick | clayer | tvec | pool | tcid | mode | phase | scratch | shape | image
  deriving DecidableEq, Repr

/-- A register range `vLo, vHi`; the form `zero, zero` is none (R247, R254, R258). -/
abbrev VRange := Option (Fin 384 × Fin 384)

/-- `bra` (R221, R241). -/
structure BraOp where
  pred : Fin 16
  neg : Bool
  hint : Bool
  target : BitVec 24
  reconv : BitVec 24
  deriving DecidableEq, Repr

/-- One source, one destination, an integer type (R269). -/
structure Alu1 where
  ty : IntTy
  d : Dst
  a : Src
  o : LOpt
  deriving DecidableEq, Repr

/-- Two sources, one destination, an integer type (R269). -/
structure Alu2 where
  ty : IntTy
  d : Dst
  a : Src
  b : BSrc
  o : LOpt
  deriving DecidableEq, Repr

/-- Three sources, one destination, an integer type (R269). -/
structure Alu3 where
  ty : IntTy
  d : Dst
  a : Src
  b : BSrc
  c : Src
  o : LOpt
  deriving DecidableEq, Repr

/-- `addc`, `subb` (R272). -/
structure CarryOp where
  x : Alu2
  pIn : Fin 16
  pOut : Fin 16
  deriving DecidableEq, Repr

/-- `lea` (R275). -/
structure LeaOp where
  x : Alu2
  sh : Fin 64
  deriving DecidableEq, Repr

/-- `sel` (R280). -/
structure SelOp where
  x : Alu2
  q : Fin 16
  qneg : Bool
  deriving DecidableEq, Repr

/-- `cmp` (R281). -/
structure CmpOp where
  rel : Rel
  ty : IntTy
  pd : Fin 16
  a : Src
  b : BSrc
  g : Guard
  pfx : Option PfxL
  deriving DecidableEq, Repr

/-- `movi` (R220, R282): the destination is a vector or a k register. -/
structure MoviOp where
  d : ASrc
  imm : W32
  g : Guard
  nw : Bool
  deriving DecidableEq, Repr

/-- `movk` (R220, R282). -/
structure MovkOp where
  d : Fin 64
  imm : W32
  g : Guard
  nw : Bool
  deriving DecidableEq, Repr

/-- `cvt` (R283, R284). -/
structure CvtOp where
  src : NumTy
  dst : NumTy
  sat : Bool
  d : Dst
  a : Src
  o : LOpt
  deriving DecidableEq, Repr

/-- `pack` (R285); c and d4 are `zero` where the form does not use them. -/
structure PackOp where
  src : NumTy
  dst : NumTy
  sat : Bool
  d : Dst
  a : Src
  b : BSrc
  c : Src
  d4 : Src
  o : LOpt
  deriving DecidableEq, Repr

/-- `unpk` (R286). -/
structure UnpkOp where
  src : NumTy
  dst : NumTy
  sat : Bool
  e : Fin 8
  d : Dst
  a : Src
  o : LOpt
  deriving DecidableEq, Repr

/-- `dp4` (R288). -/
structure Dp4Op where
  x : Alu3
  r : Fin 32
  sat : Bool
  deriving DecidableEq, Repr

/-- `pand`, `por`, `pxor` (R289). -/
structure Pred2 where
  pd : Fin 16
  pa : Fin 16
  pb : Fin 16
  na : Bool
  nb : Bool
  g : Guard
  deriving DecidableEq, Repr

/-- `pnot`, `pmov` (R289). -/
structure Pred1 where
  pd : Fin 16
  pa : Fin 16
  g : Guard
  deriving DecidableEq, Repr

/-- `pset` (R289). -/
structure PsetOp where
  pd : Fin 16
  val : Bool
  g : Guard
  deriving DecidableEq, Repr

/-- `pcnt`, `pfirst` (R290). -/
structure PredK where
  d : Fin 64
  pa : Fin 16
  g : Guard
  nw : Bool
  deriving DecidableEq, Repr

/-- One source, one destination, a floating-point type (R292). -/
structure F1 where
  ty : FTy
  d : Dst
  a : Src
  o : LOpt
  deriving DecidableEq, Repr

/-- Two sources, one destination, a floating-point type (R292). -/
structure F2 where
  ty : FTy
  d : Dst
  a : Src
  b : Src
  o : LOpt
  deriving DecidableEq, Repr

/-- `fma` (R292). -/
structure F3 where
  ty : FTy
  d : Dst
  a : Src
  b : Src
  c : Src
  o : LOpt
  deriving DecidableEq, Repr

/-- `fcmp` (R296): `.f32` or `.f64`. -/
structure FcmpOp where
  rel : FRel
  wide : Bool
  pd : Fin 16
  a : Src
  b : Src
  g : Guard
  pfx : Option PfxL
  deriving DecidableEq, Repr

/-- `fcvt` (R297). -/
structure FcvtOp where
  src : FTy
  dst : FTy
  d : Dst
  a : Src
  o : LOpt
  deriving DecidableEq, Repr

/-- `shfl`, `bcast` (R303). -/
structure PermOp where
  ty : IntTy
  d : Fin 384
  a : Src
  b : BSrc
  o : LOpt
  deriving DecidableEq, Repr

/-- `slup`, `sldn` (R304). -/
structure SlideOp where
  ty : IntTy
  d : Fin 384
  a : Src
  b : KImm
  c : Src
  o : LOpt
  deriving DecidableEq, Repr

/-- `cmpr`, `expd` (R305). -/
structure CompactOp where
  ty : IntTy
  d : Fin 384
  a : Src
  q : Fin 16
  o : LOpt
  deriving DecidableEq, Repr

/-- `red` (R307). -/
structure RedInstr where
  op : RedOp
  ty : NumTy
  d : Dst
  a : Src
  o : LOpt
  deriving DecidableEq, Repr

/-- `scan` (R308); `seg` is the segment predicate. -/
structure ScanInstr where
  op : RedOp
  ty : NumTy
  d : Fin 384
  a : Src
  seg : Option (Fin 16)
  o : LOpt
  deriving DecidableEq, Repr

/-- `ballot` (R309). -/
structure BallotOp where
  d : ASrc
  pa : Fin 16
  o : LOpt
  deriving DecidableEq, Repr

/-- `vote` (R310). -/
structure VoteOp where
  mode : VoteMode
  pd : Fin 16
  pa : Fin 16
  g : Guard
  pfx : Option PfxL
  deriving DecidableEq, Repr

/-- The types of `topk` (R302). -/
inductive TopkTy where
  | i32 | n32 | f32
  deriving DecidableEq, Repr

/-- `topk` (R311); `km1` is k − 1. -/
structure TopkOp where
  ty : TopkTy
  d : Fin 384
  vi : Fin 384
  a : Src
  km1 : Fin 8
  o : LOpt
  deriving DecidableEq, Repr

/-- The source of `fmt` (R315). -/
inductive FmtSrc where
  | imm (i : W32)
  | k (n : Fin 64)
  deriving DecidableEq, Repr

/-- `opa` (R222, R316); `mm1` and `nm1` are m − 1 and n − 1. -/
structure OpaOp where
  tile : Fin 8
  site : Fin 16
  blk : Bool
  ymode : Bool
  ysel : Fin 4
  xmode : Bool
  xsel : Fin 4
  e : Src
  nm1 : Fin 32
  y : Fin 384
  mm1 : Fin 32
  x : Fin 384
  g : Guard
  deriving DecidableEq, Repr

/-- A tile operand with its scope and guard (R312). -/
structure TileOp where
  tile : Fin 8
  blk : Bool
  g : Guard
  deriving DecidableEq, Repr

/-- `opc`, `await` (R320, R321). -/
structure SiteOp where
  t : TileOp
  site : Fin 16
  deriving DecidableEq, Repr

/-- `aread`, `awrt` of a row (R323); `cm1` is c − 1. -/
structure RowOp where
  t : TileOp
  v : Fin 384
  cm1 : Fin 32
  row : Src
  deriving DecidableEq, Repr

/-- `aread`, `awrt` of the status word (R323). -/
structure StatusOp where
  t : TileOp
  k : Fin 64
  deriving DecidableEq, Repr

/-- `aprom` (R323). -/
structure PromOp where
  t : TileOp
  k : Fin 64
  mm1 : Fin 32
  nm1 : Fin 32
  deriving DecidableEq, Repr

/-- `ald`, `ast` (R324): `h` names a scratchpad handle register, none is shared memory. `pfx` says that the leading word is present. -/
structure TileMem where
  tile : Fin 8
  blk : Bool
  h : Option (Fin 64)
  a : Option (Fin 64)
  disp : BitVec 14
  scope : Scope
  pfx : Bool
  g : Guard
  deriving DecidableEq, Repr

/-- The address side of a local memory instruction (R223, R326): the displacement counts units of s; `pfx` says that the leading word is present. -/
structure MemAddr where
  a : Src
  disp : BitVec 14
  pfx : Bool
  deriving DecidableEq, Repr

/-- `lds` (R326). -/
structure LdsOp where
  d : Fin 384
  sz : MSize
  acq : Bool
  scope : Scope
  m : MemAddr
  g : Guard
  deriving DecidableEq, Repr

/-- `sts` (R326). -/
structure StsOp where
  b : Src
  sz : MSize
  rel : Bool
  scope : Scope
  m : MemAddr
  g : Guard
  deriving DecidableEq, Repr

/-- `ldw` (R326). -/
structure LdwOp where
  h : Fin 64
  x : LdsOp
  deriving DecidableEq, Repr

/-- `stw` (R326). -/
structure StwOp where
  h : Fin 64
  x : StsOp
  deriving DecidableEq, Repr

/-- `atom` (R327): `h = none` is shared memory. -/
structure AtomInstr where
  op : AtomOp
  order : Order
  scope : Scope
  h : Option (Fin 64)
  d : Option (Fin 384)
  b : Src
  m : MemAddr
  g : Guard
  deriving DecidableEq, Repr

/-- `cas` (R328): always carries the leading word, whose d4 is `swap`. -/
structure CasInstr where
  ty : IntTy
  order : Order
  failAcq : Bool
  scope : Scope
  h : Option (Fin 64)
  d : Option (Fin 384)
  b : Src
  swap : Src
  m : MemAddr
  g : Guard
  deriving DecidableEq, Repr

/-- `fence` (R329). -/
structure FenceOp where
  order : Order
  scope : Scope
  d : Option (Fin 64)
  g : Guard
  nw : Bool
  deriving DecidableEq, Repr

/-- `wait` (R330); `bound = none` is zero. -/
structure WaitOp where
  path : Path
  bound : Option (Fin 64)
  g : Guard
  deriving DecidableEq, Repr

/-- `rwb`, `rinv`, `rfill` (R333): offset and length registers. -/
structure LinesOp where
  h : Fin 64
  off : Option (Fin 64)
  len : Option (Fin 64)
  g : Guard
  deriving DecidableEq, Repr

/-- `copy`, `coll`, `stash` (R335): the displacement counts descriptor units. -/
structure DescOp where
  a : Src
  disp : BitVec 7
  g : Guard
  deriving DecidableEq, Repr

/-- `gather`, `scatter` (R339). -/
structure GatherOp where
  ty : IntTy
  a : Option (Fin 64)
  b : Src
  disp : BitVec 7
  g : Guard
  deriving DecidableEq, Repr

/-- `xatom` (R340); `d = zero` discards. -/
structure XatomOp where
  op : AtomOp
  rel : Bool
  scope : Scope
  d : Src
  a : ASrc
  b : Src
  g : Guard
  deriving DecidableEq, Repr

/-- `dred` (R344). -/
structure DredInstr where
  op : DredOp
  ty : DredTy
  a : ASrc
  b : Src
  g : Guard
  deriving DecidableEq, Repr

/-- `qpush` (R349): the entry is in b to b + 3. -/
structure QpushOp where
  d : Option (Fin 384)
  a : Src
  b : Fin 384
  g : Guard
  deriving DecidableEq, Repr

/-- `qcomb`, `qdrain` (R352, R353). -/
structure QdescOp where
  d : Option (Fin 64)
  a : Option (Fin 64)
  disp : BitVec 7
  deriving DecidableEq, Repr

/-- A fragment of a context: the context's number and the fragment's split-table entry (R170). -/
structure FragRef where
  ctx : Nat
  frag : Nat
  deriving DecidableEq, Repr

/-- A line of a scratchpad region: die, region-table slot and line number (R27). -/
structure LineRef where
  die : Nat
  slot : Nat
  line : Nat
  deriving DecidableEq, Repr

/-- A partition of a core (R1). -/
structure PartRef where
  core : Nat
  part : Nat
  deriving DecidableEq, Repr

/-- What a remote device asks of this one (R36, R403). The atomic carries an operation of R327 and its operand, the reduction
one of R344. -/
inductive RemoteKind where
  | read
  | write (data : List Byte)
  | atomic (op : AtomOp) (operand : W64)
  | reduce (op : DredOp) (ty : DredTy) (operand : W64)
  /-- a slot's contribution to an instance of a collective group, under a generation (R343, R406) -/
  | contribute (group inst slot : Nat) (generation : W32) (data : List Byte)
  deriving DecidableEq, Repr

/-- An access arriving at a UALink port (R36), in the tenant class of its request (R404): the device whose agent issued it, and whether it bears a
release at `.pod`, its own or that of an earlier fence (R113, R136). -/
structure RemoteAccess where
  port : Fin 16
  device : Nat
  rel : Bool
  cls : Fin 16
  request : Nat
  entry : Fin 1024
  offset : W32
  length : Nat
  key : W64
  kind : RemoteKind
  deriving DecidableEq, Repr

/-- The status of a remote response (R36, R403). -/
inductive RemoteStatus where
  | ok | refused | poisoned
  deriving DecidableEq, Repr

/-- Kind, operation, type, count and root of a collective instance (R342). -/
structure CollParams where
  kind : Nat
  op : RedOp
  ty : NumTy
  count : Nat
  root : Nat
  deriving DecidableEq, Repr

/-- A contribution of another device to a collective instance (R343, R406), on a port in a tenant class (R404): one populated slot's source
values, with the parameters that its command names; or, with no data, the parameters alone. -/
structure CollMsg where
  port : Fin 16
  cls : Fin 16
  request : Nat
  group : Fin 256
  inst : Nat
  generation : W32
  slot : Fin 4096
  params : CollParams
  data : Option (List Byte)
  lost : Bool
  deriving DecidableEq, Repr

/-- Where a bit error strikes (R97, R98, R100). -/
inductive ErrPlace where
  | vreg (ctx : Nat) (reg : Fin 384) (pos : Nat)
  | pred (ctx : Nat) (p : Fin 16) (strip : Nat)
  | tile (block : Nat) (tile : Fin 8) (strip : Nat) (word : Nat)
  | shared (block : Nat) (word : Nat)
  /-- an 8-byte word of a strip's spill stack (R18) -/
  | spill (block : Nat) (strip : Nat) (word : Nat)
  | scratch (die : Nat) (word : Nat)
  | icache (core : Nat) (line : Nat)
  | tier1 (unit : Nat)
  | tier2 (unit : Nat)
  /-- a 64-byte unit of host memory that the host link gives with uncorrectable data (R99) -/
  | host (unit : Nat)
  deriving DecidableEq, Repr

/-- A representation tag with its descriptor, as a debugger writes it (R157, R158). -/
inductive DebugTag where
  | uni (v : W32)
  | aff (base stride : W32)
  | affLo (base stride : W64)
  | affHi (base stride : W64)
  | mat
  deriving DecidableEq, Repr

/-- What a debugger writes in a halted context (R395): registers, predicates, `fmt`, tags, and a word of a split-table entry in the layout of
R170. -/
inductive DebugTarget where
  | vreg (r : Fin 384) (lane : Nat) (val : W32)
  | kreg (r : Fin 64) (val : W64)
  | pred (p : Fin 16) (mask : Lanes)
  | predUni (p : Fin 16) (val : Bool)
  | predThr (p : Fin 16) (t : Nat) (below : Bool)
  | fmt (val : W32)
  | tag (r : Fin 384) (t : DebugTag)
  | entry (word : Nat) (val : W64)
  deriving DecidableEq, Repr

/-- A vector or k register destination, and nw, which suppresses its write (R218). -/
structure Dest (α : Type) where
  reg : α
  nw : Bool
  deriving DecidableEq, Repr

/-- The steps of the XK1, one constructor for each row of spec/opcode_table.json, in the table's order. -/
inductive Instr where
  -- control, span and system
  | nop (g : Guard)
  | bra (x : BraOp)
  | jmpDirect (target : BitVec 24)
  | jmpIndirect (k : Fin 64)
  | callDirect (target : BitVec 24)
  | callIndirect (k : Fin 64)
  | ret
  | loop (k : Fin 64) (target : BitVec 24)
  | join
  | exit (g : Guard)
  | region (r : VRange)
  | yield
  | brk (code : Byte) (g : Guard)
  | trap (code : Byte) (g : Guard)
  | eret
  | elect (pd : Fin 16) (g : Guard)
  | matchKeys (ty : IntTy) (d : Dest (Fin 384)) (a : Src) (g : Guard)
  | regroup (key : Src) (r : VRange)
  | launch (a : Src) (g : Guard)
  | wchild
  | bar (n : Fin 16)
  | shmap (d : Dest (Option (Fin 64))) (a : Option (Fin 64)) (r : VRange)
  | fwr (d : Dest (Fin 384)) (a : Src) (g : Guard)
  | frd (d : Dest (Fin 384)) (a : Fin 384) (g : Guard)
  | mat (d : Dest (Fin 384)) (wide : Bool)
  | rep (d : Dest (Fin 64)) (ofPred : Bool) (n : Fin 384)
  | halt (code : Byte) (g : Guard)
  | getsr (d : Dest (Fin 64)) (sr : SrName) (g : Guard)
  | setsr (sr : SrName) (a : Fin 64) (g : Guard)
  | tick (d : Dest (Fin 64)) (g : Guard)
  | tickS (d : Dest (Fin 64)) (g : Guard)
  | cpub (d : Dest (Option (Fin 64))) (g : Guard)
  | cinv (g : Guard)
  | tlbiVa (a : Fin 64) (b : Fin 64) (g : Guard)
  | tlbiTcid (b : Fin 64) (g : Guard)
  | tlbiAll (g : Guard)
  | pmap (d : Fin 64) (a : Fin 64) (g : Guard)
  | ctr (d : Dest (Fin 64)) (n : Fin 16) (g : Guard)
  | ctrClr (d : Dest (Fin 64)) (n : Fin 16) (g : Guard)
  -- integer, address, bit
  | add (x : Alu2)
  | sub (x : Alu2)
  | addc (x : CarryOp)
  | subb (x : CarryOp)
  | mul (x : Alu2)
  | mulh (x : Alu2)
  | mad (x : Alu3)
  | div (x : Alu2)
  | rem (x : Alu2)
  | min (x : Alu2)
  | max (x : Alu2)
  | abs (x : Alu1)
  | neg (x : Alu1)
  | sadd (x : Alu2)
  | ssub (x : Alu2)
  | lea (x : LeaOp)
  | and (x : Alu2)
  | or (x : Alu2)
  | xor (x : Alu2)
  | not (x : Alu1)
  | andn (x : Alu2)
  | shl (x : Alu2)
  | shr (x : Alu2)
  | sar (x : Alu2)
  | rol (x : Alu2)
  | ror (x : Alu2)
  | clz (x : Alu1)
  | ctz (x : Alu1)
  | ffs (x : Alu1)
  | popc (x : Alu1)
  | brev (x : Alu1)
  | bfx (x : Alu2)
  | bfi (x : Alu3)
  | sel (x : SelOp)
  | cmp (x : CmpOp)
  | mov (x : Alu1)
  | movi (x : MoviOp)
  | movk (x : MovkOp)
  | cvt (x : CvtOp)
  | pack (x : PackOp)
  | unpk (x : UnpkOp)
  | prm (x : Alu3)
  | dp4 (x : Dp4Op)
  -- predicates
  | pand (x : Pred2)
  | por (x : Pred2)
  | pxor (x : Pred2)
  | pnot (x : Pred1)
  | pmov (x : Pred1)
  | pset (x : PsetOp)
  | pcnt (x : PredK)
  | pfirst (x : PredK)
  -- floating point
  | fadd (x : F2)
  | fsub (x : F2)
  | fmul (x : F2)
  | fma (x : F3)
  | fmin (x : F2)
  | fmax (x : F2)
  | fabs (x : F1)
  | fneg (x : F1)
  | fcmp (x : FcmpOp)
  | fcvt (x : FcvtOp)
  | frnd (x : F1)
  | fclass (x : F1)
  | frcp (x : F1)
  | frsq (x : F1)
  | fsqrt (x : F1)
  | fex2 (x : F1)
  | flg2 (x : F1)
  | fsin (x : F1)
  | fcos (x : F1)
  | ftanh (x : F1)
  | fdiv (x : F2)
  | fscale (x : F2)
  -- cross-lane
  | shfl (x : PermOp)
  | bcast (x : PermOp)
  | slup (x : SlideOp)
  | sldn (x : SlideOp)
  | cmpr (x : CompactOp)
  | expd (x : CompactOp)
  | red (x : RedInstr)
  | scan (x : ScanInstr)
  | ballot (x : BallotOp)
  | vote (x : VoteOp)
  | topk (x : TopkOp)
  -- matrix contraction
  | fmt (x : FmtSrc) (g : Guard)
  | opa (x : OpaOp)
  | opc (x : SiteOp)
  | azero (x : TileOp)
  | areadRow (x : RowOp)
  | areadStatus (x : StatusOp)
  | awrtRow (x : RowOp)
  | awrtStatus (x : StatusOp)
  | ald (x : TileMem)
  | ast (x : TileMem)
  | afence
  | await (x : SiteOp)
  | apromCvt (x : PromOp)
  | apromScl (x : PromOp)
  -- local memory and synchronisation
  | lds (x : LdsOp)
  | sts (x : StsOp)
  | ldw (x : LdwOp)
  | stw (x : StwOp)
  | atom (x : AtomInstr)
  | cas (x : CasInstr)
  | fence (x : FenceOp)
  | wait (x : WaitOp)
  | push (lo hi : Fin 384)
  | pop (lo hi : Fin 384)
  | rmap (h : Fin 64) (g : Option (Fin 64)) (gd : Guard)
  | runmap (h : Fin 64) (g : Guard)
  | rwb (x : LinesOp)
  | rinv (x : LinesOp)
  | rfill (x : LinesOp)
  -- engines and expert queues
  | copy (x : DescOp)
  | gather (x : GatherOp)
  | scatter (x : GatherOp)
  | xatom (x : XatomOp)
  | coll (x : DescOp)
  | dred (x : DredInstr)
  | stash (x : DescOp)
  | seal (h : Fin 64)
  | qpush (x : QpushOp)
  | qfire (d : Option (Fin 64)) (a : Fin 64) (g : Guard)
  | qstat (d : Fin 64) (a : Fin 64) (g : Guard)
  | eslotGet (d : Fin 63) (a : Fin 64)
  | eslotReady (a : Fin 64)
  | eslotPut (a : Fin 64)
  | qcomb (x : QdescOp)
  | qdrain (x : QdescOp)
  -- events of the device
  | equinoxTick
  | issueArbitration (p : PartRef)
  | yieldExpiry (f : FragRef)
  | instructionFetch (core tcid : Nat) (line : VAddr)
  | loadDataReturn (f : FragRef)
  | stwPerformed (n : Nat)
  | tableWalkComplete (n : Nat)
  | lineFirstTouch (l : LineRef)
  | lineFillComplete (l : LineRef)
  | lineReplacement (die : Nat)
  | writeBackComplete (l : LineRef)
  | engineElementComplete (cmd n : Nat)
  | copyRowArrival (cmd row : Nat)
  | commandDecrement (ctx : Nat) (p : Path)
  | remoteAccessArrival (x : RemoteAccess)
  | remoteResponseArrival (request : Nat) (st : RemoteStatus) (data : List Byte)
  | collectiveContribution (x : CollMsg)
  | fenceCompletion (f : FragRef)
  | waitCompletion (f : FragRef)
  | wchildCompletion (f : FragRef)
  | fullEmptyRelease (f : FragRef)
  | shmapPairing (f : FragRef)
  | regroupCompletion (block : Nat)
  | regroupContextResident (ctx : Nat)
  | fragmentUnpark (f : FragRef)
  | contextResumption (f : FragRef)
  | geyserRequestStart (p : PartRef)
  | geyserGroupComplete (p : PartRef)
  | geyserRequestAgeing (p : PartRef)
  | contractionClosure (block : Nat) (tile : Fin 8) (strip : Nat) (site : Fin 16)
  | awaitCompletion (f : FragRef)
  | tlbiCompletion (n : Nat)
  | pmapCompletion (f : FragRef)
  | sealCompletion (f : FragRef)
  | childQueueRoom (f : FragRef)
  | eslotWaitRetry (f : FragRef)
  | qdrainEnqueue (f : FragRef)
  | launchActivation
  | launchQueueAgeing (q : Fin 64)
  | blockPlacement (die : Nat)
  | placementStarvation
  | allocationCleared (core : Nat)
  | contextDeparture (ctx : Nat)
  | blockRetire (block : Nat)
  | launchCompletion (seq : Nat)
  | phaseEnd (tcid : Nat)
  | queueAppend (n : Nat)
  | firingDecision (die : Nat)
  | preemptionBoundExpiry (ctx : Nat)
  | contextSave (block : Nat)
  | pcSample (p : PartRef)
  -- the mailbox
  | tailWrite (tail : W32) (slots : List (Nat × List W64))
  | noticesConsumedWrite (n : W32)
  | bar0OtherWrite (offset : Nat) (val : W64)
  | writeMemory
  | readMemory
  | launchCommand
  | preEmpt
  | resume
  | debuggerHalt
  | debuggerRead
  | translationContextEntry
  | invalidate
  | poolTail
  | parkAnswerResume
  | parkAnswerFail
  | queueEntry
  | classEntry
  | slotSetEntry
  | windowEntry
  | linkTables
  | collectiveGroup
  | areas
  | areaConsumedCount
  | regionCreate
  | regionFree
  | stashQuotas
  | invalidHandleCounterRead
  | dropCountRead
  | refusedCounterRead
  | lostCountRead
  | errorLogRead
  | errorLogRemove
  | recoveryImage
  | attestation
  | writePhysical
  | readPhysical
  | unknownCommand
  -- reset, power, debug port, links, errors
  | packageReset
  | thawEnd
  | powerLimitReached
  | powerLimitCleared
  | debugPortUnlock (sig : List Byte)
  | solsticeArm (at_ : Nat)
  | solsticeLatch
  | shadowRelease
  | equinoxStopArm (at_ : Nat)
  | equinoxStop
  | debugScanOut
  | ualinkPortDeath (port : Fin 16)
  | linkCrcRetry (port : Fin 16)
  | tier2LinkDown (port : Fin 8)
  | hostRangeReport (base size : Nat)
  | ill
  | hostLinkDeath
  | debuggerResume (ctx : Nat)
  | debuggerWrite (f : FragRef) (x : DebugTarget)
  | bitError (x : ErrPlace) (double : Bool)
  deriving DecidableEq, Repr

end Sys2Proof
end

