-- ==== Sys2Proof/WellFormed.lean ====
section
/-! DEFINITION. Which terms of Instr are instructions of the spec: what the field tables R239, R269, R292, R302 and
R312-R335 accept beyond the operand types of Syntax. A term that fails has no encoding of its own. -/

namespace Sys2Proof

/-! ### Types -/

def IntTy.anyTy (_ : IntTy) : Bool := true

/-- `.i32`, `.n32`, `.i64`, `.n64`: "32/64" of R269. -/
def IntTy.scalar : IntTy → Bool
  | .i32 => true | .n32 => true | .i64 => true | .n64 => true | _ => false

/-- 64-bit types, held in even/odd pairs (R183). -/
def IntTy.wide : IntTy → Bool
  | .i64 => true | .n64 => true | _ => false

/-- Signed types (R271). -/
def IntTy.signed : IntTy → Bool
  | .i32 => true | .i64 => true | .i16x2 => true | .i8x4 => true | _ => false

/-- The element width W (R193). -/
def IntTy.bits : IntTy → Nat
  | .i32 => 32 | .n32 => 32 | .i64 => 64 | .n64 => 64 | .i16x2 => 16 | .n16x2 => 16 | .i8x4 => 8 | .n8x4 => 8

/-- The element count. -/
def IntTy.elems : IntTy → Nat
  | .i16x2 => 2 | .n16x2 => 2 | .i8x4 => 4 | .n8x4 => 4 | _ => 1

def FTy.wide : FTy → Bool
  | .f64 => true | _ => false

/-- `.f32` and `.f64`. -/
def FTy.scalar : FTy → Bool
  | .f32 => true | .f64 => true | _ => false

/-- The types of `fex2`, `flg2`, `fsin`, `fcos`, `ftanh` (R292). -/
def FTy.special : FTy → Bool
  | .f64 => false | _ => true

def FTy.elems : FTy → Nat
  | .bf16x2 => 2 | .f16x2 => 2 | _ => 1

def NumTy.wide : NumTy → Bool
  | .int t => t.wide
  | .fp t => t.wide

def NumTy.elems : NumTy → Nat
  | .int t => t.elems
  | .fp t => t.elems

/-- The pairs of `cvt` (R284); `sat` is defined only between integer types (R283). -/
def cvtPair (s t : NumTy) (sat : Bool) : Bool :=
  match s, t with
  | .int a, .int b =>
    (a.scalar && b.scalar && a != b) ||
    (a == .i16x2 && b == .n16x2) || (a == .n16x2 && b == .i16x2) ||
    (a == .i8x4 && b == .n8x4) || (a == .n8x4 && b == .i8x4)
  | .int a, .fp b => !sat && ((a.scalar && b.scalar) || ((a == .i16x2 || a == .n16x2) && !b.scalar))
  | .fp a, .int b => !sat && ((a.scalar && b.scalar) || (!a.scalar && (b == .i16x2 || b == .n16x2)))
  | .fp _, .fp _ => false

/-- The destinations of `pack` that take four sources (R285). -/
def packWide (t : NumTy) : Bool := t == .int .i8x4 || t == .int .n8x4

/-- The pairs of `pack` (R285). -/
def packPair (s t : NumTy) (sat : Bool) : Bool :=
  match s, t with
  | .int a, .int b => (a == .i32 || a == .n32) && (b.elems == 2 || b.elems == 4)
  | .fp .f32, .fp b => !sat && !b.scalar
  | _, _ => false

/-- The pairs of `unpk` (R286). -/
def unpkPair (s t : NumTy) (sat : Bool) : Bool :=
  match s, t with
  | .int a, .int b => !a.scalar && (b == .i32 || b == .n32)
  | .fp a, .fp .f32 => !sat && !a.scalar
  | _, _ => false

/-- The pairs of `fcvt` (R297). -/
def fcvtPair (s t : FTy) : Bool :=
  match s, t with
  | .f32, .f64 => true
  | .f64, .f32 => true
  | .bf16x2, .f16x2 => true
  | .f16x2, .bf16x2 => true
  | _, _ => false

/-- The types an operation of `red` and `scan` accepts (R306). -/
def redOpTy (op : RedOp) (t : NumTy) : Bool :=
  match op, t with
  | .and, .fp _ => false
  | .or, .fp _ => false
  | .xor, .fp _ => false
  | _, _ => true

/-- The types of `atom` and `xatom` operations (R327). -/
def AtomOp.ok : AtomOp → Bool
  | .add t => t.scalar
  | .min t => t.scalar
  | .max t => t.scalar
  | .exch t => t.scalar
  | _ => true

def AtomOp.wide : AtomOp → Bool
  | .add t => t.wide | .min t => t.wide | .max t => t.wide | .exch t => t.wide
  | .and w => w | .or w => w | .xor w => w | .fadd w => w

/-- A source that `.quad` accepts: a vector register whose number is a multiple of 4 (R326). -/
def quadSrc : Src → Bool
  | .v n => n.val % 4 == 0
  | _ => false

/-- A format code of `fmt` that R315 accepts: not 0x5-0x7 and not 0xF. -/
def fmtCodeOk (c : Nat) : Bool := !(c == 5 || c == 6 || c == 7 || c == 15)

/-- A value that `fmt` accepts (R315). -/
def fmtValid (v : W32) : Bool :=
  v.extractLsb' 22 10 == 0#10 && fmtCodeOk (v.extractLsb' 0 4).toNat && fmtCodeOk (v.extractLsb' 4 4).toNat &&
  decide ((v.extractLsb' 15 3).toNat < 5) && decide ((v.extractLsb' 18 2).toNat < 2) &&
  decide ((v.extractLsb' 20 2).toNat < 2)

/-! ### Leading words and immediates -/

/-- z = 1 with p0 is illegal, and a rounding code needs an opcode that takes one (R226). -/
def leadOk (rmAny : Bool) : Option PfxL → Bool
  | none => true
  | some p => !(p.z && p.msk == 0) && (rmAny || p.rm == none)

/-- An immediate without the leading word is nine bits, sign-extended (R215, R228). -/
def imm9Ok (i : BitVec 16) : Bool := (i.extractLsb' 0 9).signExtend 16 == i

def bOk (b : BSrc) (p : Option PfxL) : Bool :=
  match b with
  | .reg _ => true
  | .imm i => p.isSome || imm9Ok i

/-- A displacement without the leading word is seven bits, sign-extended (R223, R228). -/
def dispOk (d : BitVec 14) (pfx : Bool) : Bool := pfx || (d.extractLsb' 0 7).signExtend 14 == d

def LOpt.wf (rmAny : Bool) (o : LOpt) : Bool := leadOk rmAny o.pfx

def Alu1.wf (x : Alu1) : Bool := x.o.wf false

def Alu2.wf (only : IntTy → Bool) (x : Alu2) : Bool := only x.ty && bOk x.b x.o.pfx && x.o.wf false

def Alu3.wf (only : IntTy → Bool) (x : Alu3) : Bool := only x.ty && bOk x.b x.o.pfx && x.o.wf false

def F1.wf (only : FTy → Bool) (x : F1) : Bool := only x.ty && x.o.wf true

def F2.wf (x : F2) : Bool := x.o.wf true

/-- Ranges are ascending and no longer than `n`. -/
def rangeOk (n : Nat) : VRange → Bool
  | none => true
  | some r => decide (r.1.val ≤ r.2.val) && decide (r.2.val - r.1.val + 1 ≤ n)

def MemAddr.wf (m : MemAddr) : Bool := dispOk m.disp m.pfx

def LdsOp.wf (x : LdsOp) : Bool := x.m.wf && (x.sz != .quad || x.d.val % 4 == 0)

def StsOp.wf (x : StsOp) : Bool := x.m.wf && (x.sz != .quad || quadSrc x.b)

def evenV : ASrc → Bool
  | .v n => n.val % 2 == 0
  | .k _ => true

/-- The terms that are instructions of the spec. An event row is always well formed. -/
def Instr.wellFormed : Instr → Bool
  | .region r => rangeOk 384 r
  | .matchKeys ty d _ _ => ty.scalar && d.reg.val % 2 == 0
  | .regroup key r => (match key with | .b _ => false | _ => true) && rangeOk 32 r
  | .shmap _ _ r => rangeOk 32 r
  | .rep _ pr n => !pr || decide (n.val < 16)
  | .add x => x.wf IntTy.anyTy
  | .sub x => x.wf IntTy.anyTy
  | .addc x => x.x.wf IntTy.scalar
  | .subb x => x.x.wf IntTy.scalar
  | .mul x => x.wf IntTy.anyTy
  | .mulh x => x.wf IntTy.anyTy
  | .mad x => x.wf IntTy.anyTy
  | .div x => x.wf IntTy.anyTy
  | .rem x => x.wf IntTy.anyTy
  | .min x => x.wf IntTy.anyTy
  | .max x => x.wf IntTy.anyTy
  | .abs x => x.wf
  | .neg x => x.wf
  | .sadd x => x.wf IntTy.anyTy
  | .ssub x => x.wf IntTy.anyTy
  | .lea x => x.x.wf IntTy.scalar && decide (x.sh.val < x.x.ty.bits)
  | .and x => x.wf IntTy.anyTy
  | .or x => x.wf IntTy.anyTy
  | .xor x => x.wf IntTy.anyTy
  | .not x => x.wf
  | .andn x => x.wf IntTy.anyTy
  | .shl x => x.wf IntTy.anyTy
  | .shr x => x.wf IntTy.anyTy
  | .sar x => x.wf IntTy.anyTy
  | .rol x => x.wf IntTy.anyTy
  | .ror x => x.wf IntTy.anyTy
  | .clz x => x.wf
  | .ctz x => x.wf
  | .ffs x => x.wf
  | .popc x => x.wf
  | .brev x => x.wf
  | .bfx x => x.wf IntTy.scalar
  | .bfi x => x.wf IntTy.scalar
  | .sel x => x.x.wf IntTy.anyTy
  | .cmp x => x.ty.scalar && bOk x.b x.pfx && leadOk false x.pfx
  | .mov x => x.wf
  | .cvt x => cvtPair x.src x.dst x.sat && x.o.wf true
  | .pack x => packPair x.src x.dst x.sat && bOk x.b x.o.pfx && x.o.wf true &&
      (if packWide x.dst then x.o.pfx.isSome else x.c == .zero && x.d4 == .zero)
  | .unpk x => unpkPair x.src x.dst x.sat && decide (x.e.val < x.src.elems) && x.o.wf false
  | .prm x => x.wf (fun t => t == .i32 || t == .n32)
  | .dp4 x => x.x.wf (fun t => t == .i8x4 || t == .n8x4) && decide (x.r.val ≤ 16)
  | .fadd x => x.wf
  | .fsub x => x.wf
  | .fmul x => x.wf
  | .fma x => x.o.wf true
  | .fmin x => x.wf
  | .fmax x => x.wf
  | .fabs x => x.wf (fun _ => true)
  | .fneg x => x.wf (fun _ => true)
  | .fcmp x => leadOk true x.pfx
  | .fcvt x => fcvtPair x.src x.dst && x.o.wf true
  | .frnd x => x.wf (fun _ => true)
  | .fclass x => x.wf (fun _ => true)
  | .frcp x => x.wf (fun _ => true)
  | .frsq x => x.wf (fun _ => true)
  | .fsqrt x => x.wf (fun _ => true)
  | .fex2 x => x.wf FTy.special
  | .flg2 x => x.wf FTy.special
  | .fsin x => x.wf FTy.special
  | .fcos x => x.wf FTy.special
  | .ftanh x => x.wf FTy.special
  | .fdiv x => x.wf
  | .fscale x => x.wf
  | .shfl x => x.ty.scalar && bOk x.b x.o.pfx && x.o.wf false
  | .bcast x => x.ty.scalar && bOk x.b x.o.pfx && x.o.wf false
  | .slup x => x.ty.scalar && x.o.wf false &&
      (match x.b with | .k _ => true | .imm i => x.o.pfx.isSome || imm9Ok i)
  | .sldn x => x.ty.scalar && x.o.wf false &&
      (match x.b with | .k _ => true | .imm i => x.o.pfx.isSome || imm9Ok i)
  | .cmpr x => x.ty.scalar && x.o.wf false
  | .expd x => x.ty.scalar && x.o.wf false
  | .red x => redOpTy x.op x.ty && x.o.wf (match x.ty with | .int _ => false | .fp _ => true)
  | .scan x => redOpTy x.op x.ty && x.o.wf (match x.ty with | .int _ => false | .fp _ => true)
  | .ballot x => evenV x.d && x.o.wf false
  | .vote x => leadOk false x.pfx
  | .topk x => x.d != x.vi && x.o.wf false
  | .fmt (.imm i) _ => fmtValid i
  | .opa x => (match x.e with | .idx => false | .bidx => false | .iidx => false | .lane => false | _ => true)
  | .ald x => dispOk x.disp x.pfx
  | .ast x => dispOk x.disp x.pfx
  | .lds x => x.wf
  | .sts x => x.wf
  | .ldw x => x.x.wf
  | .stw x => x.x.wf
  | .atom x => x.op.ok && x.m.wf
  | .cas x => x.ty.scalar && x.m.pfx
  | .push lo hi => rangeOk 32 (some (lo, hi))
  | .pop lo hi => rangeOk 32 (some (lo, hi))
  | .gather x => x.ty.scalar
  | .scatter x => x.ty.scalar
  | .xatom x => x.op.ok && evenV x.a && (!x.rel || x.scope == .dev || x.scope == .pod)
  | .dred x => evenV x.a
  | .qpush x => x.b.val % 4 == 0
  | _ => true

/-- The rows that are instructions, each with an encoding; the others are events. -/
def Instr.isEvent : Instr → Bool
  | .equinoxTick => true | .issueArbitration _ => true | .yieldExpiry _ => true | .instructionFetch _ _ _ => true
  | .loadDataReturn _ => true | .stwPerformed _ => true | .tableWalkComplete _ => true | .lineFirstTouch _ => true
  | .lineFillComplete _ => true | .lineReplacement _ => true | .writeBackComplete _ => true
  | .engineElementComplete _ _ => true | .copyRowArrival _ _ => true | .commandDecrement _ _ => true
  | .remoteAccessArrival _ => true | .remoteResponseArrival _ _ _ => true | .collectiveContribution _ => true
  | .fenceCompletion _ => true | .waitCompletion _ => true | .wchildCompletion _ => true | .fullEmptyRelease _ => true
  | .shmapPairing _ => true | .regroupCompletion _ => true | .regroupContextResident _ => true
  | .fragmentUnpark _ => true | .contextResumption _ => true | .geyserRequestStart _ => true
  | .geyserGroupComplete _ => true | .geyserRequestAgeing _ => true | .contractionClosure _ _ _ _ => true
  | .awaitCompletion _ => true | .tlbiCompletion _ => true | .pmapCompletion _ => true | .sealCompletion _ => true
  | .childQueueRoom _ => true | .eslotWaitRetry _ => true | .qdrainEnqueue _ => true | .launchActivation => true
  | .launchQueueAgeing _ => true | .blockPlacement _ => true | .placementStarvation => true | .allocationCleared _ => true
  | .contextDeparture _ => true | .blockRetire _ => true | .launchCompletion _ => true | .phaseEnd _ => true
  | .queueAppend _ => true | .firingDecision _ => true | .preemptionBoundExpiry _ => true | .contextSave _ => true
  | .pcSample _ => true | .tailWrite _ _ => true | .noticesConsumedWrite _ => true | .bar0OtherWrite _ _ => true
  | .writeMemory => true | .readMemory => true | .launchCommand => true | .preEmpt => true | .resume => true
  | .debuggerHalt => true | .debuggerRead => true | .translationContextEntry => true | .invalidate => true
  | .poolTail => true | .parkAnswerResume => true | .parkAnswerFail => true | .queueEntry => true | .classEntry => true
  | .slotSetEntry => true | .windowEntry => true | .linkTables => true | .collectiveGroup => true | .areas => true
  | .areaConsumedCount => true | .regionCreate => true | .regionFree => true | .stashQuotas => true
  | .invalidHandleCounterRead => true | .dropCountRead => true | .refusedCounterRead => true | .lostCountRead => true
  | .errorLogRead => true | .errorLogRemove => true | .recoveryImage => true | .attestation => true
  | .writePhysical => true | .readPhysical => true | .unknownCommand => true | .packageReset => true | .thawEnd => true
  | .powerLimitReached => true | .powerLimitCleared => true | .debugPortUnlock _ => true | .solsticeArm _ => true
  | .solsticeLatch => true | .shadowRelease => true | .equinoxStopArm _ => true | .equinoxStop => true
  | .debugScanOut => true | .ualinkPortDeath _ => true | .linkCrcRetry _ => true | .tier2LinkDown _ => true
  | .hostRangeReport _ _ => true | .ill => true | .hostLinkDeath => true | .debuggerResume _ => true
  | .debuggerWrite _ _ => true | .bitError _ _ => true
  | _ => false

end Sys2Proof
end

