-- ==== Sys2Proof/Machine/Bits.lean ====
section
/-! DEFINITION. Bit fields, sign extension, byte order and the integer arithmetic of one element (R193, R208, R209,
R271-R279, R284-R288). An element is a natural number below 2^W. -/

namespace Sys2Proof.Machine

open Sys2Proof

/-! ### Bits of natural numbers -/

/-- Bits [hi:lo] of x. -/
def bitsN (x lo n : Nat) : Nat := x / 2 ^ lo % 2 ^ n

/-- Bit i of x. -/
def bitN (x i : Nat) : Bool := x / 2 ^ i % 2 == 1

/-- The signed reading of a W-bit number. -/
def sgnN (w x : Nat) : Int := if 2 * (x % 2 ^ w) < 2 ^ w then ((x % 2 ^ w : Nat) : Int) else ((x % 2 ^ w : Nat) : Int) - 2 ^ w

/-- An integer modulo 2^W. -/
def wrapN (w : Nat) (z : Int) : Nat := (z % (2 ^ w : Int)).toNat

/-- Little-endian bytes to a number (R210). -/
def natOfBytes : List Byte → Nat
  | [] => 0
  | b :: bs => b.toNat + 256 * natOfBytes bs

/-- The low n bytes of a number, lowest first. -/
def bytesN : Nat → Nat → List Byte
  | 0, _ => []
  | n + 1, x => BitVec.ofNat 8 x :: bytesN n (x / 256)

/-! ### Elements of a packed value (R193) -/

/-- Element j of width w. -/
def elemN (w j x : Nat) : Nat := bitsN x (w * j) w

/-- Elements 0, 1, … put side by side. -/
def joinN (w : Nat) : List Nat → Nat
  | [] => 0
  | x :: xs => x % 2 ^ w + 2 ^ w * joinN w xs

/-- One operand, every element. -/
def mapE1 (w n : Nat) (f : Nat → Nat) (a : Nat) : Nat :=
  joinN w ((List.range n).map fun j => f (elemN w j a))

/-- Two operands, every element. -/
def mapE2 (w n : Nat) (f : Nat → Nat → Nat) (a b : Nat) : Nat :=
  joinN w ((List.range n).map fun j => f (elemN w j a) (elemN w j b))

/-- Three operands, every element. -/
def mapE3 (w n : Nat) (f : Nat → Nat → Nat → Nat) (a b c : Nat) : Nat :=
  joinN w ((List.range n).map fun j => f (elemN w j a) (elemN w j b) (elemN w j c))

def int1 (t : IntTy) (f : Nat → Nat) (a : W64) : W64 := BitVec.ofNat 64 (mapE1 t.bits t.elems f a.toNat)
def int2 (t : IntTy) (f : Nat → Nat → Nat) (a b : W64) : W64 := BitVec.ofNat 64 (mapE2 t.bits t.elems f a.toNat b.toNat)
def int3 (t : IntTy) (f : Nat → Nat → Nat → Nat) (a b c : W64) : W64 :=
  BitVec.ofNat 64 (mapE3 t.bits t.elems f a.toNat b.toNat c.toNat)

/-- The value of an element by the signedness of its type (R271). -/
def readN (t : IntTy) (x : Nat) : Int := if t.signed then sgnN t.bits x else ((x % 2 ^ t.bits : Nat) : Int)

/-- The range of a type. -/
def minOf (t : IntTy) : Int := if t.signed then -(2 ^ (t.bits - 1) : Int) else 0
def maxOf (t : IntTy) : Int := if t.signed then 2 ^ (t.bits - 1) - 1 else 2 ^ t.bits - 1

/-- Clamp to the range of a type, as an element (R271, R283). -/
def clampN (t : IntTy) (z : Int) : Nat :=
  wrapN t.bits (if z < minOf t then minOf t else if maxOf t < z then maxOf t else z)

/-! ### R271 to R279 -/

def addE (t : IntTy) (a b : Nat) : Nat := (a + b) % 2 ^ t.bits
def subE (t : IntTy) (a b : Nat) : Nat := wrapN t.bits ((a : Int) - b)
def minE (t : IntTy) (a b : Nat) : Nat := if readN t a ≤ readN t b then a else b
def maxE (t : IntTy) (a b : Nat) : Nat := if readN t b ≤ readN t a then a else b
def absE (t : IntTy) (a : Nat) : Nat := wrapN t.bits (readN t a).natAbs
def negE (t : IntTy) (a : Nat) : Nat := wrapN t.bits (-(a : Int))
def saddE (t : IntTy) (a b : Nat) : Nat := clampN t (readN t a + readN t b)
def ssubE (t : IntTy) (a b : Nat) : Nat := clampN t (readN t a - readN t b)
def mulE (t : IntTy) (a b : Nat) : Nat := a * b % 2 ^ t.bits
def mulhE (t : IntTy) (a b : Nat) : Nat := wrapN t.bits (readN t a * readN t b / (2 ^ t.bits : Int))
def madE (t : IntTy) (a b c : Nat) : Nat := (a * b + c) % 2 ^ t.bits

/-- Division rounds toward zero; a zero divisor gives every bit set (R209). -/
def divE (t : IntTy) (a b : Nat) : Nat :=
  if b % 2 ^ t.bits = 0 then 2 ^ t.bits - 1 else wrapN t.bits ((readN t a).tdiv (readN t b))

/-- The remainder has the sign of the dividend; a zero divisor gives the dividend (R209). -/
def remE (t : IntTy) (a b : Nat) : Nat :=
  if b % 2 ^ t.bits = 0 then a else wrapN t.bits ((readN t a).tmod (readN t b))

def leaE (t : IntTy) (sh a b : Nat) : Nat := (a + b * 2 ^ sh) % 2 ^ t.bits

def andE (_ : IntTy) (a b : Nat) : Nat := a &&& b
def orE (_ : IntTy) (a b : Nat) : Nat := a ||| b
def xorE (_ : IntTy) (a b : Nat) : Nat := a ^^^ b
def notE (t : IntTy) (a : Nat) : Nat := 2 ^ t.bits - 1 - a % 2 ^ t.bits
def andnE (t : IntTy) (a b : Nat) : Nat := a &&& notE t b

/-- Shift counts are taken modulo W (R277). -/
def shlE (t : IntTy) (a b : Nat) : Nat := a * 2 ^ (b % t.bits) % 2 ^ t.bits
def shrE (t : IntTy) (a b : Nat) : Nat := a / 2 ^ (b % t.bits)
def sarE (t : IntTy) (a b : Nat) : Nat := wrapN t.bits (sgnN t.bits a / (2 ^ (b % t.bits) : Int))
def rolE (t : IntTy) (a b : Nat) : Nat :=
  (a * 2 ^ (b % t.bits) + a / 2 ^ (t.bits - b % t.bits)) % 2 ^ t.bits
def rorE (t : IntTy) (a b : Nat) : Nat :=
  (a / 2 ^ (b % t.bits) + a * 2 ^ (t.bits - b % t.bits)) % 2 ^ t.bits

/-- Positions of the set bits of an element, ascending. -/
def setBits (w x : Nat) : List Nat := (List.range w).filter fun i => bitN x i

def clzE (t : IntTy) (a : Nat) : Nat :=
  match (setBits t.bits a).getLast? with
  | some i => t.bits - 1 - i
  | none => t.bits
def ctzE (t : IntTy) (a : Nat) : Nat :=
  match (setBits t.bits a).head? with
  | some i => i
  | none => t.bits
def ffsE (t : IntTy) (a : Nat) : Nat :=
  match (setBits t.bits a).head? with
  | some i => i + 1
  | none => 0
def popcE (t : IntTy) (a : Nat) : Nat := (setBits t.bits a).length
def brevE (t : IntTy) (a : Nat) : Nat :=
  joinN 1 ((List.range t.bits).map fun i => bitsN a (t.bits - 1 - i) 1)

/-- Bit field extraction (R279). -/
def bfxE (t : IntTy) (a b : Nat) : Nat :=
  let p := b % 256
  let l := b / 256 % 256
  if l = 0 ∨ t.bits ≤ p then 0
  else
    let lp := Nat.min l (t.bits - p)
    let f := bitsN a p lp
    if t.signed then wrapN t.bits (sgnN lp f) else f

/-- Bit field insertion (R279). -/
def bfiE (t : IntTy) (a b c : Nat) : Nat :=
  let p := b % 256
  let l := b / 256 % 256
  if l = 0 ∨ t.bits ≤ p then a
  else
    let lp := Nat.min l (t.bits - p)
    let m := (2 ^ lp - 1) * 2 ^ p
    (a - (a &&& m)) + (c * 2 ^ p &&& m)

/-! ### Permutation, dot product, narrowing -/

/-- `prm` (R287): nibbles of the pool b:a chosen by the eight selectors of c. -/
def prmW (a b c : W64) : W64 :=
  let pool := a.toNat % 2 ^ 32 + 2 ^ 32 * (b.toNat % 2 ^ 32)
  BitVec.ofNat 64 (joinN 4 ((List.range 8).map fun k => bitsN pool (4 * bitsN c.toNat (4 * k) 4) 4))

/-- `dp4` (R288): the exact dot product, scaled down with rounding half up, added to c. -/
def dp4W (t : IntTy) (r : Nat) (sat : Bool) (a b c : W64) : W64 :=
  let s : Int := ((List.range 4).map fun j => readN t (elemN 8 j a.toNat) * readN t (elemN 8 j b.toNat)).foldl (· + ·) 0
  let q : Int := if r = 0 then s else (s + 2 ^ (r - 1)) / (2 ^ r : Int)
  let acc : IntTy := if t.signed then .i32 else .n32
  let d := readN acc c.toNat + q
  BitVec.ofNat 64 (if sat then clampN acc d else wrapN 32 d)

/-- An integer of source type `s` as an element of `t`: clamped with sat, else modulo 2^W (R284). -/
def narrowE (s t : IntTy) (sat : Bool) (x : Nat) : Nat :=
  if sat then clampN t (readN s x) else wrapN t.bits (readN s x)

end Sys2Proof.Machine
end

