-- ==== Sys2Proof/Decode.lean ====
section
/-! DEFINITION. The decoder, total on any words and rejecting by name, and after it the encoder, both written from
the format tables R214-R228 and the field tables R239, R269, R292, R302, R315-R335. -/

namespace Sys2Proof

/-- Why a word sequence is not an instruction (R230). Every one of them is the illegal-instruction trap. -/
inductive Reject where
  /-- fewer words than the instruction needs -/
  | truncated
  /-- two leading words in a row (R211) -/
  | doubleLead
  /-- an unassigned base opcode, 0x00 included (R229) -/
  | opcode
  /-- a leading word before an opcode that R226 does not list -/
  | leadNotAccepted
  /-- a field of the leading word that R226 does not allow -/
  | leadField
  /-- a nonzero undefined modifier bit (R215) -/
  | modifierBits
  /-- an unused field not at its neutral value -/
  | unusedField
  /-- an operand code that the entry does not accept (R216) -/
  | operand
  /-- a type code that the entry does not accept (R219) -/
  | typeCode
  /-- nw on an instruction without a destination register (R218) -/
  | noWrite
  /-- a guard other than p0 where the entry wants p0 (R238) -/
  | guardField
  /-- a reserved operation, order, scope, rounding or relation code -/
  | code
  /-- a register range against the entry's rule -/
  | range
  /-- a format-B field outside R221 -/
  | formatB
  deriving DecidableEq, Repr

/-- The leading word (R225). -/
structure WP where
  ext : BitVec 7
  d4 : BitVec 9
  rm : BitVec 3
  z : BitVec 1
  msk : BitVec 4
  deriving DecidableEq, Repr

/-- Format R (R214). -/
structure WR where
  modi : BitVec 11
  ty : BitVec 3
  neg : BitVec 1
  gd : BitVec 4
  c : BitVec 9
  b : BitVec 9
  a : BitVec 9
  d : BitVec 9
  nw : BitVec 1
  op : BitVec 8
  deriving DecidableEq, Repr

/-- Format I (R220). -/
structure WI where
  imm : BitVec 32
  neg : BitVec 1
  gd : BitVec 4
  a : BitVec 9
  d : BitVec 9
  nw : BitVec 1
  op : BitVec 8
  deriving DecidableEq, Repr

/-- Format B (R221). -/
structure WB where
  kind : BitVec 2
  reconv : BitVec 24
  target : BitVec 24
  hint : BitVec 1
  neg : BitVec 1
  pred : BitVec 4
  op : BitVec 8
  deriving DecidableEq, Repr

/-- Format M (R222). -/
structure WM where
  tile : BitVec 3
  site : BitVec 4
  scope : BitVec 1
  ymode : BitVec 1
  ysel : BitVec 2
  xmode : BitVec 1
  xsel : BitVec 2
  e : BitVec 9
  n1 : BitVec 5
  y : BitVec 9
  m1 : BitVec 5
  x : BitVec 9
  neg : BitVec 1
  gd : BitVec 4
  op : BitVec 8
  deriving DecidableEq, Repr

/-- Format E (R223). -/
structure WE where
  disp : BitVec 7
  h : BitVec 6
  scope : BitVec 3
  order : BitVec 2
  eop : BitVec 3
  size : BitVec 3
  neg : BitVec 1
  gd : BitVec 4
  b : BitVec 9
  a : BitVec 9
  d : BitVec 9
  op : BitVec 8
  deriving DecidableEq, Repr

/-- A base instruction in its format's fields. -/
inductive Base where
  | r (w : WR)
  | i (w : WI)
  | b (w : WB)
  | m (w : WM)
  | e (w : WE)
  deriving DecidableEq, Repr

/-- The formats. -/
inductive Fmt where
  | r | i | b | m | e
  deriving DecidableEq, Repr

/-- The opcode map (R229): the opcode alone fixes the format. -/
def formatOf (op : Nat) : Option Fmt :=
  if op = 0 then none
  else if op = 2 ∨ op = 3 ∨ op = 4 ∨ op = 6 then some .b
  else if op ≤ 0x21 then some .r
  else if op < 0x30 then none
  else if op = 0x54 ∨ op = 0x55 then some .i
  else if op ≤ 0x5A then some .r
  else if op < 0x60 then none
  else if op ≤ 0x67 then some .r
  else if op < 0x70 then none
  else if op ≤ 0x85 then some .r
  else if op < 0x90 then none
  else if op ≤ 0x9A then some .r
  else if op < 0xA0 then none
  else if op = 0xA0 then some .i
  else if op = 0xA6 ∨ op = 0xA7 then some .e
  else if op ≤ 0xAA then some .m
  else if op < 0xB0 then none
  else if op ≤ 0xB5 then some .e
  else if op ≤ 0xB9 then some .r
  else if op ≤ 0xBE then some .e
  else if op < 0xC0 then none
  else if op ≤ 0xC7 then some .e
  else if op < 0xD0 then none
  else if op ≤ 0xD5 then some .e
  else none

/-! ### Fields to words and back -/

def WP.pack (w : WP) : BitVec 32 := w.ext ++ w.d4 ++ w.rm ++ w.z ++ w.msk ++ 0xF0#8

def WP.unpack (v : BitVec 32) : WP where
  ext := v.extractLsb' 25 7
  d4 := v.extractLsb' 16 9
  rm := v.extractLsb' 13 3
  z := v.extractLsb' 12 1
  msk := v.extractLsb' 8 4

def WR.pack (w : WR) : BitVec 64 :=
  w.modi ++ w.ty ++ w.neg ++ w.gd ++ w.c ++ w.b ++ w.a ++ w.d ++ w.nw ++ w.op

def WR.unpack (v : BitVec 64) : WR where
  modi := v.extractLsb' 53 11
  ty := v.extractLsb' 50 3
  neg := v.extractLsb' 49 1
  gd := v.extractLsb' 45 4
  c := v.extractLsb' 36 9
  b := v.extractLsb' 27 9
  a := v.extractLsb' 18 9
  d := v.extractLsb' 9 9
  nw := v.extractLsb' 8 1
  op := v.extractLsb' 0 8

def WI.pack (w : WI) : BitVec 64 := w.imm ++ w.neg ++ w.gd ++ w.a ++ w.d ++ w.nw ++ w.op

def WI.unpack (v : BitVec 64) : WI where
  imm := v.extractLsb' 32 32
  neg := v.extractLsb' 31 1
  gd := v.extractLsb' 27 4
  a := v.extractLsb' 18 9
  d := v.extractLsb' 9 9
  nw := v.extractLsb' 8 1
  op := v.extractLsb' 0 8

def WB.pack (w : WB) : BitVec 64 :=
  w.kind ++ w.reconv ++ w.target ++ w.hint ++ w.neg ++ w.pred ++ w.op

def WB.unpack (v : BitVec 64) : WB where
  kind := v.extractLsb' 62 2
  reconv := v.extractLsb' 38 24
  target := v.extractLsb' 14 24
  hint := v.extractLsb' 13 1
  neg := v.extractLsb' 12 1
  pred := v.extractLsb' 8 4
  op := v.extractLsb' 0 8

def WM.pack (w : WM) : BitVec 64 :=
  w.tile ++ w.site ++ w.scope ++ w.ymode ++ w.ysel ++ w.xmode ++ w.xsel ++ w.e ++ w.n1 ++ w.y ++
    w.m1 ++ w.x ++ w.neg ++ w.gd ++ w.op

def WM.unpack (v : BitVec 64) : WM where
  tile := v.extractLsb' 61 3
  site := v.extractLsb' 57 4
  scope := v.extractLsb' 56 1
  ymode := v.extractLsb' 55 1
  ysel := v.extractLsb' 53 2
  xmode := v.extractLsb' 52 1
  xsel := v.extractLsb' 50 2
  e := v.extractLsb' 41 9
  n1 := v.extractLsb' 36 5
  y := v.extractLsb' 27 9
  m1 := v.extractLsb' 22 5
  x := v.extractLsb' 13 9
  neg := v.extractLsb' 12 1
  gd := v.extractLsb' 8 4
  op := v.extractLsb' 0 8

def WE.pack (w : WE) : BitVec 64 :=
  w.disp ++ w.h ++ w.scope ++ w.order ++ w.eop ++ w.size ++ w.neg ++ w.gd ++ w.b ++ w.a ++ w.d ++ w.op

def WE.unpack (v : BitVec 64) : WE where
  disp := v.extractLsb' 57 7
  h := v.extractLsb' 51 6
  scope := v.extractLsb' 48 3
  order := v.extractLsb' 46 2
  eop := v.extractLsb' 43 3
  size := v.extractLsb' 40 3
  neg := v.extractLsb' 39 1
  gd := v.extractLsb' 35 4
  b := v.extractLsb' 26 9
  a := v.extractLsb' 17 9
  d := v.extractLsb' 8 9
  op := v.extractLsb' 0 8

def Base.pack : Base → BitVec 64
  | .r w => w.pack
  | .i w => w.pack
  | .b w => w.pack
  | .m w => w.pack
  | .e w => w.pack

def Base.unpack (f : Fmt) (v : BitVec 64) : Base :=
  match f with
  | .r => .r (WR.unpack v)
  | .i => .i (WI.unpack v)
  | .b => .b (WB.unpack v)
  | .m => .m (WM.unpack v)
  | .e => .e (WE.unpack v)

/-! ### Operand fields -/

abbrev Dec (α : Type) := Except Reject α

/-- `ok` or the rejection. -/
def need (c : Bool) (r : Reject) : Dec Unit := if c then .ok () else .error r

def bit1 (b : Bool) : BitVec 1 := BitVec.ofBool b
def isSet (b : BitVec 1) : Bool := b == 1#1

/-- A source operand (R216). -/
def decSrc (c : BitVec 9) : Dec Src :=
  if h : c.toNat < 384 then .ok (.v ⟨c.toNat, h⟩)
  else if h : c.toNat - 384 < 64 then .ok (.k ⟨c.toNat - 384, h⟩)
  else if h : c.toNat - 448 < 4 then .ok (.b ⟨c.toNat - 448, h⟩)
  else if c.toNat = 452 then .ok .zero
  else if c.toNat = 453 then .ok .idx
  else if c.toNat = 454 then .ok .bidx
  else if c.toNat = 455 then .ok .iidx
  else if c.toNat = 456 then .ok .lane
  else .error .operand

def encSrc : Src → BitVec 9
  | .v n => BitVec.ofNat 9 n.val
  | .k n => BitVec.ofNat 9 (384 + n.val)
  | .b n => BitVec.ofNat 9 (448 + n.val)
  | .zero => 452#9
  | .idx => 453#9
  | .bidx => 454#9
  | .iidx => 455#9
  | .lane => 456#9

/-- A destination operand (R216). -/
def decDst (c : BitVec 9) : Dec Dst :=
  if h : c.toNat < 384 then .ok (.v ⟨c.toNat, h⟩)
  else if h : c.toNat - 384 < 64 then .ok (.k ⟨c.toNat - 384, h⟩)
  else if c.toNat = 452 then .ok .zero
  else .error .operand

def encDst : Dst → BitVec 9
  | .v n => BitVec.ofNat 9 n.val
  | .k n => BitVec.ofNat 9 (384 + n.val)
  | .zero => 452#9

def decV (c : BitVec 9) : Dec (Fin 384) :=
  if h : c.toNat < 384 then .ok ⟨c.toNat, h⟩ else .error .operand

def encV (n : Fin 384) : BitVec 9 := BitVec.ofNat 9 n.val

/-- A k register: 384 to 447 only. -/
def decK (c : BitVec 9) : Dec (Fin 64) :=
  if h : 384 ≤ c.toNat ∧ c.toNat - 384 < 64 then .ok ⟨c.toNat - 384, h.2⟩ else .error .operand

def encK (n : Fin 64) : BitVec 9 := BitVec.ofNat 9 (384 + n.val)

/-- A k register, or 452 for none. -/
def decKOpt (c : BitVec 9) : Dec (Option (Fin 64)) :=
  if h : 384 ≤ c.toNat ∧ c.toNat - 384 < 64 then .ok (some ⟨c.toNat - 384, h.2⟩)
  else if c.toNat = 452 then .ok none else .error .operand

def encKOpt : Option (Fin 64) → BitVec 9
  | some n => encK n
  | none => 452#9

/-- A vector register, or 452 for none. -/
def decVOpt (c : BitVec 9) : Dec (Option (Fin 384)) :=
  if h : c.toNat < 384 then .ok (some ⟨c.toNat, h⟩)
  else if c.toNat = 452 then .ok none else .error .operand

def encVOpt : Option (Fin 384) → BitVec 9
  | some n => encV n
  | none => 452#9

/-- A vector register or a k register; the vector register even where `even` says so. -/
def decVK (even : Bool) (c : BitVec 9) : Dec ASrc :=
  if h : c.toNat < 384 then
    if even && c.toNat % 2 == 1 then .error .operand else .ok (.v ⟨c.toNat, h⟩)
  else if h : c.toNat - 384 < 64 then .ok (.k ⟨c.toNat - 384, h⟩)
  else .error .operand

def encVK : ASrc → BitVec 9
  | .v n => encV n
  | .k n => encK n

/-- A predicate field: 0 to 15 (R216). -/
def decP (c : BitVec 9) : Dec (Fin 16) :=
  if h : c.toNat < 16 then .ok ⟨c.toNat, h⟩ else .error .operand

def encP (n : Fin 16) : BitVec 9 := BitVec.ofNat 9 n.val

/-- A predicate field or 452 (R302). -/
def decPOpt (c : BitVec 9) : Dec (Option (Fin 16)) :=
  if h : c.toNat < 16 then .ok (some ⟨c.toNat, h⟩)
  else if c.toNat = 452 then .ok none else .error .operand

def encPOpt : Option (Fin 16) → BitVec 9
  | some n => encP n
  | none => 452#9

/-- An unused operand field holds 452 (R215). -/
def unusedOp (c : BitVec 9) : Dec Unit := need (c == 452#9) .unusedField

def fin16 (p : BitVec 4) : Fin 16 := p.toFin
def fin8 (p : BitVec 3) : Fin 8 := p.toFin
def fin32 (p : BitVec 5) : Fin 32 := p.toFin
def fin4 (p : BitVec 2) : Fin 4 := p.toFin
def fin64 (p : BitVec 6) : Fin 64 := p.toFin
def bits4 (p : Fin 16) : BitVec 4 := BitVec.ofFin p
def bits3 (p : Fin 8) : BitVec 3 := BitVec.ofFin p
def bits5 (p : Fin 32) : BitVec 5 := BitVec.ofFin p
def bits2 (p : Fin 4) : BitVec 2 := BitVec.ofFin p
def bits6 (p : Fin 64) : BitVec 6 := BitVec.ofFin p

def guardOf (gd : BitVec 4) (neg : BitVec 1) : Guard := ⟨fin16 gd, isSet neg⟩

/-- The guard must be p0 with negate 0 (R238). -/
def guardP0 (gd : BitVec 4) (neg : BitVec 1) : Dec Unit := need (gd == 0#4 && neg == 0#1) .guardField

/-- Rounding codes (R198); 0b111 takes the mode from `fmt` (R225). -/
def decRm (c : BitVec 3) : Dec (Option Rm) :=
  match c.toNat with
  | 0 => .ok (some .rne)
  | 1 => .ok (some .rz)
  | 2 => .ok (some .ru)
  | 3 => .ok (some .rd)
  | 4 => .ok (some .rna)
  | 7 => .ok none
  | _ => .error .leadField

def encRm : Option Rm → BitVec 3
  | some .rne => 0#3
  | some .rz => 1#3
  | some .ru => 2#3
  | some .rd => 3#3
  | some .rna => 4#3
  | none => 7#3

/-- The leading word of a slot-L instruction (R226): `rmAny` where any rounding code is allowed, `d4Any` where the entry
names a fourth source, `extAny` where ib = 1. -/
def decLead (rmAny d4Any extAny : Bool) (p : Option WP) : Dec (Option PfxL) :=
  match p with
  | none => .ok none
  | some w => do
    need (!(isSet w.z && w.msk == 0#4)) .leadField
    let rm ← decRm w.rm
    need (rmAny || rm == none) .leadField
    need (d4Any || w.d4 == 452#9) .leadField
    need (extAny || w.ext == 0#7) .leadField
    .ok (some ⟨fin16 w.msk, isSet w.z, rm⟩)

def encLead (d4 : BitVec 9) (ext : BitVec 7) : Option PfxL → Option WP
  | none => none
  | some p => some ⟨ext, d4, encRm p.rm, bit1 p.z, bits4 p.msk⟩

/-- Guard, nw and leading word of a slot-L instruction. DESIGN CHOICE (log 109): nw = 1 with destination 452 is accepted, since the
instruction is one that writes a vector or k register and R218 does not say whether the discard code counts as one. -/
def decOpt (rmAny d4Any extAny : Bool) (w : WR) (p : Option WP) : Dec LOpt := do
  let l ← decLead rmAny d4Any extAny p
  .ok ⟨guardOf w.gd w.neg, isSet w.nw, l⟩

/-- No leading word (R226). -/
def noLead (p : Option WP) : Dec Unit := need p.isNone .leadNotAccepted

def noNw (w : WR) : Dec Unit := need (w.nw == 0#1) .noWrite

/-- Only the modifier bits of `mask` may be set (R215). -/
def modMask (w : WR) (mask : BitVec 11) : Dec Unit := need (w.modi &&& ~~~ mask == 0#11) .modifierBits

def ibSet (w : WR) : Bool := w.modi.getLsbD 10

/-- The ib immediate: sext(b) without, ext:b with the leading word (R215, R228). -/
def immOf (w : WR) (p : Option WP) : BitVec 16 :=
  match p with
  | none => w.b.signExtend 16
  | some l => l.ext ++ w.b

def decB (w : WR) (p : Option WP) : Dec BSrc :=
  if ibSet w then .ok (.imm (immOf w p)) else do
    let s ← decSrc w.b
    .ok (.reg s)

/-- The b field of a b operand. -/
def encB : BSrc → BitVec 9
  | .reg s => encSrc s
  | .imm i => i.extractLsb' 0 9

/-- The ext field that a b operand gives the leading word. -/
def extB : BSrc → BitVec 7
  | .reg _ => 0#7
  | .imm i => i.extractLsb' 9 7

def isImm : BSrc → Bool
  | .reg _ => false
  | .imm _ => true

/-- Integer types (R219). -/
def intTyOf (c : BitVec 3) : IntTy :=
  match c.toNat with
  | 0 => .i32 | 1 => .n32 | 2 => .i64 | 3 => .n64 | 4 => .i16x2 | 5 => .n16x2 | 6 => .i8x4 | _ => .n8x4

def encIntTy : IntTy → BitVec 3
  | .i32 => 0#3 | .n32 => 1#3 | .i64 => 2#3 | .n64 => 3#3 | .i16x2 => 4#3 | .n16x2 => 5#3 | .i8x4 => 6#3 | .n8x4 => 7#3

def decIntTy (only : IntTy → Bool) (c : BitVec 3) : Dec IntTy := do
  need (only (intTyOf c)) .typeCode
  .ok (intTyOf c)

/-- Floating-point types (R219). -/
def decFTy (only : FTy → Bool) (c : BitVec 3) : Dec FTy :=
  let chk (t : FTy) : Dec FTy := if only t then .ok t else .error .typeCode
  match c.toNat with
  | 0 => chk .f32 | 1 => chk .f64 | 2 => chk .bf16x2 | 3 => chk .f16x2 | _ => .error .typeCode

def encFTy : FTy → BitVec 3
  | .f32 => 0#3 | .f64 => 1#3 | .bf16x2 => 2#3 | .f16x2 => 3#3

/-- The type that sf and the type field give (R283). -/
def decNumTy (sf : Bool) (c : BitVec 3) : Dec NumTy :=
  if sf then do
    let t ← decFTy (fun _ => true) c
    .ok (.fp t)
  else .ok (.int (intTyOf c))

def numSf : NumTy → Bool
  | .int _ => false
  | .fp _ => true

def encNumTy : NumTy → BitVec 3
  | .int t => encIntTy t
  | .fp t => encFTy t

/-- Destination types (R283). -/
def decDstTy (c : BitVec 4) : Dec NumTy :=
  match c.toNat with
  | 0 => .ok (.int .i32) | 1 => .ok (.int .n32) | 2 => .ok (.int .i64) | 3 => .ok (.int .n64)
  | 4 => .ok (.int .i16x2) | 5 => .ok (.int .n16x2) | 6 => .ok (.int .i8x4) | 7 => .ok (.int .n8x4)
  | 8 => .ok (.fp .f32) | 9 => .ok (.fp .f64) | 10 => .ok (.fp .bf16x2) | 11 => .ok (.fp .f16x2)
  | _ => .error .typeCode

def encDstTy : NumTy → BitVec 4
  | .int .i32 => 0#4 | .int .n32 => 1#4 | .int .i64 => 2#4 | .int .n64 => 3#4
  | .int .i16x2 => 4#4 | .int .n16x2 => 5#4 | .int .i8x4 => 6#4 | .int .n8x4 => 7#4
  | .fp .f32 => 8#4 | .fp .f64 => 9#4 | .fp .bf16x2 => 10#4 | .fp .f16x2 => 11#4

/-- Scope codes (R107). -/
def decScope (c : BitVec 3) : Dec Scope :=
  match c.toNat with
  | 0 => .ok .ctx | 1 => .ok .blk | 2 => .ok .dev | 3 => .ok .sys | 4 => .ok .pod | _ => .error .code

def encScope : Scope → BitVec 3
  | .ctx => 0#3 | .blk => 1#3 | .dev => 2#3 | .sys => 3#3 | .pod => 4#3

/-- Order codes (R108). -/
def orderOf (c : BitVec 2) : Order :=
  match c.toNat with
  | 0 => .rlx | 1 => .acq | 2 => .rel | _ => .ar

def encOrder : Order → BitVec 2
  | .rlx => 0#2 | .acq => 1#2 | .rel => 2#2 | .ar => 3#2

/-- A register range of `region`, `regroup`, `shmap`, `push`, `pop`. -/
def decRange (lo hi : BitVec 9) (maxLen : Nat) : Dec VRange :=
  if lo = 452#9 ∧ hi = 452#9 then .ok none
  else do
    let a ← decV lo
    let b ← decV hi
    need (decide (a.val ≤ b.val) && decide (b.val - a.val + 1 ≤ maxLen)) .range
    .ok (some (a, b))

def encLo : VRange → BitVec 9
  | none => 452#9
  | some r => encV r.1

def encHi : VRange → BitVec 9
  | none => 452#9
  | some r => encV r.2

/-! ### Format R, control, span and system (R239) -/

def code8 (w : WR) : BitVec 8 := w.modi.extractLsb' 0 8

/-- The checks of an entry that writes a vector or k register, whose write nw may suppress (R218, R238). -/
def plainRW (w : WR) (mask : BitVec 11) : Dec Unit := do
  modMask w mask
  need (w.ty == 0#3) .typeCode

/-- The checks of an entry that uses no operand field but those checked apart, and writes no register (R218, R238). -/
def plainR (w : WR) (mask : BitVec 11) : Dec Unit := do
  plainRW w mask
  noNw w

def srOf (n : BitVec 8) : Dec SrName :=
  match n.toNat with
  | 0 => .ok .lanes | 1 => .ok .tick | 2 => .ok .clayer | 3 => .ok .tvec | 4 => .ok .pool | 5 => .ok .tcid
  | 6 => .ok .mode | 7 => .ok .phase | 8 => .ok .scratch | 9 => .ok .shape | 10 => .ok .image
  | _ => .error .code

def encSr : SrName → BitVec 8
  | .lanes => 0#8 | .tick => 1#8 | .clayer => 2#8 | .tvec => 3#8 | .pool => 4#8 | .tcid => 5#8
  | .mode => 6#8 | .phase => 7#8 | .scratch => 8#8 | .shape => 9#8 | .image => 10#8

/-- Opcodes 0x01, 0x05, 0x07 to 0x21. -/
def decodeControl (w : WR) : Dec Instr :=
  let g := guardOf w.gd w.neg
  match w.op.toNat with
  | 0x01 => do
    plainR w 0; unusedOp w.d; unusedOp w.a; unusedOp w.b; unusedOp w.c
    .ok (.nop g)
  | 0x05 => do
    plainR w 0; unusedOp w.d; unusedOp w.a; unusedOp w.b; unusedOp w.c; guardP0 w.gd w.neg
    .ok .ret
  | 0x07 => do
    plainR w 0; unusedOp w.d; unusedOp w.a; unusedOp w.b; unusedOp w.c; guardP0 w.gd w.neg
    .ok .join
  | 0x08 => do
    plainR w 0; unusedOp w.d; unusedOp w.a; unusedOp w.b; unusedOp w.c
    .ok (.exit g)
  | 0x09 => do
    plainR w 0; unusedOp w.d; unusedOp w.c; guardP0 w.gd w.neg
    let r ← decRange w.a w.b 384
    .ok (.region r)
  | 0x0A => do
    plainR w 0; unusedOp w.d; unusedOp w.a; unusedOp w.b; unusedOp w.c; guardP0 w.gd w.neg
    .ok .yield
  | 0x0B => do
    plainR w 0xFF; unusedOp w.d; unusedOp w.a; unusedOp w.b; unusedOp w.c
    .ok (.brk (code8 w) g)
  | 0x0C => do
    plainR w 0xFF; unusedOp w.d; unusedOp w.a; unusedOp w.b; unusedOp w.c
    .ok (.trap (code8 w) g)
  | 0x0D => do
    plainR w 0; unusedOp w.d; unusedOp w.a; unusedOp w.b; unusedOp w.c; guardP0 w.gd w.neg
    .ok .eret
  | 0x0E => do
    plainR w 0; unusedOp w.a; unusedOp w.b; unusedOp w.c
    let pd ← decP w.d
    .ok (.elect pd g)
  | 0x0F => do
    modMask w 0; unusedOp w.b; unusedOp w.c
    let ty ← decIntTy IntTy.scalar w.ty
    let d ← decV w.d
    need (d.val % 2 == 0) .operand
    let a ← decSrc w.a
    .ok (.matchKeys ty ⟨d, isSet w.nw⟩ a g)
  | 0x10 => do
    plainR w 0; unusedOp w.d; guardP0 w.gd w.neg
    let k ← decSrc w.a
    need (match k with | .b _ => false | _ => true) .operand
    let r ← decRange w.b w.c 32
    .ok (.regroup k r)
  | 0x11 => do
    plainR w 0; unusedOp w.d; unusedOp w.b; unusedOp w.c
    let a ← decSrc w.a
    .ok (.launch a g)
  | 0x12 => do
    plainR w 0; unusedOp w.d; unusedOp w.a; unusedOp w.b; unusedOp w.c; guardP0 w.gd w.neg
    .ok .wchild
  | 0x13 => do
    plainR w 0xF; unusedOp w.d; unusedOp w.a; unusedOp w.b; unusedOp w.c; guardP0 w.gd w.neg
    .ok (.bar (fin16 (w.modi.extractLsb' 0 4)))
  | 0x14 => do
    plainRW w 0; guardP0 w.gd w.neg
    let d ← decKOpt w.d
    let a ← decKOpt w.a
    let r ← decRange w.b w.c 32
    .ok (.shmap ⟨d, isSet w.nw⟩ a r)
  | 0x15 => do
    plainRW w 0; unusedOp w.b; unusedOp w.c
    let d ← decV w.d
    let a ← decSrc w.a
    .ok (.fwr ⟨d, isSet w.nw⟩ a g)
  | 0x16 => do
    plainRW w 0; unusedOp w.b; unusedOp w.c
    let d ← decV w.d
    let a ← decV w.a
    .ok (.frd ⟨d, isSet w.nw⟩ a g)
  | 0x17 => do
    modMask w 0; unusedOp w.a; unusedOp w.b; unusedOp w.c; guardP0 w.gd w.neg
    let d ← decV w.d
    need (w.ty == 0#3 || w.ty == 2#3) .typeCode
    .ok (.mat ⟨d, isSet w.nw⟩ (w.ty == 2#3))
  | 0x18 => do
    plainRW w 1; unusedOp w.b; unusedOp w.c; guardP0 w.gd w.neg
    let d ← decK w.d
    let n ← decV w.a
    need (!w.modi.getLsbD 0 || decide (n.val < 16)) .operand
    .ok (.rep ⟨d, isSet w.nw⟩ (w.modi.getLsbD 0) n)
  | 0x19 => do
    plainR w 0xFF; unusedOp w.d; unusedOp w.a; unusedOp w.b; unusedOp w.c
    .ok (.halt (code8 w) g)
  | 0x1A => do
    plainRW w 0xFF; unusedOp w.a; unusedOp w.b; unusedOp w.c
    let d ← decK w.d
    let n ← srOf (code8 w)
    .ok (.getsr ⟨d, isSet w.nw⟩ n g)
  | 0x1B => do
    plainR w 0xFF; unusedOp w.d; unusedOp w.b; unusedOp w.c
    let a ← decK w.a
    let n ← srOf (code8 w)
    .ok (.setsr n a g)
  | 0x1C => do
    plainRW w 1; unusedOp w.a; unusedOp w.b; unusedOp w.c
    let d ← decK w.d
    .ok (if w.modi.getLsbD 0 then .tickS ⟨d, isSet w.nw⟩ g else .tick ⟨d, isSet w.nw⟩ g)
  | 0x1D => do
    plainRW w 0; unusedOp w.a; unusedOp w.b; unusedOp w.c
    let d ← decKOpt w.d
    .ok (.cpub ⟨d, isSet w.nw⟩ g)
  | 0x1E => do
    plainR w 0; unusedOp w.d; unusedOp w.a; unusedOp w.b; unusedOp w.c
    .ok (.cinv g)
  | 0x1F => do
    plainR w 3; unusedOp w.d; unusedOp w.c
    match (w.modi.extractLsb' 0 2).toNat with
    | 0 => do
      let a ← decK w.a
      let b ← decK w.b
      .ok (.tlbiVa a b g)
    | 1 => do
      unusedOp w.a
      let b ← decK w.b
      .ok (.tlbiTcid b g)
    | 2 => do
      unusedOp w.a; unusedOp w.b
      .ok (.tlbiAll g)
    | _ => .error .code
  | 0x20 => do
    plainR w 0; unusedOp w.b; unusedOp w.c
    let d ← decK w.d
    let a ← decK w.a
    .ok (.pmap d a g)
  | 0x21 => do
    plainRW w 0x1F; unusedOp w.a; unusedOp w.b; unusedOp w.c
    let d ← decK w.d
    let n := fin16 (w.modi.extractLsb' 0 4)
    .ok (if w.modi.getLsbD 4 then .ctrClr ⟨d, isSet w.nw⟩ n g else .ctr ⟨d, isSet w.nw⟩ n g)
  | _ => .error .opcode

/-! ### Format R, integer (R269) -/

def decAlu1 (f : Alu1 → Instr) (only : IntTy → Bool) (w : WR) (p : Option WP) : Dec Instr := do
  modMask w 0; unusedOp w.b; unusedOp w.c
  let ty ← decIntTy only w.ty
  let d ← decDst w.d
  let a ← decSrc w.a
  let o ← decOpt false false false w p
  .ok (f ⟨ty, d, a, o⟩)

def decAlu2 (only : IntTy → Bool) (mask : BitVec 11) (w : WR) (p : Option WP) : Dec Alu2 := do
  modMask w mask
  let ty ← decIntTy only w.ty
  let d ← decDst w.d
  let a ← decSrc w.a
  let b ← decB w p
  let o ← decOpt false false (ibSet w) w p
  .ok ⟨ty, d, a, b, o⟩

def decAlu2' (f : Alu2 → Instr) (only : IntTy → Bool) (w : WR) (p : Option WP) : Dec Instr := do
  unusedOp w.c
  let x ← decAlu2 only 0x400 w p
  .ok (f x)

def decAlu3 (only : IntTy → Bool) (mask : BitVec 11) (w : WR) (p : Option WP) : Dec Alu3 := do
  modMask w mask
  let ty ← decIntTy only w.ty
  let d ← decDst w.d
  let a ← decSrc w.a
  let b ← decB w p
  let c ← decSrc w.c
  let o ← decOpt false false (ibSet w) w p
  .ok ⟨ty, d, a, b, c, o⟩

def decAlu3' (f : Alu3 → Instr) (only : IntTy → Bool) (w : WR) (p : Option WP) : Dec Instr := do
  let x ← decAlu3 only 0x400 w p
  .ok (f x)

def decCarry (f : CarryOp → Instr) (w : WR) (p : Option WP) : Dec Instr := do
  unusedOp w.c
  let x ← decAlu2 IntTy.scalar 0x4FF w p
  .ok (f ⟨x, fin16 (w.modi.extractLsb' 4 4), fin16 (w.modi.extractLsb' 0 4)⟩)

def relOf (c : BitVec 3) : Dec Rel :=
  match c.toNat with
  | 0 => .ok .eq | 1 => .ok .ne | 2 => .ok .lt | 3 => .ok .le | 4 => .ok .gt | 5 => .ok .ge | _ => .error .code

def encRel : Rel → BitVec 3
  | .eq => 0#3 | .ne => 1#3 | .lt => 2#3 | .le => 3#3 | .gt => 4#3 | .ge => 5#3

/-- `pack`'s fourth source (R226, R285). -/
def decD4 (p : Option WP) : Dec Src :=
  match p with
  | none => .ok .zero
  | some l => decSrc l.d4

/-- Opcodes 0x30 to 0x5A but `movi` and `movk`. -/
def decodeInteger (w : WR) (p : Option WP) : Dec Instr :=
  match w.op.toNat with
  | 0x30 => decAlu2' .add IntTy.anyTy w p
  | 0x31 => decAlu2' .sub IntTy.anyTy w p
  | 0x32 => decCarry .addc w p
  | 0x33 => decCarry .subb w p
  | 0x34 => decAlu2' .mul IntTy.anyTy w p
  | 0x35 => decAlu2' .mulh IntTy.anyTy w p
  | 0x36 => decAlu3' .mad IntTy.anyTy w p
  | 0x37 => decAlu2' .div IntTy.anyTy w p
  | 0x38 => decAlu2' .rem IntTy.anyTy w p
  | 0x39 => decAlu2' .min IntTy.anyTy w p
  | 0x3A => decAlu2' .max IntTy.anyTy w p
  | 0x3B => decAlu1 .abs IntTy.anyTy w p
  | 0x3C => decAlu1 .neg IntTy.anyTy w p
  | 0x3D => decAlu2' .sadd IntTy.anyTy w p
  | 0x3E => decAlu2' .ssub IntTy.anyTy w p
  | 0x3F => do
    unusedOp w.c
    let x ← decAlu2 IntTy.scalar 0x43F w p
    let sh := fin64 (w.modi.extractLsb' 0 6)
    need (decide (sh.val < x.ty.bits)) .code
    .ok (.lea ⟨x, sh⟩)
  | 0x40 => decAlu2' .and IntTy.anyTy w p
  | 0x41 => decAlu2' .or IntTy.anyTy w p
  | 0x42 => decAlu2' .xor IntTy.anyTy w p
  | 0x43 => decAlu1 .not IntTy.anyTy w p
  | 0x44 => decAlu2' .andn IntTy.anyTy w p
  | 0x45 => decAlu2' .shl IntTy.anyTy w p
  | 0x46 => decAlu2' .shr IntTy.anyTy w p
  | 0x47 => decAlu2' .sar IntTy.anyTy w p
  | 0x48 => decAlu2' .rol IntTy.anyTy w p
  | 0x49 => decAlu2' .ror IntTy.anyTy w p
  | 0x4A => decAlu1 .clz IntTy.anyTy w p
  | 0x4B => decAlu1 .ctz IntTy.anyTy w p
  | 0x4C => decAlu1 .ffs IntTy.anyTy w p
  | 0x4D => decAlu1 .popc IntTy.anyTy w p
  | 0x4E => decAlu1 .brev IntTy.anyTy w p
  | 0x4F => decAlu2' .bfx IntTy.scalar w p
  | 0x50 => decAlu3' .bfi IntTy.scalar w p
  | 0x51 => do
    let x ← decAlu2 IntTy.anyTy 0x401 w p
    let q ← decP w.c
    .ok (.sel ⟨x, q, w.modi.getLsbD 0⟩)
  | 0x52 => do
    modMask w 0x407; unusedOp w.c; noNw w
    let r ← relOf (w.modi.extractLsb' 0 3)
    let ty ← decIntTy IntTy.scalar w.ty
    let pd ← decP w.d
    let a ← decSrc w.a
    let b ← decB w p
    let l ← decLead false false (ibSet w) p
    .ok (.cmp ⟨r, ty, pd, a, b, guardOf w.gd w.neg, l⟩)
  | 0x53 => decAlu1 .mov IntTy.anyTy w p
  | 0x56 => do
    modMask w 0x1F8; unusedOp w.b; unusedOp w.c
    let s ← decNumTy (w.modi.getLsbD 3) w.ty
    let t ← decDstTy (w.modi.extractLsb' 4 4)
    let sat := w.modi.getLsbD 8
    need (cvtPair s t sat) .typeCode
    let d ← decDst w.d
    let a ← decSrc w.a
    let o ← decOpt true false false w p
    .ok (.cvt ⟨s, t, sat, d, a, o⟩)
  | 0x57 => do
    modMask w 0x5F8
    let s ← decNumTy (w.modi.getLsbD 3) w.ty
    let t ← decDstTy (w.modi.extractLsb' 4 4)
    let sat := w.modi.getLsbD 8
    need (packPair s t sat) .typeCode
    let d ← decDst w.d
    let a ← decSrc w.a
    let b ← decB w p
    let c ← decSrc w.c
    let d4 ← decD4 p
    let o ← decOpt true true (ibSet w) w p
    need (if packWide t then p.isSome else c == .zero && d4 == .zero) .unusedField
    .ok (.pack ⟨s, t, sat, d, a, b, c, d4, o⟩)
  | 0x58 => do
    modMask w 0x1FF; unusedOp w.b; unusedOp w.c
    let s ← decNumTy (w.modi.getLsbD 3) w.ty
    let t ← decDstTy (w.modi.extractLsb' 4 4)
    let sat := w.modi.getLsbD 8
    let e := fin8 (w.modi.extractLsb' 0 3)
    need (unpkPair s t sat && decide (e.val < s.elems)) .typeCode
    let d ← decDst w.d
    let a ← decSrc w.a
    let o ← decOpt false false false w p
    .ok (.unpk ⟨s, t, sat, e, d, a, o⟩)
  | 0x59 => decAlu3' .prm (fun t => t == .i32 || t == .n32) w p
  | 0x5A => do
    let x ← decAlu3 (fun t => t == .i8x4 || t == .n8x4) 0x43F w p
    let r := fin32 (w.modi.extractLsb' 1 5)
    need (decide (r.val ≤ 16)) .code
    .ok (.dp4 ⟨x, r, w.modi.getLsbD 0⟩)
  | _ => .error .opcode

/-! ### Format R, predicates (R269, R289) -/

def decPred2 (f : Pred2 → Instr) (w : WR) : Dec Instr := do
  plainR w 3; unusedOp w.c
  let pd ← decP w.d
  let pa ← decP w.a
  let pb ← decP w.b
  .ok (f ⟨pd, pa, pb, w.modi.getLsbD 0, w.modi.getLsbD 1, guardOf w.gd w.neg⟩)

def decPred1 (f : Pred1 → Instr) (w : WR) : Dec Instr := do
  plainR w 0; unusedOp w.b; unusedOp w.c
  let pd ← decP w.d
  let pa ← decP w.a
  .ok (f ⟨pd, pa, guardOf w.gd w.neg⟩)

def decPredK (f : PredK → Instr) (w : WR) : Dec Instr := do
  modMask w 0; unusedOp w.b; unusedOp w.c
  need (w.ty == 0#3) .typeCode
  let d ← decK w.d
  let pa ← decP w.a
  .ok (f ⟨d, pa, guardOf w.gd w.neg, isSet w.nw⟩)

/-- Opcodes 0x60 to 0x67. -/
def decodePredicate (w : WR) : Dec Instr :=
  match w.op.toNat with
  | 0x60 => decPred2 .pand w
  | 0x61 => decPred2 .por w
  | 0x62 => decPred2 .pxor w
  | 0x63 => decPred1 .pnot w
  | 0x64 => decPred1 .pmov w
  | 0x65 => do
    plainR w 1; unusedOp w.a; unusedOp w.b; unusedOp w.c
    let pd ← decP w.d
    .ok (.pset ⟨pd, w.modi.getLsbD 0, guardOf w.gd w.neg⟩)
  | 0x66 => decPredK .pcnt w
  | 0x67 => decPredK .pfirst w
  | _ => .error .opcode

/-! ### Format R, floating point (R292) -/

def decF1 (f : F1 → Instr) (only : FTy → Bool) (w : WR) (p : Option WP) : Dec Instr := do
  modMask w 0; unusedOp w.b; unusedOp w.c
  let ty ← decFTy only w.ty
  let d ← decDst w.d
  let a ← decSrc w.a
  let o ← decOpt true false false w p
  .ok (f ⟨ty, d, a, o⟩)

def decF2 (f : F2 → Instr) (w : WR) (p : Option WP) : Dec Instr := do
  modMask w 0; unusedOp w.c
  let ty ← decFTy (fun _ => true) w.ty
  let d ← decDst w.d
  let a ← decSrc w.a
  let b ← decSrc w.b
  let o ← decOpt true false false w p
  .ok (f ⟨ty, d, a, b, o⟩)

def frelOf (c : BitVec 3) : FRel :=
  match c.toNat with
  | 0 => .eq | 1 => .ne | 2 => .lt | 3 => .le | 4 => .gt | 5 => .ge | 6 => .un | _ => .ord

def encFRel : FRel → BitVec 3
  | .eq => 0#3 | .ne => 1#3 | .lt => 2#3 | .le => 3#3 | .gt => 4#3 | .ge => 5#3 | .un => 6#3 | .ord => 7#3

/-- Opcodes 0x70 to 0x85. -/
def decodeFloat (w : WR) (p : Option WP) : Dec Instr :=
  match w.op.toNat with
  | 0x70 => decF2 .fadd w p
  | 0x71 => decF2 .fsub w p
  | 0x72 => decF2 .fmul w p
  | 0x73 => do
    modMask w 0
    let ty ← decFTy (fun _ => true) w.ty
    let d ← decDst w.d
    let a ← decSrc w.a
    let b ← decSrc w.b
    let c ← decSrc w.c
    let o ← decOpt true false false w p
    .ok (.fma ⟨ty, d, a, b, c, o⟩)
  | 0x74 => decF2 .fmin w p
  | 0x75 => decF2 .fmax w p
  | 0x76 => decF1 .fabs (fun _ => true) w p
  | 0x77 => decF1 .fneg (fun _ => true) w p
  | 0x78 => do
    modMask w 7; unusedOp w.c; noNw w
    let ty ← decFTy FTy.scalar w.ty
    let pd ← decP w.d
    let a ← decSrc w.a
    let b ← decSrc w.b
    let l ← decLead true false false p
    .ok (.fcmp ⟨frelOf (w.modi.extractLsb' 0 3), ty == .f64, pd, a, b, guardOf w.gd w.neg, l⟩)
  | 0x79 => do
    modMask w 0xF0; unusedOp w.b; unusedOp w.c
    let s ← decFTy (fun _ => true) w.ty
    let t ← decDstTy (w.modi.extractLsb' 4 4)
    let d ← decDst w.d
    let a ← decSrc w.a
    let o ← decOpt true false false w p
    match t with
    | .fp t => do
      need (fcvtPair s t) .typeCode
      .ok (.fcvt ⟨s, t, d, a, o⟩)
    | .int _ => .error .typeCode
  | 0x7A => decF1 .frnd (fun _ => true) w p
  | 0x7B => decF1 .fclass (fun _ => true) w p
  | 0x7C => decF1 .frcp (fun _ => true) w p
  | 0x7D => decF1 .frsq (fun _ => true) w p
  | 0x7E => decF1 .fsqrt (fun _ => true) w p
  | 0x7F => decF1 .fex2 FTy.special w p
  | 0x80 => decF1 .flg2 FTy.special w p
  | 0x81 => decF1 .fsin FTy.special w p
  | 0x82 => decF1 .fcos FTy.special w p
  | 0x83 => decF1 .ftanh FTy.special w p
  | 0x84 => decF2 .fdiv w p
  | 0x85 => decF2 .fscale w p
  | _ => .error .opcode

/-! ### Format R, cross-lane (R302) -/

def decPerm (f : PermOp → Instr) (w : WR) (p : Option WP) : Dec Instr := do
  modMask w 0x400; unusedOp w.c
  let ty ← decIntTy IntTy.scalar w.ty
  let d ← decV w.d
  let a ← decSrc w.a
  let b ← decB w p
  let o ← decOpt false false (ibSet w) w p
  .ok (f ⟨ty, d, a, b, o⟩)

def decSlide (f : SlideOp → Instr) (w : WR) (p : Option WP) : Dec Instr := do
  modMask w 0x400
  let ty ← decIntTy IntTy.scalar w.ty
  let d ← decV w.d
  let a ← decSrc w.a
  let b ← (if ibSet w then Except.ok (KImm.imm (immOf w p)) else do
    let k ← decK w.b
    Except.ok (KImm.k k) : Dec KImm)
  let c ← decSrc w.c
  let o ← decOpt false false (ibSet w) w p
  .ok (f ⟨ty, d, a, b, c, o⟩)

def decCompact (f : CompactOp → Instr) (w : WR) (p : Option WP) : Dec Instr := do
  modMask w 0; unusedOp w.b
  let ty ← decIntTy IntTy.scalar w.ty
  let d ← decV w.d
  let a ← decSrc w.a
  let q ← decP w.c
  let o ← decOpt false false false w p
  .ok (f ⟨ty, d, a, q, o⟩)

def redOpOf (c : BitVec 3) : Dec RedOp :=
  match c.toNat with
  | 0 => .ok .add | 1 => .ok .min | 2 => .ok .max | 3 => .ok .and | 4 => .ok .or | 5 => .ok .xor | _ => .error .code

def encRedOp : RedOp → BitVec 3
  | .add => 0#3 | .min => 1#3 | .max => 2#3 | .and => 3#3 | .or => 4#3 | .xor => 5#3

def voteModeOf (c : BitVec 2) : Dec VoteMode :=
  match c.toNat with
  | 0 => .ok .all | 1 => .ok .any | 2 => .ok .eq | _ => .error .code

def encVoteMode : VoteMode → BitVec 2
  | .all => 0#2 | .any => 1#2 | .eq => 2#2

def topkTyOf (sf : Bool) (c : BitVec 3) : Dec TopkTy :=
  match sf, c.toNat with
  | false, 0 => .ok .i32
  | false, 1 => .ok .n32
  | true, 0 => .ok .f32
  | _, _ => .error .typeCode

def topkSf : TopkTy → Bool
  | .f32 => true
  | _ => false

def encTopkTy : TopkTy → BitVec 3
  | .n32 => 1#3
  | _ => 0#3

/-- Opcodes 0x90 to 0x9A. DESIGN CHOICE (log 142): R302 names the registers of d without 452, and R301 refers to R268's discard; 452 is taken where
the table says "vector or k", and is illegal in the other rows. -/
def decodeCrossLane (w : WR) (p : Option WP) : Dec Instr :=
  match w.op.toNat with
  | 0x90 => decPerm .shfl w p
  | 0x91 => decPerm .bcast w p
  | 0x92 => decSlide .slup w p
  | 0x93 => decSlide .sldn w p
  | 0x94 => decCompact .cmpr w p
  | 0x95 => decCompact .expd w p
  | 0x96 => do
    modMask w 0xF; unusedOp w.b; unusedOp w.c
    let ty ← decNumTy (w.modi.getLsbD 3) w.ty
    let op ← redOpOf (w.modi.extractLsb' 0 3)
    need (redOpTy op ty) .code
    let d ← decDst w.d
    let a ← decSrc w.a
    let o ← decOpt (numSf ty) false false w p
    .ok (.red ⟨op, ty, d, a, o⟩)
  | 0x97 => do
    modMask w 0xF; unusedOp w.b
    let ty ← decNumTy (w.modi.getLsbD 3) w.ty
    let op ← redOpOf (w.modi.extractLsb' 0 3)
    need (redOpTy op ty) .code
    let d ← decV w.d
    let a ← decSrc w.a
    let seg ← decPOpt w.c
    let o ← decOpt (numSf ty) false false w p
    .ok (.scan ⟨op, ty, d, a, seg, o⟩)
  | 0x98 => do
    modMask w 0; unusedOp w.b; unusedOp w.c
    need (w.ty == 0#3) .typeCode
    let d ← decVK true w.d
    let pa ← decP w.a
    let o ← decOpt false false false w p
    .ok (.ballot ⟨d, pa, o⟩)
  | 0x99 => do
    plainR w 3; unusedOp w.b; unusedOp w.c
    let m ← voteModeOf (w.modi.extractLsb' 0 2)
    let pd ← decP w.d
    let pa ← decP w.a
    let l ← decLead false false false p
    .ok (.vote ⟨m, pd, pa, guardOf w.gd w.neg, l⟩)
  | 0x9A => do
    modMask w 0xF; unusedOp w.b
    let ty ← topkTyOf (w.modi.getLsbD 3) w.ty
    let d ← decV w.d
    let vi ← decV w.c
    need (d != vi) .operand
    let a ← decSrc w.a
    let o ← decOpt false false false w p
    .ok (.topk ⟨ty, d, vi, a, fin8 (w.modi.extractLsb' 0 3), o⟩)
  | _ => .error .opcode

/-! ### Format R, synchronisation (R329-R331) -/

def pathOf (c : BitVec 3) : Dec Path :=
  match c.toNat with
  | 0 => .ok .sh | 1 => .ok .sp | 2 => .ok .cp | 3 => .ok .ga | 4 => .ok .xa | 5 => .ok .co | _ => .error .code

def encPath : Path → BitVec 3
  | .sh => 0#3 | .sp => 1#3 | .cp => 2#3 | .ga => 3#3 | .xa => 4#3 | .co => 5#3

/-- A register range that must be there (`push`, `pop`). -/
def decSpill (w : WR) : Dec (Fin 384 × Fin 384) := do
  plainR w 0; unusedOp w.d; unusedOp w.c; guardP0 w.gd w.neg
  let a ← decV w.a
  let b ← decV w.b
  need (decide (a.val ≤ b.val) && decide (b.val - a.val + 1 ≤ 32)) .range
  .ok (a, b)

/-- Opcodes 0xB6 to 0xB9. -/
def decodeSync (w : WR) : Dec Instr :=
  match w.op.toNat with
  | 0xB6 => do
    plainRW w 0x1F; unusedOp w.a; unusedOp w.b; unusedOp w.c
    let d ← decKOpt w.d
    let s ← decScope (w.modi.extractLsb' 2 3)
    let o := orderOf (w.modi.extractLsb' 0 2)
    .ok (.fence ⟨o, s, d, guardOf w.gd w.neg, isSet w.nw⟩)
  | 0xB7 => do
    plainR w 7; unusedOp w.d; unusedOp w.b; unusedOp w.c
    let k ← decKOpt w.a
    let pth ← pathOf (w.modi.extractLsb' 0 3)
    .ok (.wait ⟨pth, k, guardOf w.gd w.neg⟩)
  | 0xB8 => do
    let r ← decSpill w
    .ok (.push r.1 r.2)
  | 0xB9 => do
    let r ← decSpill w
    .ok (.pop r.1 r.2)
  | _ => .error .opcode

/-- Format R by opcode. -/
def decodeR (w : WR) (p : Option WP) : Dec Instr :=
  let op := w.op.toNat
  if op ≤ 0x21 then do noLead p; decodeControl w
  else if op ≤ 0x5A then decodeInteger w p
  else if op ≤ 0x67 then do noLead p; decodePredicate w
  else if op ≤ 0x85 then decodeFloat w p
  else if op ≤ 0x9A then decodeCrossLane w p
  else do noLead p; decodeSync w

/-! ### Format I (R220, R282, R315) -/

def decodeI (w : WI) (p : Option WP) : Dec Instr :=
  let g := guardOf w.gd w.neg
  match w.op.toNat with
  | 0x54 => do
    noLead p; unusedOp w.a
    let d ← decVK false w.d
    .ok (.movi ⟨d, w.imm, g, isSet w.nw⟩)
  | 0x55 => do
    noLead p; unusedOp w.a
    let d ← decK w.d
    .ok (.movk ⟨d, w.imm, g, isSet w.nw⟩)
  | 0xA0 => do
    noLead p; unusedOp w.d
    need (w.nw == 0#1) .noWrite
    let a ← decKOpt w.a
    match a with
    | none => do
      need (fmtValid w.imm) .code
      .ok (.fmt (.imm w.imm) g)
    | some k => do
      need (w.imm == 0#32) .unusedField
      .ok (.fmt (.k k) g)
  | _ => .error .opcode

/-! ### Format B (R221) -/

def decodeBr (w : WB) (p : Option WP) : Dec Instr :=
  match w.op.toNat with
  | 0x02 => do
    noLead p
    need (w.kind == 0#2) .formatB
    .ok (.bra ⟨fin16 w.pred, isSet w.neg, isSet w.hint, w.target, w.reconv⟩)
  | 0x03 => do
    noLead p
    need (w.pred == 0#4 && w.neg == 0#1 && w.hint == 0#1 && w.reconv == 0#24) .formatB
    if w.kind = 0#2 then .ok (.jmpDirect w.target)
    else do
      need (w.kind == 1#2 && w.target.extractLsb' 6 18 == 0#18) .formatB
      .ok (.jmpIndirect (fin64 (w.target.extractLsb' 0 6)))
  | 0x04 => do
    noLead p
    need (w.pred == 0#4 && w.neg == 0#1 && w.hint == 0#1 && w.reconv == 0#24) .formatB
    if w.kind = 0#2 then .ok (.callDirect w.target)
    else do
      need (w.kind == 1#2 && w.target.extractLsb' 6 18 == 0#18) .formatB
      .ok (.callIndirect (fin64 (w.target.extractLsb' 0 6)))
  | 0x06 => do
    noLead p
    need (w.kind == 0#2 && w.reconv == 0#24) .formatB
    .ok (.loop (fin64 (w.hint ++ w.neg ++ w.pred)) w.target)
  | _ => .error .opcode

/-! ### Format M (R222, R316, R320-R323) -/

/-- The exponent fields unused (R222). -/
def noExp (w : WM) : Dec Unit := do
  need (w.ymode == 0#1 && w.ysel == 0#2 && w.xmode == 0#1 && w.xsel == 0#2) .unusedField
  unusedOp w.e

def decTile (w : WM) : TileOp := ⟨fin8 w.tile, isSet w.scope, guardOf w.gd w.neg⟩

def decRow (f : RowOp → Instr) (g : StatusOp → Instr) (w : WM) : Dec Instr := do
  noExp w
  need (w.n1 == 0#5) .unusedField
  match w.site.toNat with
  | 0 => do
    let v ← decV w.x
    let r ← decSrc w.y
    .ok (f ⟨decTile w, v, fin32 w.m1, r⟩)
  | 1 => do
    need (w.m1 == 0#5) .unusedField
    unusedOp w.y
    let k ← decK w.x
    .ok (g ⟨decTile w, k⟩)
  | _ => .error .code

/-- `e` of `opa`: a register, `zero` or a latch (R316). -/
def opaExp : Src → Bool
  | .v _ => true
  | .k _ => true
  | .b _ => true
  | .zero => true
  | _ => false

def decodeM (w : WM) (p : Option WP) : Dec Instr :=
  match w.op.toNat with
  | 0xA1 => do
    noLead p
    let x ← decV w.x
    let y ← decV w.y
    let e ← decSrc w.e
    need (opaExp e) .operand
    .ok (.opa ⟨fin8 w.tile, fin16 w.site, isSet w.scope, isSet w.ymode, fin4 w.ysel, isSet w.xmode, fin4 w.xsel,
      e, fin32 w.n1, y, fin32 w.m1, x, guardOf w.gd w.neg⟩)
  | 0xA2 => do
    noLead p; noExp w
    need (w.n1 == 0#5 && w.m1 == 0#5) .unusedField
    unusedOp w.x; unusedOp w.y
    .ok (.opc ⟨decTile w, fin16 w.site⟩)
  | 0xA3 => do
    noLead p; noExp w
    need (w.n1 == 0#5 && w.m1 == 0#5 && w.site == 0#4) .unusedField
    unusedOp w.x; unusedOp w.y
    .ok (.azero (decTile w))
  | 0xA4 => do noLead p; decRow .areadRow .areadStatus w
  | 0xA5 => do noLead p; decRow .awrtRow .awrtStatus w
  | 0xA8 => do
    noLead p; noExp w
    need (w.n1 == 0#5 && w.m1 == 0#5 && w.site == 0#4 && w.tile == 0#3 && w.scope == 0#1) .unusedField
    unusedOp w.x; unusedOp w.y
    guardP0 w.gd w.neg
    .ok .afence
  | 0xA9 => do
    noLead p; noExp w
    need (w.n1 == 0#5 && w.m1 == 0#5) .unusedField
    unusedOp w.x; unusedOp w.y
    .ok (.await ⟨decTile w, fin16 w.site⟩)
  | 0xAA => do
    noLead p; noExp w
    unusedOp w.y
    let k ← decK w.x
    match w.site.toNat with
    | 0 => .ok (.apromCvt ⟨decTile w, k, fin32 w.m1, fin32 w.n1⟩)
    | 1 => .ok (.apromScl ⟨decTile w, k, fin32 w.m1, fin32 w.n1⟩)
    | _ => .error .code
  | _ => .error .opcode

/-! ### Format E (R223, R224, R324-R335) -/

/-- The displacement: sext(disp), or ext:disp with the leading word (R228). -/
def dispOf (w : WE) (p : Option WP) : BitVec 14 :=
  match p with
  | none => w.disp.signExtend 14
  | some l => l.ext ++ w.disp

/-- The leading word of a memory opcode (R226). -/
def memLead (d4Any : Bool) (p : Option WP) : Dec Unit :=
  match p with
  | none => .ok ()
  | some l => need (l.msk == 0#4 && l.z == 0#1 && l.rm == 7#3 && (d4Any || l.d4 == 452#9)) .leadField

def encMemLead (d4 : BitVec 9) (disp : BitVec 14) (there : Bool) : Option WP :=
  if there then some ⟨disp.extractLsb' 7 7, d4, 7#3, 0#1, 0#4⟩ else none

def decAddr (w : WE) (p : Option WP) : Dec MemAddr := do
  let a ← decSrc w.a
  .ok ⟨a, dispOf w p, p.isSome⟩

/-- Access size and the quad form (R224). -/
def sizeOf8 (c : BitVec 3) : MSize :=
  match c.toNat with
  | 0 => .i32 | 1 => .n32 | 2 => .i64 | 3 => .n64 | 4 => .i16 | 5 => .n16 | 6 => .i8 | _ => .n8

def decSize (w : WE) : Dec MSize :=
  match w.eop.toNat with
  | 0 => .ok (sizeOf8 w.size)
  | 1 => if w.size = 0#3 then .ok .quad else .error .code
  | _ => .error .code

def encSize : MSize → BitVec 3
  | .i32 => 0#3 | .n32 => 1#3 | .i64 => 2#3 | .n64 => 3#3 | .i16 => 4#3 | .n16 => 5#3 | .i8 => 6#3 | .n8 => 7#3
  | .quad => 0#3

def quadBit : MSize → BitVec 3
  | .quad => 1#3
  | _ => 0#3

def decLds (w : WE) (p : Option WP) : Dec LdsOp := do
  memLead false p
  unusedOp w.b
  let sz ← decSize w
  let d ← decV w.d
  need (sz != .quad || d.val % 4 == 0) .operand
  need (w.order == 0#2 || w.order == 1#2) .code
  let s ← decScope w.scope
  let m ← decAddr w p
  .ok ⟨d, sz, w.order == 1#2, s, m, guardOf w.gd w.neg⟩

def decSts (w : WE) (p : Option WP) : Dec StsOp := do
  memLead false p
  unusedOp w.d
  let sz ← decSize w
  let b ← decSrc w.b
  need (sz != .quad || quadSrc b) .operand
  need (w.order == 0#2 || w.order == 2#2) .code
  let s ← decScope w.scope
  let m ← decAddr w p
  .ok ⟨b, sz, w.order == 2#2, s, m, guardOf w.gd w.neg⟩

/-- The operation of `atom` and `xatom` (R327). -/
def atomOpOf (sel : BitVec 2) (size : BitVec 3) : Dec AtomOp :=
  match size.toNat, sel.toNat with
  | 4, 0 => .ok (.and false) | 4, 1 => .ok (.or false) | 4, 2 => .ok (.xor false)
  | 5, 0 => .ok (.and true) | 5, 1 => .ok (.or true) | 5, 2 => .ok (.xor true)
  | 6, 0 => .ok (.fadd false)
  | 7, 0 => .ok (.fadd true)
  | n, s =>
    if n < 4 then
      match s with
      | 0 => .ok (.add (intTyOf size)) | 1 => .ok (.min (intTyOf size))
      | 2 => .ok (.max (intTyOf size)) | _ => .ok (.exch (intTyOf size))
    else .error .code

def encAtomSel : AtomOp → BitVec 2
  | .add _ => 0#2 | .min _ => 1#2 | .max _ => 2#2 | .exch _ => 3#2
  | .and _ => 0#2 | .or _ => 1#2 | .xor _ => 2#2 | .fadd _ => 0#2

def encAtomSize : AtomOp → BitVec 3
  | .add t => encIntTy t | .min t => encIntTy t | .max t => encIntTy t | .exch t => encIntTy t
  | .and w => if w then 5#3 else 4#3
  | .or w => if w then 5#3 else 4#3
  | .xor w => if w then 5#3 else 4#3
  | .fadd w => if w then 7#3 else 6#3

/-- The space of `atom`, `cas`, `ald`, `ast`: shared memory needs h = 0. -/
def decSpace (scratch : Bool) (h : BitVec 6) : Dec (Option (Fin 64)) :=
  if scratch then .ok (some (fin64 h)) else do
    need (h == 0#6) .unusedField
    .ok none

def encH : Option (Fin 64) → BitVec 6
  | some n => bits6 n
  | none => 0#6

def decodeMem (w : WE) (p : Option WP) : Dec Instr :=
  let g := guardOf w.gd w.neg
  match w.op.toNat with
  | 0xB0 => do
    let x ← decLds w p
    need (w.h == 0#6) .unusedField
    .ok (.lds x)
  | 0xB1 => do
    let x ← decSts w p
    need (w.h == 0#6) .unusedField
    .ok (.sts x)
  | 0xB2 => do
    let x ← decLds w p
    .ok (.ldw ⟨fin64 w.h, x⟩)
  | 0xB3 => do
    let x ← decSts w p
    .ok (.stw ⟨fin64 w.h, x⟩)
  | 0xB4 => do
    memLead false p
    let op ← atomOpOf (w.eop.extractLsb' 0 2) w.size
    let h ← decSpace (w.eop.getLsbD 2) w.h
    let d ← decVOpt w.d
    let b ← decSrc w.b
    let s ← decScope w.scope
    let m ← decAddr w p
    .ok (.atom ⟨op, orderOf w.order, s, h, d, b, m, g⟩)
  | 0xB5 => do
    memLead true p
    match p with
    | none => .error .leadField
    | some l => do
      need (decide (w.size.toNat < 4) && !w.eop.getLsbD 1) .code
      let h ← decSpace (w.eop.getLsbD 2) w.h
      let d ← decVOpt w.d
      let b ← decSrc w.b
      let sw ← decSrc l.d4
      let s ← decScope w.scope
      let m ← decAddr w p
      .ok (.cas ⟨intTyOf w.size, orderOf w.order, w.eop.getLsbD 0, s, h, d, b, sw, m, g⟩)
  | _ => .error .opcode

def decTileMem (f : TileMem → Instr) (w : WE) (p : Option WP) : Dec Instr := do
  memLead false p
  unusedOp w.d; unusedOp w.b
  need (w.size.getLsbD 2 == false && w.order == 0#2) .code
  let a ← decKOpt w.a
  let h ← decSpace (w.size.getLsbD 0) w.h
  let s ← decScope w.scope
  .ok (f ⟨fin8 w.eop, w.size.getLsbD 1, h, a, dispOf w p, s, p.isSome, guardOf w.gd w.neg⟩)

/-- size, op, order and scope at zero (R333, R335). -/
def plainE (w : WE) : Dec Unit := do
  need (w.size == 0#3 && w.eop == 0#3) .unusedField
  need (w.order == 0#2 && w.scope == 0#3) .unusedField

def noDisp (w : WE) : Dec Unit := need (w.disp == 0#7) .unusedField

def decLines (f : LinesOp → Instr) (w : WE) : Dec Instr := do
  plainE w; noDisp w; unusedOp w.d
  let a ← decKOpt w.a
  let b ← decKOpt w.b
  .ok (f ⟨fin64 w.h, a, b, guardOf w.gd w.neg⟩)

def decDesc (f : DescOp → Instr) (w : WE) : Dec Instr := do
  plainE w; unusedOp w.d; unusedOp w.b
  need (w.h == 0#6) .unusedField
  let a ← decSrc w.a
  .ok (f ⟨a, w.disp, guardOf w.gd w.neg⟩)

def decGather (f : GatherOp → Instr) (w : WE) : Dec Instr := do
  unusedOp w.d
  need (w.h == 0#6 && w.eop == 0#3 && w.order == 0#2 && w.scope == 0#3) .unusedField
  need (decide (w.size.toNat < 4)) .typeCode
  let a ← decKOpt w.a
  let b ← decSrc w.b
  .ok (f ⟨intTyOf w.size, a, b, w.disp, guardOf w.gd w.neg⟩)

def dredTyOf (c : BitVec 3) : Dec DredTy :=
  match c.toNat with
  | 0 => .ok .f32 | 1 => .ok .f64 | 2 => .ok .i32 | 3 => .ok .i64 | _ => .error .typeCode

def encDredTy : DredTy → BitVec 3
  | .f32 => 0#3 | .f64 => 1#3 | .i32 => 2#3 | .i64 => 3#3

def dredOpOf (c : BitVec 3) : Dec DredOp :=
  match c.toNat with
  | 0 => .ok .add | 1 => .ok .min | 2 => .ok .max | _ => .error .code

def encDredOp : DredOp → BitVec 3
  | .add => 0#3 | .min => 1#3 | .max => 2#3

def decQdesc (f : QdescOp → Instr) (w : WE) : Dec Instr := do
  plainE w; unusedOp w.b; guardP0 w.gd w.neg
  need (w.h == 0#6) .unusedField
  let d ← decKOpt w.d
  let a ← decKOpt w.a
  .ok (f ⟨d, a, w.disp⟩)

/-- k0 to k62 (R335). -/
def decK62 (c : BitVec 9) : Dec (Fin 63) :=
  if h : 384 ≤ c.toNat ∧ c.toNat - 384 < 63 then .ok ⟨c.toNat - 384, h.2⟩ else .error .operand

def encK62 (n : Fin 63) : BitVec 9 := BitVec.ofNat 9 (384 + n.val)

/-- Opcodes 0xBA to 0xBE, 0xC0 to 0xC7 and 0xD0 to 0xD5: none accepts a leading word. -/
def decodeEngine (w : WE) : Dec Instr :=
  let g := guardOf w.gd w.neg
  match w.op.toNat with
  | 0xBA => do
    plainE w; noDisp w; unusedOp w.d; unusedOp w.b
    let k ← decKOpt w.a
    .ok (.rmap (fin64 w.h) k g)
  | 0xBB => do
    plainE w; noDisp w; unusedOp w.d; unusedOp w.a; unusedOp w.b
    .ok (.runmap (fin64 w.h) g)
  | 0xBC => decLines .rwb w
  | 0xBD => decLines .rinv w
  | 0xBE => decLines .rfill w
  | 0xC0 => decDesc .copy w
  | 0xC1 => decGather .gather w
  | 0xC2 => decGather .scatter w
  | 0xC3 => do
    noDisp w
    need (w.h == 0#6) .unusedField
    need (!w.eop.getLsbD 2) .code
    let op ← atomOpOf (w.eop.extractLsb' 0 2) w.size
    let s ← decScope w.scope
    need (w.order == 0#2 || (w.order == 2#2 && (s == .dev || s == .pod))) .code
    let d ← decSrc w.d
    let a ← decVK true w.a
    let b ← decSrc w.b
    .ok (.xatom ⟨op, w.order == 2#2, s, d, a, b, g⟩)
  | 0xC4 => decDesc .coll w
  | 0xC5 => do
    noDisp w; unusedOp w.d
    need (w.h == 0#6 && w.order == 0#2 && w.scope == 0#3) .unusedField
    let op ← dredOpOf w.eop
    let ty ← dredTyOf w.size
    let a ← decVK true w.a
    let b ← decSrc w.b
    .ok (.dred ⟨op, ty, a, b, g⟩)
  | 0xC6 => decDesc .stash w
  | 0xC7 => do
    plainE w; noDisp w; unusedOp w.d; unusedOp w.a; unusedOp w.b; guardP0 w.gd w.neg
    .ok (.seal (fin64 w.h))
  | 0xD0 => do
    plainE w; noDisp w
    need (w.h == 0#6) .unusedField
    let d ← decVOpt w.d
    let a ← decSrc w.a
    let b ← decV w.b
    need (b.val % 4 == 0) .operand
    .ok (.qpush ⟨d, a, b, g⟩)
  | 0xD1 => do
    plainE w; noDisp w; unusedOp w.b
    need (w.h == 0#6) .unusedField
    let d ← decKOpt w.d
    let a ← decK w.a
    .ok (.qfire d a g)
  | 0xD2 => do
    plainE w; noDisp w; unusedOp w.b
    need (w.h == 0#6) .unusedField
    let d ← decK w.d
    let a ← decK w.a
    .ok (.qstat d a g)
  | 0xD3 => do
    need (w.size == 0#3 && w.order == 0#2 && w.scope == 0#3 && w.h == 0#6) .unusedField
    noDisp w; unusedOp w.b; guardP0 w.gd w.neg
    let a ← decK w.a
    match w.eop.toNat with
    | 0 => do
      let d ← decK62 w.d
      .ok (.eslotGet d a)
    | 1 => do
      unusedOp w.d
      .ok (.eslotReady a)
    | 2 => do
      unusedOp w.d
      .ok (.eslotPut a)
    | _ => .error .code
  | 0xD4 => decQdesc .qcomb w
  | 0xD5 => decQdesc .qdrain w
  | _ => .error .opcode

/-- Format E by opcode. -/
def decodeE (w : WE) (p : Option WP) : Dec Instr :=
  let op := w.op.toNat
  if op = 0xA6 then decTileMem .ald w p
  else if op = 0xA7 then decTileMem .ast w p
  else if op ≤ 0xB5 then decodeMem w p
  else do noLead p; decodeEngine w

/-! ### The decoder (R211) -/

def decodeBase (b : Base) (p : Option WP) : Dec Instr :=
  match b with
  | .r w => decodeR w p
  | .i w => decodeI w p
  | .b w => decodeBr w p
  | .m w => decodeM w p
  | .e w => decodeE w p

/-- A base instruction of two words. -/
def decode64 (w0 w1 : W32) (p : Option WP) : Dec Instr :=
  let v : BitVec 64 := w1 ++ w0
  match formatOf (v.extractLsb' 0 8).toNat with
  | none => .error .opcode
  | some f => decodeBase (Base.unpack f v) p

/-- The low byte of a word says a leading word (R210). -/
def isLead (w : W32) : Bool := w.extractLsb' 0 8 == 0xF0#8

/-- Decode at the first word of the list: the instruction and its length in bytes. -/
def decode : List W32 → Dec (Instr × Nat)
  | w0 :: w1 :: rest =>
    if isLead w0 then
      if isLead w1 then .error .doubleLead
      else match rest with
        | w2 :: _ => do
          let i ← decode64 w1 w2 (some (WP.unpack w0))
          .ok (i, 12)
        | [] => .error .truncated
    else do
      let i ← decode64 w0 w1 none
      .ok (i, 8)
  | _ => .error .truncated

/-- What the core executes for a word sequence: a sequence that is no instruction is the `ILL` row. -/
def decodeOrIll (ws : List W32) : Instr × Nat :=
  match decode ws with
  | .ok r => r
  | .error _ => (.ill, 8)

/-- Little-endian words of a byte list (R210). -/
def wordsOfBytes : List Byte → List W32
  | b0 :: b1 :: b2 :: b3 :: rest => (b3 ++ b2 ++ b1 ++ b0) :: wordsOfBytes rest
  | _ => []

def bytesOfWord (w : W32) : List Byte :=
  [w.extractLsb' 0 8, w.extractLsb' 8 8, w.extractLsb' 16 8, w.extractLsb' 24 8]

/-- The low `n` bytes of a number, the lowest first. -/
def bytesOfNat : Nat → Nat → List Byte
  | 0, _ => []
  | n + 1, w => BitVec.ofNat 8 w :: bytesOfNat n (w / 256)

/-- The instruction a word of the opcode table decodes to: bytes laid out little-endian (R210), bits above `nbits` zero,
twelve bytes in all, the longest instruction. A sequence that is no instruction is the row ILL. -/
def decodeTableWord (nbits w : Nat) : Option Instr :=
  some (decodeOrIll (wordsOfBytes (bytesOfNat 12 (w % 2 ^ nbits)))).1

/-! ### The encoder -/

/-- A base instruction with its leading word. -/
structure Enc where
  lead : Option WP
  base : Base
  deriving DecidableEq, Repr

/-- The words in stream order. -/
def Enc.words (e : Enc) : List W32 :=
  let v := e.base.pack
  let ws := [v.extractLsb' 0 32, v.extractLsb' 32 32]
  match e.lead with
  | none => ws
  | some p => p.pack :: ws

/-- A format-R record with every unused field neutral (R239). -/
def rBase (op : BitVec 8) (g : Guard) : WR :=
  ⟨0, 0, bit1 g.neg, bits4 g.p, 452, 452, 452, 452, 0, op⟩

def noGuard : Guard := ⟨0, false⟩

def encR (w : WR) : Option Enc := some ⟨none, .r w⟩

def mod8 (c : BitVec 8) : BitVec 11 := 0#3 ++ c
def mod1 (b : Bool) : BitVec 11 := 0#10 ++ bit1 b
def mod4 (n : Fin 16) : BitVec 11 := 0#7 ++ bits4 n
def ibBit (b : BSrc) : BitVec 11 := if isImm b then 0x400 else 0

def encAlu1 (op : BitVec 8) (x : Alu1) : Option Enc :=
  some ⟨encLead 452 0 x.o.pfx,
    .r { rBase op x.o.g with ty := encIntTy x.ty, d := encDst x.d, a := encSrc x.a, nw := bit1 x.o.nw }⟩

/-- The fields of a two-source integer instruction. -/
def wrAlu2 (op : BitVec 8) (x : Alu2) (m : BitVec 11) (c : BitVec 9) : WR :=
  { rBase op x.o.g with
    modi := ibBit x.b ||| m, ty := encIntTy x.ty, d := encDst x.d, a := encSrc x.a, b := encB x.b, c := c, nw := bit1 x.o.nw }

def encAlu2 (op : BitVec 8) (x : Alu2) : Option Enc :=
  some ⟨encLead 452 (extB x.b) x.o.pfx, .r (wrAlu2 op x 0 452)⟩

def wrAlu3 (op : BitVec 8) (x : Alu3) (m : BitVec 11) : WR :=
  { rBase op x.o.g with
    modi := ibBit x.b ||| m, ty := encIntTy x.ty, d := encDst x.d, a := encSrc x.a, b := encB x.b, c := encSrc x.c,
    nw := bit1 x.o.nw }

def encAlu3 (op : BitVec 8) (x : Alu3) : Option Enc :=
  some ⟨encLead 452 (extB x.b) x.o.pfx, .r (wrAlu3 op x 0)⟩

def encCarry (op : BitVec 8) (x : CarryOp) : Option Enc :=
  some ⟨encLead 452 (extB x.x.b) x.x.o.pfx, .r (wrAlu2 op x.x (0#3 ++ bits4 x.pIn ++ bits4 x.pOut) 452)⟩

def encPred2 (op : BitVec 8) (x : Pred2) : Option Enc :=
  encR { rBase op x.g with modi := 0#9 ++ bit1 x.nb ++ bit1 x.na, d := encP x.pd, a := encP x.pa, b := encP x.pb }

def encPred1 (op : BitVec 8) (x : Pred1) : Option Enc :=
  encR { rBase op x.g with d := encP x.pd, a := encP x.pa }

def encPredK (op : BitVec 8) (x : PredK) : Option Enc :=
  encR { rBase op x.g with d := encK x.d, a := encP x.pa, nw := bit1 x.nw }

def encF1 (op : BitVec 8) (x : F1) : Option Enc :=
  some ⟨encLead 452 0 x.o.pfx,
    .r { rBase op x.o.g with ty := encFTy x.ty, d := encDst x.d, a := encSrc x.a, nw := bit1 x.o.nw }⟩

def encF2 (op : BitVec 8) (x : F2) : Option Enc :=
  some ⟨encLead 452 0 x.o.pfx,
    .r { rBase op x.o.g with ty := encFTy x.ty, d := encDst x.d, a := encSrc x.a, b := encSrc x.b, nw := bit1 x.o.nw }⟩

def encPerm (op : BitVec 8) (x : PermOp) : Option Enc :=
  some ⟨encLead 452 (extB x.b) x.o.pfx,
    .r { rBase op x.o.g with
      modi := ibBit x.b, ty := encIntTy x.ty, d := encV x.d, a := encSrc x.a, b := encB x.b, nw := bit1 x.o.nw }⟩

def encKImm : KImm → BitVec 9
  | .k n => encK n
  | .imm i => i.extractLsb' 0 9

def extKImm : KImm → BitVec 7
  | .k _ => 0#7
  | .imm i => i.extractLsb' 9 7

def ibKImm : KImm → BitVec 11
  | .k _ => 0
  | .imm _ => 0x400

def encSlide (op : BitVec 8) (x : SlideOp) : Option Enc :=
  some ⟨encLead 452 (extKImm x.b) x.o.pfx,
    .r { rBase op x.o.g with
      modi := ibKImm x.b, ty := encIntTy x.ty, d := encV x.d, a := encSrc x.a, b := encKImm x.b, c := encSrc x.c,
      nw := bit1 x.o.nw }⟩

def encCompact (op : BitVec 8) (x : CompactOp) : Option Enc :=
  some ⟨encLead 452 0 x.o.pfx,
    .r { rBase op x.o.g with ty := encIntTy x.ty, d := encV x.d, a := encSrc x.a, c := encP x.q, nw := bit1 x.o.nw }⟩

/-- A format-M record with every unused field neutral (R222). -/
def mBase (op : BitVec 8) (t : TileOp) : WM :=
  ⟨bits3 t.tile, 0, bit1 t.blk, 0, 0, 0, 0, 452, 0, 452, 0, 452, bit1 t.g.neg, bits4 t.g.p, op⟩

def encM (w : WM) : Option Enc := some ⟨none, .m w⟩

def encRow (op : BitVec 8) (x : RowOp) : Option Enc :=
  encM { mBase op x.t with x := encV x.v, m1 := bits5 x.cm1, y := encSrc x.row }

def encStatus (op : BitVec 8) (x : StatusOp) : Option Enc :=
  encM { mBase op x.t with site := 1, x := encK x.k }

def encProm (op : BitVec 8) (site : BitVec 4) (x : PromOp) : Option Enc :=
  encM { mBase op x.t with site := site, x := encK x.k, m1 := bits5 x.mm1, n1 := bits5 x.nm1 }

/-- A format-E record with every unused field neutral (R223). -/
def eBase (op : BitVec 8) (g : Guard) : WE :=
  ⟨0, 0, 0, 0, 0, 0, bit1 g.neg, bits4 g.p, 452, 452, 452, op⟩

def encE (w : WE) : Option Enc := some ⟨none, .e w⟩

def encLds (op : BitVec 8) (h : BitVec 6) (x : LdsOp) : Option Enc :=
  some ⟨encMemLead 452 x.m.disp x.m.pfx,
    .e { eBase op x.g with
      disp := x.m.disp.extractLsb' 0 7, h := h, scope := encScope x.scope, order := if x.acq then 1 else 0,
      eop := quadBit x.sz, size := encSize x.sz, a := encSrc x.m.a, d := encV x.d }⟩

def encSts (op : BitVec 8) (h : BitVec 6) (x : StsOp) : Option Enc :=
  some ⟨encMemLead 452 x.m.disp x.m.pfx,
    .e { eBase op x.g with
      disp := x.m.disp.extractLsb' 0 7, h := h, scope := encScope x.scope, order := if x.rel then 2 else 0,
      eop := quadBit x.sz, size := encSize x.sz, a := encSrc x.m.a, b := encSrc x.b }⟩

def encTileMem (op : BitVec 8) (x : TileMem) : Option Enc :=
  some ⟨encMemLead 452 x.disp x.pfx,
    .e { eBase op x.g with
      disp := x.disp.extractLsb' 0 7, h := encH x.h, scope := encScope x.scope, eop := bits3 x.tile,
      size := 0#1 ++ bit1 x.blk ++ bit1 x.h.isSome, a := encKOpt x.a }⟩

def encLines (op : BitVec 8) (x : LinesOp) : Option Enc :=
  encE { eBase op x.g with h := bits6 x.h, a := encKOpt x.off, b := encKOpt x.len }

def encDesc (op : BitVec 8) (x : DescOp) : Option Enc :=
  encE { eBase op x.g with disp := x.disp, a := encSrc x.a }

def encGather (op : BitVec 8) (x : GatherOp) : Option Enc :=
  encE { eBase op x.g with disp := x.disp, size := encIntTy x.ty, a := encKOpt x.a, b := encSrc x.b }

def encQdesc (op : BitVec 8) (x : QdescOp) : Option Enc :=
  encE { eBase op noGuard with disp := x.disp, d := encKOpt x.d, a := encKOpt x.a }

/-- A direct format-B transfer. -/
def encBr (op : BitVec 8) (target : BitVec 24) : Option Enc :=
  some ⟨none, .b ⟨0, 0, target, 0, 0, 0, op⟩⟩

def encBrK (op : BitVec 8) (k : Fin 64) : Option Enc :=
  some ⟨none, .b ⟨1, 0, 0#18 ++ bits6 k, 0, 0, 0, op⟩⟩

/-- The encoding of an instruction row; an event row has none. -/
def encode : Instr → Option Enc
  | .nop g => encR (rBase 0x01 g)
  | .bra x => some ⟨none, .b ⟨0, x.reconv, x.target, bit1 x.hint, bit1 x.neg, bits4 x.pred, 0x02⟩⟩
  | .jmpDirect t => encBr 0x03 t
  | .jmpIndirect k => encBrK 0x03 k
  | .callDirect t => encBr 0x04 t
  | .callIndirect k => encBrK 0x04 k
  | .ret => encR (rBase 0x05 noGuard)
  | .loop k t => some ⟨none, .b ⟨0, 0, t, (bits6 k).extractLsb' 5 1, (bits6 k).extractLsb' 4 1, (bits6 k).extractLsb' 0 4, 0x06⟩⟩
  | .join => encR (rBase 0x07 noGuard)
  | .exit g => encR (rBase 0x08 g)
  | .region r => encR { rBase 0x09 noGuard with a := encLo r, b := encHi r }
  | .yield => encR (rBase 0x0A noGuard)
  | .brk c g => encR { rBase 0x0B g with modi := mod8 c }
  | .trap c g => encR { rBase 0x0C g with modi := mod8 c }
  | .eret => encR (rBase 0x0D noGuard)
  | .elect pd g => encR { rBase 0x0E g with d := encP pd }
  | .matchKeys ty ⟨d, nw⟩ a g => encR { rBase 0x0F g with nw := bit1 nw, ty := encIntTy ty, d := encV d, a := encSrc a }
  | .regroup k r => encR { rBase 0x10 noGuard with a := encSrc k, b := encLo r, c := encHi r }
  | .launch a g => encR { rBase 0x11 g with a := encSrc a }
  | .wchild => encR (rBase 0x12 noGuard)
  | .bar n => encR { rBase 0x13 noGuard with modi := mod4 n }
  | .shmap ⟨d, nw⟩ a r => encR { rBase 0x14 noGuard with nw := bit1 nw, d := encKOpt d, a := encKOpt a, b := encLo r, c := encHi r }
  | .fwr ⟨d, nw⟩ a g => encR { rBase 0x15 g with nw := bit1 nw, d := encV d, a := encSrc a }
  | .frd ⟨d, nw⟩ a g => encR { rBase 0x16 g with nw := bit1 nw, d := encV d, a := encV a }
  | .mat ⟨d, nw⟩ wide => encR { rBase 0x17 noGuard with nw := bit1 nw, d := encV d, ty := if wide then 2 else 0 }
  | .rep ⟨d, nw⟩ pr n => encR { rBase 0x18 noGuard with nw := bit1 nw, d := encK d, a := encV n, modi := mod1 pr }
  | .halt c g => encR { rBase 0x19 g with modi := mod8 c }
  | .getsr ⟨d, nw⟩ n g => encR { rBase 0x1A g with nw := bit1 nw, d := encK d, modi := mod8 (encSr n) }
  | .setsr n a g => encR { rBase 0x1B g with a := encK a, modi := mod8 (encSr n) }
  | .tick ⟨d, nw⟩ g => encR { rBase 0x1C g with nw := bit1 nw, d := encK d }
  | .tickS ⟨d, nw⟩ g => encR { rBase 0x1C g with nw := bit1 nw, d := encK d, modi := 1 }
  | .cpub ⟨d, nw⟩ g => encR { rBase 0x1D g with nw := bit1 nw, d := encKOpt d }
  | .cinv g => encR (rBase 0x1E g)
  | .tlbiVa a b g => encR { rBase 0x1F g with a := encK a, b := encK b }
  | .tlbiTcid b g => encR { rBase 0x1F g with b := encK b, modi := 1 }
  | .tlbiAll g => encR { rBase 0x1F g with modi := 2 }
  | .pmap d a g => encR { rBase 0x20 g with d := encK d, a := encK a }
  | .ctr ⟨d, nw⟩ n g => encR { rBase 0x21 g with nw := bit1 nw, d := encK d, modi := mod4 n }
  | .ctrClr ⟨d, nw⟩ n g => encR { rBase 0x21 g with nw := bit1 nw, d := encK d, modi := 0#6 ++ 1#1 ++ bits4 n }
  | .add x => encAlu2 0x30 x
  | .sub x => encAlu2 0x31 x
  | .addc x => encCarry 0x32 x
  | .subb x => encCarry 0x33 x
  | .mul x => encAlu2 0x34 x
  | .mulh x => encAlu2 0x35 x
  | .mad x => encAlu3 0x36 x
  | .div x => encAlu2 0x37 x
  | .rem x => encAlu2 0x38 x
  | .min x => encAlu2 0x39 x
  | .max x => encAlu2 0x3A x
  | .abs x => encAlu1 0x3B x
  | .neg x => encAlu1 0x3C x
  | .sadd x => encAlu2 0x3D x
  | .ssub x => encAlu2 0x3E x
  | .lea x => some ⟨encLead 452 (extB x.x.b) x.x.o.pfx, .r (wrAlu2 0x3F x.x (0#5 ++ bits6 x.sh) 452)⟩
  | .and x => encAlu2 0x40 x
  | .or x => encAlu2 0x41 x
  | .xor x => encAlu2 0x42 x
  | .not x => encAlu1 0x43 x
  | .andn x => encAlu2 0x44 x
  | .shl x => encAlu2 0x45 x
  | .shr x => encAlu2 0x46 x
  | .sar x => encAlu2 0x47 x
  | .rol x => encAlu2 0x48 x
  | .ror x => encAlu2 0x49 x
  | .clz x => encAlu1 0x4A x
  | .ctz x => encAlu1 0x4B x
  | .ffs x => encAlu1 0x4C x
  | .popc x => encAlu1 0x4D x
  | .brev x => encAlu1 0x4E x
  | .bfx x => encAlu2 0x4F x
  | .bfi x => encAlu3 0x50 x
  | .sel x => some ⟨encLead 452 (extB x.x.b) x.x.o.pfx, .r (wrAlu2 0x51 x.x (mod1 x.qneg) (encP x.q))⟩
  | .cmp x => some ⟨encLead 452 (extB x.b) x.pfx,
      .r { rBase 0x52 x.g with
        modi := ibBit x.b ||| (0#8 ++ encRel x.rel), ty := encIntTy x.ty, d := encP x.pd, a := encSrc x.a, b := encB x.b }⟩
  | .mov x => encAlu1 0x53 x
  | .movi x => some ⟨none, .i ⟨x.imm, bit1 x.g.neg, bits4 x.g.p, 452, encVK x.d, bit1 x.nw, 0x54⟩⟩
  | .movk x => some ⟨none, .i ⟨x.imm, bit1 x.g.neg, bits4 x.g.p, 452, encK x.d, bit1 x.nw, 0x55⟩⟩
  | .cvt x => some ⟨encLead 452 0 x.o.pfx,
      .r { rBase 0x56 x.o.g with
        modi := 0#2 ++ bit1 x.sat ++ encDstTy x.dst ++ bit1 (numSf x.src) ++ 0#3, ty := encNumTy x.src,
        d := encDst x.d, a := encSrc x.a, nw := bit1 x.o.nw }⟩
  | .pack x => some ⟨encLead (encSrc x.d4) (extB x.b) x.o.pfx,
      .r { rBase 0x57 x.o.g with
        modi := ibBit x.b ||| (0#2 ++ bit1 x.sat ++ encDstTy x.dst ++ bit1 (numSf x.src) ++ 0#3), ty := encNumTy x.src,
        d := encDst x.d, a := encSrc x.a, b := encB x.b, c := encSrc x.c, nw := bit1 x.o.nw }⟩
  | .unpk x => some ⟨encLead 452 0 x.o.pfx,
      .r { rBase 0x58 x.o.g with
        modi := 0#2 ++ bit1 x.sat ++ encDstTy x.dst ++ bit1 (numSf x.src) ++ bits3 x.e, ty := encNumTy x.src,
        d := encDst x.d, a := encSrc x.a, nw := bit1 x.o.nw }⟩
  | .prm x => encAlu3 0x59 x
  | .dp4 x => some ⟨encLead 452 (extB x.x.b) x.x.o.pfx, .r (wrAlu3 0x5A x.x (0#5 ++ bits5 x.r ++ bit1 x.sat))⟩
  | .pand x => encPred2 0x60 x
  | .por x => encPred2 0x61 x
  | .pxor x => encPred2 0x62 x
  | .pnot x => encPred1 0x63 x
  | .pmov x => encPred1 0x64 x
  | .pset x => encR { rBase 0x65 x.g with d := encP x.pd, modi := mod1 x.val }
  | .pcnt x => encPredK 0x66 x
  | .pfirst x => encPredK 0x67 x
  | .fadd x => encF2 0x70 x
  | .fsub x => encF2 0x71 x
  | .fmul x => encF2 0x72 x
  | .fma x => some ⟨encLead 452 0 x.o.pfx,
      .r { rBase 0x73 x.o.g with
        ty := encFTy x.ty, d := encDst x.d, a := encSrc x.a, b := encSrc x.b, c := encSrc x.c, nw := bit1 x.o.nw }⟩
  | .fmin x => encF2 0x74 x
  | .fmax x => encF2 0x75 x
  | .fabs x => encF1 0x76 x
  | .fneg x => encF1 0x77 x
  | .fcmp x => some ⟨encLead 452 0 x.pfx,
      .r { rBase 0x78 x.g with
        modi := 0#8 ++ encFRel x.rel, ty := if x.wide then 1 else 0, d := encP x.pd, a := encSrc x.a, b := encSrc x.b }⟩
  | .fcvt x => some ⟨encLead 452 0 x.o.pfx,
      .r { rBase 0x79 x.o.g with
        modi := 0#3 ++ encDstTy (.fp x.dst) ++ 0#4, ty := encFTy x.src, d := encDst x.d, a := encSrc x.a, nw := bit1 x.o.nw }⟩
  | .frnd x => encF1 0x7A x
  | .fclass x => encF1 0x7B x
  | .frcp x => encF1 0x7C x
  | .frsq x => encF1 0x7D x
  | .fsqrt x => encF1 0x7E x
  | .fex2 x => encF1 0x7F x
  | .flg2 x => encF1 0x80 x
  | .fsin x => encF1 0x81 x
  | .fcos x => encF1 0x82 x
  | .ftanh x => encF1 0x83 x
  | .fdiv x => encF2 0x84 x
  | .fscale x => encF2 0x85 x
  | .shfl x => encPerm 0x90 x
  | .bcast x => encPerm 0x91 x
  | .slup x => encSlide 0x92 x
  | .sldn x => encSlide 0x93 x
  | .cmpr x => encCompact 0x94 x
  | .expd x => encCompact 0x95 x
  | .red x => some ⟨encLead 452 0 x.o.pfx,
      .r { rBase 0x96 x.o.g with
        modi := 0#7 ++ bit1 (numSf x.ty) ++ encRedOp x.op, ty := encNumTy x.ty, d := encDst x.d, a := encSrc x.a,
        nw := bit1 x.o.nw }⟩
  | .scan x => some ⟨encLead 452 0 x.o.pfx,
      .r { rBase 0x97 x.o.g with
        modi := 0#7 ++ bit1 (numSf x.ty) ++ encRedOp x.op, ty := encNumTy x.ty, d := encV x.d, a := encSrc x.a,
        c := encPOpt x.seg, nw := bit1 x.o.nw }⟩
  | .ballot x => some ⟨encLead 452 0 x.o.pfx,
      .r { rBase 0x98 x.o.g with d := encVK x.d, a := encP x.pa, nw := bit1 x.o.nw }⟩
  | .vote x => some ⟨encLead 452 0 x.pfx,
      .r { rBase 0x99 x.g with modi := 0#9 ++ encVoteMode x.mode, d := encP x.pd, a := encP x.pa }⟩
  | .topk x => some ⟨encLead 452 0 x.o.pfx,
      .r { rBase 0x9A x.o.g with
        modi := 0#7 ++ bit1 (topkSf x.ty) ++ bits3 x.km1, ty := encTopkTy x.ty, d := encV x.d, a := encSrc x.a,
        c := encV x.vi, nw := bit1 x.o.nw }⟩
  | .fmt (.imm i) g => some ⟨none, .i ⟨i, bit1 g.neg, bits4 g.p, 452, 452, 0, 0xA0⟩⟩
  | .fmt (.k n) g => some ⟨none, .i ⟨0, bit1 g.neg, bits4 g.p, encK n, 452, 0, 0xA0⟩⟩
  | .opa x => encM ⟨bits3 x.tile, bits4 x.site, bit1 x.blk, bit1 x.ymode, bits2 x.ysel, bit1 x.xmode, bits2 x.xsel,
      encSrc x.e, bits5 x.nm1, encV x.y, bits5 x.mm1, encV x.x, bit1 x.g.neg, bits4 x.g.p, 0xA1⟩
  | .opc x => encM { mBase 0xA2 x.t with site := bits4 x.site }
  | .azero x => encM (mBase 0xA3 x)
  | .areadRow x => encRow 0xA4 x
  | .areadStatus x => encStatus 0xA4 x
  | .awrtRow x => encRow 0xA5 x
  | .awrtStatus x => encStatus 0xA5 x
  | .ald x => encTileMem 0xA6 x
  | .ast x => encTileMem 0xA7 x
  | .afence => encM (mBase 0xA8 ⟨0, false, noGuard⟩)
  | .await x => encM { mBase 0xA9 x.t with site := bits4 x.site }
  | .apromCvt x => encProm 0xAA 0 x
  | .apromScl x => encProm 0xAA 1 x
  | .lds x => encLds 0xB0 0 x
  | .sts x => encSts 0xB1 0 x
  | .ldw x => encLds 0xB2 (bits6 x.h) x.x
  | .stw x => encSts 0xB3 (bits6 x.h) x.x
  | .atom x => some ⟨encMemLead 452 x.m.disp x.m.pfx,
      .e { eBase 0xB4 x.g with
        disp := x.m.disp.extractLsb' 0 7, h := encH x.h, scope := encScope x.scope, order := encOrder x.order,
        eop := bit1 x.h.isSome ++ encAtomSel x.op, size := encAtomSize x.op, a := encSrc x.m.a, b := encSrc x.b,
        d := encVOpt x.d }⟩
  | .cas x => some ⟨encMemLead (encSrc x.swap) x.m.disp x.m.pfx,
      .e { eBase 0xB5 x.g with
        disp := x.m.disp.extractLsb' 0 7, h := encH x.h, scope := encScope x.scope, order := encOrder x.order,
        eop := bit1 x.h.isSome ++ 0#1 ++ bit1 x.failAcq, size := encIntTy x.ty, a := encSrc x.m.a, b := encSrc x.b,
        d := encVOpt x.d }⟩
  | .fence x => encR { rBase 0xB6 x.g with nw := bit1 x.nw, modi := 0#6 ++ encScope x.scope ++ encOrder x.order, d := encKOpt x.d }
  | .wait x => encR { rBase 0xB7 x.g with modi := 0#8 ++ encPath x.path, a := encKOpt x.bound }
  | .push lo hi => encR { rBase 0xB8 noGuard with a := encV lo, b := encV hi }
  | .pop lo hi => encR { rBase 0xB9 noGuard with a := encV lo, b := encV hi }
  | .rmap h k g => encE { eBase 0xBA g with h := bits6 h, a := encKOpt k }
  | .runmap h g => encE { eBase 0xBB g with h := bits6 h }
  | .rwb x => encLines 0xBC x
  | .rinv x => encLines 0xBD x
  | .rfill x => encLines 0xBE x
  | .copy x => encDesc 0xC0 x
  | .gather x => encGather 0xC1 x
  | .scatter x => encGather 0xC2 x
  | .xatom x => encE { eBase 0xC3 x.g with
      scope := encScope x.scope, order := if x.rel then 2 else 0, eop := 0#1 ++ encAtomSel x.op, size := encAtomSize x.op,
      a := encVK x.a, b := encSrc x.b, d := encSrc x.d }
  | .coll x => encDesc 0xC4 x
  | .dred x => encE { eBase 0xC5 x.g with eop := encDredOp x.op, size := encDredTy x.ty, a := encVK x.a, b := encSrc x.b }
  | .stash x => encDesc 0xC6 x
  | .seal h => encE { eBase 0xC7 noGuard with h := bits6 h }
  | .qpush x => encE { eBase 0xD0 x.g with d := encVOpt x.d, a := encSrc x.a, b := encV x.b }
  | .qfire d a g => encE { eBase 0xD1 g with d := encKOpt d, a := encK a }
  | .qstat d a g => encE { eBase 0xD2 g with d := encK d, a := encK a }
  | .eslotGet d a => encE { eBase 0xD3 noGuard with d := encK62 d, a := encK a }
  | .eslotReady a => encE { eBase 0xD3 noGuard with eop := 1, a := encK a }
  | .eslotPut a => encE { eBase 0xD3 noGuard with eop := 2, a := encK a }
  | .qcomb x => encQdesc 0xD4 x
  | .qdrain x => encQdesc 0xD5 x
  | _ => none

/-- The words of an instruction in stream order; an event row has none. -/
def encodeWords (i : Instr) : List W32 :=
  match encode i with
  | some e => e.words
  | none => []

end Sys2Proof
end

