-- ==== Sys2Proof/Config.lean ====
section
/-! DEFINITION. What an implementation fixes and what the spec leaves open: constants with a value are named in the
assumption log; an opaque constant is a free value, and nothing in Lean can evaluate it. -/

namespace Sys2Proof

/-- A tier-2 address decoder (R32, R401): base and size in bytes, the granularity of its interleave, and its ports in order, one for each
way. -/
structure Decoder where
  base : Nat
  size : Nat
  gran : Nat
  ports : List (Fin 8)
  deriving DecidableEq, Repr

end Sys2Proof

namespace Sys2Proof.Config

open Sys2Proof

/-- Ticks of the yield bound (R248). -/
def yieldTicks : Nat := 64
/-- Ticks between two issues of a demoted fragment (R188). -/
def demotedTicks : Nat := 256
/-- Ticks after which a pre-empted context stops at its next instruction boundary (R391). -/
def preemptTicks : Nat := 4096
/-- Ticks per level of launch-queue ageing and of placement starvation (R355, R357). -/
def ageTicks : Nat := 65536
/-- Ticks per level of array-request ageing (R362). -/
def geyserAgeTicks : Nat := 1024
/-- Bytes per tick of a core's clearing engine (R12). -/
def clearBytes : Nat := 128
/-- Line translations a die holds at once (R80). -/
def lineTranslations : Nat := 65536
/-- Distinct runs translated per chunk of an engine command (R60). -/
def chunkRuns : Nat := 4096
/-- Tier-1 bytes reachable during the Thaw service (R420). -/
def thawBytes : Nat := 0x10000000
/-- Capacity of a mailbox launch queue, and of a child or Caldera queue (R354). -/
def mailboxQueueRoom : Nat := 256
def otherQueueRoom : Nat := 512

/-- Bits read from a bypass latch while it is undefined (R185): a free value, a fresh one for each counter value and
position. Log entry 1. -/
opaque freeLatch (ctr pos : Nat) : W64

/-- A cell of an accumulator tile that is read while a contraction that covers it is open (R133). Log entry 2. -/
opaque freeCell (ctr pos word : Nat) : W32

/-- A byte of tier-1 memory after Equinox stop and package reset (R415): by stop epoch and address. Log entry 3. -/
opaque freeTier1 (epoch addr : Nat) : Byte

/-- The fixed hash that picks a port among the live ports of a route (R402): destination device and page number.
Log entry 4. -/
opaque portHash (device page : Nat) : Nat

/-- The SM3 digest of a byte string, 32 bytes as a number, first byte lowest (R416). Log entry 5. -/
opaque sm3 (data : List Byte) : Nat

/-- The SM2 signature of the management controller's key over a digest, r then s, 64 bytes, first byte lowest (R422).
Log entry 5. -/
opaque sm2Sign (digest : Nat) : Nat

/-- Does an SM2 signature verify over a message digest (R418, R421, R423)? Log entry 5. -/
opaque sm2Verify (sig : List Byte) (digest : Nat) : Bool

/-- The firmware image in the module's flash as it came, its last 64 bytes the signature (R418, R422). Log entry 5. -/
opaque flashImage : List Byte

/-- The configuration record (R419): its bytes as the signature and R422 take them, its signature, and the trim values of the dies. Log entry 5. -/
opaque recordBytes (mask : BitVec 256) (tier1 serial : Nat) (trims : List Nat) : List Byte
opaque recordSig : List Byte
opaque trims : List Nat

/-- The errors of the LPDDR-6 training after a package reset, each logged and retried (R418), by the number of the reset. Log entry 5. -/
opaque trainingErrors (resets : Nat) : Nat

/-- The byte of another device's memory, or of the host's behind a dead link, that a recorded range names (R416): by counter and position.
Log entry 75. -/
opaque farByte (ctr pos : Nat) : Byte

/-- The nonce of the debug port after a package reset (R423), by count of resets. Log entry 5. -/
opaque portNonce (resets : Nat) : List Byte

/-- Does an image that the driver has loaded for a TCID start at this 64-byte unit (R231, R237)? The device is given no image address. Log
entry 8. -/
opaque imageStart (tcid unit : Nat) : Bool

/-- The start of the image that holds a 64-byte unit: the nearest at or below it. -/
def imageUnit (tcid : Nat) : Nat → Nat
  | 0 => 0
  | n + 1 => if imageStart tcid (n + 1) then n + 1 else imageUnit tcid n

/-- The address of the image that holds a kernel, for a header outside every image that State lists. -/
def imageBase (tcid header : Nat) : W64 := BitVec.ofNat 64 (64 * imageUnit tcid (header / 64))

/-- The tier-2 address decoders as the firmware programs them at bring-up (R32, R401): the spec gives no setting of them. Log entry 10. -/
opaque decoders : List Decoder

/-- Which of the values that a register held during a contraction the array reads, by array request, item and element
(R131): true for the later one. Log entry 9. -/
opaque arrayReadsLate (ctr pos elem : Nat) : Bool

/-- Which of the moments at which a read may be placed it is placed at (R112, R117): by counter and access, modulo their number. Log
entry 121. -/
opaque staleRead (ctr pos : Nat) : Nat

/-- The ticks within which a performed write is visible to every agent (R123): the spec gives no number. Log entry 136. -/
opaque visibleTicks : Nat

/-- A word of a queue entry whose spill-ring line cannot be read back (R373): by counter and word. Log entry 11. -/
opaque freeEntry (ctr word : Nat) : W32

/-- Is a 16-byte unit of a slot, written after the tail came to cover the slot, read new at the slot's application (R397)? By slot
count and unit. Log entry 12. -/
opaque lateUnit (count unit : Nat) : Bool

/-- The host address and log2 of the slot count of the notice ring that firmware sets at bring-up (R400). Log entry 6. -/
def noticeBase : Nat := 0x40000000
def noticeLog : Nat := 12

/-- Installed capacity of a full module's tier 1 in bytes (R30, R1). Log entry 7. -/
def tier1Capacity : Nat := 0xB2D05E0000

/-- The serial number of the part (R419). Log entry 7. -/
def serialNumber : Nat := 0

end Sys2Proof.Config
end

