-- ==== Sys2Proof/Machine/State.lean ====
section
/-! DEFINITION. Everything the spec gives the machine, as plain data, and the machine right after package reset. -/

namespace Sys2Proof.Machine

open Sys2Proof

/-! ### Memories -/

/-- A byte memory in one canonical form: addresses strictly rising, and no entry equal to what an unlisted address reads
as. `epoch` counts the Equinox stops that made the contents undefined (R415): with 0 an unlisted byte reads zero. -/
structure Mem where
  cells : List Host.Cell
  epoch : Nat
  deriving DecidableEq, Repr

def Mem.empty : Mem := ⟨[], 0⟩

/-- Sparse tables by number: strictly rising keys. -/
abbrev SMap (α : Type) := List (Nat × α)

/-! ### Registers (R182) -/

/-- Representation tag of a vector register, with the descriptor of a UNI or AFF value (R157). The two halves of a 64-bit
AFF pair carry the pair's base and stride. An AFF value at position i of the context is base + stride × i. -/
inductive VTag where
  | uni (v : W32)
  | aff (base stride : W32)
  | affLo (base stride : W64)
  | affHi (base stride : W64)
  | mat
  deriving DecidableEq, Repr

/-- A predicate with its tag (R158, R161): `thr t below` holds at the items whose index is below t, or at least t. -/
inductive PTag where
  | uni (b : Bool)
  | thr (t : Nat) (below : Bool)
  | mat (m : Lanes)
  deriving DecidableEq, Repr

/-- A value with its tag, as an operand or a latch holds it: `aff` with `wide` for 64 bits; `mat` one value per position. -/
inductive Val where
  | uni (v : W64)
  | aff (wide : Bool) (base stride : W64)
  | mat (xs : List W64)
  deriving DecidableEq, Repr

/-- The register state of a fragment (R172): k registers, `fmt`, predicates, vector tags, bypass latches (none where
undefined, R185) and the return stack (R242). -/
structure Regs where
  k : Vector W64 64
  fmt : W32
  preds : Vector PTag 16
  vtags : SMap VTag
  latches : Vector (Option Val) 4
  /-- the model's own count of the latches' shifts, by which a latch that a load has still to fill is told (R360) -/
  shifts : Nat
  /-- the model's own: the k registers written since the fragment last vectored (R63) -/
  kw : BitVec 64
  rstack : List VAddr
  deriving DecidableEq, Repr

/-- What a restart brings back of a region's inputs (R247, R390): taken when the region opens. -/
structure RegionSnap where
  k : Vector W64 64
  fmt : W32
  preds : Vector PTag 16
  rstack : List VAddr
  vregs : SMap (VTag × List W32)
  deriving DecidableEq, Repr

/-- The region instance a fragment is in (R247, R389): entry address, input range, inputs, and whether its commit
instruction has been executed. `serial` tells instances apart. -/
structure Region where
  entry : VAddr
  range : VRange
  snap : RegionSnap
  committed : Bool
  serial : Nat
  deriving DecidableEq, Repr

/-- Why a fragment is not issuing: what it waits for. -/
inductive WaitFor where
  /-- a fetch line (R34) -/
  | fetch (line : VAddr)
  /-- translations, first touches or fills the instruction needs; it is issued again (R58, R60, R78) -/
  | retry
  /-- an operand collector, until a cycle (R184) -/
  | collector (until_ : Nat)
  /-- `bar n` (R257) -/
  | bar (n : Nat)
  /-- `fence` (R127) -/
  | fence
  /-- `wait` (R330) -/
  | counter
  /-- `wchild` (R256) -/
  | wchild
  /-- `fwr`, `frd` (R259) -/
  | fullEmpty
  /-- `shmap` (R258) -/
  | shmap
  /-- `regroup` (R179) -/
  | regroup
  /-- `await`, or `opa` under R319 -/
  | await
  /-- room in the array queue at `opa` (R316) -/
  | queueRoom
  /-- `tlbi` number n (R57) -/
  | tlbi (n : Nat)
  /-- `pmap` (R67) -/
  | pmap
  /-- `seal` (R347) -/
  | seal
  /-- `qpush` entries not yet appended (R349) -/
  | qpush
  /-- a child launch queue (R255) -/
  | childQueue
  /-- `eslot.get`, with `sr.clayer` as its request read it (R351) -/
  | eslot (clayer : W64)
  /-- room in a Caldera launch queue at `qdrain` (R354), or its write-backs (R353) -/
  | qdrain
  deriving DecidableEq, Repr

/-- A waiting instruction: the reason index of R267 it counts under, what it waits for, the instruction with its length, and when it began. -/
structure Wait where
  reason : Nat
  what : WaitFor
  instr : Instr
  len : Nat
  stamp : Nat
  deriving DecidableEq, Repr

/-- A pending register write of a load (R77): the tag and words of each register, to be written at `lanes` when the data
returns; `serial` is the region instance it was issued in, and `handler` says that a handler issued it. -/
structure PendingLoad where
  dst : List (Nat × VTag × List W32)
  lanes : Lanes
  serial : Nat
  handler : Bool
  /-- the shift with which b0 took its result -/
  shift : Nat
  deriving DecidableEq, Repr

/-- The state saved at vectoring (R62, R64), with the fault mask p14 of the entry. `owner` is the fragment that vectored. `held` is what
the interrupted region's inputs held then, beside which a write of the handler is told (R63). -/
structure Shadow where
  owner : Nat
  k : List W64
  p14 : PTag
  p15 : PTag
  fmt : W32
  region : Region
  held : RegionSnap
  deriving DecidableEq, Repr

/-- A park (R386): its number, fault code, cause, fault mask, address field, whether it was taken in handler mode, and the host's
answer that came while the block was saved (true to resume). -/
structure Park where
  id : Nat
  code : Nat
  cause : Nat
  mask : Lanes
  addr : Nat
  inHandler : Bool
  answer : Option Bool
  deriving DecidableEq, Repr

/-- A fault of R48 or R59. -/
inductive TFault where
  | protection
  /-- not present: the leaf's fp, the walk level reached and the leaf as read -/
  | notPresent (fp : Bool) (level : Nat) (leaf : W64)
  deriving DecidableEq, Repr

/-- States of a split-table entry (R170). -/
inductive FState where
  | running | arrived | parked | exited
  deriving DecidableEq, Repr

/-- The memories that a lane access or an engine reaches: a block's shared memory, a die's scratchpad, or physical memory. -/
inductive MemSpace where
  | shared (block : Nat)
  | scratch (die : Nat)
  | tier1
  | tier2
  | host
  deriving DecidableEq, Repr

/-! ### Visibility (R102-R120) -/

/-- A memory agent (R102): a fragment, that of the root entry standing for its context; the map unit of a die; the mailbox engine; the host; the
agents of another device. DESIGN CHOICE (log 121): the host's threads are one agent, and so are those of another device. -/
inductive Agent where
  | frag (ctx frag : Nat)
  | mapUnit (die : Nat)
  | mailbox
  | host
  | device (n : Nat)
  deriving DecidableEq, Repr

/-- What an agent knows of the writes of others: every write up to `floor`; of each agent's those up to its clock; and of single 8-byte words the
last write that it has seen. Writes are told by their numbers, which rise in coherence order. -/
structure Horizon where
  floor : Nat
  clock : List (Agent × Nat)
  seen : List (MemSpace × Nat × Nat)
  deriving DecidableEq, Repr

/-- A release head (R113): its scope, the agent that made it, and what that knew. -/
structure Head where
  scope : Scope
  who : Agent
  view : Horizon
  deriving DecidableEq, Repr

/-- A write that has been performed: its number, the agent whose event it is, the cycle, what its bytes held before, the release heads of its
chain, and whether no read may come before it. -/
structure PastWrite where
  id : Nat
  who : Agent
  cycle : Nat
  space : MemSpace
  addr : Nat
  len : Nat
  old : List Byte
  heads : List Head
  all : Bool
  deriving DecidableEq, Repr

/-- A `cpub` (R134): its number among the events of its agent, the launch, what the agent knew, and the count of notices with that of the
launch's completion, once it is posted. -/
structure Publish where
  id : Nat
  who : Agent
  seq : Nat
  view : Horizon
  noted : Option W32
  deriving DecidableEq, Repr

/-- The registers that the spin detector compares (R188): MAT registers by their words at the fragment's own items. -/
structure SpinRegs where
  k : Vector W64 64
  preds : Vector PTag 16
  vtags : SMap VTag
  mat : List (Nat × List W32)
  deriving DecidableEq, Repr

/-- The spin detector's memory of a fragment (R188): the backward branch, the registers at its last execution, the number of unchanged
iterations, whether the fragment is demoted, and what the loop has read since its first execution: vector registers of a mapped range, and
8-byte words of memory. -/
structure Spin where
  branch : VAddr
  regs : Option SpinRegs
  unchanged : Nat
  demoted : Bool
  vreads : List Nat
  reads : List (MemSpace × Nat)
  deriving DecidableEq, Repr

/-- A split-table entry with its fragment (R170, R172). `id` tells the fragments of a context apart, and `entry` is the number of the entry
that the fragment holds in its partition's table, 0 to 63, of no meaning while `entryParked`. The masks are the fragment's active items by
position of the context; `hasChildren` says that the entry has been cut and waits for its fuse. `busy` is the cycle from which the fragment
may issue again after its last instruction's slot ticks (R427), and `bank` is how many of these, the last ones, wait for a shared-memory bank
(R76). `collector` is the cycle in which the operand collector that it holds releases its next instruction (R184). `reserved` names the
parked strips of a capacity cut that have become resident beside others, with a reservation of their own (R69). `asks` are the first touches
that its waiting instruction has asked for, by region slot and line, and `touched` those of them that have failed (R58). `view` is what the
fragment knows of the writes of others, `rel` its release fences, which head every later write, `acq` the heads that its relaxed reads have met,
which an acquire fence takes up (R113), and `filled` the heads that the fills of its waiting load have met (R125). -/
structure Frag where
  id : Nat
  entry : Nat
  parent : Option Nat
  state : FState
  first : Nat
  last : Nat
  depth : Nat
  capacity : Bool
  pc : VAddr
  reconv : VAddr
  fmtCut : W32
  mask : Lanes
  regs : Regs
  region : Region
  cont : VAddr
  hasChildren : Bool
  passedSinceCut : List (Nat × Option Nat × Nat)
  wait : Option Wait
  loads : List PendingLoad
  park : Option Park
  shadow : Option Shadow
  lastIssue : Nat
  /-- the cycle after which it has been looked at for a pending register write (R408) -/
  looked : Nat
  busy : Nat
  bank : Nat
  collector : Option Nat
  reserved : Option Nat
  hold : Nat
  yieldUntil : Nat
  spin : Spin
  entryParked : Option Nat
  trapWait : Bool
  asks : List (Nat × Nat)
  touched : List (Nat × Nat × TFault)
  arrival : Option (Nat × Bool)
  view : Horizon
  rel : List Head
  acq : List Head
  filled : List Head
  deriving DecidableEq, Repr

/-! ### Contexts and blocks -/

/-- Outcomes not yet gathered by a fence (R128, R129). -/
structure Outcomes where
  uerr : Nat
  refused : Nat
  deadPod : Nat
  deadHost : Nat
  deriving DecidableEq, Repr

/-- Where a context stands. -/
inductive CState where
  /-- in a partition -/
  | resident
  /-- built by `regroup` and not yet resident, or parked for another of its block (R180) -/
  | parked
  /-- stopped and saved by pre-emption (R391) -/
  | saved
  /-- every item has retired and the context has left -/
  | left
  deriving DecidableEq, Repr

/-- What a register held before an `fwr` of the partner that an `afence` of this context has not awaited yet, and whether the context has
observed that write (R132). -/
structure OldWords where
  reg : Nat
  words : List W32
  seen : Bool
  deriving DecidableEq, Repr

/-- The mapping of `shmap` (R186): the partner, the range, the full bits, low register first, and what the operand-ready rule keeps
(R132). -/
structure ShMap where
  partner : Nat
  lo : Nat
  hi : Nat
  full : List Bool
  olds : List OldWords
  deriving DecidableEq, Repr

/-- A context (R102, R157, R180, R182). `items` is the set of the iidx of a context built by `regroup`, whose positions ascend through it; none is
a block's strip run from `base`. `debugWrites` are what a debugger has written by fragment, to take effect at the resume (R395). `gained` is
what the commands that have been lowered have met, by path, which a `wait` takes up (R115). `origin` is the item index at position 0, and that of
the block's first item for a regrouped context. -/
structure Ctx where
  id : Nat
  block : Nat
  core : Nat
  part : Nat
  slot : Nat
  state : CState
  strips : Nat
  firstStrip : Nat
  origin : Nat
  items : Option Lanes
  posBase : Nat
  live : Lanes
  retired : Lanes
  mat : SMap (List W32)
  frags : List Frag
  counters : Vector Nat 6
  outcomes : Outcomes
  stalls : Vector Nat 16
  handlerEntries : Nat
  snapDone : Bool
  shmap : Option ShMap
  shWish : Option (Nat × Nat × Nat)
  children : List (Nat × Nat)
  damage : List (Nat × Nat)
  preempt : Option Nat
  stopping : Bool
  halted : Bool
  issued : Bool
  debugWrites : List (Nat × DebugTarget)
  gained : List (Path × Horizon × List Head)
  deriving DecidableEq, Repr

/-- The parameters a contraction records at its opening (R318). -/
structure OpaParams where
  fmt : W32
  m : Nat
  n : Nat
  xmode : Bool
  ymode : Bool
  xsel : Nat
  ysel : Nat
  deriving DecidableEq, Repr

/-- What the array has read for one item (R131): the containers of x and y and the exponent operand. -/
structure OpaTerm where
  pos : Nat
  xs : List W32
  ys : List W32
  e : W32
  deriving DecidableEq, Repr

/-- Passes staged in a region instance of a context (R318): the items that pass, and of those the terms of the items that
contribute. -/
structure OpaStage where
  ctx : Nat
  region : Nat
  passed : Lanes
  terms : List OpaTerm
  deriving DecidableEq, Repr

/-- An open contraction of a tile instance and a site (R318). Positions are those of R201. `params` is none while only `opc`
and fuses have passed it; `closedAt` orders the contractions that every item has passed, which are closed and await their application. -/
structure Contraction where
  id : Nat
  site : Nat
  params : Option OpaParams
  passed : Lanes
  terms : List OpaTerm
  staged : List OpaStage
  closedAt : Option Nat
  deriving DecidableEq, Repr

/-- A tile instance (R313): `strip = none` is block scope; a context built by `regroup` names its strips from 16 up. Words not listed are zero; bit 0 of the status is `overflow`. -/
structure TileInst where
  tile : Nat
  strip : Option Nat
  words : SMap W32
  overflow : Bool
  opens : List Contraction
  damage : List Nat
  deriving DecidableEq, Repr

/-- An array request of an `opa` (R362) for one strip of its context: the contraction and the positions whose operands are to be read
(R131), the ticks of each group left, its level, and when it entered the queue or began its running group. -/
structure GReq where
  contraction : Nat
  items : Lanes
  ctx : Nat
  frag : Nat
  region : Nat
  op : OpaOp
  strip : Nat
  groups : List Nat
  level : Nat
  entered : Nat
  running : Bool
  order : Nat
  deriving DecidableEq, Repr

/-- A block (R12, R18, R257, R313). `retired` and the barrier masks are indexed by iidx. -/
structure Block where
  id : Nat
  launch : Nat
  index : Nat
  core : Nat
  part0 : Nat
  strips : Nat
  size : Nat
  shBase : Nat
  shSize : Nat
  spBase : Nat
  spSize : Nat
  shared : Mem
  toClear : Nat
  placed : Bool
  order : Nat
  spill : List (List Byte)
  exists_ : Lanes
  retired : Lanes
  barriers : List Lanes
  tiles : List TileInst
  children : List Nat
  startTick : Nat
  stallSum : List Nat
  outcomes : Outcomes
  faultRetired : Nat
  damage : List Nat
  /-- damaged 8-byte words of the spill stacks, by strip (R98) -/
  spillDamage : List (Nat × Nat)
  saved : Bool
  deriving DecidableEq, Repr

/-! ### Launches (R154, R236, R255, R354-R364) -/

/-- A launch descriptor (R255). -/
structure LDesc where
  header : VAddr
  n : Nat
  n0 : Nat
  n1 : Nat
  prio : Nat
  args : List W64
  deriving DecidableEq, Repr

/-- A kernel header (R236). -/
structure KHeader where
  blocksize : Nat
  vregs : Nat
  kregs : Nat
  stripTiles : BitVec 8
  blockTiles : BitVec 8
  spill : Nat
  shared : Nat
  scratch : Nat
  deriving DecidableEq, Repr

/-- Who submitted a launch. -/
inductive LaunchPath where
  | mailbox (tag : W32)
  | child (parentCtx parentBlock item : Nat)
  | firing (die : Nat) (key : W32) (buffer : Nat)
  | drain
  deriving DecidableEq, Repr

/-- A recorded range (R416). -/
structure RecRange where
  pair : Nat
  va : W64
  output : Bool
  length : Nat
  deriving DecidableEq, Repr

inductive LaunchState where
  | queued | active | placed | retired | done
  deriving DecidableEq, Repr

/-- The launch context that the launch engine folds (R165): its PC and registers, and whether folding has stopped. -/
structure LCtx where
  pc : VAddr
  regs : Regs
  stopped : Bool
  deriving DecidableEq, Repr

/-- A `pmap` between its steps (R67): who waits for it, the launch and TCID, where the leaf lies, what it held and what it is to hold. -/
structure PmapReq where
  who : FragRef
  seq : Nat
  tcid : Nat
  leafAt : Nat
  old : W64
  new : W64
  deriving DecidableEq, Repr

/-- The report of a `halt` (R262). -/
structure HaltInfo where
  code : Nat
  item : Nat
  pc : VAddr
  tick : Nat
  deriving DecidableEq, Repr

/-- A launch, from its sequence number to its completion notice. `code` is what its first fetches on a core know of the writes to code (R134). -/
structure Launch where
  seq : Nat
  tcid : Nat
  path : LaunchPath
  desc : LDesc
  hdr : KHeader
  det : Bool
  sup : Bool
  dbg : Bool
  depth : Nat
  queue : Nat
  ordered : Bool
  state : LaunchState
  enqueued : Nat
  headSince : Nat
  agedLevels : Nat
  kept : Nat
  activated : Nat
  activeOrder : Nat
  firstPlaced : Option Nat
  lastPlaced : Nat
  starved : Bool
  nextBlock : Nat
  retiredBlocks : List Nat
  lctx : LCtx
  codeGen : Nat
  code : Horizon
  phase : Nat
  scratch : List (Nat × Nat)
  halted : Option HaltInfo
  recs : List RecRange
  saveArea : Option Nat
  savedBlocks : List (Nat × Nat × Nat)
  preempting : Bool
  preemptTag : W32
  preemptNoted : Bool
  resuming : Bool
  deriving DecidableEq, Repr

/-! ### Translation (R41, R47-R50) -/

/-- A translation context table entry, its four words as written (R41). -/
structure Tcid where
  w0 : W64
  w1 : W64
  w2 : W64
  w3 : W64
  deriving DecidableEq, Repr

/-- A TLB entry: one run with the walked leaf (R49, R50), and what its walk has acquired from the writes of the entries it read (R52). -/
structure TlbEnt where
  tcid : Nat
  tenant : Nat
  vpn : Nat
  run : Nat
  leaf : W64
  view : Horizon
  deriving DecidableEq, Repr

/-- A walk-cache entry: a table pointer or leaf by the address bits that led to it (R50), and what its walk had acquired by then (R52). -/
structure WcEnt where
  tcid : Nat
  tenant : Nat
  level : Nat
  index : Nat
  entry : W64
  view : Horizon
  deriving DecidableEq, Repr

/-- Who waits for a walk: the fragments that fetch a line, the first touch of a region line, or a fragment whose instruction needs the page. -/
inductive Asker where
  | fetch (line : VAddr)
  | line (l : LineRef)
  | frag (r : FragRef)
  deriving DecidableEq, Repr

/-- A walk in progress for a core (R45, R48), with those that wait for it. -/
structure Walk where
  id : Nat
  core : Nat
  tcid : Nat
  va : W64
  askers : List Asker
  deriving DecidableEq, Repr

/-- The outcome of a walk that failed, kept for the `launch` that asked for it until that is issued again (R61). -/
structure WalkFault where
  who : FragRef
  vpn : Nat
  fault : TFault
  deriving DecidableEq, Repr

/-! ### Scratchpad regions and lines (R21, R27, R78, R91) -/

inductive RKind where
  | plain | mapped | stash | eslot | spill
  deriving DecidableEq, Repr

/-- A region-table slot's region (R21), with the stash descriptor of R91. -/
structure RegionEnt where
  kind : RKind
  logSize : Nat
  base : Nat
  tcid : Nat
  shared : Bool
  globalBase : W64
  base1 : Nat
  quota1 : Nat
  base2 : Nat
  quota2 : Nat
  charged : Nat
  sealed : Bool
  deriving DecidableEq, Repr

/-- A line with a translation (R78), and what the walk of that has acquired (R52). A line that is not listed has T none, V empty and D empty. -/
structure Line where
  slot : Nat
  line : Nat
  leaf : W64
  phys : Nat
  view : Horizon
  v : BitVec 256
  d : BitVec 256
  poison : BitVec 256
  used : Nat
  deriving DecidableEq, Repr

/-- A first touch or fill that some access waits for (R58, R78): `askers` are the fragments whose accesses take its fault. -/
structure LineReq where
  die : Nat
  slot : Nat
  line : Nat
  core : Nat
  tcid : Nat
  write : Bool
  fill : Bool
  askers : List FragRef
  deriving DecidableEq, Repr

/-- What a write-back lowers or frees when it reaches memory (R79). -/
inductive WbFor where
  /-- the `sp` command of a context, by command number -/
  | cmd (n : Nat)
  /-- nothing but the line itself -/
  | none
  deriving DecidableEq, Repr

/-- A write-back in flight: the bytes taken at one instant (R78). -/
structure WriteBack where
  die : Nat
  slot : Nat
  line : Nat
  leaf : W64
  phys : Nat
  bytes : List (Nat × Byte)
  poison : List Nat
  forWhat : WbFor
  deriving DecidableEq, Repr

/-- A posted `stw` (R77): the bytes of its items by offset in the region. -/
structure PStore where
  id : Nat
  ctx : Nat
  frag : Nat
  cmd : Nat
  die : Nat
  slot : Nat
  gen : Nat
  bytes : List (Nat × Byte)
  heads : List Head
  deriving DecidableEq, Repr

/-! ### Engine commands (R82-R90, R334-R347) -/

/-- A copy descriptor, decoded (R87). -/
structure CopyDesc where
  transpose : Bool
  conv : Nat
  arrive : Bool
  toStrided : Bool
  denseSpace : Nat
  stridedSpace : Nat
  layout : Nat
  esize : Nat
  ndim : Nat
  strided : W64
  dense : W64
  expOff : W32
  arriveOff : W32
  ext : List Nat
  pitch : Nat
  stride : List Int
  deriving DecidableEq, Repr

/-- A collective command's descriptor (R342). -/
structure CollDesc where
  slot : Nat
  group : Nat
  params : CollParams
  src : W64
  dst : W64
  deriving DecidableEq, Repr

/-- One lane of a per-strip command: its position, its item, and its operands. -/
structure LaneArg where
  pos : Nat
  item : Nat
  addr : W64
  val : W64
  deriving DecidableEq, Repr

/-- What an engine command does. -/
inductive CmdKind where
  | copy (d : CopyDesc) (stash : Bool)
  | gather (d : CopyDesc) (scatter : Bool) (strip : Nat) (lanes : List LaneArg)
  | xatom (op : AtomOp) (ret : Option (List (Nat × W32))) (lanes : List LaneArg)
  | coll (d : CollDesc) (inst : Nat)
  | dred (op : DredOp) (ty : DredTy) (lanes : List LaneArg)
  /-- `rwb`, `runmap`, `rfill` and `stw` as counted commands on `sp` (R82), with the positions of the items that issued them -/
  | sp (items : Lanes)
  deriving DecidableEq, Repr

/-- Where an element of a command stands: it reads, it has read all that it reads and waits to write, or it writes (R106, R136). -/
inductive ElemStage where
  | reading | ready | writing
  deriving DecidableEq, Repr

/-- An element of a command that is under way: the step it has come to, its data so far and whether some of it is damaged. -/
structure ElemPart where
  elem : Nat
  step : Nat
  data : List Byte
  bad : Bool
  stage : ElemStage
  deriving DecidableEq, Repr

/-- The aligned 64-byte beat that a command has read last (R106): tier and unit, its bytes, and the damage reported for it. -/
structure Beat where
  tier : Nat
  unit : Nat
  bytes : List Byte
  bad : Bool
  deriving DecidableEq, Repr

/-- A committed command (R83, R336). `total` elements are moved in visiting order: the first `doneCount` and those of `done`
have been. `rows` are the arrivals not yet made (R86). `parts` holds the elements under way, and `beat` what it has read last of global memory.
`error` is the number of the error record that its completion status names (R101). `frag` is the fragment whose events its accesses are (R102).
`view` is what that knew of the writes of others at the commit, `seen` and `heads` what its reads have met (R113, R115). `trans` holds the pages translated before the commit with
their leaves (R60), `cover` the bytes written of marked units (R100). For a command on `sp`, `waiting` holds the lines still to be
filled of the region that `writers` names, and `pending` counts its write-backs and stores. -/
structure Cmd where
  id : Nat
  ctx : Nat
  frag : Nat
  block : Nat
  core : Nat
  tcid : Nat
  item : Nat
  path : Path
  kind : CmdKind
  pc : VAddr
  total : Nat
  doneCount : Nat
  done : List Nat
  rows : List Nat
  parts : List ElemPart
  beat : Option Beat
  trans : List (Nat × W64)
  cover : List (Nat × Nat × Nat)
  waiting : List Nat
  pending : Nat
  writers : List (Nat × Nat)
  error : Option Nat
  refused : Nat
  deadPod : Nat
  deadHost : Nat
  fault : Bool
  view : Horizon
  seen : Horizon
  heads : List Head
  rel : List Head
  deriving DecidableEq, Repr

/-- A record of a deterministic launch's deferred log (R345), with the context that issued it. -/
structure LogRec where
  ctx : Nat
  vcore : Nat
  block : Nat
  item : Nat
  count : Nat
  op : DredOp
  ty : DredTy
  addr : W64
  val : W64
  trans : List (Nat × W64)
  deriving DecidableEq, Repr

/-- A held queue entry of a deterministic phase (R379). -/
structure HeldPush where
  vcore : Nat
  block : Nat
  item : Nat
  count : Nat
  key : W32
  entry : List W32
  deriving DecidableEq, Repr

/-! ### Collectives, windows and links (R35, R342, R402-R406) -/

structure Window where
  valid : Bool
  tier2 : Bool
  base : Nat
  length : Nat
  key : W64
  cls : Nat
  rd : Bool
  wr : Bool
  at_ : Bool
  refused : Nat
  deriving DecidableEq, Repr

structure CollGroup where
  generation : W32
  members : List (Nat × Nat × Nat)
  populated : List Nat
  deriving DecidableEq, Repr

/-- A collective instance of a group (R343): the parameters that each command names, by slot; the elements that have arrived, by
slot and number, with whether they are damaged; the generations that other members' contributions came under, by slot; the slots lost or
refused; and this device's commands, by slot. -/
structure CollInst where
  group : Nat
  inst : Nat
  params : List (Nat × CollParams)
  gens : List (Nat × W32)
  parts : List (Nat × Nat × List Byte × Bool)
  lost : List Nat
  refusedSlots : List Nat
  local_ : List (Nat × Nat)
  deriving DecidableEq, Repr

/-- A request sent to another device (R402, R403): the command and element, or with command 0 the launch whose deferred log it applies; and
the context that issued it. -/
structure RemoteReq where
  id : Nat
  ctx : Nat
  cmd : Nat
  elem : Nat
  port : Nat
  device : Nat
  entry : Nat
  offset : Nat
  key : W64
  cls : Nat
  kind : RemoteKind
  length : Nat
  deriving DecidableEq, Repr

/-- When an entry was appended: in ticks, and in phases of its TCID that had ended (R374, R379). -/
structure QStamp where
  tick : Nat
  phase : Nat
  deriving DecidableEq, Repr

/-- A response to an access of another device, on its port. -/
structure RemoteRsp where
  port : Nat
  cls : Nat
  request : Nat
  status : RemoteStatus
  data : List Byte
  deriving DecidableEq, Repr

structure UaLink where
  device : Nat
  podSize : Nat
  routes : SMap Nat
  keys : SMap W64
  classes : SMap Nat
  weights : SMap Nat
  windows : SMap Window
  portsUp : Vector Bool 16
  served : SMap Nat
  requests : List RemoteReq
  responses : List RemoteRsp
  groups : SMap CollGroup
  insts : List CollInst
  issuedInst : SMap Nat
  deriving DecidableEq, Repr

/-! ### The Caldera expert queues (R369-R381) -/

structure QEntry where
  words : List W32
  at_ : QStamp
  deriving DecidableEq, Repr

/-- A queue (R370), keyed by (layer, expert). `chip` holds the on-chip entries, oldest first, `ring` the ages of the
entries in the spill ring, whose words lie in the ring. -/
structure Queue where
  key : W32
  tcid : Nat
  home : Nat
  cls : Nat
  nbuf : Nat
  header : VAddr
  buffers : W64
  spill : W64
  spillCap : Nat
  quota : Nat
  args : List W64
  chip : List QEntry
  ring : List QStamp
  ringHead : Nat
  busy : List Nat
  fired : Nat
  drops : Nat
  refusedNoted : Bool
  deriving DecidableEq, Repr

structure QClass where
  valid : Bool
  det : Bool
  drop : Bool
  prio : Nat
  age : Nat
  cap : Nat
  threshold : Nat
  deriving DecidableEq, Repr

/-- Entries of a `qpush` on their way to their home slices (R349, R372). -/
structure Push where
  id : Nat
  ctx : Nat
  frag : Nat
  pos : Nat
  key : W32
  entry : List W32
  status : Option Nat
  deriving DecidableEq, Repr

inductive SlotState where
  | empty | filling | ready
  deriving DecidableEq, Repr

/-- An expert slot (R351). -/
structure ESlot where
  region : Nat
  key : W64
  state : SlotState
  filler : Option Nat
  pins : List Nat
  deriving DecidableEq, Repr

/-- The slot set of a die (R381). -/
structure SlotSet where
  logSize : Nat
  layers : Nat
  tcid : Nat
  slots : List ESlot
  deriving DecidableEq, Repr

/-! ### Cores and dies -/

/-- A fetch line in the instruction cache (R34, R135), with the code generation at its fetch (R134), and the number of the last write that the
fetch saw to each 8-byte word of its memory. -/
structure ILine where
  tcid : Nat
  line : VAddr
  bytes : List Byte
  gen : Nat
  words : List (MemSpace × Nat × Nat)
  deriving DecidableEq, Repr

/-- A partition's issue state: the cycle until which each slot is held (R360), the cycle after the last one whose choice was
made with the fragments chosen in it, the tick after the last one that was sampled (R413), and its Geyser array (R362). -/
structure Part where
  busyL : Nat
  busyC : Nat
  /-- who issued last from slot L and from slot C, and the cycle after that issue -/
  issL : Option FragRef
  issC : Option FragRef
  sinceL : Nat
  sinceC : Nat
  sampled : Nat
  arr : List GReq
  deriving DecidableEq, Repr

/-- A core (R1): instruction cache, what its fetches know of the writes to code (R134), TLB and partitions. -/
structure Core where
  icache : List ILine
  code : Horizon
  tlb : List TlbEnt
  parts : SMap Part
  deriving DecidableEq, Repr

/-- A core die (R1, R21): scratchpad with its region table, lines and walk cache, the slot set, the queues of its Caldera
slice, and the core that placement used last. -/
structure Die where
  scratch : Mem
  regions : SMap RegionEnt
  gens : SMap Nat
  lines : List Line
  lineReqs : List LineReq
  /-- the line that replacement has picked and not yet discarded, by region slot and line (R80) -/
  victim : Option (Nat × Nat)
  walkCache : List WcEnt
  slotSet : Option SlotSet
  queues : List Queue
  nextFiring : Nat
  lastCore : Nat
  placedAt : Nat
  damage : List Nat
  deriving DecidableEq, Repr

/-! ### The mailbox, areas and the management controller -/

/-- An area of a TCID (R384, R367, R409, R410, R180). -/
structure Area where
  base : Nat
  log : Nat
  opts : Nat
  written : Nat
  consumed : Nat
  configured : Bool
  lost : Nat
  lostNoted : Nat
  deriving DecidableEq, Repr

/-- A command that has been taken from its slot and is not yet applied: an invalidation (R57). -/
inductive MboxBusy where
  | none
  | invalidate (n : Nat) (tcid : Nat) (tag : W32)
  deriving DecidableEq, Repr

/-- A notice (R400). -/
structure Notice where
  w0 : W64
  w1 : W64
  w2 : W64
  w3 : W64
  deriving DecidableEq, Repr

/-- The mailbox (R397). `late` holds words of slots that were written after the tail came to cover them, by the slot's count and the word:
what they held before. -/
structure Mailbox where
  ring : SMap (List W64)
  late : List (Nat × Nat × W64)
  tail : W32
  applied : W32
  ignored : W32
  notices : W32
  consumed : W32
  noticeBase : Nat
  noticeLog : Nat
  queued : List Notice
  busy : MboxBusy
  deriving DecidableEq, Repr

/-- An error record (R101). -/
structure ErrRec where
  w0 : W64
  w1 : W64
  w2 : W64
  w3 : W64
  deriving DecidableEq, Repr

/-- The Solstice shadows (R414). -/
structure Shadows where
  stalls : List (Nat × List Nat)
  counters : List (Nat × List Nat)
  queues : List (W32 × Nat × Nat)
  served : SMap Nat
  invalid : SMap Nat
  corrected : Nat
  refused : SMap Nat
  deriving DecidableEq, Repr

/-- The management controller (R101, R414-R424). -/
structure Mgmt where
  errors : List ErrRec
  errCount : Nat
  corrected : Nat
  invalid : SMap Nat
  portOpen : Bool
  solstice : Option Nat
  shadows : Option Shadows
  stopAt : Option Nat
  stopped : Bool
  scanned : Bool
  resets : Nat
  thaw : Bool
  powerSteps : Nat
  recovery : Bool
  staging : Mem
  flash : List Byte
  /-- the configuration record (R419): enabled cores, tier-1 capacity, serial number, trim values of the dies and signature -/
  coreMask : BitVec 256
  tier1Cap : Nat
  serial : Nat
  trims : List Nat
  recordSig : List Byte
  /-- errors of the LPDDR-6 training that have been logged (R418) -/
  trainErrors : Nat
  hostRange : Option (Nat × Nat)
  hostUp : Bool
  tier2Up : Vector Bool 8
  decoders : List Decoder
  deriving DecidableEq, Repr

/-- A pending invalidation (R57): the form, its operands, who waits, and the commands whose translated beats it awaits. -/
structure TlbiReq where
  id : Nat
  form : Nat
  va : W64
  tcid : Nat
  run : Nat
  cmds : List Nat
  waiter : Option FragRef
  deriving DecidableEq, Repr

/-! ### The machine -/

structure State where
  /-- the Equinox tick and the core cycle, with the sixteenths of a cycle carried over (R407, R2) -/
  tick : Nat
  cycle : Nat
  frac : Nat
  tier1 : Mem
  tier2 : Mem
  host : Mem
  poison1 : List Nat
  poison2 : List Nat
  poison3 : List Nat
  tcids : SMap Tcid
  clayer : SMap W64
  phases : SMap Nat
  areas : SMap Area
  dies : Vector Die 4
  cores : SMap Core
  launches : List Launch
  blocks : List Block
  ctxs : List Ctx
  walks : List Walk
  walkFaults : List WalkFault
  tlbis : List TlbiReq
  stores : List PStore
  writeBacks : List WriteBack
  cmds : List Cmd
  log : List (Nat × LogRec)
  held : List (Nat × HeldPush)
  pushes : List Push
  classes : SMap QClass
  ual : UaLink
  mbox : Mailbox
  mgmt : Mgmt
  codeGen : Nat
  launchSeq : Nat
  parkSeq : Nat
  nextId : Nat
  /-- child launches that a `launch` has still to enqueue (R255) -/
  toEnqueue : List (FragRef × Launch)
  /-- the `pmap` that the device has under way: it has taken a frame, and its leaf is still to be replaced (R67) -/
  pmapping : Option PmapReq
  /-- elements of a phase's deferred log written as zero, by launch (R345) -/
  zeroed : SMap Nat
  /-- refused and dead elements of deferred logs, by the context that issued them (R402, R403, R405) -/
  strays : SMap Outcomes
  /-- the writes that have been performed, the latest first, the `fence.ar` events with what each knew, the release fences of `.dev` and wider that
  make table entries visible to walks, and the `cpub` events (R104, R120, R52, R134) -/
  past : List PastWrite
  arFences : List Head
  relFences : List Head
  pubs : List Publish
  /-- where the driver has loaded images, as TCID, address and size (R231, R237): the model's own -/
  images : List (Nat × Nat × Nat)
  /-- the model's own: inputs and steps still to be made, fragments picked by issue arbitration, the fragment whose
  instruction is executed, and the counter of free values -/
  script : List Instr
  picks : List FragRef
  cur : Option FragRef
  freeCtr : Nat
  deriving DecidableEq, Repr

/-- Why a step stops the model. None of these is a fault of the hardware, whose faults are next states. -/
inductive Fault where
  /-- an instruction row with no fragment to execute it: raised by every instruction row when `cur` names no running
  fragment; no such step exists on the hardware, so it is safe -/
  | noFragment
  /-- an event row whose condition does not hold: raised by event rows; no such step exists, so it is safe -/
  | notEnabled
  /-- a step while Equinox stop gates every clock (R415), other than package reset and the debug port's scan-out: raised by
  `step`; nothing happens on the hardware either, so it is safe -/
  | clocksGated
  deriving DecidableEq, Repr

/-- No meaning. -/
inductive Refusal where
  /-- an instruction of the opcode table without a meaning, by its mnemonic: raised by `exec` only; safe -/
  | notModelled (mnemonic : String)
  deriving DecidableEq, Repr

abbrev Out := Host.Outcome State Fault Refusal

/-! ### Reset (R407, R418, R383, R156, R314) -/

/-- `fmt` at launch (R314). -/
def fmtReset : W32 := 0x00000F00#32

def Outcomes.zero : Outcomes := ⟨0, 0, 0, 0⟩

def Die.reset : Die :=
  { scratch := Mem.empty, regions := [], gens := [], lines := [], lineReqs := [], victim := none, walkCache := [],
    slotSet := none, queues := [], nextFiring := 16, lastCore := 63, placedAt := 0, damage := [] }

/-- An agent that knows of no write. -/
def Horizon.none : Horizon := ⟨0, [], []⟩

def Core.reset : Core := { icache := [], code := Horizon.none, tlb := [], parts := [] }

def Part.reset : Part := { busyL := 0, busyC := 0, issL := none, issC := none, sinceL := 0, sinceC := 0, sampled := 0, arr := [] }

def UaLink.reset : UaLink :=
  { device := 0, podSize := 0, routes := [], keys := [], classes := [], weights := [], windows := [],
    portsUp := Vector.replicate 16 true, served := [], requests := [], responses := [], groups := [],
    insts := [], issuedInst := [] }

def Mailbox.reset : Mailbox :=
  { ring := [], late := [], tail := 0, applied := 0, ignored := 0, notices := 0, consumed := 0, noticeBase := Config.noticeBase,
    noticeLog := Config.noticeLog, queued := [], busy := .none }

def Mgmt.reset : Mgmt :=
  { errors := [], errCount := 0, corrected := 0, invalid := [], portOpen := false, solstice := none, shadows := none, stopAt := none,
    stopped := false, scanned := false, resets := 1, thaw := true, powerSteps := 0, recovery := false, staging := Mem.empty,
    flash := Config.flashImage, coreMask := BitVec.allOnes 256, tier1Cap := Config.tier1Capacity,
    serial := Config.serialNumber, trims := Config.trims, recordSig := Config.recordSig, trainErrors := 0, hostRange := none, hostUp := true,
    tier2Up := Vector.replicate 8 true, decoders := Config.decoders }

/-- The machine right after package reset with a good configuration record and firmware image: the Thaw service runs (R418,
R420), the Equinox tick reads 0 (R407), every table is empty. -/
def State.reset : State :=
  { tick := 0, cycle := 0, frac := 0, tier1 := Mem.empty, tier2 := Mem.empty, host := Mem.empty, poison1 := [], poison2 := [],
    poison3 := [], tcids := [], clayer := [], phases := [], areas := [], dies := Vector.replicate 4 Die.reset, cores := [], launches := [],
    blocks := [], ctxs := [], walks := [], walkFaults := [], tlbis := [], stores := [], writeBacks := [], cmds := [],
    log := [], held := [], pushes := [], classes := [], ual := UaLink.reset, mbox := Mailbox.reset, mgmt := Mgmt.reset,
    codeGen := 0, launchSeq := 0, parkSeq := 0, nextId := 1, toEnqueue := [], pmapping := none,
    images := [], zeroed := [], strays := [], past := [], arFences := [], relFences := [], pubs := [], script := [], picks := [], cur := none, freeCtr := 0 }

end Sys2Proof.Machine
end

