-- ==== Sys2Proof/Machine/Mem.lean ====
section
/-! DEFINITION. Memory in its canonical form, sparse tables, lanes and the wrap-and-align rule (R15). -/

namespace Sys2Proof.Machine

open Sys2Proof

/-! ### Sparse tables with strictly rising keys -/

def SMap.get? {α : Type} : SMap α → Nat → Option α
  | [], _ => none
  | (k, v) :: r, a => if k = a then some v else SMap.get? r a

def SMap.set {α : Type} : SMap α → Nat → α → SMap α
  | [], a, x => [(a, x)]
  | (k, v) :: r, a, x =>
    if k = a then (a, x) :: r else if a < k then (a, x) :: (k, v) :: r else (k, v) :: SMap.set r a x

def SMap.erase {α : Type} : SMap α → Nat → SMap α
  | [], _ => []
  | (k, v) :: r, a => if k = a then SMap.erase r a else (k, v) :: SMap.erase r a

def SMap.getD {α : Type} (m : SMap α) (a : Nat) (d : α) : α := (m.get? a).getD d

/-- Strictly rising keys. -/
def SMap.sorted {α : Type} : SMap α → Bool
  | [] => true
  | [_] => true
  | (a, _) :: (b, y) :: r => decide (a < b) && SMap.sorted ((b, y) :: r)

/-! ### Memory -/

/-- What an unlisted byte reads as: zero, or after Equinox stop a free value (R415). -/
def Mem.fill (epoch addr : Nat) : Byte := if epoch = 0 then 0#8 else Config.freeTier1 epoch addr

def Mem.read (m : Mem) (a : Nat) : Byte := (SMap.get? m.cells a).getD (Mem.fill m.epoch a)

def Mem.write (m : Mem) (a : Nat) (b : Byte) : Mem :=
  if b = Mem.fill m.epoch a then { m with cells := SMap.erase m.cells a } else { m with cells := SMap.set m.cells a b }

/-- The canonical form. -/
def Mem.wf (m : Mem) : Bool :=
  SMap.sorted m.cells && m.cells.all fun c => c.2 != Mem.fill m.epoch c.1

/-- `n` bytes from `a` upward. -/
def Mem.readBytes (m : Mem) (a : Nat) : Nat → List Byte
  | 0 => []
  | n + 1 => m.read a :: Mem.readBytes m (a + 1) n

def Mem.writeBytes (m : Mem) (a : Nat) : List Byte → Mem
  | [] => m
  | b :: bs => Mem.writeBytes (m.write a b) (a + 1) bs

/-- Bytes given with their addresses, in order. -/
def Mem.writeCells (m : Mem) : List (Nat × Byte) → Mem
  | [] => m
  | (a, b) :: r => Mem.writeCells (m.write a b) r

/-- A little-endian number of n bytes. -/
def Mem.readNat (m : Mem) (a n : Nat) : Nat := natOfBytes (m.readBytes a n)
def Mem.writeNat (m : Mem) (a n x : Nat) : Mem := m.writeBytes a (bytesN n x)
def Mem.readW64 (m : Mem) (a : Nat) : W64 := BitVec.ofNat 64 (m.readNat a 8)
def Mem.readW32 (m : Mem) (a : Nat) : W32 := BitVec.ofNat 32 (m.readNat a 4)

/-- Every byte from `a`, `n` of them, becomes zero. -/
def Mem.zero (m : Mem) (a n : Nat) : Mem :=
  if m.epoch = 0 then { m with cells := m.cells.filter fun c => decide (c.1 < a) || decide (a + n ≤ c.1) }
  else m.writeBytes a (List.replicate n 0#8)

/-! ### The wrap-and-align rule (R15) -/

/-- The effective address of an access of `s` bytes at `base + imm` in an allocation of `A` bytes. -/
def effAddr (A s : Nat) (base : Nat) (imm : Int) : Nat :=
  let off := (((base : Int) + imm) % (2 ^ 32 : Int)).toNat
  let wrapped := off % A
  wrapped - wrapped % s

/-- The least power of two at or above n. -/
def pow2Above (n : Nat) : Nat := if n ≤ 1 then 1 else 2 ^ (Nat.log2 (n - 1) + 1)

/-- A block's allocation for `.shared n` (R11). -/
def sharedSize (n : Nat) : Nat := max 256 (pow2Above n)

/-! ### Lanes: one bit for each position of a context -/

def Lanes.none : Lanes := 0
def Lanes.all : Lanes := BitVec.allOnes 1024
/-- The positions below n. -/
def Lanes.below (n : Nat) : Lanes := BitVec.ofNat 1024 (2 ^ n - 1)
def Lanes.single (i : Nat) : Lanes := BitVec.ofNat 1024 (2 ^ i)
/-- Positions from `a`, `n` of them. -/
def Lanes.run (a n : Nat) : Lanes := BitVec.ofNat 1024 ((2 ^ n - 1) * 2 ^ a)
def Lanes.has (m : Lanes) (i : Nat) : Bool := m.getLsbD i
/-- The positions of a mask below `n`, ascending. -/
def Lanes.list (m : Lanes) (n : Nat) : List Nat := (List.range n).filter fun i => m.getLsbD i
def Lanes.ofList (l : List Nat) : Lanes := l.foldl (fun m i => m ||| Lanes.single i) 0
/-- The lowest position of a mask. -/
def Lanes.lowest (m : Lanes) : Option Nat := (Lanes.list m 1024).head?
def Lanes.count (m : Lanes) : Nat := (Lanes.list m 1024).length
/-- The 64 lanes of strip t. -/
def Lanes.strip (m : Lanes) (t : Nat) : Nat := bitsN m.toNat (64 * t) 64
/-- Strips t up to u inclusive. -/
def Lanes.strips (t u : Nat) : Lanes := Lanes.run (64 * t) (64 * (u + 1 - t))

/-! ### Update of records in lists -/

/-- Update the entries that satisfy p. -/
def updWhere {α : Type} (p : α → Bool) (g : α → α) (l : List α) : List α := l.map fun x => if p x then g x else x

end Sys2Proof.Machine
end

