-- ==== Sys2Proof/Machine/Access.lean ====
section
/-! DEFINITION. Finding and replacing contexts, fragments, blocks, launches, cores and dies in the state. -/

namespace Sys2Proof.Machine

open Sys2Proof

/-- The first entry that satisfies p, replaced. -/
def updFirst {α : Type} (p : α → Bool) (g : α → α) : List α → List α
  | [] => []
  | x :: xs => if p x then g x :: xs else x :: updFirst p g xs

/-- The list without the first entry that satisfies p. -/
def dropFirst {α : Type} (p : α → Bool) : List α → List α
  | [] => []
  | x :: xs => if p x then xs else x :: dropFirst p xs

/-- Into a list that ascends by key, after the entries of an equal key. -/
def insertOn {α : Type} (key : α → Nat) (x : α) : List α → List α
  | [] => [x]
  | y :: ys => if key x < key y then x :: y :: ys else y :: insertOn key x ys

/-- Ascending by key; entries of an equal key keep their order. -/
def sortOn {α : Type} (key : α → Nat) (l : List α) : List α := l.foldl (fun acc x => insertOn key x acc) []

/-! ### Contexts and fragments -/

def Ctx.frag? (c : Ctx) (id : Nat) : Option Frag := c.frags.find? fun f => f.id == id
def Ctx.setFrag (c : Ctx) (f : Frag) : Ctx := { c with frags := updFirst (fun x => x.id == f.id) (fun _ => f) c.frags }
def Ctx.updFrag (c : Ctx) (id : Nat) (g : Frag → Frag) : Ctx :=
  { c with frags := updFirst (fun x => x.id == id) g c.frags }
def Ctx.dropFrag (c : Ctx) (id : Nat) : Ctx := { c with frags := c.frags.filter fun f => f.id != id }
/-- The root entry (R170). -/
def Ctx.root? (c : Ctx) : Option Frag := c.frags.find? fun f => f.parent == none
/-- The fragments that stand for the context's items: those not cut. -/
def Ctx.leaves (c : Ctx) : List Frag := c.frags.filter fun f => !f.hasChildren && f.state != .exited
/-- Positions of the context. -/
def Ctx.width (c : Ctx) : Nat := 64 * c.strips

def State.ctx? (s : State) (id : Nat) : Option Ctx := s.ctxs.find? fun c => c.id == id
def State.setCtx (s : State) (c : Ctx) : State :=
  { s with ctxs := updFirst (fun x => x.id == c.id) (fun _ => c) s.ctxs }
def State.updCtx (s : State) (id : Nat) (g : Ctx → Ctx) : State :=
  { s with ctxs := updFirst (fun x => x.id == id) g s.ctxs }
def State.frag? (s : State) (r : FragRef) : Option Frag := (s.ctx? r.ctx).bind fun c => c.frag? r.frag
def State.updFrag (s : State) (r : FragRef) (g : Frag → Frag) : State :=
  s.updCtx r.ctx fun c => c.updFrag r.frag g
/-- Contexts of a block. -/
def State.ctxsOf (s : State) (block : Nat) : List Ctx := s.ctxs.filter fun c => c.block == block

/-! ### Blocks, launches, cores, dies -/

def State.block? (s : State) (id : Nat) : Option Block := s.blocks.find? fun b => b.id == id
def State.updBlock (s : State) (id : Nat) (g : Block → Block) : State :=
  { s with blocks := updFirst (fun x => x.id == id) g s.blocks }
def State.launch? (s : State) (seq : Nat) : Option Launch := s.launches.find? fun l => l.seq == seq
def State.updLaunch (s : State) (seq : Nat) (g : Launch → Launch) : State :=
  { s with launches := updFirst (fun x => x.seq == seq) g s.launches }
def State.launchOfCtx? (s : State) (c : Ctx) : Option Launch := (s.block? c.block).bind fun b => s.launch? b.launch

def State.core (s : State) (n : Nat) : Core := s.cores.getD n Core.reset
def State.updCore (s : State) (n : Nat) (g : Core → Core) : State := { s with cores := s.cores.set n (g (s.core n)) }
def State.part (s : State) (core part : Nat) : Part := (s.core core).parts.getD part Part.reset
def State.updPart (s : State) (core part : Nat) (g : Part → Part) : State :=
  s.updCore core fun c => { c with parts := c.parts.set part (g (c.parts.getD part Part.reset)) }

/-- The core die of a core: 64 cores to a die (R1). -/
def dieOfCore (core : Nat) : Nat := core / 64
def State.die (s : State) (d : Nat) : Die := (s.dies[d % 4]?).getD Die.reset
def State.updDie (s : State) (d : Nat) (g : Die → Die) : State :=
  { s with dies := s.dies.setIfInBounds (d % 4) (g (s.die d)) }

def State.tcid (s : State) (n : Nat) : Tcid := s.tcids.getD n ⟨0, 0, 0, 0⟩
def Tcid.valid (t : Tcid) : Bool := t.w0.getLsbD 63
def Tcid.tenant (t : Tcid) : Nat := bitsN t.w0.toNat 48 8
def Tcid.root (t : Tcid) : Nat := bitsN t.w0.toNat 0 38 * 2 ^ 14
def Tcid.tvec (t : Tcid) : VAddr := BitVec.ofNat 58 (bitsN t.w1.toNat 8 50 * 2 ^ 8)
def Tcid.poolAddr (t : Tcid) : Nat := bitsN t.w2.toNat 6 46 * 2 ^ 6
def Tcid.poolOn (t : Tcid) : Bool := t.w2.getLsbD 0

/-- A fresh number for a command, walk, context, and so on. -/
def State.fresh (s : State) : Nat × State := (s.nextId, { s with nextId := s.nextId + 1 })

/-! ### Items of a context -/

/-- The iidx of position i (R154, R179). -/
def Ctx.iidx (c : Ctx) (i : Nat) : Nat :=
  match c.items with
  | some m => (Lanes.list m 1024).getD i 0
  | none => 64 * c.firstStrip + i

/-- The item index of each position of a context, ascending (R154, R179): consecutive from `origin`, or those that a set names, from the block's
first item `origin`. -/
structure Places where
  origin : Nat
  items : Option Lanes

def Places.at (P : Places) (i : Nat) : Nat :=
  match P.items with
  | none => P.origin + i
  | some m => P.origin + (Lanes.list m 1024).getD i 0

/-- How many positions hold an item whose index is below t. -/
def Places.before (P : Places) (t : Nat) : Nat :=
  match P.items with
  | none => t - P.origin
  | some m => ((Lanes.list m 1024).filter fun x => decide (P.origin + x < t)).length

/-- The item indexes of a context's positions. -/
def Ctx.places (c : Ctx) : Places := ⟨c.origin, c.items⟩

/-- The item index of position i. -/
def Ctx.idx (c : Ctx) (b : Block) (i : Nat) : Nat := b.index * b.size + c.iidx i

/-- The items that exist in the context (R161). -/
def Ctx.exist (c : Ctx) (b : Block) : Nat :=
  match c.items with
  | some m => Lanes.count m
  | none => ((List.range c.width).filter fun i => b.exists_.getLsbD (64 * c.firstStrip + i)).length

/-- The iidx mask of positions of a context. -/
def Ctx.toIidx (c : Ctx) (m : Lanes) : Lanes :=
  match c.items with
  | none => m <<< (64 * c.firstStrip)
  | some _ => Lanes.ofList ((Lanes.list m c.width).map c.iidx)

/-- Positions ascending by item index: a context's positions are (R179). -/
def Frag.items (f : Frag) (c : Ctx) : List Nat := Lanes.list f.mask c.width

end Sys2Proof.Machine
end

