-- ==== Sys2Proof/Machine/Operands.lean ====
section
/-! DEFINITION. Every operand form: what a source gives at each position with its tag (R155, R157, R182, R185, R216, R217),
the guard and the mask (R162, R214, R227), and the writes of a destination (R185, R217, R218, R227, R268). -/

namespace Sys2Proof.Machine

open Sys2Proof

/-! ### Values with tags -/

/-- The low 32 bits, zero-extended. -/
def low32 (x : W64) : W64 := (x.setWidth 32).setWidth 64

/-- The value at position i. -/
def Val.at (x : Val) (i : Nat) : W64 :=
  match x with
  | .uni v => v
  | .aff wide b st => if wide then b + st * BitVec.ofNat 64 i else low32 (b + st * BitVec.ofNat 64 i)
  | .mat xs => xs.getD i 0

/-- The low 32 bits of a value (R217). -/
def Val.to32 : Val → Val
  | .uni v => .uni (low32 v)
  | .aff _ b st => if low32 st = 0 then .uni (low32 b) else .aff false (low32 b) (low32 st)
  | .mat xs => .mat (xs.map low32)

/-- A held value as a 64-bit source: a 32-bit AFF value, held zero-extended (R185), is not linear modulo 2^64, so that it is
read item by item. -/
def Val.to64 (n : Nat) : Val → Val
  | .uni v => .uni v
  | .aff true b st => .aff true b st
  | .aff false b st => .mat ((List.range n).map fun i => low32 (b + st * BitVec.ofNat 64 i))
  | .mat xs => .mat xs

def Val.isUni : Val → Bool
  | .uni _ => true
  | _ => false

/-- One value for each of n positions. -/
def Val.toMat (n : Nat) (x : Val) : Val := .mat ((List.range n).map x.at)

/-- An AFF value, which is UNI when its stride is zero (R157). -/
def mkAff (wide : Bool) (b st : W64) : Val :=
  let b' := if wide then b else low32 b
  let st' := if wide then st else low32 st
  if st' = 0 then .uni b' else .aff wide b' st'

/-- Base and stride of a UNI or AFF value. -/
def Val.parts? : Val → Option (W64 × W64)
  | .uni v => some (v, 0)
  | .aff _ b st => some (b, st)
  | .mat _ => none

/-! ### The view of a fragment -/

/-- What the operands of an instruction are read from. `launch` is the launch context (R155); `n` positions, of which the
first `exist` exist in a block's strip range (R161); `origin`, `base` and `bidx` are idx, iidx and bidx at position 0;
`items` is the set of the iidx of a regrouped context's positions, in ascending order. -/
structure View where
  launch : Bool
  n : Nat
  strips : Nat
  origin : Nat
  base : Nat
  bidx : Nat
  items : Option Lanes
  exist : Nat
  mat : SMap (List W32)
  own : Lanes
  regs : Regs
  ctr : Nat

def viewOf (c : Ctx) (b : Block) (f : Frag) (ctr : Nat) : View where
  launch := false
  n := c.width
  strips := c.strips
  origin := c.origin
  base := 64 * c.firstStrip
  bidx := b.index
  items := c.items
  exist := c.exist b
  mat := c.mat
  own := f.mask
  regs := f.regs
  ctr := ctr

/-! ### Sources -/

/-- One word of a vector register at a position. -/
def View.word (V : View) (r i : Nat) : W32 :=
  match SMap.getD V.regs.vtags r (.uni 0) with
  | .uni v => v
  | .aff b st => b + st * BitVec.ofNat 32 i
  | .affLo b st => (b + st * BitVec.ofNat 64 i).setWidth 32
  | .affHi b st => ((b + st * BitVec.ofNat 64 i) >>> 32).setWidth 32
  | .mat => (SMap.getD V.mat r []).getD i 0

/-- A vector register as a 32-bit source. -/
def View.v32 (V : View) (r : Nat) : Val :=
  match SMap.getD V.regs.vtags r (.uni 0) with
  | .uni v => .uni (v.setWidth 64)
  | .aff b st => mkAff false (b.setWidth 64) (st.setWidth 64)
  | .affLo b st => mkAff false b st
  | _ => .mat ((List.range V.n).map fun i => (V.word r i).setWidth 64)

/-- A pair as a 64-bit source (R183). -/
def View.v64 (V : View) (r : Nat) : Val :=
  match SMap.getD V.regs.vtags r (.uni 0), SMap.getD V.regs.vtags (r + 1) (.uni 0) with
  | .uni lo, .uni hi => .uni (hi ++ lo)
  | .affLo b st, .affHi b' st' =>
    if b = b' ∧ st = st' then mkAff true b st
    else .mat ((List.range V.n).map fun i => V.word (r + 1) i ++ V.word r i)
  | _, _ => .mat ((List.range V.n).map fun i => V.word (r + 1) i ++ V.word r i)

def View.vec (V : View) (wide : Bool) (r : Nat) : Val := if wide then V.v64 r else V.v32 r

/-- A latch; while it is undefined, any bit pattern may be read (R185): a free value. -/
def View.latch (V : View) (n : Fin 4) : Val :=
  match V.regs.latches[n] with
  | some x => x
  | none => .mat ((List.range V.n).map fun i => Config.freeLatch V.ctr i)

def View.idx (V : View) : Val :=
  match V.launch, V.items with
  | true, _ => .aff true 0 1
  | false, some m => .mat ((Lanes.list m 1024).map fun x => BitVec.ofNat 64 (V.origin + x))
  | false, none => .aff true (BitVec.ofNat 64 V.origin) 1

def View.iidx (V : View) : Val :=
  match V.launch, V.items with
  | true, _ => .mat []
  | false, some m => .mat ((Lanes.list m 1024).map fun x => BitVec.ofNat 64 x)
  | false, none => .aff true (BitVec.ofNat 64 V.base) 1

def View.lane (V : View) : Val :=
  if V.launch then .mat []
  else if V.strips = 1 then .aff true 0 1
  else .mat ((List.range V.n).map fun i => BitVec.ofNat 64 (i % 64))

/-- A source at the width of the instruction (R217). -/
def View.src (V : View) (wide : Bool) (x : Src) : Val :=
  match x with
  | .v n => V.vec wide n.val
  | .k n => if wide then .uni V.regs.k[n] else .uni (low32 V.regs.k[n])
  | .b n => if wide then (V.latch n).to64 V.n else (V.latch n).to32
  | .zero => .uni 0
  | .idx => if wide then V.idx else V.idx.to32
  | .bidx =>
    if V.launch then .mat []
    else if wide then .uni (BitVec.ofNat 64 V.bidx) else .uni (low32 (BitVec.ofNat 64 V.bidx))
  | .iidx => if wide then V.iidx else V.iidx.to32
  | .lane => if wide then V.lane else V.lane.to32

/-- An ib immediate: sign-extended to the element width, its low W bits in every element of a packed type (R215). -/
def immVal (t : IntTy) (i : BitVec 16) : W64 :=
  BitVec.ofNat 64 (joinN t.bits (List.replicate t.elems (wrapN t.bits (sgnN 16 i.toNat))))

def View.bsrc (V : View) (t : IntTy) (x : BSrc) : Val :=
  match x with
  | .reg y => V.src t.wide y
  | .imm i => .uni (immVal t i)

/-! ### Predicates, guard and mask -/

/-- The value of a predicate at position i. A threshold is an item index (R158). -/
def PTag.at (P : Places) (p : PTag) (i : Nat) : Bool :=
  match p with
  | .uni b => b
  | .thr t below => decide (P.at i < t) == below
  | .mat m => m.getLsbD i

/-- The positions below n at which a predicate holds; a threshold is evaluated exactly. -/
def PTag.lanes (P : Places) (n : Nat) (p : PTag) : Lanes :=
  match p with
  | .uni b => if b then Lanes.below n else 0
  | .thr t below =>
    let lo := Lanes.below (min n (P.before t))
    if below then lo else Lanes.below n &&& ~~~ lo
  | .mat m => m &&& Lanes.below n

def PTag.not : PTag → PTag
  | .uni b => .uni (!b)
  | .thr t below => .thr t (!below)
  | .mat m => .mat (~~~ m)

/-- p0 is always true (R182). -/
def Regs.pred (r : Regs) (p : Fin 16) : PTag := if p = 0 then .uni true else r.preds[p]

def View.places (V : View) : Places := ⟨V.origin, V.items⟩

def View.plane (V : View) (p : PTag) : Lanes := p.lanes V.places V.n

/-- The guard as a predicate. -/
def View.guard (V : View) (g : Guard) : PTag :=
  let p := V.regs.pred g.p
  if g.neg then p.not else p

/-- The passing items (R238). -/
def View.pass (V : View) (g : Guard) : Lanes := V.own &&& V.plane (V.guard g)

/-- The result keeps a tag: a UNI-true guard and no mask predicate (R159, R162). -/
def View.keeps (V : View) (g : Guard) (p : Option PfxL) : Bool :=
  (match V.guard g with | .uni true => true | _ => false) &&
  (match p with | none => true | some q => q.msk == 0)

/-- The mask of the leading word at each position, and whether masked items are zeroed (R227). -/
def View.mask (V : View) (p : Option PfxL) : Lanes × Bool :=
  match p with
  | none => (Lanes.all, false)
  | some q => (if q.msk = 0 then Lanes.all else V.plane (V.regs.pred q.msk), q.z)

/-! ### Results (R159, R160) -/

/-- How the result of an instruction takes a tag beyond "UNI if all UNI". -/
inductive TagRule where
  /-- no AFF result -/
  | plain
  /-- AFF of UNI and AFF sources, base and stride by the operation itself -/
  | linear
  /-- AFF when one of two sources is AFF and the other UNI -/
  | scale
  /-- AFF when the first source is AFF and the second UNI -/
  | shift
  deriving DecidableEq, Repr

/-- Base and stride of an AFF result, if the rule gives one. -/
def affResult (rule : TagRule) (f : List W64 → W64) (xs : List Val) : Option (W64 × W64) :=
  match rule, xs with
  | .plain, _ => none
  | .linear, _ =>
    if xs.all fun x => x.parts?.isSome then
      some (f (xs.map fun x => (x.parts?.getD (0, 0)).1), f (xs.map fun x => (x.parts?.getD (0, 0)).2))
    else none
  | .scale, [.aff _ b st, .uni u] => some (f [b, u], f [st, u])
  | .scale, [.uni u, .aff _ b st] => some (f [u, b], f [u, st])
  | .shift, [.aff _ b st, .uni u] => some (f [b, u], f [st, u])
  | _, _ => none

/-- The result at the positions of `pass` with the tag of R159: `keep` under R162, `affTy` for the 32- and 64-bit integer
types. -/
def lift (n : Nat) (pass : Lanes) (keep : Bool) (rule : TagRule) (affTy wide : Bool) (f : List W64 → W64)
    (xs : List Val) : Val :=
  let m := Val.mat ((List.range n).map fun i => if pass.getLsbD i then f (xs.map fun x => x.at i) else 0)
  if !keep then m
  else if xs.all Val.isUni then .uni (f (xs.map fun x => x.at 0))
  else if affTy then
    match affResult rule f xs with
    | some (b, st) => mkAff wide b st
    | none => m
  else m

/-! ### Destinations -/

/-- The stored words of a register with new ones at the fragment's own positions. -/
def matSet (n : Nat) (own : Lanes) (mat : SMap (List W32)) (r : Nat) (ys : List W32) : SMap (List W32) :=
  let old := SMap.getD mat r []
  SMap.set mat r ((List.range n).map fun i => if own.getLsbD i then ys.getD i 0 else old.getD i 0)

/-- Registers and MAT storage after a write. -/
structure RegFile where
  regs : Regs
  mat : SMap (List W32)

/-- One vector register takes one word at each position (MAT). -/
def View.setMat (V : View) (R : RegFile) (r : Nat) (ys : List W32) : RegFile :=
  { regs := { R.regs with vtags := SMap.set R.regs.vtags r .mat }, mat := matSet V.n V.own R.mat r ys }

def RegFile.setTag (R : RegFile) (r : Nat) (t : VTag) : RegFile :=
  { R with regs := { R.regs with vtags := SMap.set R.regs.vtags r t } }

/-- A vector register or pair takes a value with its tag. -/
def View.setVec (V : View) (R : RegFile) (wide : Bool) (r : Nat) (x : Val) : RegFile :=
  match wide, x with
  | false, .uni v => R.setTag r (.uni (v.setWidth 32))
  | true, .uni v => (R.setTag r (.uni (v.setWidth 32))).setTag (r + 1) (.uni ((v >>> 32).setWidth 32))
  | false, .aff false b st => R.setTag r (.aff (b.setWidth 32) (st.setWidth 32))
  | true, .aff true b st => (R.setTag r (.affLo b st)).setTag (r + 1) (.affHi b st)
  | false, x => V.setMat R r ((List.range V.n).map fun i => (x.at i).setWidth 32)
  | true, x =>
    V.setMat (V.setMat R r ((List.range V.n).map fun i => (x.at i).setWidth 32)) (r + 1)
      ((List.range V.n).map fun i => ((x.at i) >>> 32).setWidth 32)

def RegFile.setK (R : RegFile) (n : Fin 64) (x : W64) : RegFile :=
  { R with regs := { R.regs with k := R.regs.k.set n x, kw := R.regs.kw ||| BitVec.twoPow 64 n.val } }

/-- A write to p0 is discarded (R182). -/
def RegFile.setPred (R : RegFile) (n : Fin 16) (p : PTag) : RegFile :=
  if n = 0 then R else { R with regs := { R.regs with preds := R.regs.preds.set n p } }

/-- b3 takes b2, b2 takes b1, b1 takes b0, b0 takes the result (R185). -/
def RegFile.shift (R : RegFile) (x : Val) : RegFile :=
  let l := R.regs.latches
  { R with regs := { R.regs with latches := #v[some x, l[0], l[1], l[2]], shifts := R.regs.shifts + 1 } }

/-- The value of a destination register before the write. -/
def View.old (V : View) (wide : Bool) (d : Dst) : Val :=
  match d with
  | .v n => V.vec wide n.val
  | .k n => .uni (if wide then V.regs.k[n] else low32 V.regs.k[n])
  | .zero => .uni 0

/-- Results at the passing items, merged or zeroed by the mask; the other positions keep the old value (R227, R268). -/
def View.merge (V : View) (pass : Lanes) (m : Lanes × Bool) (old new : Val) : Val :=
  .mat ((List.range V.n).map fun i =>
    if pass.getLsbD i then (if m.1.getLsbD i then new.at i else if m.2 then 0 else old.at i) else old.at i)

/-- The destination's value after the mask step (R227). -/
def View.masked (V : View) (o : LOpt) (pass : Lanes) (old new : Val) : Val :=
  match V.keeps o.g o.pfx, new with
  | true, .uni v => .uni v
  | true, .aff w b st => .aff w b st
  | _, _ => V.merge pass (V.mask o.pfx) old new

/-- A 32-bit result in a k register (R217). -/
def extK (wide sext : Bool) (x : W64) : W64 :=
  if wide then x else if sext then (x.setWidth 32).signExtend 64 else low32 x

/-- A k destination takes the result of the lowest passing item after the mask step (R268). -/
def View.kResult (V : View) (o : LOpt) (pass : Lanes) (wide sext : Bool) (old : W64) (new : Val) : W64 :=
  match (Lanes.list pass V.n).head? with
  | none => old
  | some i =>
    let m := V.mask o.pfx
    if m.1.getLsbD i then extK wide sext (new.at i) else if m.2 then 0 else old

/-- Write of a result to a destination, and the shift of the latches (R185, R217, R218, R227, R268). -/
def View.write (V : View) (R : RegFile) (o : LOpt) (pass : Lanes) (d : Dst) (wide sext : Bool) (x : Val) : RegFile :=
  match d with
  | .v n =>
    let y := V.masked o pass (V.vec wide n.val) x
    (if o.nw then R else V.setVec R wide n.val y).shift y
  | .k n =>
    let y := V.kResult o pass wide sext V.regs.k[n] x
    (if o.nw then R else R.setK n y).shift (.uni (if wide then y else low32 y))
  | .zero => R.shift (V.masked o pass (.uni 0) x)

/-- Options of an instruction that has a guard only. -/
def optOf (g : Guard) : LOpt := ⟨g, false, none⟩

/-- Write of a k register by an instruction that executes once: the whole 64 bits, latches shifted (R185). -/
def RegFile.putK (R : RegFile) (n : Fin 64) (nw : Bool) (x : W64) : RegFile :=
  (if nw then R else R.setK n x).shift (.uni x)

/-- Write of a predicate at the passing items; the others keep their bits (R268, R289). -/
def View.writePred (V : View) (R : RegFile) (keep : Bool) (pass : Lanes) (n : Fin 16) (p : PTag) : RegFile :=
  match keep, p with
  | true, .uni b => R.setPred n (.uni b)
  | true, .thr t b => R.setPred n (.thr t b)
  | _, _ => R.setPred n (.mat ((V.plane p &&& pass) ||| (V.plane (V.regs.pred n) &&& ~~~ pass)))

/-- The file that a view reads. -/
def View.file (V : View) : RegFile := ⟨V.regs, V.mat⟩

end Sys2Proof.Machine
end

