-- ==== Sys2Proof/Machine/Float.lean ====
section
/-! DEFINITION. The number formats of R190 to R200: exact values as dyadic numbers, one rounding to a format, and the
arithmetic of R291 to R299. -/

namespace Sys2Proof.Machine

open Sys2Proof

/-- A binary format: exponent bits and fraction bits (R190). -/
structure FF where
  eb : Nat
  fb : Nat
  deriving DecidableEq, Repr

def fp64 : FF := ⟨11, 52⟩
def fp32 : FF := ⟨8, 23⟩
def bf16 : FF := ⟨8, 7⟩
def fp16 : FF := ⟨5, 10⟩

def FF.width (f : FF) : Nat := f.eb + f.fb + 1
def FF.bias (f : FF) : Int := 2 ^ (f.eb - 1) - 1
/-- The exponent of the last bit of a subnormal. -/
def FF.emin (f : FF) : Int := 1 - f.bias - f.fb
def FF.inf (f : FF) (neg : Bool) : Nat := (if neg then 2 ^ (f.eb + f.fb) else 0) + (2 ^ f.eb - 1) * 2 ^ f.fb
/-- The canonical quiet NaN (R190). -/
def FF.nan (f : FF) : Nat := (2 ^ f.eb - 1) * 2 ^ f.fb + 2 ^ (f.fb - 1)
def FF.maxFin (f : FF) (neg : Bool) : Nat := f.inf neg - 1
def FF.signBit (f : FF) (neg : Bool) : Nat := if neg then 2 ^ (f.eb + f.fb) else 0

/-- The exact value of a datum: (−1)^neg × m × 2^e, an infinity or a NaN. A zero keeps its sign. -/
inductive FV where
  | nan
  | inf (neg : Bool)
  | fin (neg : Bool) (m : Nat) (e : Int)
  deriving DecidableEq, Repr

/-- Decode a datum (R190, R192: subnormals at their exact values). -/
def fvOf (f : FF) (x : Nat) : FV :=
  let neg := bitN x (f.eb + f.fb)
  let e := bitsN x f.fb f.eb
  let m := bitsN x 0 f.fb
  if e = 2 ^ f.eb - 1 then (if m = 0 then .inf neg else .nan)
  else if e = 0 then .fin neg m f.emin
  else .fin neg (m + 2 ^ f.fb) (f.emin + e - 1)

def isNaNBits (f : FF) (x : Nat) : Bool := fvOf f x == .nan

/-- Does the rounding add one to the truncated significand? `rem` lies in 0 … 2·half (R198). -/
def roundUp (rm : Rm) (neg : Bool) (odd : Bool) (rem half : Nat) : Bool :=
  match rm with
  | .rne => decide (half < rem) || (rem == half && odd)
  | .rz => false
  | .ru => !neg && rem != 0
  | .rd => neg && rem != 0
  | .rna => decide (half ≤ rem)

/-- What overflow gives in each mode (R199). -/
def overflow (f : FF) (rm : Rm) (neg : Bool) : Nat :=
  match rm with
  | .rne => f.inf neg
  | .rna => f.inf neg
  | .rz => f.maxFin neg
  | .ru => if neg then f.maxFin true else f.inf false
  | .rd => if neg then f.inf true else f.maxFin false

/-- Number of binary digits. -/
def bitLen (m : Nat) : Nat := if m = 0 then 0 else Nat.log2 m + 1

/-- Round the exact value (−1)^neg × m × 2^e to a format, once; subnormal results are kept (R192, R198, R199). A shift by
more than two places beyond the digits of m leaves the same remainder class as one by two. -/
def roundFin (f : FF) (rm : Rm) (neg : Bool) (m : Nat) (e : Int) : Nat :=
  if m = 0 then f.signBit neg
  else
    let q : Int := max (e + bitLen m - (f.fb + 1)) f.emin
    let sig :=
      if q ≤ e then m * 2 ^ (e - q).toNat
      else
        let sh := Nat.min (q - e).toNat (bitLen m + 2)
        let t := m / 2 ^ sh
        if roundUp rm neg (t % 2 == 1) (m % 2 ^ sh) (2 ^ (sh - 1)) then t + 1 else t
    let sig' := if 2 ^ (f.fb + 1) ≤ sig then sig / 2 else sig
    let q' := if 2 ^ (f.fb + 1) ≤ sig then q + 1 else q
    if sig' < 2 ^ f.fb then f.signBit neg + sig'
    else
      let ef := (q' - f.emin).toNat + 1
      if 2 ^ f.eb - 1 ≤ ef then overflow f rm neg
      else f.signBit neg + ef * 2 ^ f.fb + (sig' - 2 ^ f.fb)

/-- Round any value; a NaN is written canonically (R191). -/
def roundFV (f : FF) (rm : Rm) : FV → Nat
  | .nan => f.nan
  | .inf n => f.inf n
  | .fin n m e => roundFin f rm n m e

/-- An exact value known to lie strictly between m and m + 1 units of 2^e: two more bits carry that fact. -/
def sticky (m : Nat) (e : Int) (inexact : Bool) : Nat × Int := (4 * m + (if inexact then 1 else 0), e - 2)

/-! ### Exact arithmetic -/

/-- The signed integer of a finite value at exponent e ≤ its own. -/
def atExp (neg : Bool) (m : Nat) (e e' : Int) : Int :=
  let v : Int := (m * 2 ^ (e - e').toNat : Nat)
  if neg then -v else v

/-- A signed integer times 2^e; a zero takes the sign `z`. -/
def finOfInt (v : Int) (e : Int) (z : Bool) : FV :=
  if v = 0 then .fin z 0 e else .fin (decide (v < 0)) v.natAbs e

/-- a + b exactly; an exact zero is +0 unless both are −0, or `rd` asks for −0 (R294). -/
def addFV (rd : Bool) (a b : FV) : FV :=
  match a, b with
  | .nan, _ => .nan
  | _, .nan => .nan
  | .inf m, .inf n => if m = n then .inf m else .nan
  | .inf m, _ => .inf m
  | _, .inf n => .inf n
  | .fin na ma ea, .fin nb mb eb =>
    let e := min ea eb
    let z := if ma = 0 ∧ mb = 0 ∧ na = nb then na else rd
    finOfInt (atExp na ma ea e + atExp nb mb eb e) e z

def negFV : FV → FV
  | .nan => .nan
  | .inf n => .inf (!n)
  | .fin n m e => .fin (!n) m e

/-- a × b exactly. -/
def mulFV (a b : FV) : FV :=
  match a, b with
  | .nan, _ => .nan
  | _, .nan => .nan
  | .inf m, .inf n => .inf (m != n)
  | .inf m, .fin n mb _ => if mb = 0 then .nan else .inf (m != n)
  | .fin n ma _, .inf m => if ma = 0 then .nan else .inf (m != n)
  | .fin na ma ea, .fin nb mb eb => .fin (na != nb) (ma * mb) (ea + eb)

/-- The exact value of a signed integer. -/
def intFV (z : Int) : FV := finOfInt z 0 false

/-- a × 2^n. -/
def scaleFV (a : FV) (n : Int) : FV :=
  match a with
  | .fin s m e => .fin s m (e + n)
  | x => x

/-! ### One element of R294 to R299 -/

def addF (f : FF) (rm : Rm) (a b : Nat) : Nat := roundFV f rm (addFV (rm == .rd) (fvOf f a) (fvOf f b))
def subF (f : FF) (rm : Rm) (a b : Nat) : Nat := roundFV f rm (addFV (rm == .rd) (fvOf f a) (negFV (fvOf f b)))
def mulF (f : FF) (rm : Rm) (a b : Nat) : Nat := roundFV f rm (mulFV (fvOf f a) (fvOf f b))
def fmaF (f : FF) (rm : Rm) (a b c : Nat) : Nat :=
  roundFV f rm (addFV (rm == .rd) (mulFV (fvOf f a) (fvOf f b)) (fvOf f c))

/-- a / b by RNE (R206, R294). -/
def divF (f : FF) (a b : Nat) : Nat :=
  match fvOf f a, fvOf f b with
  | .nan, _ => f.nan
  | _, .nan => f.nan
  | .inf _, .inf _ => f.nan
  | .inf m, .fin n _ _ => f.inf (m != n)
  | .fin m _ _, .inf n => f.signBit (m != n)
  | .fin na ma ea, .fin nb mb eb =>
    if mb = 0 then (if ma = 0 then f.nan else f.inf (na != nb))
    else
      let k := 2 * f.fb + 8 + bitLen mb
      let s := sticky (ma * 2 ^ k / mb) (ea - eb - k) (ma * 2 ^ k % mb != 0)
      roundFin f .rne (na != nb) s.1 s.2

/-- 2^n × a, rounded once (R294). -/
def scaleF (f : FF) (rm : Rm) (a : Nat) (n : Int) : Nat := roundFV f rm (scaleFV (fvOf f a) n)

/-- Order of two data, neither a NaN: −0 below +0. -/
def keyF (f : FF) (x : Nat) : Int :=
  let m : Int := (bitsN x 0 (f.eb + f.fb) : Nat)
  if bitN x (f.eb + f.fb) then -m - 1 else m

/-- `fmin` and `fmax` (R191). -/
def minF (f : FF) (a b : Nat) : Nat :=
  if isNaNBits f a then (if isNaNBits f b then f.nan else b)
  else if isNaNBits f b then a
  else if keyF f a ≤ keyF f b then a else b
def maxF (f : FF) (a b : Nat) : Nat :=
  if isNaNBits f a then (if isNaNBits f b then f.nan else b)
  else if isNaNBits f b then a
  else if keyF f b ≤ keyF f a then a else b

def absF (f : FF) (a : Nat) : Nat := bitsN a 0 (f.eb + f.fb)
def negF (f : FF) (a : Nat) : Nat := a ^^^ 2 ^ (f.eb + f.fb)

/-- Compare two values that are not NaNs; the zeros compare equal (R296). -/
def cmpFV (a b : FV) : Ordering :=
  match a, b with
  | .inf m, .inf n => if m = n then .eq else if m then .lt else .gt
  | .inf m, _ => if m then .lt else .gt
  | _, .inf n => if n then .gt else .lt
  | .fin na ma ea, .fin nb mb eb =>
    let e := min ea eb
    compare (atExp na ma ea e) (atExp nb mb eb e)
  | _, _ => .eq

/-- The relations of `fcmp` (R296). -/
def relF (f : FF) (r : FRel) (a b : Nat) : Bool :=
  let un := isNaNBits f a || isNaNBits f b
  let c := cmpFV (fvOf f a) (fvOf f b)
  match r with
  | .eq => !un && c == .eq
  | .ne => un || c != .eq
  | .lt => !un && c == .lt
  | .le => !un && c != .gt
  | .gt => !un && c == .gt
  | .ge => !un && c != .lt
  | .un => un
  | .ord => !un

/-- Round to an integer by the mode. -/
def roundInt (rm : Rm) (neg : Bool) (m : Nat) (e : Int) : Nat :=
  if 0 ≤ e then m * 2 ^ e.toNat
  else
    let sh := (-e).toNat
    let t := m / 2 ^ sh
    if roundUp rm neg (t % 2 == 1) (m % 2 ^ sh) (2 ^ (sh - 1)) then t + 1 else t

/-- `frnd` (R298). -/
def rndF (f : FF) (rm : Rm) (a : Nat) : Nat :=
  match fvOf f a with
  | .nan => f.nan
  | .inf _ => a
  | .fin n m e => if m = 0 then a else roundFin f .rne n (roundInt rm n m e) 0

/-- `fclass` (R299). -/
def classF (f : FF) (a : Nat) : Nat :=
  let neg := bitN a (f.eb + f.fb)
  let e := bitsN a f.fb f.eb
  let m := bitsN a 0 f.fb
  let k :=
    if e = 2 ^ f.eb - 1 then
      if m = 0 then (if neg then 0 else 7) else (if bitN m (f.fb - 1) then 9 else 8)
    else if e = 0 then
      if m = 0 then (if neg then 3 else 4) else (if neg then 2 else 5)
    else (if neg then 1 else 6)
  2 ^ k

/-- Between formats (R297); a NaN becomes the canonical one. -/
def convF (s d : FF) (rm : Rm) (a : Nat) : Nat := roundFV d rm (fvOf s a)

/-- Integer to floating point (R199). -/
def cvtIF (t : IntTy) (d : FF) (rm : Rm) (a : Nat) : Nat := roundFV d rm (intFV (readN t a))

/-- Floating point to integer: rounds, then saturates; a NaN gives 0 (R200). -/
def cvtFI (s : FF) (t : IntTy) (rm : Rm) (a : Nat) : Nat :=
  match fvOf s a with
  | .nan => 0
  | .inf n => clampN t (if n then minOf t else maxOf t)
  | .fin n m e => clampN t (let v : Int := roundInt rm n m e; if n then -v else v)

/-! ### Types -/

/-- The format of an element. -/
def FTy.ff : FTy → FF
  | .f32 => fp32
  | .f64 => fp64
  | .bf16x2 => bf16
  | .f16x2 => fp16

def fl1 (t : FTy) (g : Nat → Nat) (a : W64) : W64 :=
  BitVec.ofNat 64 (mapE1 (FTy.ff t).width t.elems g a.toNat)
def fl2 (t : FTy) (g : Nat → Nat → Nat) (a b : W64) : W64 :=
  BitVec.ofNat 64 (mapE2 (FTy.ff t).width t.elems g a.toNat b.toNat)
def fl3 (t : FTy) (g : Nat → Nat → Nat → Nat) (a b c : W64) : W64 :=
  BitVec.ofNat 64 (mapE3 (FTy.ff t).width t.elems g a.toNat b.toNat c.toNat)

/-! ### `cvt`, `pack`, `unpk` (R283-R286) -/

/-- One element of a conversion. -/
def convElem (s d : NumTy) (sat : Bool) (rm : Rm) (x : Nat) : Nat :=
  match s, d with
  | .int a, .int b => narrowE a b sat x
  | .int a, .fp b => cvtIF a (FTy.ff b) rm x
  | .fp a, .int b => cvtFI (FTy.ff a) b rm x
  | .fp a, .fp b => convF (FTy.ff a) (FTy.ff b) rm x

def NumTy.bits : NumTy → Nat
  | .int t => t.bits
  | .fp t => (FTy.ff t).width

/-- `cvt` (R284): element by element, each in its own position. -/
def cvtW (s d : NumTy) (sat : Bool) (rm : Rm) (a : W64) : W64 :=
  BitVec.ofNat 64 (joinN (NumTy.bits d) ((List.range d.elems).map fun j =>
    convElem s d sat rm (elemN (NumTy.bits s) j a.toNat)))

/-- `pack` (R285): element j of the result comes from source j. -/
def packW (s d : NumTy) (sat : Bool) (rm : Rm) (xs : List W64) : W64 :=
  BitVec.ofNat 64 (joinN (NumTy.bits d) ((xs.take d.elems).map fun x =>
    convElem s d sat rm (bitsN x.toNat 0 (NumTy.bits s))))

/-- `unpk` (R286): one element widened; signedness that differs clamps with sat and otherwise keeps the extended bits. -/
def unpkW (s d : NumTy) (sat : Bool) (e : Nat) (a : W64) : W64 :=
  BitVec.ofNat 64 (convElem s d sat .rne (elemN (NumTy.bits s) e a.toNat))

end Sys2Proof.Machine
end

