-- ==== Sys2Proof/Machine/Special.lean ====
section
/-! DEFINITION. The special functions of R206 and R207: the exact mathematical value, rounded once. The functions without
an exact finite value are computed in fixed point with far more bits than the rounding looks at. -/

namespace Sys2Proof.Machine

open Sys2Proof

/-- Bits after the point of the fixed-point numbers below. -/
def fxP : Nat := 400

/-- floor(π × 2^400). -/
def fxPi : Nat := 8112377246730971238862271351300894519161151600179265203591191037615230905373990498745523360926816815427566779727327576236

/-- floor(ln 2 × 2^400). -/
def fxLn2 : Nat := 1789879222497203190815761498240779176894896805856420935579692301363062920687047601279850318367644315849030039181347319086

def fxOne : Nat := 2 ^ fxP
def fxMul (a b : Nat) : Nat := a * b / fxOne

/-- A finite value as fixed point, toward zero. -/
def fxOf (m : Nat) (e : Int) : Nat :=
  let s : Int := e + fxP
  if 0 ≤ s then m * 2 ^ s.toNat else m / 2 ^ (-s).toNat

/-- Σ y^k / k! from term k on, n terms. -/
def fxExpSum (y : Nat) : Nat → Nat → Nat → Nat
  | 0, _, _ => 0
  | n + 1, k, term => term + fxExpSum y n (k + 1) (fxMul term y / (k + 1))

/-- e^y for 0 ≤ y < 1. -/
def fxExp (y : Nat) : Nat := fxExpSum y 110 0 fxOne

/-- The sine and cosine series: terms of one parity with alternating sign. -/
def fxAltSum (y2 : Nat) : Nat → Nat → Int → Nat → Int
  | 0, _, _, _ => 0
  | n + 1, k, sg, term => sg * term + fxAltSum y2 n (k + 2) (-sg) (fxMul term y2 / ((k + 1) * (k + 2)))

def fxSin (y : Nat) : Nat := (fxAltSum (fxMul y y) 70 1 1 y).toNat
def fxCos (y : Nat) : Nat := (fxAltSum (fxMul y y) 70 0 1 fxOne).toNat

/-- Σ t^(2k+1) / (2k+1), for the inverse hyperbolic tangent. -/
def fxAtanhSum (t2 : Nat) : Nat → Nat → Nat → Nat
  | 0, _, _ => 0
  | n + 1, k, p => p / k + fxAtanhSum t2 n (k + 2) (fxMul p t2)

/-- ln z for 1 ≤ z < 2. -/
def fxLn (z : Nat) : Nat :=
  let t := (z - fxOne) * fxOne / (z + fxOne)
  2 * fxAtanhSum (fxMul t t) 130 1 t

/-- A fixed-point result that is not exact, rounded to a format by RNE. -/
def roundFx (f : FF) (neg : Bool) (v : Nat) (shift : Int) : Nat :=
  let s := sticky v (shift - fxP) true
  roundFin f .rne neg s.1 s.2

/-! ### Square roots and reciprocals -/

/-- floor √m. -/
def isqrt (m : Nat) : Nat := Nat.sqrt m

/-- `fsqrt` in a mode (R206, R207). -/
def sqrtF (f : FF) (rm : Rm) (a : Nat) : Nat :=
  match fvOf f a with
  | .nan => f.nan
  | .inf n => if n then f.nan else f.inf false
  | .fin n m e =>
    if m = 0 then a
    else if n then f.nan
    else
      let m1 := if e % 2 = 0 then m else 2 * m
      let e1 := if e % 2 = 0 then e else e - 1
      let k := f.fb + 8
      let x := m1 * 2 ^ (2 * k)
      let r := isqrt x
      let s := sticky r (e1 / 2 - k) (r * r != x)
      roundFin f rm false s.1 s.2

/-- `frcp` (R206). -/
def rcpF (f : FF) (a : Nat) : Nat :=
  match fvOf f a with
  | .nan => f.nan
  | .inf n => f.signBit n
  | .fin n m _ => if m = 0 then f.inf n else divF f (((2 ^ (f.eb - 1) - 1) * 2 ^ f.fb)) a

/-- `frsq` (R206). -/
def rsqF (f : FF) (a : Nat) : Nat :=
  match fvOf f a with
  | .nan => f.nan
  | .inf n => if n then f.nan else 0
  | .fin n m e =>
    if m = 0 then f.inf n
    else if n then f.nan
    else
      let m1 := if e % 2 = 0 then m else 2 * m
      let e1 := if e % 2 = 0 then e else e - 1
      let k := 2 * f.fb + 16
      let r := isqrt (2 ^ (2 * k) / m1)
      let s := sticky r (-(e1 / 2) - k) (r * r * m1 != 2 ^ (2 * k))
      roundFin f .rne false s.1 s.2

/-! ### Exponential, logarithm, sine, cosine, hyperbolic tangent, on FP32 (R206) -/

/-- `fex2`. -/
def ex2F (a : Nat) : Nat :=
  match fvOf fp32 a with
  | .nan => fp32.nan
  | .inf n => if n then 0 else fp32.inf false
  | .fin neg m e =>
    if m = 0 then roundFin fp32 .rne false 1 0
    else if 8 < e + bitLen m ∧ neg then 0
    else if 8 < e + bitLen m then fp32.inf false
    else
      let v := fxOf m e
      let n := v / fxOne
      let r := v % fxOne
      if r = 0 then roundFin fp32 .rne false 1 (if neg then -(n : Int) else n)
      else if neg then roundFx fp32 false (fxExp (fxMul (fxOne - r) fxLn2)) (-(n : Int) - 1)
      else roundFx fp32 false (fxExp (fxMul r fxLn2)) n

/-- `flg2`. -/
def lg2F (a : Nat) : Nat :=
  match fvOf fp32 a with
  | .nan => fp32.nan
  | .inf n => if n then fp32.nan else fp32.inf false
  | .fin neg m e =>
    if m = 0 then fp32.inf true
    else if neg then fp32.nan
    else
      let n : Int := e + bitLen m - 1
      let z := fxOf m (1 - (bitLen m : Int))
      if z = fxOne then roundFV fp32 .rne (intFV n)
      else
        let l : Int := n * fxOne + (fxLn z * fxOne / fxLn2 : Nat)
        roundFx fp32 (decide (l < 0)) l.natAbs 0

/-- sin(π r) for 0 < r < 1, r in fixed point. -/
def fxSinPi (r : Nat) : Nat :=
  let r1 := if fxOne < 2 * r then fxOne - r else r
  if 4 * r1 ≤ fxOne then fxSin (fxMul r1 fxPi) else fxCos (fxMul (fxOne / 2 - r1) fxPi)

/-- `fsin`: the sine of x half-turns. -/
def sinF (a : Nat) : Nat :=
  match fvOf fp32 a with
  | .nan => fp32.nan
  | .inf _ => fp32.nan
  | .fin neg m e =>
    let s : Int := e + fxP
    let v := if 0 ≤ s then m * 2 ^ s.toNat % (2 * fxOne) else 0
    let r := v % fxOne
    if r = 0 then fp32.signBit neg
    else
      let half := decide (v / fxOne = 1)
      if 2 * r = fxOne then roundFin fp32 .rne (neg != half) 1 0
      else roundFx fp32 (neg != half) (fxSinPi r) 0

/-- `fcos`: the cosine of x half-turns. -/
def cosF (a : Nat) : Nat :=
  match fvOf fp32 a with
  | .nan => fp32.nan
  | .inf _ => fp32.nan
  | .fin _ m e =>
    let s : Int := e + fxP
    let v := if 0 ≤ s then m * 2 ^ s.toNat % (2 * fxOne) else 0
    let r := v % fxOne
    let half := decide (v / fxOne = 1)
    if r = 0 then roundFin fp32 .rne half 1 0
    else if 2 * r = fxOne then 0
    else if 2 * r < fxOne then roundFx fp32 half (fxSinPi (fxOne / 2 - r)) 0
    else roundFx fp32 (!half) (fxSinPi (r - fxOne / 2)) 0

/-- Square five times. -/
def fxPow32 (x : Nat) : Nat :=
  let x2 := fxMul x x
  let x4 := fxMul x2 x2
  let x8 := fxMul x4 x4
  let x16 := fxMul x8 x8
  fxMul x16 x16

/-- `ftanh`. -/
def tanhF (a : Nat) : Nat :=
  match fvOf fp32 a with
  | .nan => fp32.nan
  | .inf n => roundFin fp32 .rne n 1 0
  | .fin neg m e =>
    if m = 0 then a
    else if 4 < e + bitLen m ∨ fxOne * 10 ≤ fxOf m e then roundFin fp32 .rne neg 1 0
    else
      let x := fxPow32 (fxExp (fxOf m (e - 4)))
      roundFx fp32 neg ((x - fxOne) * fxOne / (x + fxOne)) 0

/-- A special function of one element: `.f32` and `.f64` directly, packed elements through FP32 and RNE (R206, R300). -/
def viaF32 (t : FTy) (g : Nat → Nat) (x : Nat) : Nat :=
  match t with
  | .f32 => g x
  | .f64 => g x
  | .bf16x2 => convF fp32 bf16 .rne (g (convF bf16 fp32 .rne x))
  | .f16x2 => convF fp32 fp16 .rne (g (convF fp16 fp32 .rne x))

/-- The format in which a special function computes. -/
def FTy.sff : FTy → FF
  | .f64 => fp64
  | _ => fp32

def fdivE (t : FTy) (a b : Nat) : Nat :=
  match t with
  | .f32 => divF fp32 a b
  | .f64 => divF fp64 a b
  | .bf16x2 => convF fp32 bf16 .rne (divF fp32 (convF bf16 fp32 .rne a) (convF bf16 fp32 .rne b))
  | .f16x2 => convF fp32 fp16 .rne (divF fp32 (convF fp16 fp32 .rne a) (convF fp16 fp32 .rne b))

/-- `fsqrt`: the mode governs `.f32` and `.f64`, the packed forms use RNE (R300). -/
def sqrtE (t : FTy) (rm : Rm) (x : Nat) : Nat :=
  match t with
  | .f32 => sqrtF fp32 rm x
  | .f64 => sqrtF fp64 rm x
  | _ => viaF32 t (sqrtF fp32 .rne) x

/-! ### ACC26 (R195) -/

/-- Round to 18 significant bits with the exponent unbounded, then flush or overflow. -/
def acc26 (v : FV) : FV :=
  match v with
  | .nan => .nan
  | .inf n => .inf n
  | .fin n m e =>
    if m = 0 then .fin n 0 0
    else
      let k := bitLen m
      let sh := k - 18
      let t := m / 2 ^ sh
      let sig := if sh = 0 then m
        else if roundUp .rne n (t % 2 == 1) (m % 2 ^ sh) (2 ^ (sh - 1)) then t + 1 else t
      let e' : Int := e + sh
      if 128 < e' + bitLen sig then .inf n
      else if e' + bitLen sig < -125 then .fin n 0 0
      else .fin n sig e'

end Sys2Proof.Machine
end

