-- ==== Sys2Proof/Machine/Flags.lean ====
section
/-! DEFINITION. Every predicate computation: relations (R281), thresholds (R161), combinations of predicate tags (R161),
carries and borrows (R272). The hardware has no flag register: its flags are the predicates. -/

namespace Sys2Proof.Machine

open Sys2Proof

/-- The lanes below n at which f holds. -/
def lanesOf (n : Nat) (f : Nat → Bool) : Lanes :=
  BitVec.ofNat 1024 ((List.range n).foldr (fun i acc => if f i then acc + 2 ^ i else acc) 0)

/-! ### Relations -/

def relInt (r : Rel) (a b : Int) : Bool :=
  match r with
  | .eq => decide (a = b)
  | .ne => decide (a ≠ b)
  | .lt => decide (a < b)
  | .le => decide (a ≤ b)
  | .gt => decide (b < a)
  | .ge => decide (b ≤ a)

/-- The relation of R281 on two elements, by the signedness of the type. -/
def relE (t : IntTy) (r : Rel) (a b : W64) : Bool := relInt r (readN t a.toNat) (readN t b.toNat)

/-- The relation with its sources exchanged. -/
def relFlip : Rel → Rel
  | .lt => .gt
  | .le => .ge
  | .gt => .lt
  | .ge => .le
  | r => r

def relOrdered : Rel → Bool
  | .eq => false
  | .ne => false
  | _ => true

/-- The relation holds where the value lies below the bound: `lt u` and `le (u - 1)`; `ge` and `gt` are its complement. -/
def relBound (r : Rel) (u : Int) : Int :=
  match r with
  | .le => u + 1
  | .gt => u + 1
  | _ => u

/-! ### Thresholds (R161) -/

/-- The first of the items 0, 1, … at which "base + stride × item < bound" changes value, or a number out of range. -/
def firstChange (base stride bound : Int) : Int :=
  if 0 < stride then (bound - base + stride - 1) / stride
  else (base - bound) / (-stride) + 1

/-- `cmp` of an AFF source against a UNI source over the `len` items of a context (R161): THR, whose threshold is the index of the
first item at which the comparison changes value, or UNI, where it applies. -/
def thrOf (t : IntTy) (r : Rel) (P : Places) (len : Nat) (b st u : W64) : Option PTag :=
  let base := readN t b.toNat
  let stride := sgnN t.bits st.toNat
  let last := base + stride * ((len : Int) - 1)
  if stride = 0 ∨ !relOrdered r ∨ last < minOf t ∨ maxOf t < last ∨ len = 0 then none
  else
    let uu := readN t u.toNat
    let c0 := relInt r base uu
    let j := firstChange base stride (relBound r uu)
    if 0 < j ∧ j < len then some (.thr (P.at j.toNat) c0) else some (.uni c0)

/-- The predicate of a comparison with its tag (R159, R161, R281). -/
def View.cmpTag (V : View) (keep : Bool) (pass : Lanes) (t : IntTy) (r : Rel) (x y : Val) : PTag :=
  let m := PTag.mat (lanesOf V.n fun i => pass.getLsbD i && relE t r (x.at i) (y.at i))
  if !keep then m
  else
    match x, y with
    | .uni a, .uni b => .uni (relE t r a b)
    | .aff _ b st, .uni u => (thrOf t r V.places V.exist b st u).getD m
    | .uni u, .aff _ b st => (thrOf t (relFlip r) V.places V.exist b st u).getD m
    | _, _ => m

/-- The predicate of a floating-point comparison (R159, R296). -/
def View.fcmpTag (V : View) (keep : Bool) (pass : Lanes) (f : FF) (r : FRel) (x y : Val) : PTag :=
  match keep, x, y with
  | true, .uni a, .uni b => .uni (relF f r a.toNat b.toNat)
  | _, _, _ => .mat (lanesOf V.n fun i => pass.getLsbD i && relF f r (x.at i).toNat (y.at i).toNat)

/-! ### Combinations (R161) -/

def View.pand (V : View) (a b : PTag) : PTag :=
  match a, b with
  | .uni x, .uni y => .uni (x && y)
  | .thr t s, .uni true => .thr t s
  | .uni true, .thr t s => .thr t s
  | .thr _ _, .uni false => .uni false
  | .uni false, .thr _ _ => .uni false
  | .thr t true, .thr u true => .thr (min t u) true
  | .thr t false, .thr u false => .thr (max t u) false
  | _, _ => .mat (V.plane a &&& V.plane b)

def View.por (V : View) (a b : PTag) : PTag :=
  match a, b with
  | .uni x, .uni y => .uni (x || y)
  | .thr t s, .uni false => .thr t s
  | .uni false, .thr t s => .thr t s
  | .thr _ _, .uni true => .uni true
  | .uni true, .thr _ _ => .uni true
  | .thr t true, .thr u true => .thr (max t u) true
  | .thr t false, .thr u false => .thr (min t u) false
  | _, _ => .mat (V.plane a ||| V.plane b)

def View.pxor (V : View) (a b : PTag) : PTag :=
  match a, b with
  | .uni x, .uni y => .uni (x != y)
  | .thr t s, .uni false => .thr t s
  | .uni false, .thr t s => .thr t s
  | .thr t s, .uni true => .thr t (!s)
  | .uni true, .thr t s => .thr t (!s)
  | _, _ => .mat (V.plane a ^^^ V.plane b)

/-- An operand of a predicate instruction, inverted when its bit is set. -/
def Regs.predNot (r : Regs) (p : Fin 16) (inv : Bool) : PTag := if inv then (r.pred p).not else r.pred p

/-! ### Carries (R272) -/

/-- Sum and carry of a, b and a carry-in. -/
def addCarry (t : IntTy) (a b : Nat) (cin : Bool) : Nat × Bool :=
  let s := a + b + cin.toNat
  (s % 2 ^ t.bits, decide (2 ^ t.bits ≤ s))

/-- Difference and borrow. -/
def subBorrow (t : IntTy) (a b : Nat) (cin : Bool) : Nat × Bool :=
  (wrapN t.bits ((a : Int) - b - cin.toNat), decide ((a : Int) - b - cin.toNat < 0))

/-- A predicate as a UNI or MAT source. -/
def PTag.isUni : PTag → Bool
  | .uni _ => true
  | _ => false

end Sys2Proof.Machine
end

