-- ==== Sys2Proof/Machine/Tiles.lean ====
section
/-! DEFINITION. Tile instances and contractions: passing, staging, commit and discard (R313, R318). -/

namespace Sys2Proof.Machine

open Sys2Proof

/-! ### Operand registers of `opa` (R196, R314) -/

/-- Fields of `fmt` (R314). -/
def fmtX (f : W32) : Nat := bitsN f.toNat 0 4
def fmtY (f : W32) : Nat := bitsN f.toNat 4 4
/-- Width of a container. -/
def mCont (code : Nat) : Nat :=
  if code = 0 then 32 else if code = 1 then 64 else if code = 2 ∨ code = 3 then 16 else if code = 4 then 8
  else if code = 8 then 2 else if code = 9 ∨ code = 10 then 4 else 8

/-- Registers of n elements. -/
def mSpan (code n : Nat) : Nat := ((n - 1) * mCont code) / 32 + (if code = 1 then 2 else 1)

/-! ### Instances -/

/-- The name of strip t of a context among the strip-scope instances of its block. -/
def Ctx.stripKey (c : Ctx) (t : Nat) : Nat :=
  match c.items with
  | none => c.firstStrip + t
  | some _ => 16 + c.posBase + t

/-- The positions of an instance (R201) that a mask of a context's positions covers: the lanes of its strip, or the
block-wide positions. -/
def Ctx.instMask (c : Ctx) (strip : Option Nat) (m : Lanes) : Lanes :=
  match strip with
  | none => m <<< c.posBase
  | some k =>
    match (List.range c.strips).find? fun t => c.stripKey t == k with
    | some t => (m >>> (64 * t)) &&& Lanes.below 64
    | none => 0

/-- The position in an instance of position i of a context (R201). DESIGN CHOICE (log 126): in a strip-scope instance it is the lane, also in a
regrouped context whose first position in the block is no multiple of 16. -/
def Ctx.instPos (c : Ctx) (blk : Bool) (i : Nat) : Nat := if blk then c.posBase + i else i % 64

def TileInst.zero (tile : Nat) (strip : Option Nat) : TileInst :=
  { tile := tile, strip := strip, words := [], overflow := false, opens := [], damage := [] }

/-- An instance; one that no instruction has written reads zero (R313). -/
def Block.inst (b : Block) (tile : Nat) (strip : Option Nat) : TileInst :=
  (b.tiles.find? fun t => t.tile == tile && t.strip == strip).getD (TileInst.zero tile strip)

def Block.setInst (b : Block) (t : TileInst) : Block :=
  if b.tiles.any fun u => u.tile == t.tile && u.strip == t.strip then
    { b with tiles := updFirst (fun u => u.tile == t.tile && u.strip == t.strip) (fun _ => t) b.tiles }
  else { b with tiles := b.tiles ++ [t] }

/-- Words hold zero where they are not listed. -/
def TileInst.word (t : TileInst) (w : Nat) : W32 := SMap.getD t.words w 0
def TileInst.setWord (t : TileInst) (w : Nat) (x : W32) : TileInst :=
  { t with words := if x = 0 then SMap.erase t.words w else SMap.set t.words w x }

/-- The status word (R313): the sticky overflow, and whether a contraction is open. -/
def TileInst.status (t : TileInst) : W32 :=
  BitVec.ofNat 32 (t.overflow.toNat + 2 * (!t.opens.isEmpty).toNat)

/-- The open contraction of a site: one that every item has passed is closed, although its application is still to come (R318). -/
def TileInst.open? (t : TileInst) (site : Nat) : Option Contraction := t.opens.find? fun x => x.site == site && x.closedAt.isNone
def TileInst.setOpen (t : TileInst) (x : Contraction) : TileInst :=
  if t.opens.any fun y => y.id == x.id then
    { t with opens := updFirst (fun y => y.id == x.id) (fun _ => x) t.opens }
  else { t with opens := t.opens ++ [x] }

/-- Committed and staged passes of a contraction. -/
def Contraction.allPassed (x : Contraction) : Lanes := x.staged.foldl (fun m g => m ||| g.passed) x.passed

/-- Stage passes with their terms in a region instance of a context. -/
def Contraction.stage (x : Contraction) (ctx region : Nat) (m : Lanes) (terms : List OpaTerm) : Contraction :=
  if x.staged.any fun g => g.ctx == ctx && g.region == region then
    let add (g : OpaStage) : OpaStage := { g with passed := g.passed ||| m, terms := g.terms ++ terms }
    { x with staged := updFirst (fun g => g.ctx == ctx && g.region == region) add x.staged }
  else { x with staged := x.staged ++ [⟨ctx, region, m, terms⟩] }

/-- What is left of a stage without the items of m. -/
def OpaStage.without (g : OpaStage) (m : Lanes) : OpaStage :=
  { g with passed := g.passed &&& ~~~ m, terms := g.terms.filter fun t => !m.getLsbD t.pos }

/-- Staged passes of the items of m in a region instance become committed (R318). -/
def Contraction.commit (x : Contraction) (ctx region : Nat) (m : Lanes) : Contraction :=
  let mine := x.staged.filter fun g => g.ctx == ctx && g.region == region
  let rest := x.staged.map fun g => if g.ctx == ctx && g.region == region then g.without m else g
  { x with
    passed := mine.foldl (fun p g => p ||| (g.passed &&& m)) x.passed
    terms := mine.foldl (fun l g => l ++ g.terms.filter fun t => m.getLsbD t.pos) x.terms
    staged := rest.filter fun g => g.passed != 0 }

/-- Staged passes of the items of m in a region instance are discarded (R318). -/
def Contraction.discard (x : Contraction) (ctx region : Nat) (m : Lanes) : Contraction :=
  let rest := x.staged.map fun g => if g.ctx == ctx && g.region == region then g.without m else g
  { x with staged := rest.filter fun g => g.passed != 0 }

/-- A contraction without a pass is not open. -/
def TileInst.prune (t : TileInst) : TileInst := { t with opens := t.opens.filter fun x => x.allPassed != 0 }

def Block.eachOpen (b : Block) (g : TileInst → Contraction → Contraction) : Block :=
  { b with tiles := b.tiles.map fun t => TileInst.prune { t with opens := t.opens.map (g t) } }

/-- Commit what the items of m (positions of the context) have staged in a region instance. -/
def Block.commitStaged (b : Block) (c : Ctx) (region : Nat) (m : Lanes) : Block :=
  b.eachOpen fun t x => x.commit c.id region (c.instMask t.strip m)

/-- Discard it. -/
def Block.discardStaged (b : Block) (c : Ctx) (region : Nat) (m : Lanes) : Block :=
  b.eachOpen fun t x => x.discard c.id region (c.instMask t.strip m)

/-- Discard every staged pass of a context (R262, R391). -/
def Block.discardCtx (b : Block) (ctx : Nat) : Block :=
  b.eachOpen fun _ x => { x with staged := x.staged.filter fun g => g.ctx != ctx }

/-- Is a tile declared by `.acc` with this scope (R10, R312)? -/
def KHeader.tileOk (h : KHeader) (tile : Nat) (blk : Bool) : Bool :=
  if blk then h.blockTiles.getLsbD tile else h.stripTiles.getLsbD tile

/-- The instances that a mask of a context's positions reaches: its strips, or the block's. -/
def Ctx.instKeys (c : Ctx) (blk : Bool) (m : Lanes) : List (Option Nat) :=
  if blk then [none]
  else ((List.range c.strips).filter fun t => Lanes.strip m t != 0).map fun t => some (c.stripKey t)

end Sys2Proof.Machine
end

