-- ==== Sys2Proof/Machine/Views.lean ====
section
/-! DEFINITION. Memory as agents see it: views, release heads and acquires (R102-R123), the spin detector's reads (R188), leaves of the page tables,
the ports of tier 2, and reads and writes of physical memory. -/

namespace Sys2Proof

/-- A fragment is a memory agent (R102). -/
def FragRef.agent (r : FragRef) : Machine.Agent := .frag r.ctx r.frag

end Sys2Proof

namespace Sys2Proof.Machine

open Sys2Proof

/-! ### Leaves and pointers (R46, R47) -/

def leafValid (l : W64) : Bool := l.getLsbD 0
def leafKind (l : W64) : Bool := l.getLsbD 1
def leafRd (l : W64) : Bool := l.getLsbD 2
def leafWr (l : W64) : Bool := l.getLsbD 3
def leafEx (l : W64) : Bool := l.getLsbD 4
def leafFp (l : W64) : Bool := l.getLsbD 5
def leafPfn (l : W64) : Nat := bitsN l.toNat 10 38
def leafTenant (l : W64) : Nat := bitsN l.toNat 50 8
def leafTier (l : W64) : Nat := bitsN l.toNat 58 2
def leafRun (l : W64) : Nat := bitsN l.toNat 60 4
/-- Reserved bits [9:6] and [49:48] of a leaf. -/
def leafReserved (l : W64) : Bool := bitsN l.toNat 6 4 != 0 || bitsN l.toNat 48 2 != 0
/-- Reserved bits [63:48] and [9:2] of a table pointer. -/
def ptrReserved (l : W64) : Bool := bitsN l.toNat 48 16 != 0 || bitsN l.toNat 2 8 != 0
def ptrNext (l : W64) : Nat := bitsN l.toNat 10 38 * 2 ^ 14

/-! ### Physical memory (R30, R100) -/

/-- Units of 64 bytes that a write of n bytes at a covers whole. -/
def coveredUnits (a n : Nat) : List Nat :=
  (List.range (n / 64 + 1)).filterMap fun k =>
    let u := (a + 63) / 64 + k
    if 64 * u + 64 ≤ a + n then some u else none

/-- Units of 64 bytes that n bytes at a touch. -/
def touchedUnits (a n : Nat) : List Nat :=
  if n = 0 then [] else (List.range ((a + n - 1) / 64 - a / 64 + 1)).map fun k => a / 64 + k

/-! ### What agents know of writes (R102-R120)

A read takes the bytes of some moment: now, or before a write that the reader need not see. Which one is a free value. DESIGN CHOICE (log 121):
some agents know more than the sw edges of R114 alone give them. -/

/-- The number up to which an agent's writes are known. -/
def clockOf (l : List (Agent × Nat)) (a : Agent) : Nat := ((l.find? fun x => x.1 == a).map fun x => x.2).getD 0

/-- Two views together. -/
def Horizon.join (a b : Horizon) : Horizon where
  floor := max a.floor b.floor
  clock := b.clock.foldl (fun m x => (m.filter fun y => y.1 != x.1) ++ [(x.1, max (clockOf m x.1) x.2)]) a.clock
  seen := (a.seen ++ b.seen).eraseDups

/-- A view that knows the writes of one agent up to a number. -/
def Horizon.of (a : Agent) (n : Nat) : Horizon := ⟨0, [(a, n)], []⟩

/-- Every agent's writes before this are known. -/
def Horizon.upTo (n : Nat) : Horizon := ⟨n, [], []⟩

def Horizon.knows (v : Horizon) (w : PastWrite) : Bool :=
  w.all || decide (w.id ≤ v.floor) || decide (w.id ≤ clockOf v.clock w.who)

/-- The number of the latest write. -/
def State.lastWrite (s : State) : Nat := (s.past.head?.map fun w => w.id).getD 0

/-- The 8-byte words of n bytes at a. -/
def wordsAt (a n : Nat) : List Nat := if n = 0 then [] else (List.range ((a + n - 1) / 8 - a / 8 + 1)).map fun k => a / 8 + k

/-- A write to some word of n bytes at a of a memory. -/
def PastWrite.meets (w : PastWrite) (m : MemSpace) (a n : Nat) : Bool :=
  w.space == m && decide (w.addr / 8 * 8 < a + n) && decide (a / 8 * 8 < w.addr + w.len)

/-- The least moment at which a read may be placed: no write that it must see is missing (R117). -/
def Horizon.least (v : Horizon) (ws : List PastWrite) (m : MemSpace) (a n : Nat) : Nat :=
  let words := wordsAt a n
  (ws.map fun w => w.id).foldl max
    (((v.seen.filter fun x => x.1 == m && words.contains x.2.1).map fun x => x.2.2).foldl max 0)

/-- A write that every agent sees: the bounded time of R123 is over. -/
def State.oldWrite (s : State) (w : PastWrite) : Bool := decide (w.cycle + Config.visibleTicks ≤ s.cycle)

/-- The moments at which a read of n bytes at a may be placed, now as the first. -/
def State.moments (s : State) (v : Horizon) (m : MemSpace) (a n : Nat) : List Nat :=
  let ws := s.past.filter fun w => w.meets m a n
  let least := v.least (ws.filter fun w => v.knows w || s.oldWrite w) m a n
  s.lastWrite :: ((ws.filter fun w => decide (least < w.id)).map fun w => w.id - 1)

/-- Bytes as they were before the writes after a moment. -/
def undo (m : MemSpace) (a t : Nat) : List PastWrite → List Byte → List Byte
  | [], bs => bs
  | w :: ws, bs =>
    if w.id ≤ t then bs
    else if w.space = m then
      undo m a t ws (bs.zipIdx.map fun x =>
        if decide (w.addr ≤ a + x.2) && decide (a + x.2 < w.addr + w.len) then w.old.getD (a + x.2 - w.addr) 0 else x.1)
    else undo m a t ws bs

/-- The release heads of the writes from which bytes at a moment come. -/
def headsAt (m : MemSpace) (t : Nat) : List PastWrite → List Nat → List Head
  | [], _ => []
  | w :: ws, at_ =>
    if at_.isEmpty then []
    else if decide (t < w.id) || w.space != m then headsAt m t ws at_
    else
      let mine (x : Nat) : Bool := decide (w.addr ≤ x) && decide (x < w.addr + w.len)
      (if at_.any mine then w.heads else []) ++ headsAt m t ws (at_.filter fun x => !mine x)

/-- What a read has met: its moment of each word, and the heads of what it has read. -/
structure Sight where
  seen : List (MemSpace × Nat × Nat)
  heads : List Head

/-- A read of n bytes at a, placed at a moment. -/
def State.sight (s : State) (m : MemSpace) (a n t : Nat) : Sight where
  seen := (wordsAt a n).filterMap fun x =>
    (s.past.find? fun w => decide (w.id ≤ t) && w.meets m (8 * x) 8).map fun w => (m, x, w.id)
  heads := headsAt m t s.past ((List.range n).map fun k => a + k)

/-- Who writes: an agent, by a lane or otherwise; and the release heads that the write bears (R113). -/
structure Writer where
  who : Agent
  lane : Bool
  heads : List Head

/-- A write that bears no head and is no lane's. -/
def Writer.of (a : Agent) : Writer := ⟨a, false, []⟩

/-- The bytes of a memory. -/
def State.bytesOf (s : State) (m : MemSpace) (a n : Nat) : List Byte :=
  match m with
  | .shared block => ((s.block? block).map fun b => b.shared.readBytes a n).getD []
  | .scratch die => (s.die die).scratch.readBytes a n
  | .tier1 => s.tier1.readBytes a n
  | .tier2 => s.tier2.readBytes a n
  | .host => s.host.readBytes a n

/-- Change the fragment that an agent is. -/
def updAgent (a : Agent) (g : Frag → Frag) (cs : List Ctx) : List Ctx :=
  match a with
  | .frag n f => updFirst (fun c => c.id == n) (fun c => c.updFrag f g) cs
  | _ => cs

/-- A write over bytes that held `old` is about to be performed. The mailbox engine's writes are release heads at `.dev` (R122). -/
def State.wroteOver (s : State) (w : Writer) (m : MemSpace) (a : Nat) (old : List Byte) : State :=
  let id := s.lastWrite + 1
  let own : List Head := if w.who = .mailbox then [⟨.dev, .mailbox, Horizon.of .mailbox id⟩] else []
  { s with
    past := if old.isEmpty then s.past else ⟨id, w.who, s.cycle, m, a, old.length, old, own ++ w.heads, false⟩ :: s.past
    ctxs := if old.isEmpty then s.ctxs else updAgent w.who (fun f => { f with view := f.view.join (Horizon.of w.who id) }) s.ctxs }

/-- The same of n bytes as they stand. -/
def State.wrote (s : State) (w : Writer) (m : MemSpace) (a n : Nat) : State := s.wroteOver w m a (s.bytesOf m a n)

/-- The writes after number n are one event of a fragment, which no read comes between (R106). -/
def State.asOne (s : State) (r : FragRef) (n : Nat) : State :=
  if s.lastWrite ≤ n + 1 then s
  else
    let one (w : PastWrite) : PastWrite := if n < w.id then { w with id := n + 1 } else w
    let cap (f : Frag) : Frag :=
      { f with view := { f.view with clock := f.view.clock.map fun x => if x.1 = r.agent then (x.1, min x.2 (n + 1)) else x } }
    { s with past := s.past.map one, ctxs := updAgent r.agent cap s.ctxs }

/-- n bytes at a begin anew: no read sees what they held before. -/
def State.anew (s : State) (m : MemSpace) (a n : Nat) : State :=
  { s with past := if n = 0 then s.past else ⟨s.lastWrite + 1, .mailbox, s.cycle, m, a, n, [], [], true⟩ :: s.past }

/-- A read of n bytes at a by an agent that knows v: the bytes of a moment that the spec leaves open, and what the read has met. -/
def State.readAt (s : State) (v : Horizon) (m : MemSpace) (a n pos : Nat) : List Byte × Sight :=
  let ts := s.moments v m a n
  let t := ts.getD (Config.staleRead s.freeCtr pos % ts.length) s.lastWrite
  (undo m a t s.past (s.bytesOf m a n), s.sight m a n t)

def Sight.none : Sight := ⟨[], []⟩
def Sight.append (x y : Sight) : Sight := ⟨x.seen ++ y.seen, (x.heads ++ y.heads).eraseDups⟩

/-- An agent of this device. -/
def Agent.local : Agent → Bool
  | .frag _ _ | .mapUnit _ | .mailbox => true
  | _ => false

/-- An agent of this device, or its host. -/
def Agent.near (a : Agent) : Bool := a.local || a == .host

/-- The block of an agent that has one. -/
def State.blockOf (s : State) : Agent → Option Nat
  | .frag c _ => (s.ctx? c).map fun c => c.block
  | _ => none

/-- The agent y lies in the instance of a scope that contains the agent x (R107). -/
def State.incl (s : State) (sc : Scope) (x y : Agent) : Bool :=
  match sc with
  | .ctx => x == y
  | .blk => (s.blockOf x).isSome && s.blockOf x == s.blockOf y
  | .dev => x == y || (x.local && y.local)
  | .sys => x == y || (x.near && y.near)
  | .pod => true

/-- Heads that an acquire of a scope synchronises with (R114). -/
def State.syncs (s : State) (sc : Scope) (a : Agent) (hs : List Head) : List Head :=
  hs.filter fun h => s.incl h.scope h.who a && s.incl sc a h.who

def joinHeads (v : Horizon) (hs : List Head) : Horizon := hs.foldl (fun v h => v.join h.view) v

/-- A fragment's reads have met this; with a scope they acquire (R113). -/
def State.saw (s : State) (r : FragRef) (acq : Option Scope) (x : Sight) : State :=
  let got := match acq with
    | some sc => s.syncs sc r.agent x.heads
    | none => []
  { s with
    ctxs := if x.seen.isEmpty && x.heads.isEmpty then s.ctxs
      else updAgent r.agent
        (fun f => { f with view := joinHeads (f.view.join ⟨0, [], x.seen⟩) got, acq := (f.acq ++ x.heads).eraseDups }) s.ctxs }

/-- A fragment knows every write that has been performed. -/
def State.knowAll (s : State) (r : FragRef) : State :=
  { s with
    ctxs := if s.past.isEmpty then s.ctxs
      else updAgent r.agent (fun f => { f with view := f.view.join (Horizon.upTo s.lastWrite) }) s.ctxs }

/-- What a fragment knows. -/
def State.knownBy (s : State) (r : FragRef) : Horizon := ((s.frag? r).map fun f => f.view).getD Horizon.none

/-- The heads that a lane write of a fragment bears: its release fences, and its own release (R113). -/
def State.headsOf (s : State) (r : FragRef) (rel : Option Scope) : List Head :=
  match s.frag? r with
  | some f => f.rel ++ (rel.map fun sc => (⟨sc, r.agent, f.view⟩ : Head)).toList
  | none => []

/-- A fragment takes up what lowered commands have met (R113, R115). -/
def State.takeUp (s : State) (r : FragRef) (p : Path) : State :=
  match s.ctx? r.ctx with
  | none => s
  | some c =>
    match c.gained.find? fun x => x.1 == p with
    | none => s
    | some x => s.updFrag r fun f => { f with view := f.view.join x.2.1, acq := (f.acq ++ x.2.2).eraseDups }

/-- The heads of the release chain that an RMW joins (R113). -/
def State.chain (s : State) (m : MemSpace) (a n : Nat) : List Head := (s.sight m a n s.lastWrite).heads

/-- A `fence` takes up the heads that the fragment's reads have met, takes its place among the `.ar` fences, and heads the writes after it (R113,
R120). -/
def State.fenceViews (s : State) (r : FragRef) (acq rel : Bool) (sc : Scope) : State :=
  if s.past.isEmpty then s
  else
    match s.frag? r with
    | none => s
    | some f =>
      let a := r.agent
      let v := if acq then joinHeads f.view (s.syncs sc a f.acq) else f.view
      let v := if acq && rel then joinHeads v (s.syncs sc a s.arFences) else v
      let h : Head := ⟨sc, a, v⟩
      let s := s.updFrag r fun f => { f with view := v, rel := if rel then (f.rel.filter fun x => x.scope != sc) ++ [h] else f.rel }
      let s : State := if acq && rel then { s with arFences := s.arFences ++ [h] } else s
      if rel && s.incl sc a .mailbox then { s with relFences := s.relFences ++ [h] } else s

/-- The writes of the mailbox engine up to a number are seen by every agent: those of earlier commands, before any event of the next (R122). -/
def State.commandsSeen (s : State) (n : Nat) : State :=
  { s with past := s.past.map fun w => if w.who = .mailbox ∧ w.id ≤ n then { w with all := true } else w }

/-- What the `cpub` events known to a view have published (R134). -/
def State.published (s : State) (knows : Publish → Bool) : Horizon :=
  (s.pubs.filter knows).foldl (fun v p => v.join p.view) Horizon.none

def Horizon.knowsPub (v : Horizon) (p : Publish) : Bool := decide (p.id ≤ v.floor) || decide (p.id ≤ clockOf v.clock p.who)

/-- A `cpub` of a fragment takes its place among the events (R134). -/
def State.publishCode (s : State) (r : FragRef) (seq : Nat) : State :=
  let id := s.lastWrite + 1
  let s : State := { s with past := ⟨id, r.agent, s.cycle, .tier1, 0, 0, [], [], false⟩ :: s.past }
  let s := s.updFrag r fun f => { f with view := f.view.join (Horizon.of r.agent id) }
  { s with pubs := s.pubs ++ [⟨id, r.agent, seq, s.knownBy r, none⟩] }

/-- What fetches for a launch must see: what the `cpub` events before its launch event have published, and the writes of the mailbox engine
(R114, R134). -/
def State.launchCode (s : State) (knows : Publish → Bool) : Horizon := (s.published knows).join (Horizon.of .mailbox s.lastWrite)

/-- The host has read the notice of a count: it has let the notice's slot go (R400). -/
def Mailbox.read (m : Mailbox) (n : W32) : Bool := decide ((m.consumed - n - 1).toNat < 2 ^ 31)

/-- A `cpub` that the host knows: it has read the completion notice of the launch (R114). -/
def State.hostKnows (s : State) (p : Publish) : Bool := (p.noted.map s.mbox.read).getD false

/-! ### The tier-2 ports (R32, R401) -/

/-- A decoder as the firmware may set it: a size in units of 256 MiB, 1, 2, 4 or 8 ways, and a granularity of 256 bytes to 16 KiB. -/
def decoderOk (d : Decoder) : Bool :=
  d.size % 2 ^ 28 == 0 && [1, 2, 4, 8].contains d.ports.length && ((List.range 7).map fun k => 2 ^ (8 + k)).contains d.gran

/-- The port of the decoder that takes a tier-2 byte address. -/
def decoderPort? (d : Decoder) (a : Nat) : Option (Fin 8) :=
  if decoderOk d && decide (d.base ≤ a) && decide (a < d.base + d.size) then d.ports[(a - d.base) / d.gran % d.ports.length]? else none

/-- The memory port that a tier-2 byte address reaches, by the first of the eight decoders that covers it. -/
def State.tier2Port? (s : State) (a : Nat) : Option (Fin 8) := (s.mgmt.decoders.take 8).findSome? fun d => decoderPort? d a

/-- The link of the port behind a 64-byte unit of tier 2 is down. -/
def State.portDown (s : State) (u : Nat) : Bool :=
  !s.mgmt.tier2Up.all id && ((s.tier2Port? (64 * u)).map fun p => !s.mgmt.tier2Up[p]).getD false

/-- Units of a tier that n bytes at a touch and that cannot be reached. -/
def State.downUnits (s : State) (tier a n : Nat) : List Nat :=
  if tier = 1 ∧ !s.mgmt.tier2Up.all id then (touchedUnits a n).filter s.portDown else []

/-- A write of good data to tier 1; it clears the poison marking of every unit it covers whole (R100). -/
def State.writeTier1 (s : State) (w : Writer) (a : Nat) (bs : List Byte) : State :=
  let s := s.wrote w .tier1 a bs.length
  let clear := coveredUnits a bs.length
  { s with tier1 := s.tier1.writeBytes a bs, poison1 := s.poison1.filter fun u => !clear.contains u }

/-- The same to tier 2; what lies behind a port whose link is down is not written (R401). -/
def State.writeTier2 (s : State) (w : Writer) (a : Nat) (bs : List Byte) : State :=
  let s := s.wrote w .tier2 a bs.length
  let down := s.downUnits 1 a bs.length
  let clear := (coveredUnits a bs.length).filter fun u => !down.contains u
  let mem := if down.isEmpty then s.tier2.writeBytes a bs
    else s.tier2.writeCells ((bs.zipIdx.map fun b => (a + b.2, b.1)).filter fun c => !down.contains (c.1 / 64))
  { s with tier2 := mem, poison2 := s.poison2.filter fun u => !clear.contains u }

/-- Host memory is reached over the host link (R38, R396); nothing arrives once the link is dead. -/
def State.writeHost (s : State) (w : Writer) (a : Nat) (bs : List Byte) : State :=
  if s.mgmt.hostUp then
    let s := s.wrote w .host a bs.length
    let clear := coveredUnits a bs.length
    { s with host := s.host.writeBytes a bs, poison3 := s.poison3.filter fun u => !clear.contains u }
  else s

def State.writeTier1W64 (s : State) (a : Nat) (x : W64) : State := s.writeTier1 (Writer.of .mailbox) a (bytesN 8 x.toNat)

/-! ### The spin detector's reads and the writes of others (R188) -/

/-- Not demoted any more. -/
def Frag.unspun (f : Frag) : Frag := { f with spin := { f.spin with demoted := false, unchanged := 0 } }

/-- The fragment's loop reads n bytes of a memory. -/
def State.noteLoad (s : State) (r : FragRef) (m : MemSpace) (a n : Nat) : State :=
  match s.frag? r with
  | none => s
  | some f =>
    if f.spin.regs.isNone then s
    else s.updFrag r fun f => { f with spin := { f.spin with reads := (f.spin.reads ++ (wordsAt a n).map fun w => (m, w)).eraseDups } }

/-- n bytes of a memory are written, by a lane of the fragment `own` or by another agent: every other demoted fragment whose loop reads them is
restored. -/
def State.wakeSpins (s : State) (own : Option Agent) (m : MemSpace) (a n : Nat) : State :=
  let ws := wordsAt a n
  let wakes (c : Ctx) (f : Frag) : Bool :=
    f.spin.demoted && own != some (.frag c.id f.id) && f.spin.reads.any fun x => x.1 == m && ws.contains x.2
  { s with
    ctxs := if s.ctxs.any fun c => c.frags.any fun f => f.spin.demoted then
        s.ctxs.map fun c => { c with frags := c.frags.map fun f => if wakes c f then f.unspun else f }
      else s.ctxs }

/-- A write of an agent over bytes that held `old`: what it means to the spin detector and to the views. -/
def State.noteWrite (s : State) (w : Writer) (m : MemSpace) (a : Nat) (old : List Byte) : State :=
  (s.wakeSpins (if w.lane then some w.who else none) m a old.length).wroteOver w m a old

/-! ### Memory under a leaf -/

/-- Bytes of tier-1 or tier-2 memory under a leaf. -/
def State.readPhys (s : State) (tier phys n : Nat) : List Byte :=
  match tier with
  | 0 => s.tier1.readBytes phys n
  | 1 => s.tier2.readBytes phys n
  | 3 => s.host.readBytes phys n
  | _ => List.replicate n 0#8

def State.writePhys (s : State) (w : Writer) (tier phys : Nat) (bs : List Byte) : State :=
  match tier with
  | 0 => s.writeTier1 w phys bs
  | 1 => s.writeTier2 w phys bs
  | 3 => s.writeHost w phys bs
  | _ => s

/-- The memory of a tier number. -/
def tierSpace (tier : Nat) : Option MemSpace :=
  match tier with
  | 0 => some .tier1
  | 1 => some .tier2
  | 3 => some .host
  | _ => none

/-- Bytes of global memory as an agent that knows v reads them. -/
def State.readPhysAt (s : State) (v : Horizon) (tier phys n pos : Nat) : List Byte × Sight :=
  match tierSpace tier with
  | some m => s.readAt v m phys n pos
  | none => (List.replicate n 0#8, Sight.none)

end Sys2Proof.Machine
end

