-- ==== Sys2Proof/Machine/Stores.lean ====
section
/-! DEFINITION. Scratchpad regions as storage: their entries, the bytes of scratchpads and shared memory, the lines that stores make dirty (R78), and
posted stores (R77). -/

namespace Sys2Proof.Machine

open Sys2Proof

/-! ### Regions -/

def State.regionAt? (s : State) (die slot : Nat) : Option RegionEnt := SMap.get? (s.die die).regions slot
def State.setRegion (s : State) (die slot : Nat) (e : RegionEnt) : State :=
  s.updDie die fun d => { d with regions := SMap.set d.regions slot e }

def RegionEnt.size (e : RegionEnt) : Nat := 2 ^ e.logSize
/-- Position in the die's scratchpad. -/
def RegionEnt.pos (e : RegionEnt) : Nat := e.base * 2 ^ e.logSize
/-- The region's lines carry the state of R78 for lane and engine accesses; every other kind is accessed as plain (R326). -/
def RegionEnt.lined (e : RegionEnt) : Bool := e.kind == .mapped || e.kind == .stash
/-- The lines of the region are translated and written back: those of a queue-spill region by the queues themselves (R373). -/
def RegionEnt.backed (e : RegionEnt) : Bool := e.lined || e.kind == .spill

/-- The handle of a slot (R22). -/
def State.handleOf (s : State) (die slot : Nat) : W64 :=
  BitVec.ofNat 64 (SMap.getD (s.die die).gens slot 0 % 4096 * 2 ^ 20 + die * 2 ^ 14 + slot)

/-! ### Scratchpad storage -/

/-- Words of 8 bytes that n bytes at a cover whole. -/
def coveredWords (a n : Nat) : List Nat :=
  (List.range (n / 8 + 1)).filterMap fun k =>
    let u := (a + 7) / 8 + k
    if 8 * u + 8 ≤ a + n then some u else none

/-- Words of which every byte is among the given addresses. -/
def wordsCovered (l : List Nat) : List Nat := ((l.map fun a => a / 8).eraseDups).filter fun w => (List.range 8).all fun k => l.contains (8 * w + k)

/-- A write to a die's scratchpad; a word written whole is no longer damaged (R98). -/
def State.writeScratch (s : State) (die a : Nat) (bs : List Byte) : State :=
  s.updDie die fun d =>
    { d with scratch := d.scratch.writeBytes a bs
             damage := if d.damage.isEmpty then [] else d.damage.filter fun w => !(coveredWords a bs.length).contains w }
/-- Bytes of a die's scratchpad by address; a word of which every byte is written is no longer damaged (R98). -/
def State.writeScratchCells (s : State) (die : Nat) (cells : List (Nat × Byte)) : State :=
  s.updDie die fun d =>
    { d with scratch := d.scratch.writeCells cells
             damage := if d.damage.isEmpty then [] else d.damage.filter fun w => !(wordsCovered (cells.map fun c => c.1)).contains w }
/-- A write to a block's shared allocation; a word written whole is no longer damaged (R98). -/
def State.writeShared (s : State) (block off : Nat) (bs : List Byte) : State :=
  s.updBlock block fun b =>
    { b with shared := b.shared.writeBytes off bs
             damage := if b.damage.isEmpty then [] else b.damage.filter fun w => !(coveredWords off bs.length).contains w }
/-- The same as a write event of an agent. -/
def State.writeSharedBy (s : State) (w : Writer) (block off : Nat) (bs : List Byte) : State :=
  (s.noteWrite w (.shared block) off (s.bytesOf (.shared block) off bs.length)).writeShared block off bs
def State.readScratch (s : State) (die a n : Nat) : List Byte := (s.die die).scratch.readBytes a n

/-- Bytes by offset as runs of consecutive offsets, none across a line. -/
def runsOf : List (Nat × Byte) → List (Nat × List Byte)
  | [] => []
  | (a, b) :: rest =>
    match runsOf rest with
    | (a', bs) :: more => if a' = a + 1 ∧ a' % 256 ≠ 0 then (a, b :: bs) :: more else (a, [b]) :: (a', bs) :: more
    | [] => [(a, [b])]

/-! ### Lines that stores make dirty (R78) -/

def Die.line? (d : Die) (slot n : Nat) : Option Line := d.lines.find? fun x => x.slot == slot && x.line == n
def Die.setLine (d : Die) (x : Line) : Die :=
  if (d.line? x.slot x.line).isSome then
    { d with lines := updFirst (fun y => y.slot == x.slot && y.line == x.line) (fun _ => x) d.lines }
  else { d with lines := d.lines ++ [x] }
def Die.dropLine (d : Die) (slot n : Nat) : Die :=
  { d with lines := d.lines.filter fun x => !(x.slot == slot && x.line == n) }

/-- Bytes a to a + n − 1 of a line. -/
def lineBytes (a n : Nat) : BitVec 256 := BitVec.ofNat 256 ((2 ^ n - 1) * 2 ^ a)

/-- Bytes stored into a line: valid, dirty and good. -/
def State.dirtyLine (s : State) (die slot n : Nat) (m : BitVec 256) : State :=
  s.updDie die fun d =>
    { d with lines := updFirst (fun x => x.slot == slot && x.line == n)
               (fun x => { x with v := x.v ||| m, d := x.d ||| m, poison := x.poison &&& ~~~ m, used := s.cycle }) d.lines }

/-- Bytes stored at an offset of a region; they lie in one line where the region has lines. -/
def State.storeRegion (s : State) (die slot : Nat) (e : RegionEnt) (off : Nat) (bs : List Byte) : State :=
  let s := s.writeScratch die (e.pos + off) bs
  if e.lined then s.dirtyLine die slot (off / 256) (lineBytes (off % 256) bs.length) else s

/-- What n bytes at an offset of a region stand for: those of a line that are not valid, for the bytes of global memory (R27, R78). -/
def State.regionBytes (s : State) (die slot : Nat) (e : RegionEnt) (off n : Nat) : List Byte :=
  let bs := s.readScratch die (e.pos + off) n
  match if e.lined then (s.die die).line? slot (off / 256) else none with
  | none => bs
  | some x =>
    let mem := s.readPhys (leafTier x.leaf) (x.phys + off % 256) n
    bs.zipIdx.map fun b => if x.v.getLsbD (off % 256 + b.2) then b.1 else mem.getD b.2 0

/-- A store to a region as a write event of an agent. -/
def State.storeRegionBy (s : State) (w : Writer) (die slot : Nat) (e : RegionEnt) (off : Nat) (bs : List Byte) : State :=
  (s.noteWrite w (.scratch die) (e.pos + off) (s.regionBytes die slot e off bs.length)).storeRegion die slot e off bs

/-! ### Posted stores (R77) -/

/-- Words that a set of bytes writes whole are no longer damaged (R98). -/
def State.mendScratch (s : State) (die : Nat) (at_ : List Nat) : State :=
  if (s.die die).damage.isEmpty then s
  else s.updDie die fun d => { d with damage := d.damage.filter fun w => !(wordsCovered at_).contains w }

/-- A fragment that waits to issue its instruction again does so. -/
def Frag.retryNow (f : Frag) : Frag :=
  match f.wait with
  | some w => if w.what = .retry then { f with wait := none } else f
  | none => f

/-- Every such fragment. -/
def State.wakeRetry (s : State) : State :=
  { s with ctxs := s.ctxs.map fun c => { c with frags := c.frags.map Frag.retryNow } }

/-- A posted store is performed: its bytes are in the region, or gone with it. -/
def State.performStore (s : State) (p : PStore) : State :=
  let s := { s with stores := s.stores.filter fun x => x.id != p.id }
  let s := { s with cmds := updFirst (fun c => c.id == p.cmd) (fun c => { c with pending := 0 }) s.cmds }
  match s.regionAt? p.die p.slot with
  | none => s
  | some e =>
    if SMap.getD (s.die p.die).gens p.slot 0 = p.gen then
      ((runsOf p.bytes).foldl (fun s c => s.storeRegionBy ⟨.frag p.ctx p.frag, true, p.heads⟩ p.die p.slot e c.1 c.2) s).mendScratch p.die
        (p.bytes.map fun c => e.pos + c.1)
    else s

/-- Stores performed one after another; what waited for them is issued again. -/
def State.performAll (s : State) (l : List PStore) : State := if l.isEmpty then s else (l.foldl State.performStore s).wakeRetry

/-- Earlier `stw` of the context that are not performed (R113, R127). -/
def State.storesOf (s : State) (ctx : Nat) : List PStore := s.stores.filter fun p => p.ctx == ctx

/-- What a context does next is seen by others only after its earlier stores: they are performed (R110, R114, R117). -/
def State.publish (s : State) (ctx : Nat) : State := s.performAll (s.storesOf ctx)

end Sys2Proof.Machine
end

