-- ==== Sys2Proof/Machine/Ops.lean ====
section
/-! DEFINITION. The shared operations of the machine: notices, fault records, region instances, retirement,
joins, taking a trap (vectoring and parking), returning from one, and the frame in which every instruction issues. -/

namespace Sys2Proof.Machine

open Sys2Proof

/-! ### Notices (R400) -/

def Notice.bytes (n : Notice) : List Byte :=
  bytesN 8 n.w0.toNat ++ bytesN 8 n.w1.toNat ++ bytesN 8 n.w2.toNat ++ bytesN 8 n.w3.toNat

/-- Has the notice ring room for one more? -/
def Mailbox.room (m : Mailbox) : Bool := decide ((m.notices - m.consumed).toNat < 2 ^ m.noticeLog)

/-- The slot at the head has been applied. -/
def Mailbox.next (m : Mailbox) : Mailbox :=
  { m with applied := m.applied + 1, late := m.late.filter fun y => y.1 != m.applied.toNat }

/-- Write a notice into its ring slot. -/
def State.putNotice (s : State) (n : Notice) : State :=
  let slot := s.mbox.notices.toNat % 2 ^ s.mbox.noticeLog
  let s := s.writeHost (Writer.of .mailbox) (s.mbox.noticeBase + 32 * slot) n.bytes
  { s with mbox := { s.mbox with notices := s.mbox.notices + 1 } }

/-- Post a notice; one that finds the ring full waits in order, so none is lost. -/
def State.post (s : State) (n : Notice) : State :=
  if s.mbox.queued.isEmpty && s.mbox.room then s.putNotice n
  else { s with mbox := { s.mbox with queued := s.mbox.queued ++ [n] } }

/-- Notices that waited for room, in order. -/
def State.flush (s : State) : Nat → State
  | 0 => s
  | n + 1 =>
    match s.mbox.queued with
    | [] => s
    | x :: rest =>
      if s.mbox.room then State.flush ({ s with mbox := { s.mbox with queued := rest } }.putNotice x) n else s

/-- Word 0 of a notice. -/
def noticeW0 (kind status tcid tag : Nat) : W64 :=
  BitVec.ofNat 64 (kind % 256 * 2 ^ 56 + status % 256 * 2 ^ 48 + tcid % 4096 * 2 ^ 32 + tag % 2 ^ 32)

/-! ### Fault records (R170, R383, R384) -/

def areaKey (tcid sel : Nat) : Nat := 4 * tcid + sel

def Area.none : Area :=
  { base := 0, log := 0, opts := 0, written := 0, consumed := 0, configured := false, lost := 0, lostNoted := 0 }

def State.area (s : State) (tcid sel : Nat) : Area := s.areas.getD (areaKey tcid sel) Area.none
def State.setArea (s : State) (tcid sel : Nat) (a : Area) : State :=
  { s with areas := s.areas.set (areaKey tcid sel) a }

/-- Free slots of an area. -/
def Area.free (a : Area) : Nat := if a.configured then 2 ^ a.log - (a.written - a.consumed) else 0

def FState.code : FState → Nat
  | .running => 0
  | .arrived => 1
  | .parked => 2
  | .exited => 3

/-- The number of the parent's entry. -/
def Ctx.parentEntry (c : Ctx) (f : Frag) : Nat := ((f.parent.bind fun p => c.frag? p).map fun p => p.entry).getD 0

/-- A split-table entry in the layout of R170, with its masks. A root saves its own `fmt`, another entry that of its cut. DESIGN CHOICE
(log 110): first and last count the strips of the block, and those of a regrouped context from its own first strip, both modulo 16. -/
def Frag.entryWords (c : Ctx) (f : Frag) (pc : VAddr) : List W64 :=
  let w0 := f.entry % 64 * 2 ^ 58 + c.parentEntry f % 64 * 2 ^ 52 + (if f.parent.isNone then 2 ^ 51 else 0) +
    (if f.entryParked.isSome then 2 else f.state.code) * 2 ^ 49 + (c.firstStrip + f.first) % 16 * 2 ^ 45 + (c.firstStrip + f.last) % 16 * 2 ^ 41 +
    f.depth % 64 * 2 ^ 35 + (if f.capacity then 2 ^ 34 else 0)
  [BitVec.ofNat 64 w0, pc.setWidth 64, f.reconv.setWidth 64, BitVec.ofNat 64 ((if f.parent.isNone then f.regs.fmt else f.fmtCut).toNat * 2 ^ 32)] ++
    (List.range (f.last + 1 - f.first)).map fun t => BitVec.ofNat 64 (Lanes.strip f.mask (f.first + t))

/-- Bytes of 64-bit words in ascending order, padded with zeros to a multiple of n. -/
def wordsBytes (ws : List W64) (n : Nat) : List Byte :=
  let bs := ws.flatMap fun w => bytesN 8 w.toNat
  bs ++ List.replicate ((n - bs.length % n) % n) 0#8

/-- The place of an entry in ascending order: by its number, and after those the parked ones in the order of their parking (R170, R171). -/
def Frag.rank (f : Frag) : Nat := match f.entryParked with
  | none => f.entry
  | some n => 64 + n

/-- Split-table entries in ascending id. -/
def Ctx.entries (c : Ctx) : List Frag := sortOn Frag.rank c.frags

/-- The snapshot of R384: the header slot, then every entry of the context. -/
def Ctx.snapshot (c : Ctx) : List Byte :=
  let body := c.entries.flatMap fun f => wordsBytes (f.entryWords c f.pc) 32
  wordsBytes [BitVec.ofNat 64 (c.frags.length % 256 * 2 ^ 16 + body.length / 32 % 2 ^ 16)] 32 ++ body

/-- Store 32-byte slots into an area's ring. -/
def State.writeSlots (s : State) (a : Area) (at_ : Nat) : List (List Byte) → State
  | [] => s
  | x :: xs => State.writeSlots (s.writeTier1 (Writer.of .mailbox) (a.base + 32 * (at_ % 2 ^ a.log)) x) a (at_ + 1) xs

/-- A byte string in slots of 32 bytes. -/
def slots32 (bs : List Byte) : List (List Byte) :=
  (List.range (bs.length / 32)).map fun k => (bs.drop (32 * k)).take 32

/-- One fault record with its snapshot, or a lost one (R384). -/
def State.recordOne (s : State) (ctx : Nat) (code : Nat) (pc entry : VAddr) (pos : Nat) (addr : Nat) : State :=
  match s.ctx? ctx with
  | none => s
  | some c =>
    match s.block? c.block with
    | none => s
    | some b =>
      match s.launch? b.launch with
      | none => s
      | some l =>
        let a := s.area l.tcid 0
        let w0 := code % 256 * 2 ^ 56 + (if c.snapDone then 0 else 2 ^ 55) + l.seq % 4096 * 2 ^ 40 +
          c.idx b pos % 2 ^ 40
        let rec_ := wordsBytes [BitVec.ofNat 64 w0, pc.setWidth 64, BitVec.ofNat 64 addr, entry.setWidth 64] 32
        let out := slots32 (if c.snapDone then rec_ else rec_ ++ c.snapshot)
        if out.length ≤ a.free then
          let s := s.writeSlots a a.written out
          let s := s.setArea l.tcid 0 { a with written := a.written + out.length }
          s.updCtx ctx fun c => { c with snapDone := true }
        else s.setArea l.tcid 0 { a with lost := a.lost + 1 }

/-- One record for each faulting item, in ascending item index. -/
def State.record (s : State) (ctx : Nat) (code : Nat) (pc entry : VAddr) (addr : Nat → Nat) : List Nat → State
  | [] => s
  | p :: ps => State.record (s.recordOne ctx code pc entry p (addr p)) ctx code pc entry addr ps

/-! ### Region instances (R247, R389, R390) -/

/-- The registers of a range. -/
def rangeRegs : VRange → List Nat
  | none => []
  | some r => (List.range (r.2.val + 1 - r.1.val)).map fun i => r.1.val + i

/-- A register word as its tag gives it. -/
def tagWordAt (t : VTag) (ys : List W32) (i : Nat) : W32 :=
  match t with
  | .uni v => v
  | .aff b st => b + st * BitVec.ofNat 32 i
  | .affLo b st => (b + st * BitVec.ofNat 64 i).setWidth 32
  | .affHi b st => ((b + st * BitVec.ofNat 64 i) >>> 32).setWidth 32
  | .mat => ys.getD i 0

/-- A register of the range as the save rules keep it (R72, R390): half of an AFF pair whose partner is not in the same group of 32 is MAT. -/
def snapReg (c : Ctx) (f : Frag) (regs : List Nat) (r : Nat) : VTag × List W32 :=
  let tag (q : Nat) : VTag := SMap.getD f.regs.vtags q (.uni 0)
  let lo := regs.headD 0
  let paired (q : Nat) (t : VTag) : Bool := regs.contains q && (q - lo) / 32 == (r - lo) / 32 && tag q == t
  let keep (t : VTag) (ok : Bool) : VTag × List W32 := if ok then (t, []) else (.mat, (List.range c.width).map fun i => tagWordAt t [] i)
  match tag r with
  | .mat => (.mat, SMap.getD c.mat r [])
  | .affLo b st => keep (.affLo b st) (paired (r + 1) (.affHi b st))
  | .affHi b st => keep (.affHi b st) (paired (r - 1) (.affLo b st))
  | t => (t, [])

/-- The inputs of a region, as a restart brings them back. -/
def snapOf (c : Ctx) (f : Frag) (r : VRange) : RegionSnap where
  k := f.regs.k
  fmt := f.regs.fmt
  preds := f.regs.preds
  rstack := f.regs.rstack
  vregs := (rangeRegs r).map fun n => (n, snapReg c f (rangeRegs r) n)

/-- The positions of an instance whose items have not exited: those that must pass (R318). -/
def State.mustPass (s : State) (b : Block) (strip : Option Nat) : Lanes :=
  (s.ctxsOf b.id).foldl (fun m c => m ||| c.instMask strip c.live) 0

/-- Contractions that every item has now passed take their place in the order of closing, those of one moment by ascending
site (R318). -/
def State.stampClosures (s : State) (block : Nat) : State :=
  match s.block? block with
  | none => s
  | some b =>
    let stamp (t : TileInst) (x : Contraction) : Contraction :=
      let need := s.mustPass b t.strip
      if x.closedAt.isNone && x.passed &&& need == need then { x with closedAt := some s.nextId } else x
    { s with nextId := s.nextId + 1 }.updBlock block fun b => b.eachOpen stamp

/-- Commit what a fragment has staged in its region (R318). -/
def State.commitFrag (s : State) (c : Ctx) (f : Frag) : State :=
  (s.updBlock c.block fun b => b.commitStaged c f.region.serial f.mask).stampClosures c.block

/-- Every fragment that waits for room in the array queue of its partition issues its `opa` again (R316). -/
def State.wakeQueue (s : State) (core part : Nat) : State :=
  let wake (f : Frag) : Frag := match f.wait with
    | some w => if w.what = .queueRoom then { f with wait := none } else f
    | none => f
  { s with ctxs := s.ctxs.map fun c => if c.core == core && c.part == part then { c with frags := c.frags.map wake } else c }

/-- The array requests of a partition that `gone` names leave its queue; who waits for room there issues again (R316, R362). -/
def State.dropReqs (s : State) (core part : Nat) (gone : GReq → Bool) : State :=
  if (s.part core part).arr.any gone then
    (s.updPart core part fun p => { p with arr := p.arr.filter fun g => !gone g }).wakeQueue core part
  else s

/-- Discard it, with the array requests that read for it (R130). -/
def State.discardFrag (s : State) (c : Ctx) (f : Frag) : State :=
  let s := s.dropReqs c.core c.part fun g => g.ctx == c.id && g.frag == f.id && g.region == f.region.serial
  s.updBlock c.block fun b => b.discardStaged c f.region.serial f.mask

/-- A fragment of the context is in handler mode (R388). -/
def Ctx.inHandler (c : Ctx) : Bool := c.frags.any fun f => f.shadow.isSome

/-- The resident context that `shmap` pairs with it (R186). -/
def State.partnerOf (s : State) (c : Ctx) : Option Ctx := (c.shmap.bind fun m => s.ctx? m.partner).filter fun p => p.state == .resident

/-- A pre-emption is pending that no handler, its own or its partner's, defers (R388). -/
def State.mayStop (s : State) (c : Ctx) : Bool :=
  c.preempt.isSome && !c.inHandler && !((s.partnerOf c).map Ctx.inHandler).getD false

/-- A context comes to where it takes a pending pre-emption: a region end, the bound, or the end of the handler that has held it back. One that
`shmap` pairs with it stops at the same moment, and neither stops while the other is in a handler (R258, R388, R391; DEDUCED, log 82). -/
def State.takePreempt (s : State) (ctx : Nat) : State :=
  match s.ctx? ctx with
  | none => s
  | some c =>
    if s.mayStop c then
      let stop (c : Ctx) : Ctx := { c with stopping := true }
      let s' := s.updCtx ctx stop
      match s.partnerOf c with
      | some p => if p.preempt.isSome then s'.updCtx p.id stop else s'
      | none => s'
    else s

/-- Open a region instance with its entry and range. What a restart remembers of an arrival at a barrier lasts until the fragment comes to
another region. -/
def State.openRegion (s : State) (r : FragRef) (entry : VAddr) (range : VRange) : State :=
  match s.ctx? r.ctx with
  | none => s
  | some c =>
    match c.frag? r.frag with
    | none => s
    | some f =>
      let reg : Region := { entry := entry, range := range, snap := snapOf c f range, committed := false, serial := s.nextId }
      let arrival := if entry = f.region.entry then f.arrival else none
      { s with nextId := s.nextId + 1 }.setCtx (c.setFrag { f with region := reg, arrival := arrival })

/-- End the current region: staged passes are committed. A pending pre-emption takes this boundary (R391). -/
def State.endRegion (s : State) (r : FragRef) : State :=
  match s.ctx? r.ctx with
  | none => s
  | some c =>
    match c.frag? r.frag with
    | none => s
    | some f =>
      (s.commitFrag c f).takePreempt r.ctx

/-- End the region and open a new one at the fragment's pc, with the same range (R247). -/
def State.nextRegion (s : State) (r : FragRef) : State :=
  match s.frag? r with
  | none => s
  | some f => (s.endRegion r).openRegion r f.pc f.region.range

/-- A commit instruction has been executed: it becomes final when the region ends. -/
def State.markCommit (s : State) (r : FragRef) : State :=
  s.updFrag r fun f => { f with region := { f.region with committed := true } }

def noLatches : Vector (Option Val) 4 := Vector.replicate 4 none

/-- Bring a range's registers back. -/
def restoreV (n : Nat) (own : Lanes) (R : RegFile) : SMap (VTag × List W32) → RegFile
  | [] => R
  | (r, t, ys) :: rest =>
    let R := { R with regs := { R.regs with vtags := SMap.set R.regs.vtags r t } }
    restoreV n own (if t = .mat then { R with mat := matSet n own R.mat r ys } else R) rest

/-- An interruption ends what a fragment waits for; one that waited at a barrier has arrived there in a generation that has not ended
(R257). -/
def Frag.interrupted (f : Frag) : Frag :=
  { f with wait := none, collector := none, asks := [], touched := [], filled := []
           arrival := match f.wait.map Wait.what with
             | some (.bar n) => some (n, false)
             | _ => f.arrival }

/-- The register state at a region entry (R390): the k registers at or above `.kregs` are unchanged. -/
def restartFrag (kregs : Nat) (c : Ctx) (f : Frag) : Ctx × Frag :=
  let sn := f.region.snap
  let k := Vector.ofFn fun i : Fin 64 => if i.val < kregs then sn.k[i] else f.regs.k[i]
  let R := restoreV c.width f.mask ⟨f.regs, c.mat⟩ sn.vregs
  let regs : Regs := { R.regs with k := k, fmt := sn.fmt, preds := sn.preds, rstack := sn.rstack, latches := noLatches }
  let loads := f.loads.filter fun l => l.handler || l.serial != f.region.serial
  ({ c with mat := R.mat }, { f.interrupted with regs := regs, pc := f.region.entry, loads := loads })

/-- A loaded register: UNI where every active item takes one value, else MAT. -/
def mergeLoad (n : Nat) (own lanes : Lanes) (t : VTag) (ys : List W32) (nt : VTag) (ns : List W32) : VTag × List W32 :=
  match nt with
  | .uni v =>
    if own &&& ~~~ lanes = 0 then (.uni v, [])
    else (.mat, (List.range n).map fun i => if lanes.getLsbD i then v else tagWordAt t ys i)
  | _ => (.mat, (List.range n).map fun i => if lanes.getLsbD i then ns.getD i 0 else tagWordAt t ys i)

/-- A register of a region's inputs with what a handler has written to it: `held` is what it held at vectoring, `now` at the return. -/
def writtenReg (sn held now : VTag × List W32) : VTag × List W32 :=
  if now = held then sn
  else if now.1 = .mat ∧ held.1 = .mat ∧ sn.1 = .mat then
    (.mat, sn.2.zipIdx.map fun x => if now.2.getD x.2 0 = held.2.getD x.2 0 then x.1 else now.2.getD x.2 0)
  else now

/-- A region's inputs with what a handler has written: the k registers that `now` has marked, and a register that no longer holds what it held
at vectoring. What `State.handlerWrote` has put into both `sn` and `held` stands as it put it. -/
def RegionSnap.written (sn held : RegionSnap) (kw : BitVec 64) (now : RegionSnap) : RegionSnap where
  k := Vector.ofFn fun i : Fin 64 => if decide (i.val < 56) && kw.getLsbD i.val then now.k[i] else sn.k[i]
  fmt := sn.fmt
  preds := Vector.ofFn fun i : Fin 16 => if now.preds[i] = held.preds[i] then sn.preds[i] else now.preds[i]
  rstack := if now.rstack = held.rstack then sn.rstack else now.rstack
  vregs := sn.vregs.map fun x =>
    match SMap.get? held.vregs x.1, SMap.get? now.vregs x.1 with
    | some h, some n => (x.1, writtenReg x.2 h n)
    | _, _ => x

/-- Restart of a fragment at its region entry, with its items that have not retired (R390). -/
def State.restart (s : State) (r : FragRef) : State :=
  match s.ctx? r.ctx with
  | none => s
  | some c =>
    match c.frag? r.frag with
    | none => s
    | some f =>
      let kregs := ((s.launchOfCtx? c).map fun l => l.hdr.kregs).getD 64
      let x := restartFrag kregs c f
      (s.setCtx (x.1.setFrag x.2)).discardFrag c f

/-! ### Joins (R173, R174, R175, R245) -/

/-- The children of a cut entry. -/
def Ctx.kids (c : Ctx) (p : Nat) : List Frag := c.frags.filter fun f => f.parent == some p

/-- Merged tag of a register over the arrived siblings (R174). -/
def mergeTag (kids : List Frag) (r : Nat) : VTag :=
  match kids with
  | [] => .uni 0
  | k :: ks =>
    let t := SMap.getD k.regs.vtags r (.uni 0)
    if ks.all fun g => SMap.getD g.regs.vtags r (.uni 0) == t then t else .mat

/-- A register that merges to MAT: each sibling's UNI or AFF value is stored at its own items. -/
def mergeMat (n : Nat) (r : Nat) (mat : SMap (List W32)) : List Frag → SMap (List W32)
  | [] => mat
  | k :: ks =>
    let V : View := { launch := false, n := n, strips := 0, origin := 0, base := 0, bidx := 0, items := none, exist := 0,
                      mat := mat, own := k.mask, regs := k.regs, ctr := 0 }
    match SMap.getD k.regs.vtags r (.uni 0) with
    | .mat => mergeMat n r mat ks
    | _ => mergeMat n r (matSet n k.mask mat r ((List.range n).map fun i => V.word r i)) ks

def mergePred (P : Places) (n : Nat) (kids : List Frag) (p : Fin 16) : PTag :=
  match kids with
  | [] => .uni false
  | k :: ks =>
    let t := k.regs.preds[p]
    let m := PTag.mat (kids.foldl (fun acc g => acc ||| (g.mask &&& (g.regs.preds[p]).lanes P n)) 0)
    match t with
    | .mat _ => m
    | _ => if ks.all fun g => g.regs.preds[p] == t then t else m

/-- Every register number that some sibling has tagged, ascending. -/
def tagKeys (kids : List Frag) : List Nat :=
  (List.range 384).filter fun r => kids.any fun k => (SMap.get? k.regs.vtags r).isSome

/-- The merged registers and storage (R174): the lead sibling's k registers, `fmt` and the return stack of the cut. -/
def mergeRegs (c : Ctx) (parent lead : Frag) (kids : List Frag) : RegFile :=
  let keys := tagKeys kids
  let tags := keys.map fun r => (r, mergeTag kids r)
  let mat := tags.foldl (fun m x => if x.2 = .mat then mergeMat c.width x.1 m kids else m) c.mat
  { regs := { k := lead.regs.k, fmt := parent.regs.fmt,
              preds := Vector.ofFn fun p : Fin 16 => mergePred c.places c.width kids p, vtags := tags,
              latches := noLatches, kw := lead.regs.kw, shifts := kids.foldl (fun n k => max n (k.regs.shifts + 4)) 0, rstack := parent.regs.rstack },
    mat := mat }

/-- The contractions named by tile, instance and site that a fragment has passed since its cut. -/
abbrev PassNames := List (Nat × Option Nat × Nat)

def addNames (a b : PassNames) : PassNames := b.foldl (fun l x => if l.contains x then l else l ++ [x]) a

/-- At a fuse, the items of an arrived sibling pass the named contractions that it has not passed itself (R175). -/
def fusePass (c : Ctx) (names : PassNames) (serial : Nat) (b : Block) (k : Frag) : Block :=
  names.foldl (fun b x =>
    if k.passedSinceCut.contains x then b
    else
      let t := b.inst x.1 x.2.1
      match t.open? x.2.2 with
      | none => b
      | some q => b.setInst (t.setOpen (q.stage c.id serial (c.instMask x.2.1 k.mask &&& ~~~ q.allPassed) []))) b

/-- The first and last strips of fragments. -/
def stripSpan (kids : List Frag) : Nat × Nat :=
  (kids.foldl (fun m k => min m k.first) 16, kids.foldl (fun m k => max m k.last) 0)

/-- Ticks of materialisation at a fuse: for a register that merges to MAT, one for each strip in which some sibling held it as UNI or AFF
(R174). -/
def mergeTicks (kids : List Frag) : Nat :=
  (((tagKeys kids).filter fun r => mergeTag kids r == .mat).flatMap fun r =>
    let plain := kids.filter fun k => SMap.getD k.regs.vtags r (.uni 0) != .mat
    (List.range 16).filter fun t => plain.any fun k => decide (k.first ≤ t) && decide (t ≤ k.last)).length

/-- What fragments that fuse have posted and commanded becomes the fused fragment's (R111). -/
def State.adopt (s : State) (ctx parent : Nat) (kids : List Nat) : State :=
  { s with
    stores := s.stores.map fun p => if p.ctx == ctx && kids.contains p.frag then { p with frag := parent } else p
    cmds := s.cmds.map fun c => if c.ctx == ctx && kids.contains c.frag then { c with frag := parent } else c }

/-- Loads in flight at a fuse: what siblings await of one load, or of loads that give one value, is one load again (R174). -/
def joinLoads (kids : List Frag) : List PendingLoad :=
  (kids.flatMap fun k => k.loads.map fun l => { l with lanes := l.lanes &&& k.mask }).foldl (fun ls l =>
    let same (x : PendingLoad) : Bool := x.dst == l.dst && x.serial == l.serial && x.handler == l.handler && x.lanes &&& l.lanes == 0
    if ls.any same then updFirst same (fun x => { x with lanes := x.lanes ||| l.lanes }) ls else ls ++ [l]) []

/-- The fuse of the arrived siblings into their parent (R174, R175); its ticks come after the one in which the last of them arrives, which
is itself counted nowhere (R169, R408). Where a sibling has ended the region of the cut, the fuse ends the regions of all of them, and what
each has staged is committed; the contractions that then close do so at one moment (R174, R318). DESIGN CHOICE (log 143): the fused fragment
covers the strips from the first to the last of its arrived siblings; those of a sibling that has exited do not count. -/
def State.fuse (s : State) (ctx : Nat) (parent : Nat) : State :=
  match s.ctx? ctx with
  | none => s
  | some c =>
    match c.frag? parent with
    | none => s
    | some p =>
      let kids := (c.kids parent).filter fun k => k.state == .arrived && k.mask != 0
      let ordered := sortOn (fun k => (Lanes.lowest k.mask).getD 0) kids
      match ordered with
      | [] => s
      | lead :: _ =>
        let names := kids.foldl (fun l k => addNames l k.passedSinceCut) []
        let R := mergeRegs c p lead kids
        let mask := kids.foldl (fun m k => m ||| k.mask) 0
        let span := stripSpan kids
        let moved := kids.any fun k => k.region.serial != p.region.serial
        let s := s.updBlock c.block fun b => kids.foldl (fusePass c names p.region.serial) b
        let p' : Frag := { p with
          state := .running, first := span.1, last := span.2, pc := lead.cont, mask := mask, regs := R.regs,
          hasChildren := false, passedSinceCut := addNames p.passedSinceCut names, wait := none, arrival := lead.arrival
          loads := joinLoads kids
          hold := s.cycle + 3 + mergeTicks kids, view := kids.foldl (fun v k => v.join k.view) p.view }
        let c' : Ctx := { c with mat := R.mat, frags := c.frags.filter fun f => f.parent != some parent }
        let s := if moved then s.updBlock c.block fun b => kids.foldl (fun b k => b.commitStaged c k.region.serial k.mask) b else s
        let s := (s.setCtx (c'.setFrag p')).adopt ctx parent (kids.map fun k => k.id)
        if moved then s.nextRegion ⟨ctx, parent⟩ else s

/-- What follows when a child of `parent` has arrived or exited: with every sibling in, the fuse; with none left, the parent
has exited too; and so on up the tree (R173). -/
def State.settle : Nat → State → Nat → Nat → State
  | 0, s, _, _ => s
  | n + 1, s, ctx, parent =>
    match s.ctx? ctx with
    | none => s
    | some c =>
      match c.frag? parent with
      | none => s
      | some p =>
        let kids := c.kids parent
        if !p.hasChildren || kids.any fun k => k.state == .running || k.state == .parked then s
        else if (kids.filter fun k => k.state == .arrived && k.mask != 0).isEmpty then
          let c := { c with frags := c.frags.filter fun f => f.parent != some parent }
          match p.parent with
          | none => s.setCtx (c.setFrag { p with hasChildren := false, state := .exited, mask := 0 })
          | some g => State.settle n (s.setCtx (c.dropFrag parent)) ctx g
        else
          let s := s.fuse ctx parent
          match s.frag? ⟨ctx, parent⟩ with
          | none => s
          | some q =>
            match q.parent with
            | none => s
            | some g =>
              if q.pc = q.reconv then
                State.settle n (s.updFrag ⟨ctx, parent⟩ fun f => { f with state := .arrived, cont := f.pc }) ctx g
              else s

/-- A fragment arrives with its continuation (R173, R245). -/
def State.arrive (s : State) (r : FragRef) (cont : VAddr) : State :=
  match s.frag? r with
  | none => s
  | some f =>
    match f.parent with
    | none => s
    | some p =>
      (s.updFrag r fun f => { f with state := .arrived, cont := cont, pc := cont, wait := none }).settle 64 r.ctx p

/-- A running fragment whose pc is its reconvergence address arrives. -/
def State.checkArrive (s : State) (r : FragRef) : State :=
  match s.frag? r with
  | none => s
  | some f =>
    if f.parent.isSome && f.state == .running && !f.hasChildren && f.pc = f.reconv then s.arrive r f.pc else s

/-- The pc moves, and the fragment arrives if it came to its reconvergence address. -/
def State.goto (s : State) (r : FragRef) (pc : VAddr) : State :=
  (s.updFrag r fun f => { f with pc := pc }).checkArrive r

/-- Completion of a waiting instruction: past it, with the region ended where R247 says so. -/
def State.complete (s : State) (r : FragRef) (ends : Bool) : State :=
  match s.frag? r with
  | none => s
  | some f =>
    match f.wait with
    | none => s
    | some w =>
      let s := s.updFrag r fun f => { f with wait := none, pc := f.pc + BitVec.ofNat 58 w.len }
      (if ends then s.nextRegion r else s).checkArrive r

/-! ### Barriers and retirement (R246, R257, R385) -/

/-- Every waiting agent of a generation departs (R257). -/
def State.depart (s : State) : List FragRef → State
  | [] => s
  | r :: rs => State.depart (s.complete r true) rs

/-- Fragments of a block that wait at a barrier. -/
def State.atBarrier (s : State) (block n : Nat) : List FragRef :=
  (s.ctxsOf block).flatMap fun c =>
    (c.frags.filter fun f => (f.wait.map fun w => w.what) == some (.bar n)).map fun f => ⟨c.id, f.id⟩

/-- A fragment that a restart has taken back from a barrier whose generation ends (R257). -/
def Frag.released (n : Nat) (f : Frag) : Frag := if f.arrival = some (n, false) then { f with arrival := some (n, true) } else f

/-- The end of a generation: every item that has not exited has its bit set; the bits of those items clear, and every agent that waits departs.
One that a restart has taken back does not arrive again (R257). -/
def State.barrierEnd (s : State) (block n : Nat) : State :=
  match s.block? block with
  | none => s
  | some b =>
    let need := b.exists_ &&& ~~~ b.retired
    let m := b.barriers.getD n 0
    if need != 0 && (m &&& need) == need then
      let s := s.updBlock block fun b => { b with barriers := b.barriers.set n (m &&& ~~~ need) }
      let s : State := { s with ctxs := s.ctxs.map fun c =>
        if c.block == block then { c with frags := c.frags.map (Frag.released n) } else c }
      let who := s.atBarrier block n
      (who.foldl State.knowAll s).depart who
    else s

def State.barrierEnds (s : State) (block : Nat) : Nat → State
  | 0 => s
  | n + 1 => (State.barrierEnds s block n).barrierEnd block n

/-- A context stopped for the sake of the one that it was paired with goes on (R258). -/
def State.unpaired (s : State) (c : Ctx) : Ctx :=
  if ((s.launchOfCtx? c).map fun l => l.preempting).getD false then { c with shmap := none }
  else { c with shmap := none, preempt := none, stopping := false }

/-- The mapping of a context ends, for itself and its partner (R186). -/
def State.endShMap (s : State) (ctx : Nat) : State :=
  match s.ctx? ctx with
  | none => s
  | some c =>
    match c.shmap with
    | none => s
    | some m => (s.updCtx ctx s.unpaired).updCtx m.partner s.unpaired

/-- Items retire as if by `exit`: their staged passes are committed, they arrive at every barrier after their earlier stores (R114), the
fragment's mask is reduced; a fragment without items exits (R246, R385). A pre-emption that a handler has held back is taken where the last
fragment in handler mode is gone (R388). -/
def State.retire (s : State) (r : FragRef) (m : Lanes) : State :=
  match s.ctx? r.ctx with
  | none => s
  | some c =>
    match c.frag? r.frag with
    | none => s
    | some f =>
      let m := m &&& f.mask
      if m = 0 then s
      else
        let im := c.toIidx m
        let s := (s.publish r.ctx).updBlock c.block fun b =>
          let b := b.commitStaged c f.region.serial m
          { b with retired := b.retired ||| im, barriers := b.barriers.map fun x => x ||| im }
        let f' := { f with mask := f.mask &&& ~~~ m }
        let c' := { c with live := c.live &&& ~~~ m, retired := c.retired ||| m }
        let s := (s.setCtx (c'.setFrag f')).stampClosures c.block
        let s :=
          if f'.mask = (0 : Lanes) then
            match f.parent with
            | none => s.updFrag r fun f => { f with state := .exited, wait := none, shadow := none, park := none }
            | some p => (s.updCtx r.ctx fun c => c.dropFrag r.frag).settle 64 r.ctx p
          else s
        let s := if c'.live = (0 : Lanes) then s.endShMap r.ctx
          else if f.shadow.isSome ∧ f'.mask = (0 : Lanes) then s.takePreempt r.ctx else s
        s.barrierEnds c.block 16

/-- Items that a fault retires are counted (R385, R411). -/
def State.retireFault (s : State) (r : FragRef) (m : Lanes) : State :=
  match s.ctx? r.ctx with
  | none => s
  | some c =>
    match c.frag? r.frag with
    | none => s
    | some f =>
      (s.updBlock c.block fun b => { b with faultRetired := b.faultRetired + Lanes.count (m &&& f.mask) }).retire r m

/-! ### Taking a trap: parking and vectoring (R62, R250, R386, R387, R388) -/

/-- What the fault of an item says beside its kind: the address field of the record, the source of k57, and the TCID of the
translation. -/
structure FaultInfo where
  addr : Nat
  source : Nat
  tcid : Nat

/-- The handler's p14, as a mask of positions. -/
def Frag.p14 (c : Ctx) (f : Frag) : Lanes :=
  f.mask &&& (f.regs.preds[14]).lanes c.places c.width

/-- A fragment parks at its instruction, and the mailbox posts a park notice in the layout of R400. DEDUCED (log 127): that layout has no field for
the pc, which R386 lists among what the notice names. -/
def State.park (s : State) (r : FragRef) (code cause : Nat) (mask : Lanes) (fi : FaultInfo) : State :=
  match s.ctx? r.ctx with
  | none => s
  | some c =>
    match c.frag? r.frag with
    | none => s
    | some f =>
      let id := s.parkSeq + 1
      let seq := ((s.launchOfCtx? c).map fun l => l.seq).getD 0
      let p : Park := { id := id, code := code, cause := cause, mask := mask, addr := fi.addr, inHandler := f.shadow.isSome, answer := none }
      let s := if f.shadow.isSome then s else s.discardFrag c f
      let s := { s with parkSeq := id }.updFrag r fun f => { f with state := .parked, park := some p, wait := none, asks := [], touched := [], filled := [] }
      s.post { w0 := noticeW0 3 code fi.tcid 0, w1 := BitVec.ofNat 64 seq,
               w2 := BitVec.ofNat 64 (id % 2 ^ 32 + fi.source % 16 * 2 ^ 32 + cause % 16 * 2 ^ 36),
               w3 := BitVec.ofNat 64 fi.addr }

/-- What k56 to k60 take at vectoring. -/
structure VecRegs where
  k56 : W64
  k57 : W64
  k58 : W64
  k59 : W64

/-- Bounds of a region's range as k62 holds them (R62). DESIGN CHOICE (log 112): both are 452 for an empty range. -/
def rangeCodes : VRange → Nat × Nat
  | none => (452, 452)
  | some r => (r.1.val, r.2.val)

/-- Entry to the handler at `sr.tvec` (R62): k56-k63, p14, p15 and `fmt` are saved in the fragment's trap shadow, the fault
description is written, and the fragment fetches at the vector. The interrupted region's staged passes are discarded. A pre-emption that the
same instruction came to waits for the return (R388). -/
def State.vector (s : State) (r : FragRef) (p14 : Lanes) (x : VecRegs) : State :=
  match s.ctx? r.ctx with
  | none => s
  | some c =>
    match c.frag? r.frag with
    | none => s
    | some f =>
      match s.launchOfCtx? c with
      | none => s
      | some l =>
        let tc := s.tcid l.tcid
        let sh : Shadow := { owner := f.id, k := (List.range 8).map fun i => f.regs.k.getD (56 + i) 0,
                             p14 := f.regs.preds[14], p15 := f.regs.preds[15], fmt := f.regs.fmt, region := f.region,
                             held := snapOf c f f.region.range }
        let n := c.handlerEntries + 1
        let rc := rangeCodes f.region.range
        let k := f.regs.k.set 56 x.k56 |>.set 57 x.k57 |>.set 58 x.k58 |>.set 59 x.k59
          |>.set 60 (f.pc.setWidth 64) |>.set 61 (f.region.entry.setWidth 64)
          |>.set 62 (BitVec.ofNat 64 (rc.2 * 2 ^ 16 + rc.1))
          |>.set 63 (BitVec.ofNat 64 (n % 2 ^ 32 * 2 ^ 32 + tc.tenant * 2 ^ 16 + l.tcid % 4096))
        let regs : Regs := { f.regs with k := k, preds := f.regs.preds.set 14 (.mat p14), kw := 0, latches := noLatches }
        let f' := { f.interrupted with regs := regs, shadow := some sh, pc := tc.tvec, trapWait := true }
        (s.setCtx ({ c with handlerEntries := n, stopping := false }.setFrag f')).discardFrag c f

/-- A fault that would retire items: in handler mode the fragment parks instead, with the handler's p14 (R61, R382, R386);
else each item is recorded and retires (R385). -/
def State.faultItems (s : State) (r : FragRef) (code : Nat) (m : Lanes) (source : Nat) (addr : Nat → Nat) : State :=
  match s.ctx? r.ctx with
  | none => s
  | some c =>
    match c.frag? r.frag with
    | none => s
    | some f =>
      let items := Lanes.list (m &&& f.mask) c.width
      match items with
      | [] => s
      | p :: _ =>
        if f.shadow.isSome then
          let tcid := ((s.launchOfCtx? c).map fun l => l.tcid).getD 0
          s.park r code 2 (f.p14 c) { addr := addr p, source := source, tcid := tcid }
        else (s.record r.ctx code f.pc f.region.entry addr items).retireFault r m

/-- Restore the trap shadow and leave handler mode; the fragment restarts at the region entry recorded at vectoring, with what the handler has
written to its inputs (R63). A pre-emption that has waited for the return is taken there (R388). -/
def State.leaveHandler (s : State) (r : FragRef) : State :=
  match s.ctx? r.ctx with
  | none => s
  | some c =>
    match c.frag? r.frag with
    | none => s
    | some f =>
      match f.shadow with
      | none => s
      | some sh =>
        let k := Vector.ofFn fun i : Fin 64 => if i.val < 56 then f.regs.k[i] else sh.k.getD (i.val - 56) 0
        let regs : Regs := { f.regs with k := k, fmt := sh.fmt, preds := (f.regs.preds.set 14 sh.p14).set 15 sh.p15 }
        let f := { f with regs := regs, shadow := none, state := .running, trapWait := true }
        let snap := sh.region.snap.written sh.held f.regs.kw (snapOf c f sh.region.range)
        let c := c.setFrag { f with region := { sh.region with snap := snap } }
        ((s.setCtx c).takePreempt r.ctx).restart r

/-- `eret` (R63, R64, R251): the fragment that vectored leaves handler mode; one cut within the handler arrives at the eret
itself, which the fused fragment then executes. -/
def State.eret (s : State) (r : FragRef) : State :=
  match s.frag? r with
  | none => s
  | some f =>
    match f.shadow with
    | none => s
    | some sh => if sh.owner = f.id then s.leaveHandler r else s.arrive r f.pc

/-- The host resumes a park: outside handler mode a restart at the region entry, in it the parked instruction again
(R386). -/
def State.resumePark (s : State) (r : FragRef) : State :=
  match s.frag? r with
  | none => s
  | some f =>
    match f.park with
    | none => s
    | some p =>
      let s := s.updFrag r fun f => { f with park := none, state := .running }
      if p.inHandler then s else s.restart r

/-- The host fails a park: the items of the fault mask retire with the park's code; the others restart (R386). -/
def State.failPark (s : State) (r : FragRef) : State :=
  match s.ctx? r.ctx with
  | none => s
  | some c =>
    match c.frag? r.frag with
    | none => s
    | some f =>
      match f.park with
      | none => s
      | some p =>
        let m := p.mask &&& f.mask
        let entry := match f.shadow with
          | some sh => sh.region.entry
          | none => f.region.entry
        let s := s.updFrag r fun f => { f with park := none, state := .running }
        let s := s.record r.ctx p.code f.pc entry (fun _ => p.addr) (Lanes.list m c.width)
        let s := s.retireFault r m
        match s.frag? r with
        | none => s
        | some f => if f.mask = 0 then s else if p.inHandler then s.leaveHandler r else s.restart r

/-! ### The frame of an instruction -/

/-- What an instruction is executed from; `s0` is the state before it counts as issued, and `hurt` names the items that consume a damaged
word, with the source of R101. -/
structure Env where
  s : State
  s0 : State
  r : FragRef
  c : Ctx
  f : Frag
  b : Block
  l : Launch
  i : Instr
  len : Nat
  hurt : Option (Lanes × Nat × Nat) := none

/-- Bytes of an instruction: 12 with a leading word, else 8 (R210). -/
def instrLen (i : Instr) : Nat := 4 * (encodeWords i).length

def State.env? (s : State) (i : Instr) : Option Env :=
  match s.cur with
  | none => none
  | some r =>
    match s.ctx? r.ctx with
    | none => none
    | some c =>
      match c.frag? r.frag, s.block? c.block with
      | some f, some b =>
        match s.launch? b.launch with
        | some l =>
          if f.state = .running ∧ f.hasChildren = false ∧ f.wait = none ∧ f.mask ≠ 0 ∧ c.state = .resident then
            some { s := s, s0 := s, r := r, c := c, f := f, b := b, l := l, i := i, len := instrLen i }
          else none
        | none => none
      | _, _ => none

def Env.view (e : Env) : View := viewOf e.c e.b e.f e.s.freeCtr
def Env.pass (e : Env) (g : Guard) : Lanes := e.view.pass g
/-- The passing items in ascending item index. -/
def Env.passing (e : Env) (g : Guard) : List Nat := Lanes.list (e.pass g) e.c.width
def Env.tc (e : Env) : Tcid := e.s.tcid e.l.tcid
def Env.k (e : Env) (n : Fin 64) : W64 := e.f.regs.k[n]
def Env.kOpt (e : Env) (n : Option (Fin 64)) : W64 :=
  match n with
  | some n => e.f.regs.k[n]
  | none => 0
def Env.inHandler (e : Env) : Bool := e.f.shadow.isSome
/-- Supervisor mode (R43). -/
def Env.sup (e : Env) : Bool := e.inHandler || e.l.sup
def Env.next (e : Env) : VAddr := e.f.pc + BitVec.ofNat 58 e.len
def Env.die (e : Env) : Nat := dieOfCore e.c.core

/-- A use of vector registers: first register, how many, whether an even register is required (R183), and whether it is
written. A latch that is read is a use of no register. -/
structure VUse where
  reg : Nat
  count : Nat
  even : Bool
  wr : Bool
  latch : Option (Fin 4) := none

/-- Positions of a source register whose words the item at a position consumes, from the view and the passing items: its own but for a
cross-lane row. -/
abbrev LaneReads := View → Lanes → Nat → Nat → List Nat

def ownLane : LaneReads := fun _ _ _ i => [i]

/-- A vector register or pair that is read, or one that is written. -/
def useV (wide : Bool) (n : Fin 384) : VUse := if wide then ⟨n.val, 2, true, false, none⟩ else ⟨n.val, 1, false, false, none⟩
def useD (wide : Bool) (n : Fin 384) : VUse := { useV wide n with wr := true }
def useSrc (wide : Bool) : Src → List VUse
  | .v n => [useV wide n]
  | .b n => [⟨0, 0, false, false, some n⟩]
  | _ => []
/-- A register of a source. -/
def srcHolds (wide : Bool) (x : Src) (r : Nat) : Bool := (useSrc wide x).any fun u => decide (u.reg ≤ r) && decide (r < u.reg + u.count)
def useDst (wide : Bool) : Dst → List VUse
  | .v n => [useD wide n]
  | _ => []
def useB (wide : Bool) : BSrc → List VUse
  | .reg x => useSrc wide x
  | .imm _ => []
/-- The registers of the operands, below `.vregs` and even where FP64 asks for it. -/
def opaUses (x : OpaOp) (fmt : W32) : List VUse :=
  let wide := fmtX fmt == 1
  [⟨x.x.val, mSpan (fmtX fmt) (x.mm1.val + 1), wide, false, none⟩, ⟨x.y.val, mSpan (fmtY fmt) (x.nm1.val + 1), wide, false, none⟩] ++
    useSrc false x.e
def useRange (r : VRange) : List VUse :=
  match r with
  | none => []
  | some r => [⟨r.1.val, r.2.val + 1 - r.1.val, false, false, none⟩]

/-- The issue checks of R9 and R183. -/
def VUse.ok (vregs : Nat) (u : VUse) : Bool := decide (u.reg + u.count ≤ vregs) && (!u.even || u.reg % 2 == 0)

/-- A register of the use has a pending write, or the latch holds the result of a load that is still on its way (R360). -/
def VUse.pending (regs : Regs) (u : VUse) (l : PendingLoad) : Bool :=
  (l.dst.any fun d => decide (u.reg ≤ d.1) && decide (d.1 < u.reg + u.count)) ||
    match u.latch with
    | some n => (regs.latches[n]).isSome && regs.shifts == l.shift + n.val
    | none => false

/-- The fragment waits with the instruction. -/
def Env.wait (e : Env) (s : State) (reason : Nat) (what : WaitFor) : State :=
  let w : Wait := { reason := reason, what := what, instr := e.i, len := e.len, stamp := s.nextId }
  { s with nextId := s.nextId + 1 }.updFrag e.r fun f => { f with wait := some w }

/-- A trap on every active item, with no effect; the instruction does not count as issued (R213). -/
def Env.trapAll (e : Env) (code : Nat) : State := e.s0.faultItems e.r code e.f.mask 0 fun _ => 0
def Env.illegal (e : Env) : State := e.trapAll 1
def Env.privileged (e : Env) : State := e.trapAll 2

/-- The instruction is done: past it, arriving where R173 says so. -/
def Env.done (e : Env) (s : State) : State := s.goto e.r e.next

/-- Done, with the current region ended and a new one opened at the next instruction (R247). -/
def Env.doneEnd (e : Env) (s : State) : State :=
  ((s.updFrag e.r fun f => { f with pc := e.next }).nextRegion e.r).checkArrive e.r

/-- Completion of a commit instruction: the region ends (R247, R389). -/
def Env.doneCommit (e : Env) (s : State) : State := e.doneEnd (s.markCommit e.r)

/-- A register of a mapped range is MAT in both contexts and has one storage (R186). -/
def shSync (s : State) (ctx : Nat) : State :=
  match s.ctx? ctx with
  | none => s
  | some c =>
    match c.shmap with
    | none => s
    | some m =>
      let regs := (List.range (m.hi + 1 - m.lo)).map fun i => m.lo + i
      let one (c : Ctx) (r : Nat) : Ctx :=
        c.frags.foldl (fun c f =>
          match SMap.getD f.regs.vtags r (.uni 0) with
          | .mat => c
          | _ =>
            let V : View := { launch := false, n := c.width, strips := c.strips, origin := 0, base := 0, bidx := 0,
                              items := none, exist := 0, mat := c.mat, own := f.mask, regs := f.regs, ctr := 0 }
            let R := V.setMat ⟨f.regs, c.mat⟩ r ((List.range c.width).map fun i => V.word r i)
            { c.setFrag { f with regs := R.regs } with mat := R.mat }) c
      let c := regs.foldl one c
      let s := s.setCtx c
      s.updCtx m.partner fun p =>
        { p with mat := regs.foldl (fun mt r => SMap.set mt r (SMap.getD c.mat r [])) p.mat }

/-- The fragment's registers after the instruction. -/
def Env.put (e : Env) (s : State) (R : RegFile) : State :=
  shSync (s.updCtx e.r.ctx fun c => { c with mat := R.mat }.updFrag e.r.frag fun f => { f with regs := R.regs }) e.r.ctx

/-- Ticks that an instruction holds its slot (R360). -/
structure Cost where
  slotL : Bool
  ticks : Nat
  bank : Nat := 0

def costL (n : Nat) : Cost := { slotL := true, ticks := n }
def costC (n : Nat) : Cost := { slotL := false, ticks := n }

/-- The instruction is counted as issued: its slot is held, the fragment issues no other before its last slot tick is over (R427), its
operand collector is free (R184), and its last issue is now. `bank` of its ticks wait for a bank of shared memory (R76). -/
def Env.mark (e : Env) (k : Cost) : Env :=
  let s := e.s.updPart e.c.core e.c.part fun p =>
    if k.slotL then { p with busyL := e.s.cycle + k.ticks, issL := some e.r, sinceL := e.s.cycle + 1 }
    else { p with busyC := e.s.cycle + k.ticks, issC := some e.r, sinceC := e.s.cycle + 1 }
  let f := { e.f with lastIssue := s.cycle, trapWait := false, busy := e.s.cycle + k.ticks, bank := k.bank, collector := none }
  let c := { e.c.setFrag f with issued := true }
  { e with s := { s with freeCtr := s.freeCtr + 1 }.setCtx c, c := c, f := f }

/-- Where an operand still awaits the data of a load, the instruction is not ready (R77, R360). -/
def Env.blocked (e : Env) (uses : List VUse) : Bool := uses.any fun u => e.f.loads.any fun l => u.pending e.f.regs l

/-! ### Damaged words (R98, R101, R387) -/

/-- Guard, no-write-back bit and leading word of the rows that have such fields. -/
def lOpt : Instr → Option LOpt
  | .add x | .sub x | .mul x | .mulh x | .div x | .rem x | .min x | .max x | .sadd x | .ssub x | .and x | .or x | .xor x
  | .andn x | .shl x | .shr x | .sar x | .rol x | .ror x | .bfx x => some x.o
  | .addc x | .subb x => some x.x.o
  | .mad x | .bfi x | .prm x => some x.o
  | .abs x | .neg x | .not x | .clz x | .ctz x | .ffs x | .popc x | .brev x | .mov x => some x.o
  | .lea x => some x.x.o
  | .sel x => some x.x.o
  | .cmp x => some ⟨x.g, false, x.pfx⟩
  | .movi x => some ⟨x.g, x.nw, none⟩
  | .movk x => some ⟨x.g, x.nw, none⟩
  | .cvt x => some x.o
  | .pack x => some x.o
  | .unpk x => some x.o
  | .dp4 x => some x.x.o
  | .fadd x | .fsub x | .fmul x | .fmin x | .fmax x | .fdiv x | .fscale x => some x.o
  | .fma x => some x.o
  | .fabs x | .fneg x | .frnd x | .fclass x | .frcp x | .frsq x | .fsqrt x | .fex2 x | .flg2 x | .fsin x | .fcos x
  | .ftanh x => some x.o
  | .fcmp x => some ⟨x.g, false, x.pfx⟩
  | .fcvt x => some x.o
  | .shfl x | .bcast x => some x.o
  | .slup x | .sldn x => some x.o
  | .cmpr x | .expd x => some x.o
  | .red x => some x.o
  | .scan x => some x.o
  | .ballot x => some x.o
  | .vote x => some ⟨x.g, false, x.pfx⟩
  | .topk x => some x.o
  | .fwr d _ g => some ⟨g, d.nw, none⟩
  | .frd d _ g => some ⟨g, d.nw, none⟩
  | _ => none

/-- The guard of an instruction. -/
def guardOf (i : Instr) : Guard :=
  match i with
  | .nop g | .exit g | .brk _ g | .trap _ g | .elect _ g | .matchKeys _ _ _ g | .launch _ g
  | .halt _ g | .getsr _ _ g | .setsr _ _ g | .tick _ g | .tickS _ g | .cpub _ g | .cinv g | .tlbiVa _ _ g
  | .tlbiTcid _ g | .tlbiAll g | .pmap _ _ g | .ctr _ _ g | .ctrClr _ _ g | .rmap _ _ g | .runmap _ g | .fmt _ g
  | .qfire _ _ g | .qstat _ _ g => g
  | .pand x | .por x | .pxor x => x.g
  | .pnot x | .pmov x => x.g
  | .pset x => x.g
  | .pcnt x | .pfirst x => x.g
  | .opa x => x.g
  | .opc x => x.t.g
  | .azero x => x.g
  | .areadRow x | .awrtRow x => x.t.g
  | .areadStatus x | .awrtStatus x => x.t.g
  | .ald x | .ast x => x.g
  | .await x => x.t.g
  | .apromCvt x | .apromScl x => x.t.g
  | .lds x => x.g
  | .sts x => x.g
  | .ldw x => x.x.g
  | .stw x => x.x.g
  | .atom x => x.g
  | .cas x => x.g
  | .fence x => x.g
  | .wait x => x.g
  | .rwb x | .rinv x | .rfill x => x.g
  | .copy x | .coll x | .stash x => x.g
  | .gather x | .scatter x => x.g
  | .xatom x => x.g
  | .dred x => x.g
  | .qpush x => x.g
  | i => ((lOpt i).map fun o => o.g).getD ⟨0, false⟩

/-- The mask predicate of an instruction (R227). -/
def maskPred (i : Instr) : List (Fin 16) := (((lOpt i).bind fun o => o.pfx).map fun p => p.msk).toList

/-- The predicates that a passing item of an instruction reads beside its guard and its mask. -/
def predReads : Instr → List (Fin 16)
  | .bra x => [x.pred]
  | .addc x | .subb x => [x.pIn]
  | .sel x => [x.q]
  | .pand x | .por x | .pxor x => [x.pa, x.pb]
  | .pnot x | .pmov x => [x.pa]
  | .pcnt x | .pfirst x => [x.pa]
  | .cmpr x | .expd x => [x.q]
  | .scan x => x.seg.toList
  | .ballot x => [x.pa]
  | .vote x => [x.pa]
  | _ => []

/-- The predicates that an instruction writes. -/
def predWrites : Instr → List (Fin 16)
  | .elect p _ => [p]
  | .addc x | .subb x => [x.pOut]
  | .cmp x => [x.pd]
  | .fcmp x => [x.pd]
  | .pand x | .por x | .pxor x => [x.pd]
  | .pnot x | .pmov x => [x.pd]
  | .pset x => [x.pd]
  | .vote x => [x.pd]
  | _ => []

/-- The instruction names registers and reads the words of none of them (R247, R258, R260, R261). -/
def namesOnly : Instr → Bool
  | .region _ | .shmap _ _ _ | .mat _ _ | .rep _ _ _ => true
  | _ => false

/-- A register file or predicate store word is named by its register (384 and up for predicates) and its position (the
strip for predicates). The items that consume a damaged one, with the source of R101 (R98): a passing item its sources and the predicates
that it reads; every active item of the strip the predicate of the guard. Those of an `opa` are consumed although it reads none at issue. -/
def Env.damaged (e : Env) (uses : List VUse) (reads : LaneReads) : Option (Lanes × Nat × Nat) :=
  if e.c.damage.isEmpty || namesOnly e.i then none
  else
    let g := guardOf e.i
    let V := e.view
    let p := e.pass g
    let uses := match e.i with
      | .opa x => opaUses x e.f.regs.fmt
      | _ => uses
    let read (r : Nat) : Bool := SMap.getD e.f.regs.vtags r (.uni 0) == .mat &&
      uses.any fun u => !u.wr && decide (u.reg ≤ r) && decide (r < u.reg + u.count)
    let hurt := e.c.damage.filter fun d => decide (d.1 < 384) && read d.1
    let regs := if hurt.isEmpty then (0 : Lanes)
      else Lanes.ofList ((Lanes.list p e.c.width).filter fun i => hurt.any fun d => (reads V p d.1 i).contains d.2)
    let hits (qs : List (Fin 16)) (m : Lanes) : Lanes :=
      let mats := qs.filter fun q => (e.f.regs.pred q) matches .mat _
      ((e.c.damage.filter fun d => mats.any fun q => d.1 == 384 + q.val).map fun d => d.2).foldl (fun a t => a ||| (m &&& Lanes.strips t t)) 0
    let preds := hits [g.p] e.f.mask ||| hits (predReads e.i ++ maskPred e.i) p
    if regs ≠ 0 then some (regs ||| preds, 0, 0) else if preds ≠ 0 then some (preds, 2, 0) else none

/-- The positions at which an instruction writes its destination: those that pass and that the mask leaves or zeroes; none where the write is
suppressed (R218, R227). -/
def Env.writes (e : Env) : Lanes :=
  let o := (lOpt e.i).getD (optOf (guardOf e.i))
  let m := e.view.mask o.pfx
  let p := e.pass o.g
  if m.2 then p else p &&& m.1

/-- Suppressed write to a vector register. -/
def Env.suppressed (e : Env) : Bool := ((lOpt e.i).map fun o => o.nw).getD false

/-- A register is among those that a list of uses writes. -/
def usesWrite (uses : List VUse) (r : Nat) : Bool := uses.any fun u => u.wr && decide (u.reg ≤ r) && decide (r < u.reg + u.count)

/-- A written word is no longer damaged (R98): a vector register's at the written items, a predicate's where every live
lane of its strip is written. -/
def Env.heal (e : Env) (uses : List VUse) (s : State) : State :=
  if e.c.damage.isEmpty then s
  else
    let p := e.writes
    let fixed (d : Nat × Nat) : Bool :=
      if d.1 < 384 then !e.suppressed && p.getLsbD d.2 && usesWrite uses d.1
      else (predWrites e.i).any (fun q => d.1 == 384 + q.val) && Lanes.strip (e.c.live &&& ~~~ p) d.2 == 0
    s.updCtx e.r.ctx fun c => { c with damage := c.damage.filter fun d => !fixed d }

/-- The context itself has written a register of its mapped range at the positions of m: the value from before a partner's `fwr` is gone there,
whether or not an `afence` has come (R132). -/
def Ctx.ownWrote (c : Ctx) (own : Nat → Bool) (m : Lanes) : Ctx :=
  let now (r : Nat) : List W32 := SMap.getD c.mat r []
  let mend (o : OldWords) : OldWords :=
    if own o.reg then { o with words := o.words.zipIdx.map fun w => if m.getLsbD w.2 then (now o.reg).getD w.2 0 else w.1 } else o
  { c with shmap := c.shmap.map fun x => { x with olds := x.olds.map mend } }

/-- A predicate of a snapshot with what the items p of a fragment have written to it. -/
def wrotePred (V : View) (mask p : Lanes) (sn now : PTag) : PTag :=
  if mask &&& ~~~ p = 0 then now else .mat ((V.plane now &&& p) ||| (V.plane sn &&& ~~~ p))

/-- What an instruction of a handler writes to the interrupted region's inputs is written to their copy at once, whatever value it writes (R63);
p14, p15 and k56-k63 are restored by `eret`. -/
def Env.handlerWrote (e : Env) (uses : List VUse) (s : State) : State :=
  match s.ctx? e.r.ctx, s.frag? e.r with
  | some c, some f =>
    match f.shadow with
    | none => s
    | some sh =>
      let p := e.writes
      let now := snapOf c f sh.region.range
      let preds := if p = 0 then [] else (predWrites e.i).filter fun q => q != 0 && decide (q.val < 14)
      let regs := if p = 0 || e.suppressed then [] else uses.filter fun u => u.wr
      let hit (r : Nat) : Bool := usesWrite regs r && !f.loads.any fun l => l.dst.any fun d => d.1 == r
      let stack := f.regs.rstack != e.f.regs.rstack
      if e.f.shadow.isNone || f.pc == e.f.pc || (preds.isEmpty && regs.isEmpty && !stack) then s
      else
      let upd (merge : Bool) (sn : RegionSnap) : RegionSnap :=
        { sn with
          preds := Vector.ofFn fun q : Fin 16 =>
            if preds.contains q then (if merge then wrotePred e.view f.mask p sn.preds[q] now.preds[q] else now.preds[q]) else sn.preds[q]
          rstack := if stack then now.rstack else sn.rstack
          vregs := sn.vregs.map fun x =>
            match hit x.1, SMap.get? now.vregs x.1 with
            | true, some n => (x.1, if merge then mergeLoad c.width f.mask p x.2.1 x.2.2 n.1 n.2 else n)
            | _, _ => x }
      s.updFrag e.r fun f =>
        { f with shadow := some { sh with region := { sh.region with snap := upd true sh.region.snap }, held := upd false sh.held } }
  | _, _ => s

/-- The older words of a mapped register that an instruction writes are gone (R132); those that a load writes go when its data returns. -/
def Env.ownWrites (e : Env) (uses : List VUse) (s : State) : State :=
  let waits := ((s.frag? e.r).map fun f => f.pc == e.f.pc).getD false
  if ((e.c.shmap.map fun m => m.olds.isEmpty).getD true) || e.suppressed || waits || !uses.any (fun u => u.wr) then s
  else
    let later (r : Nat) : Bool := ((s.frag? e.r).map fun f => f.loads.any fun l => l.dst.any fun d => d.1 == r).getD false
    s.updCtx e.r.ctx fun c => c.ownWrote (fun r => usesWrite uses r && !later r) e.writes

/-- What an instruction's register writes leave beside the registers: no older word of a mapped register stays readable (R132), and in a handler
they reach the interrupted region's inputs (R63). -/
def Env.landed (e : Env) (uses : List VUse) (s : State) : State := e.handlerWrote uses (e.ownWrites uses s)

/-- An error record (R101). -/
def errRec (tick tcid tenant source core part addr : Nat) (pc : W64) : ErrRec where
  w0 := BitVec.ofNat 64 tick
  w1 := BitVec.ofNat 64 (tcid % 4096 * 2 ^ 52 + tenant % 256 * 2 ^ 44 + source * 2 ^ 40 + core % 256 * 2 ^ 32 + part % 16 * 2 ^ 28)
  w2 := BitVec.ofNat 64 addr
  w3 := pc

/-- Write an error record: its number is the count of those written before it. -/
def State.logError (s : State) (x : ErrRec) : State :=
  { s with mgmt := { s.mgmt with errors := s.mgmt.errors ++ [x], errCount := s.mgmt.errCount + 1 } }

/-- A machine check on the consuming items (R98, R101, R387): the error record, the fault records, and the vector; in
handler mode a park. -/
def State.machineCheck (s : State) (r : FragRef) (m : Lanes) (source addr : Nat) : State :=
  match s.ctx? r.ctx, s.frag? r with
  | some c, some f =>
    match s.launchOfCtx? c with
    | none => s
    | some l =>
      let part := if source < 4 then c.part else 0
      let s := s.logError (errRec s.tick l.tcid (s.tcid l.tcid).tenant source c.core part addr (f.pc.setWidth 64))
      if f.shadow.isSome then s.park r 9 2 (f.p14 c) { addr := addr, source := 5, tcid := l.tcid }
      else
        (s.record r.ctx 9 f.pc f.region.entry (fun _ => addr) (Lanes.list m c.width)).vector r m
          { k56 := BitVec.ofNat 64 addr, k57 := 5, k58 := BitVec.ofNat 64 s.tick, k59 := 0 }
  | _, _ => s

/-! ### Cuts (R70, R168-R172) -/

/-- Free split-table entries of a partition (R170). -/
def State.freeEntries (s : State) (core part : Nat) : Nat :=
  64 - ((s.ctxs.filter fun c => c.core == core && c.part == part && c.state == .resident).flatMap fun c =>
    c.frags.filter fun f => f.entryParked.isNone).length

/-- The lowest free entry numbers of a partition, at most n (R170). -/
def State.freshEntries (s : State) (core part n : Nat) : List Nat :=
  let used := (s.ctxs.filter fun c => c.core == core && c.part == part && c.state == .resident).flatMap fun c =>
    (c.frags.filter fun f => f.entryParked.isNone).map fun f => f.entry
  ((List.range 64).filter fun i => !used.contains i).take n

/-- The lowest numbers that no fragment of the context bears. -/
def Ctx.freshIds (c : Ctx) (n : Nat) : List Nat :=
  ((List.range (c.frags.length + n)).filter fun i => !c.frags.any fun f => f.id == i).take n

/-- A fragment of a cut before its number is given: strips, mask and pc. -/
structure NewFrag where
  first : Nat
  last : Nat
  mask : Lanes
  pc : VAddr

/-- A child fragment: everything of its parent but its own items, pc, depth and latches (R170, R172, R185). -/
def childOf (p : Frag) (id entry : Nat) (x : NewFrag) (reconv : VAddr) (entryParked : Option Nat) (hold : Nat) : Frag :=
  { p with
    id := id, entry := entry, parent := some p.id, state := .running, first := x.first, last := x.last, depth := p.depth + 1,
    capacity := false, pc := x.pc, reconv := reconv, fmtCut := p.regs.fmt, mask := x.mask,
    regs := { p.regs with latches := noLatches }, cont := x.pc, hasChildren := false, passedSinceCut := []
    loads := p.loads.filter fun l => l.lanes &&& x.mask != 0
    entryParked := entryParked, hold := hold, wait := none, collector := none, asks := [], touched := [], filled := [] }

/-- The children of a cut: those that find a free entry, then the parked ones (R171). DESIGN CHOICE (log 145): a parked one that has no entry number
has 0 in the id field of its entry. -/
def State.children (s : State) (c : Ctx) (p : Frag) (xs : List NewFrag) (reconv : VAddr) (hold : Nat) : List Frag :=
  let entries := s.freshEntries c.core c.part xs.length
  (xs.zip (c.freshIds xs.length)).zipIdx.map fun x =>
    childOf p x.1.2 (entries.getD x.2 0) x.1.1 reconv (if x.2 < entries.length then none else some (s.nextId + x.2)) hold

/-- The cycle from which a fragment of a cut issues: 2 ticks and one for each strip of the context from `start` (R169). -/
def Ctx.cutEnds (c : Ctx) (start : Nat) : Nat := start + 2 + c.strips

/-- A fragment whose strips are in the pass: it is not parked by a capacity cut. -/
def Frag.inPass (f : Frag) : Bool := !(f.state == .parked && f.park.isNone)

/-- A register is MAT, or takes a MAT result from a load in flight. -/
def Frag.holdsMat (f : Frag) (r : Nat) : Bool :=
  SMap.getD f.regs.vtags r (.uni 0) == .mat || f.loads.any fun l => l.dst.any fun d => d.1 == r && d.2.1 == .mat

/-- The fragment runs, and does not wait for other items of its block. -/
def Frag.stands (f : Frag) : Bool :=
  f.state == .running &&
    match f.wait with
    | some w => !(match w.what with
      | .bar _ | .await | .wchild | .fullEmpty => true
      | _ => false)
    | none => true

/-- Leaves that hold register storage and tile slots. While a fragment that a capacity cut parked has not come to its join, one that has
arrived there or waits for other items is parked in its place, as R180 parks a waiting context. -/
def Ctx.holders (c : Ctx) : List Frag :=
  let cut := c.frags.any fun f => f.capacity && f.state != .arrived && f.state != .exited
  c.leaves.filter fun f => f.inPass && (!cut || f.stands)

/-- Strips of the pass of the fragments of one reservation, with their counts of MAT registers, ascending (R68). -/
def Ctx.countsOf (c : Ctx) (g : Option Nat) : List Nat :=
  (List.range c.strips).filterMap fun t =>
    let fs := c.holders.filter fun f => f.reserved == g && decide (f.first ≤ t) && decide (t ≤ f.last)
    if fs.isEmpty then none
    else some ((List.range 384).filter fun r => fs.any fun f => f.holdsMat r).length

/-- The reservations of a context: its own, and those of parked strips that have become resident beside others (R69, R70). -/
def Ctx.reservations (c : Ctx) : List (Option Nat) :=
  none :: ((c.holders.filterMap fun f => f.reserved).eraseDups).map some

/-- Strips of the context that are in the pass, the first one always. -/
def Ctx.passStrips (c : Ctx) : Nat :=
  (c.reservations.map fun g => if g.isNone then max 1 (c.countsOf g).length else (c.countsOf g).length).foldl (· + ·) 0

/-- Strip-registers that the strips beyond the first of each reservation take (R69). -/
def Ctx.extraRegs (c : Ctx) : Nat :=
  if c.strips ≤ 1 then 0 else (c.reservations.map fun g => ((c.countsOf g).drop 1).foldl (· + ·) 0).foldl (· + ·) 0

/-- Strip-registers of a partition that are reserved or taken, of its 384 (R1, R69). -/
def State.regsTaken (s : State) (core part : Nat) : Nat :=
  ((s.ctxs.filter fun c => c.core == core && c.part == part && c.state == .resident).map fun c =>
    (((s.launchOfCtx? c).map fun l => l.hdr.vregs).getD 0) * (if c.strips ≤ 1 then 1 else c.reservations.length) + c.extraRegs).foldl (· + ·) 0

/-- Tiles that a set of the header names. -/
def tileCount (t : BitVec 8) : Nat := (List.range 8).foldl (fun n i => n + (t.getLsbD i).toNat) 0

/-- Tile slots of a partition that are taken, of its 8 (R71): a strip-scope tile takes one for each strip of the pass, a block-scope tile
one for its block in the partition of the block's strip 0. -/
def State.tilesTaken (s : State) (core part : Nat) : Nat :=
  let strip := (s.ctxs.filter fun c => c.core == core && c.part == part && c.state == .resident).map fun c =>
    ((s.launchOfCtx? c).map fun l => tileCount l.hdr.stripTiles).getD 0 * (if c.strips ≤ 1 then 1 else c.passStrips)
  let blk := (s.blocks.filter fun b => b.core == core && b.part0 == part && !b.saved).map fun b =>
    ((s.launch? b.launch).map fun l => tileCount l.hdr.blockTiles).getD 0
  (strip ++ blk).foldl (· + ·) 0

/-- The fragment keeps its strips below t in the pass, and the others become a parked fragment at the same pc, recorded with the same
reconvergence address (R70); the cut takes its ticks and its entries as any other (R169, R171). Strips without an active item leave the
fragment. A fragment that leaves the pass has no latches any more (R185). DESIGN CHOICE (log 146): a fragment at depth 63 is cut too; its children
have depth 64, which the depth field writes as 0. -/
def State.cutAt (s : State) (r : FragRef) (t : Nat) : State :=
  match s.ctx? r.ctx, s.frag? r with
  | some c, some f =>
    let lead := Lanes.strips f.first (t - 1)
    let out (f : Frag) : Frag :=
      { f with state := .parked, capacity := true, wait := none, collector := none, reserved := none, regs := { f.regs with latches := noLatches } }
    if t ≤ f.first then s.updFrag r out
    else if f.mask &&& lead = 0 then s.updFrag r fun f => { f with first := t }
    else if f.mask &&& ~~~ lead = 0 then s.updFrag r fun f => { f with last := t - 1 }
    else
      let kids := s.children c f [⟨f.first, t - 1, f.mask &&& lead, f.pc⟩, ⟨t, f.last, f.mask &&& ~~~ lead, f.pc⟩] f.reconv (c.cutEnds s.cycle)
      let p : Frag := { f with hasChildren := true }
      let c := c.setFrag p
      { s with nextId := s.nextId + 2 }.setCtx { c with frags := c.frags ++ kids.zipIdx.map fun (x : Frag × Nat) => if x.2 = 0 then x.1 else out x.1 }
  | _, _ => s

/-- Registers of the fragment that take storage. -/
def Frag.mats (f : Frag) : Nat := ((List.range 384).filter fun r => f.holdsMat r).length

/-- Nothing else of the context runs. -/
def Env.alone (e : Env) : Bool := !e.c.leaves.any fun f => f.id != e.f.id && f.stands

/-- An instruction needs storage for strips beyond the first that is not free: it makes a register MAT and leaves the state `s`, or the
pass holds more tile slots than there are (R70, R71). A fragment of one strip that runs alone always goes on (R69). -/
def Env.overfull (e : Env) (s : State) : Bool :=
  decide (1 < e.c.strips) && !(e.alone && e.f.first == e.f.last) &&
    match s.ctx? e.c.id with
    | some c =>
      (c.leaves.any fun f => f.id == e.f.id) &&
      (((c.frags.any fun f => f.id == e.f.id && decide (e.f.mats < f.mats)) && decide (0 < c.extraRegs) &&
          decide (384 < s.regsTaken c.core c.part)) ||
      (decide (1 < e.c.passStrips) && decide (8 < e.s.tilesTaken c.core c.part)))
    | none => false

/-- What the pass of a context's partition holds fits (R69, R71). -/
def State.passFits (s : State) (ctx : Nat) : Bool :=
  match s.ctx? ctx with
  | some c => decide (s.regsTaken c.core c.part ≤ 384) && decide (s.tilesTaken c.core c.part ≤ 8)
  | none => true

/-- The cut leaves enough room for what the context's pass holds. -/
def State.roomAfterCut (s : State) (r : FragRef) (t : Nat) : Bool := (s.cutAt r t).passFits r.ctx

/-- Cuts of a fragment, longest leading run first. -/
def Frag.runs (f : Frag) : List Nat := (List.range (f.last - f.first + 1)).reverse.map fun i => f.first + i

/-- A fragment starts a pass: its longest leading run of strips that fits, its first strip where `always` is set (R69, R70, R71). -/
def State.startPass (s : State) (r : FragRef) (always : Bool) : State :=
  match s.frag? r with
  | none => s
  | some f =>
    if s.passFits r.ctx || (always && f.first == f.last) then s
    else s.cutAt r ((f.runs.find? fun t => s.roomAfterCut r t).getD (if always then f.first + 1 else f.first))

/-- A context starts a pass: the first of its fragments always runs its first strip. -/
def State.startCtx (s : State) (ctx : Nat) : State :=
  match s.ctx? ctx with
  | none => s
  | some c =>
    if c.strips ≤ 1 then s
    else
      let fs := sortOn (fun f => f.first) (c.leaves.filter fun f => f.state == .running)
      fs.zipIdx.foldl (fun s x => s.startPass ⟨ctx, x.1.id⟩ (x.2 == 0)) s

/-- The capacity cut before the instruction: the longest leading run of strips that fits goes on, the others are parked
(R70). `s'` is the state that the instruction would leave. -/
def Env.capacityCut (e : Env) (s' : State) : State :=
  e.s.cutAt e.r ((e.f.runs.find? fun t => s'.roomAfterCut e.r t).getD (if e.alone then e.f.first + 1 else e.f.first))

/-! ### The frame -/

/-- The fragment waits, and for this. -/
def Frag.waitsFor (f : Frag) (x : WaitFor) : Bool := (f.wait.map fun w => w.what) == some x

/-- A wait with which an instruction was not ready, so that it has not issued: it is issued again (R360). -/
def WaitFor.unready : WaitFor → Bool
  | .retry | .fullEmpty | .queueRoom => true
  | _ => false

/-- Rows that may find in their effect that they are not ready; every other row is ready once its registers are. -/
def maybeUnready : Instr → Bool
  | .ldw _ | .stw _ | .sts _ | .atom _ | .cas _ | .ald _ | .ast _ | .fwr _ _ _ | .frd _ _ _ | .tickS _ _ | .cpub _ _ | .launch _ _
  | .copy _ | .gather _ | .scatter _ | .xatom _ | .dred _ | .stash _ | .coll _ | .runmap _ _ | .rwb _ | .rfill _ | .opa _ => true
  | _ => false

/-- The fragment waits with an instruction that was not ready. -/
def State.unready (s : State) (r : FragRef) : Bool :=
  (((s.frag? r).bind fun f => f.wait).map fun w => w.what.unready).getD false

/-- The fragment as if it had no join to come to. -/
def Env.unjoined (e : Env) : Env :=
  let f := { e.f with parent := none }
  let c := e.c.setFrag f
  { e with s := e.s.setCtx c, c := c, f := f }

/-- What the instruction leaves for the fragment that executes it: where that arrives and fuses in the same step, before it arrives. -/
def Env.need (e : Env) (body : Env → State) (s' : State) : State :=
  if e.c.strips ≤ 1 || (s'.frag? e.r).isSome then s' else body e.unjoined

/-! ### Operand collectors (R184) -/

/-- Strips that a fragment covers. -/
def Frag.strips (f : Frag) : Nat := f.last + 1 - f.first

/-- Rows whose registers do not pass through an operand collector: they read none, or move ranges at a rate of their own (R331). -/
def gathersNone (i : Instr) : Bool := namesOnly i || i matches .push _ _ | .pop _ _ | .regroup _ _

/-- The MAT registers that an instruction gathers. -/
def Env.gathers (e : Env) (uses : List VUse) : List Nat :=
  if gathersNone e.i then []
  else
    ((uses.filter fun u => !u.wr).flatMap fun u => (List.range u.count).filterMap fun j =>
      if SMap.getD e.f.regs.vtags (u.reg + j) (.uni 0) == .mat then some (u.reg + j) else none).eraseDups

/-- The bank of a register of a context: its number with that of the context's slot (R184). -/
def Ctx.bank (c : Ctx) (r : Nat) : Nat := (r ^^^ c.slot) % 8

/-- Ticks beyond one for each strip that the gathering takes: one strip-register per bank per tick. -/
def Env.conflict (e : Env) (rs : List Nat) : Nat :=
  ((List.range 8).foldl (fun m b => max m (rs.filter fun r => e.c.bank r == b).length) 1 - 1) * e.f.strips

def Wait.gathering (w : Wait) : Bool :=
  match w.what with
  | .collector _ => true
  | _ => false

/-- Fragments of a partition whose operands are being gathered. -/
def State.gathering (s : State) (core part : Nat) : Nat :=
  ((s.ctxs.filter fun c => c.core == core && c.part == part).flatMap fun c =>
    c.frags.filter fun f => (f.wait.map Wait.gathering).getD false).length

/-- An instruction whose sources lie in one bank is held by an operand collector until all have arrived; with all 8 taken it waits for one. None
where it is released in this tick (R184). DEDUCED (log 113): `opa`, whose operands the array
reads later, `push`, `pop` and `regroup` gather none. -/
def Env.collect (e : Env) (uses : List VUse) : Option State :=
  let n := e.conflict (e.gathers uses)
  match e.f.collector with
  | some _ => none
  | none =>
    if n = 0 then none
    else if 8 ≤ e.s.gathering e.c.core e.c.part then some (e.wait e.s 2 (.collector (e.s.cycle + 1)))
    else
      let s := e.wait e.s 2 (.collector (e.s.cycle + n))
      some (s.updFrag e.r fun f => { f with collector := some (e.s.cycle + n) })

/-- Fragments whose operands have arrived, or that waited for a collector, issue again. -/
def State.release (s : State) : State :=
  let due (w : Wait) : Bool := match w.what with
    | .collector t => decide (t ≤ s.cycle)
    | _ => false
  if s.ctxs.any fun c => c.frags.any fun f => (f.wait.map due).getD false then
    { s with ctxs := s.ctxs.map fun c =>
        { c with frags := c.frags.map fun f => if (f.wait.map due).getD false then { f with wait := none } else f } }
  else s

/-! ### Damaged operands and other traps (R382) -/

/-- Rows that meet a damaged operand with their retirements: the accesses, commands, and others whose faults retire some items first. -/
def faultsFirst : Instr → Bool
  | .opa _ | .rmap _ _ _ | .runmap _ _ | .rwb _ | .rinv _ | .rfill _ | .seal _ | .qfire _ _ _ | .qstat _ _ _ | .ldw _ | .stw _ | .atom _ | .cas _ | .launch _ _ | .copy _ | .coll _ | .stash _ | .gather _ | .scatter _ | .xatom _ | .dred _ | .qpush _ => true
  | _ => false

/-- The effect has raised a trap or a retirement that leaves none of the items of m. -/
def Env.trapped (e : Env) (m : Lanes) (s : State) : Bool :=
  let gone := ((s.block? e.b.id).map fun b => decide (e.b.faultRetired < b.faultRetired)).getD false &&
    ((s.frag? e.r).map fun f => f.mask &&& m == 0).getD true
  gone || (e.inHandler && ((s.frag? e.r).map fun f => f.state == .parked).getD false)

/-- Illegal-instruction and privileged traps and retirements come before the machine check of the damaged operand (R382). -/
def Env.checked (e : Env) (x : Lanes × Nat × Nat) (body : Env → State) : State :=
  let s := body { e with hurt := some x }
  if faultsFirst e.i || e.trapped x.1 s then s else e.s.machineCheck e.r x.1 x.2.1 x.2.2

/-- The items that no damaged word stops. -/
def Env.sound (e : Env) (p : Lanes) : Lanes :=
  match e.hurt with
  | some x => p &&& ~~~ x.1
  | none => p

/-- Once the retirements are over, the machine check of the damaged operands, where there are any (R382). -/
def Env.orCheck (e : Env) (s : State) (k : State) : State :=
  match e.hurt with
  | some x =>
    let m := ((s.frag? e.r).map fun f => x.1 &&& f.mask).getD 0
    if m = 0 then k else s.machineCheck e.r m x.2.1 x.2.2
  | none => k

/-- The vector registers of the context's mapped range that its loop reads (R188). -/
def Env.noteReads (e : Env) (uses : List VUse) : Env :=
  if e.c.shmap.isNone || e.f.spin.regs.isNone then e
  else
    let rs := (uses.filter fun u => !u.wr).flatMap fun u => (List.range u.count).map fun j => u.reg + j
    let f := { e.f with spin := { e.f.spin with vreads := (e.f.spin.vreads ++ rs).eraseDups } }
    let c := e.c.setFrag f
    { e with s := e.s.setCtx c, c := c, f := f }

/-- The frame of every instruction: a fragment to execute it, the issue checks (R9, R183), readiness and its operand collector (R184, R360),
damaged operands (R98, R382), its effect, and the capacity cut that may come before it (R70). An instruction that was not ready has not
issued. `reads` says which lanes an item consumes. DEDUCED (log 148): a multi-tick instruction's result is written at its first slot tick; R427's last
one is a matter of timing that no instruction of the fragment can tell. -/
def issueR (i : Instr) (s : State) (uses : List VUse) (reads : LaneReads) (k : Env → Cost) (body : Env → State) : Out :=
  match s.env? i with
  | none => .fault .noFragment
  | some e =>
    if !uses.all fun u => u.ok e.l.hdr.vregs then .next e.illegal
    else if e.blocked uses then .next (e.wait e.s 1 .retry)
    else
      match e.collect uses with
      | some s' => .next s'
      | none =>
        let e := e.noteReads uses
        let m := e.mark (k e)
        match e.damaged uses reads with
        | some x =>
          let s' := m.checked x body
          .next (if maybeUnready i && s'.unready e.r then e.checked x body else e.handlerWrote uses s')
        | none =>
          let s' := body m
          if maybeUnready i && s'.unready e.r then .next (body e)
          else
            let need := m.need body s'
            if e.overfull need then .next (e.capacityCut need) else .next (e.landed uses (e.heal uses s'))

def issueK (i : Instr) (s : State) (uses : List VUse) (k : Env → Cost) (body : Env → State) : Out :=
  issueR i s uses ownLane k body

def issue (i : Instr) (s : State) (uses : List VUse) (k : Cost) (body : Env → State) : Out :=
  issueK i s uses (fun _ => k) body

/-- An instruction that does nothing where no item passes its guard: those that execute once, and those whose effect is of their passing items
alone (R162, R238). -/
def Env.guarded (e : Env) (g : Guard) (body : Lanes → State) : State :=
  let p := e.pass g
  if p = 0 then e.done e.s else body p

/-- An instruction with a register result: under a UNI-false guard it does nothing; under another it takes its tag and shifts the latches even
where no item passes (R162, R185). -/
def Env.unlessFalse (e : Env) (g : Guard) (body : Lanes → State) : State :=
  match e.view.guard g with
  | .uni false => e.done e.s
  | _ => body (e.pass g)

/-- An event row: its condition and its effect. -/
@[always_inline, inline] def event (ok : Bool) (s : State) : Out := if ok then .next s else .fault .notEnabled

end Sys2Proof.Machine
end

