-- ==== Sys2Proof/Machine/Alu.lean ====
section
/-! DEFINITION. The shared form of the instructions that compute on registers and predicates alone (R268-R270, R291-R293): what
they read, their result with its tag, and their time. The launch engine folds the same form (R164). -/

namespace Sys2Proof.Machine

open Sys2Proof

/-- A computing instruction. `dst` is the destination with its width and whether a 32-bit result is sign-extended into a k
register (R217); `srcs` are its sources; `pdst` is a predicate destination. The results are functions of the view, the
passing items and whether the result keeps a tag (R162). `reads` says which lanes an item consumes, and `float` that the row is timed by R293. -/
structure Alu where
  o : LOpt
  uses : List VUse
  dst : Option (Dst × Bool × Bool)
  srcs : View → List Val
  val : View → Lanes → Bool → Val
  pdst : Option (Fin 16)
  pval : View → Lanes → Bool → PTag
  ticks : Nat
  reads : LaneReads := ownLane
  float : Bool := false

/-- The selected rounding mode (R198): the leading word's, or `fmt`'s default. DESIGN CHOICE (log 114): a reserved default code, which only a
debugger can have written (R395), selects `rne`. -/
def fmtRm (f : W32) : Rm :=
  match bitsN f.toNat 15 3 with
  | 1 => .rz
  | 2 => .ru
  | 3 => .rd
  | 4 => .rna
  | _ => .rne

def View.rm (V : View) (o : LOpt) : Rm :=
  match o.pfx with
  | some p => p.rm.getD (fmtRm V.regs.fmt)
  | none => fmtRm V.regs.fmt

/-- A predicate result at the passing items: merged or zeroed by the mask, with its tag where R159 keeps it (R227, R268). -/
def View.putPred (V : View) (R : RegFile) (o : LOpt) (pass : Lanes) (n : Fin 16) (p : PTag) : RegFile :=
  let m := V.mask o.pfx
  let old := V.plane (V.regs.pred n)
  let new := V.plane p
  match V.keeps o.g o.pfx, p with
  | true, .uni b => R.setPred n (.uni b)
  | true, .thr t b => R.setPred n (.thr t b)
  | _, _ => R.setPred n (.mat ((new &&& pass &&& m.1) ||| (old &&& ~~~ pass) |||
      (if m.2 then 0 else old &&& pass &&& ~~~ m.1)))

/-- Registers after the instruction. -/
def Alu.file (a : Alu) (V : View) : RegFile :=
  let pass := V.pass a.o.g
  let keep := V.keeps a.o.g a.o.pfx
  let R := match a.dst with
    | some d => V.write V.file a.o pass d.1 d.2.1 d.2.2 (a.val V pass keep)
    | none => V.file
  match a.pdst with
  | some n => V.putPred R a.o pass n (a.pval V pass keep)
  | none => R

def Val.isMat : Val → Bool
  | .mat _ => true
  | _ => false
def PTag.isMat : PTag → Bool
  | .mat _ => true
  | _ => false

/-- The time of R270 and R293: once per strip where the result is MAT. Under R270 a result that is written nowhere counts once, under R293 only
one that goes to a k register alone; nothing is done under a UNI-false guard. -/
def Alu.cost (a : Alu) (e : Env) : Cost :=
  let V := e.view
  let pass := V.pass a.o.g
  let keep := V.keeps a.o.g a.o.pfx
  let off := match V.guard a.o.g with
    | .uni b => !b
    | _ => false
  let reg := match a.dst with
    | some (.v _, _) => (a.float || !a.o.nw) && (!keep || (a.val V pass keep).isMat)
    | some (.zero, _) => a.float && (!keep || (a.val V pass keep).isMat)
    | _ => false
  let pred := match a.pdst with
    | some n => (a.float || n != 0) && (!keep || (a.pval V pass keep).isMat)
    | none => false
  costL (if !off && (reg || pred) then a.ticks * e.f.strips else a.ticks)

/-- The step of a computing instruction. -/
def Alu.step (i : Instr) (a : Alu) (s : State) : Out :=
  issueR i s a.uses a.reads a.cost fun e => e.unlessFalse a.o.g fun _ => e.done (e.put e.s (a.file e.view))

/-! ### Builders -/

def noPval : View → Lanes → Bool → PTag := fun _ _ _ => .uni false
def noVal : View → Lanes → Bool → Val := fun _ _ _ => .uni 0

/-- Sources to a register result by one operation on the values of an item. -/
def aluOf (o : LOpt) (uses : List VUse) (d : Dst) (wide sext : Bool) (srcs : View → List Val) (rule : TagRule)
    (affTy : Bool) (f : View → List W64 → W64) (ticks : Nat) : Alu where
  o := o
  uses := useDst wide d ++ uses
  dst := some (d, wide, sext)
  srcs := srcs
  val := fun V pass keep => lift V.n pass keep rule affTy wide (f V) (srcs V)
  pdst := none
  pval := noPval
  ticks := ticks

/-- The first three of a list of values. -/
def arg0 (l : List W64) : W64 := l.getD 0 0
def arg1 (l : List W64) : W64 := l.getD 1 0
def arg2 (l : List W64) : W64 := l.getD 2 0
def arg3 (l : List W64) : W64 := l.getD 3 0

/-- A result that depends on predicates besides values: UNI where everything is. -/
def liftP (n : Nat) (pass : Lanes) (uni : Bool) (g : Nat → W64) : Val :=
  if uni then .uni (g 0) else .mat ((List.range n).map fun i => if pass.getLsbD i then g i else 0)

end Sys2Proof.Machine
end

