-- ==== Sys2Proof/Machine/CrossLane.lean ====
section
/-! DEFINITION. Meanings of the cross-lane instructions (opcodes 0x90 to 0x9A, R301-R311). -/

namespace Sys2Proof.Machine

open Sys2Proof

/-! ### Sources and results by strip -/

/-- A register of an ib source. -/
def bsrcHolds (wide : Bool) (x : BSrc) (r : Nat) : Bool :=
  match x with
  | .reg y => srcHolds wide y r
  | .imm _ => false

/-- What an active lane supplies; one that is not active in the executing fragment supplies zero (R301). -/
def View.laneAt (V : View) (x : Val) (i : Nat) : W64 := if V.own.getLsbD i then x.at i else 0

/-- Ticks of R293. -/
def laneTicks (wide : Bool) : Nat := if wide then 4 else 2

/-- A per-strip result written at the passing items: `f` gives the value of lane j of strip t. -/
def laneVal (n : Nat) (pass : Lanes) (f : Nat → Nat → W64) : Val :=
  .mat ((List.range n).map fun i => if pass.getLsbD i then f (i / 64) (i % 64) else 0)

/-- A cross-lane instruction with a register result; `reads` says which lanes an item consumes (R98). -/
def laneAlu (o : LOpt) (uses : List VUse) (d : Dst) (wide sext : Bool) (reads : LaneReads) (val : View → Lanes → Bool → Val) (ticks : Nat) : Alu where
  o := o
  uses := useDst wide d ++ uses
  dst := some (d, wide, sext)
  srcs := fun _ => []
  val := val
  pdst := none
  pval := noPval
  ticks := ticks
  reads := reads
  float := true

/-- The lanes that a strip's passing lanes supply to each of them. -/
def passLanes : LaneReads := fun _ p _ i => (List.range 64).filterMap fun j => if p.getLsbD (64 * (i / 64) + j) then some (64 * (i / 64) + j) else none

/-! ### Permutations (R303, R304) -/

/-- The UNI result of `shfl` and `bcast` (R159). -/
def View.uniLane (V : View) (keep : Bool) (a : Val) (s : Nat) : Option Val :=
  match keep, a with
  | true, .uni v => if V.strips = 1 then some (.uni (if V.own.getLsbD s then v else 0)) else none
  | _, _ => none

def laneNo (x : W64) : Nat := x.toNat % 64

def aluShfl (x : PermOp) : Alu :=
  laneAlu x.o (useSrc x.ty.wide x.a ++ useB x.ty.wide x.b) (.v x.d) x.ty.wide false
    (fun V _ r i =>
      let j := 64 * (i / 64) + laneNo ((V.bsrc x.ty x.b).at i)
      (if srcHolds x.ty.wide x.a r && V.own.getLsbD j then [j] else []) ++ if bsrcHolds x.ty.wide x.b r then [i] else [])
    (fun V pass keep =>
      let a := V.src x.ty.wide x.a
      let b := V.bsrc x.ty x.b
      let m := laneVal V.n pass fun t j => V.laneAt a (64 * t + laneNo (b.at (64 * t + j)))
      match b with
      | .uni s => (V.uniLane keep a (laneNo s)).getD m
      | _ => m) (laneTicks x.ty.wide)
def execShfl (x : PermOp) (s : State) : Out := (aluShfl x).step (.shfl x) s

/-- The lowest passing lane of strip t. -/
def firstLane (pass : Lanes) (t : Nat) : Option Nat :=
  (List.range 64).find? fun j => pass.getLsbD (64 * t + j)

def aluBcast (x : PermOp) : Alu :=
  laneAlu x.o (useSrc x.ty.wide x.a ++ useB x.ty.wide x.b) (.v x.d) x.ty.wide false
    (fun V p r i =>
      let f := 64 * (i / 64) + (firstLane p (i / 64)).getD 0
      let j := 64 * (i / 64) + laneNo ((V.bsrc x.ty x.b).at f)
      (if srcHolds x.ty.wide x.a r && V.own.getLsbD j then [j] else []) ++ if bsrcHolds x.ty.wide x.b r then [f] else [])
    (fun V pass keep =>
      let a := V.src x.ty.wide x.a
      let b := V.bsrc x.ty x.b
      let lane (t : Nat) : Nat := laneNo (b.at (64 * t + (firstLane pass t).getD 0))
      let m := laneVal V.n pass fun t _ => V.laneAt a (64 * t + lane t)
      (V.uniLane keep a (lane 0)).getD m) (laneTicks x.ty.wide)
def execBcast (x : PermOp) (s : State) : Out := (aluBcast x).step (.bcast x) s

/-- The distance of a slide: at most 64; a negative immediate counts as 64. -/
def View.distance (V : View) (x : KImm) : Nat :=
  match x with
  | .k n => min (V.regs.k[n]).toNat 64
  | .imm i => min ((i.signExtend 64).toNat) 64

def slideAlu (x : SlideOp) (f : Nat → Nat → Option Nat) : Alu :=
  laneAlu x.o (useSrc x.ty.wide x.a ++ useSrc x.ty.wide x.c) (.v x.d) x.ty.wide false
    (fun V _ r i => match f (V.distance x.b) (i % 64) with
      | some j => if srcHolds x.ty.wide x.a r && V.own.getLsbD (64 * (i / 64) + j) then [64 * (i / 64) + j] else []
      | none => if srcHolds x.ty.wide x.c r then [i] else [])
    (fun V pass _ =>
      let a := V.src x.ty.wide x.a
      let c := V.src x.ty.wide x.c
      let n := V.distance x.b
      laneVal V.n pass fun t j =>
        match f n j with
        | some i => V.laneAt a (64 * t + i)
        | none => c.at (64 * t + j)) (laneTicks x.ty.wide)

def aluSlup (x : SlideOp) : Alu := slideAlu x fun n j => if n ≤ j then some (j - n) else none
def execSlup (x : SlideOp) (s : State) : Out := (aluSlup x).step (.slup x) s
def aluSldn (x : SlideOp) : Alu := slideAlu x fun n j => if j + n ≤ 63 then some (j + n) else none
def execSldn (x : SlideOp) (s : State) : Out := (aluSldn x).step (.sldn x) s

/-! ### Compaction and expansion (R305) -/

/-- The passing lanes of strip t at which the predicate holds, ascending. -/
def View.selected (V : View) (pass : Lanes) (q : Fin 16) (t : Nat) : List Nat :=
  let m := pass &&& V.plane (V.regs.pred q)
  (List.range 64).filter fun j => m.getLsbD (64 * t + j)

def compactAlu (x : CompactOp) (f : List Nat → Nat → Option Nat) : Alu :=
  laneAlu x.o (useSrc x.ty.wide x.a) (.v x.d) x.ty.wide false
    (fun V p _ i => ((f (V.selected p x.q (i / 64)) (i % 64)).map fun j => 64 * (i / 64) + j).toList)
    (fun V pass _ =>
      let a := V.src x.ty.wide x.a
      laneVal V.n pass fun t j =>
        match f (V.selected pass x.q t) j with
        | some i => V.laneAt a (64 * t + i)
        | none => 0) (laneTicks x.ty.wide)

def aluCmpr (x : CompactOp) : Alu := compactAlu x fun l j => l[j]?
def execCmpr (x : CompactOp) (s : State) : Out := (aluCmpr x).step (.cmpr x) s
def aluExpd (x : CompactOp) : Alu := compactAlu x fun l j => l.findIdx? fun k => k == j
def execExpd (x : CompactOp) (s : State) : Out := (aluExpd x).step (.expd x) s

/-! ### Reduction and scan (R306-R308) -/

/-- One combine (R306). -/
def combine (op : RedOp) (ty : NumTy) (rm : Rm) (a b : W64) : W64 :=
  match ty with
  | .int t =>
    match op with
    | .add => int2 t (addE t) a b
    | .min => int2 t (minE t) a b
    | .max => int2 t (maxE t) a b
    | .and => a &&& b
    | .or => a ||| b
    | .xor => a ^^^ b
  | .fp t =>
    match op with
    | .min => fl2 t (minF (FTy.ff t)) a b
    | .max => fl2 t (maxF (FTy.ff t)) a b
    | _ => fl2 t (addF (FTy.ff t) rm) a b

/-- A floating-point result that is a NaN is the canonical one, where no combine was made too (R191, R306). -/
def canonical (ty : NumTy) (x : W64) : W64 :=
  match ty with
  | .int _ => x
  | .fp t => fl1 t (fun e => if isNaNBits (FTy.ff t) e then (FTy.ff t).nan else e) x

/-- A combine of slots that may be empty. -/
def combineO (f : W64 → W64 → W64) (x y : Option W64) : Option W64 :=
  match x, y with
  | some a, some b => some (f a b)
  | some a, none => some a
  | none, y => y

/-- The log-step pairing: neighbours, then neighbours of those, and so on. -/
def pairUp (f : W64 → W64 → W64) : List (Option W64) → List (Option W64)
  | a :: b :: r => combineO f a b :: pairUp f r
  | l => l

/-- The reduction of the 64 slots of a strip (R307). -/
def reduce (f : W64 → W64 → W64) (xs : List (Option W64)) : Option W64 :=
  ((List.range 6).foldl (fun l _ => pairUp f l) xs).headD none

/-- The slots of strip t: the passing lanes' values. -/
def slotsOf (a : Val) (pass : Lanes) (t : Nat) : List (Option W64) :=
  (List.range 64).map fun j => if pass.getLsbD (64 * t + j) then some (a.at (64 * t + j)) else none

def aluRed (x : RedInstr) : Alu :=
  let w := x.ty.wide
  laneAlu x.o (useSrc w x.a) x.d w (x.ty == .int .i32) passLanes
    (fun V pass _ =>
      let a := V.src w x.a
      let f := combine x.op x.ty (V.rm x.o)
      let out := (List.range V.strips).map fun t => canonical x.ty ((reduce f (slotsOf a pass t)).getD 0)
      laneVal V.n pass fun t _ => out.getD t 0) (if w then 12 else 6)
def execRed (x : RedInstr) (s : State) : Out := (aluRed x).step (.red x) s

/-- One step of the scan: each slot with its segment flag. -/
def scanStep (f : W64 → W64 → W64) (step : Nat) (xs : List (Option W64 × Bool)) : List (Option W64 × Bool) :=
  (List.range 64).map fun j =>
    let x := xs.getD j (none, false)
    if j < step then x
    else
      let y := xs.getD (j - step) (none, false)
      (if x.2 then x.1 else combineO f y.1 x.1, x.2 || y.2)

/-- The inclusive scan of a strip (R308). -/
def scanStrip (f : W64 → W64 → W64) (xs : List (Option W64 × Bool)) : List (Option W64) :=
  ([1, 2, 4, 8, 16, 32].foldl (fun l k => scanStep f k l) xs).map fun x => x.1

def aluScan (x : ScanInstr) : Alu :=
  let w := x.ty.wide
  laneAlu x.o (useSrc w x.a) (.v x.d) w (x.ty == .int .i32)
    (fun V p r i =>
      let below := (passLanes V p r i).filter fun j => decide (j ≤ i)
      let heads := match x.seg with
        | some q => below.filter fun j => (V.plane (V.regs.pred q)).getLsbD j
        | none => []
      below.filter fun j => decide (heads.getLastD 0 ≤ j))
    (fun V pass _ =>
      let a := V.src w x.a
      let f := combine x.op x.ty (V.rm x.o)
      let seg : Lanes := match x.seg with
        | some q => V.plane (V.regs.pred q) &&& pass
        | none => 0
      let out := (List.range V.strips).map fun t =>
        scanStrip f ((slotsOf a pass t).zipIdx.map fun p => (p.1, seg.getLsbD (64 * t + p.2)))
      laneVal V.n pass fun t j => canonical x.ty (((out.getD t []).getD j none).getD 0)) (if w then 12 else 6)
def execScan (x : ScanInstr) (s : State) : Out := (aluScan x).step (.scan x) s

/-! ### Ballot and vote (R309, R310) -/

/-- The mask of strip t. -/
def View.ballot (V : View) (pass : Lanes) (p : Fin 16) (t : Nat) : W64 :=
  BitVec.ofNat 64 (Lanes.strip (pass &&& V.plane (V.regs.pred p)) t)

/-- `ballot` takes 2 ticks (R293, R428). -/
def aluBallot (x : BallotOp) : Alu :=
  let d : Dst := match x.d with
    | .v n => .v n
    | .k n => .k n
  laneAlu x.o [] d true false ownLane (fun V pass _ => laneVal V.n pass fun t _ => V.ballot pass x.pa t) 2
def execBallot (x : BallotOp) (s : State) : Out := (aluBallot x).step (.ballot x) s

def voteOf (m : VoteMode) (pass hits : Nat) : Bool :=
  match m with
  | .all => hits == pass
  | .any => hits != 0
  | .eq => hits == pass || hits == 0

def aluVote (x : VoteOp) : Alu where
  o := ⟨x.g, false, x.pfx⟩
  uses := []
  dst := none
  srcs := fun _ => []
  val := noVal
  pdst := some x.pd
  pval := fun V pass _ =>
    let hit := pass &&& V.plane (V.regs.pred x.pa)
    .mat (lanesOf V.n fun i => pass.getLsbD i && voteOf x.mode (Lanes.strip pass (i / 64)) (Lanes.strip hit (i / 64)))
  ticks := 2
  float := true
def execVote (x : VoteOp) (s : State) : Out := (aluVote x).step (.vote x) s

/-! ### topk (R311) -/

/-- The rank of a value in the total order: greater is ranked higher. -/
def topKey (t : TopkTy) (x : W64) : Int :=
  match t with
  | .i32 => sgnN 32 x.toNat
  | .n32 => bitsN x.toNat 0 32
  | .f32 => if isNaNBits fp32 x.toNat then -2 ^ 33 else keyF fp32 x.toNat

/-- The passing lanes of strip t in descending order, equal values by ascending lane. -/
def rankLanes (ty : TopkTy) (a : Val) (pass : Lanes) (t : Nat) : List Nat :=
  let key (j : Nat) : Nat := (2 ^ 34 - topKey ty (a.at (64 * t + j))).toNat
  sortOn key ((List.range 64).filter fun j => pass.getLsbD (64 * t + j))

/-- `topk`: two registers; b0 takes the value written to the first. -/
def execTopk (x : TopkOp) (s : State) : Out :=
  issueR (.topk x) s (useD false x.d :: useD false x.vi :: useSrc false x.a) passLanes (fun e => costL (21 * e.f.strips)) fun e =>
    e.unlessFalse x.o.g fun p =>
      let V := e.view
      let a := V.src false x.a
      let ranked := (List.range V.strips).map fun t => rankLanes x.ty a p t
      let hit (t j : Nat) : Option Nat := if j ≤ x.km1.val then (ranked.getD t [])[j]? else none
      let vd := laneVal V.n p fun t j => match hit t j with
        | some i => a.at (64 * t + i)
        | none => 0
      let vi := laneVal V.n p fun t j => match hit t j with
        | some i => BitVec.ofNat 64 i
        | none => 0xFFFFFFFF
      let yi := V.masked x.o p (V.v32 x.vi.val) vi
      let R := V.write V.file x.o p (.v x.d) false false vd
      let R := if x.o.nw then R else V.setVec R false x.vi.val yi
      e.done (e.put e.s R)

end Sys2Proof.Machine
end

