-- ==== Sys2Proof/Machine/Translate.lean ====
section
/-! DEFINITION. Address translation: the table walk (R45-R49), the TLB and the walk cache (R50, R51), permissions (R59), and
the routing of translation faults (R61, R62). -/

namespace Sys2Proof.Machine

open Sys2Proof

/-! ### What a physical address may be (R30, R31) -/

/-- Bytes of tier 1 that are reachable: the installed capacity, or 256 MiB during Thaw (R30, R420). -/
def State.tier1Limit (s : State) : Nat :=
  if s.mgmt.thaw then min Config.thawBytes s.mgmt.tier1Cap else s.mgmt.tier1Cap

/-- Where the tier-2 space that the decoders cover from byte a on without a gap ends. -/
def coverEnd (l : List Decoder) : Nat → Nat → Nat
  | 0, a => a
  | n + 1, a =>
    match l.find? fun d => decoderOk d && decide (d.base ≤ a) && decide (a < d.base + d.size) with
    | some d => coverEnd l n (d.base + d.size)
    | none => a

/-- The capacity that the eight tier-2 decoders cover (R30, R32): tier-2 space up to the first byte that none of them covers. Log entry 7. -/
def State.tier2Cap (s : State) : Nat := coverEnd (s.mgmt.decoders.take 8) 8 0

/-- The limit of the leaf's tier for a physical address (R30, R31, R420). -/
def State.tierOk (s : State) (tier phys : Nat) : Bool :=
  match tier with
  | 0 => decide (phys < s.tier1Limit)
  | 1 => !s.mgmt.thaw && decide (phys < s.tier2Cap) && decide (phys < 2 ^ 44)
  | 2 => decide (phys / 2 ^ 42 < s.ual.podSize)
  | _ =>
    match s.mgmt.hostRange with
    | some (b, n) => decide (b ≤ phys) && decide (phys < b + n)
    | none => false

/-- The frame of a page under a leaf: page i of the run's block maps to the aligned frame plus i (R49). -/
def leafFrame (leaf : W64) (vpn : Nat) : Nat :=
  let n := 2 ^ leafRun leaf
  leafPfn leaf / n * n + vpn % n

/-- Lines 5 to 7 of R48. -/
def State.leafOk (s : State) (tenant : Nat) (leaf : W64) (vpn : Nat) : Bool :=
  let n := 2 ^ leafRun leaf
  let first := leafPfn leaf / n * n * 2 ^ 14
  leafTenant leaf == tenant && vpn % n == leafPfn leaf % n &&
  s.tierOk (leafTier leaf) first && s.tierOk (leafTier leaf) (first + n * 2 ^ 14 - 1)

/-! ### The walk -/

/-- Lowest address bit of a level's index. -/
def levelShift (level : Nat) : Nat := 47 - 11 * level

/-- The entry of a level that a die's walk cache holds. -/
def Die.cached? (d : Die) (tcid tenant level : Nat) (va : W64) : Option WcEnt :=
  let key := va.toNat / 2 ^ levelShift level
  d.walkCache.find? fun w => w.tcid == tcid && w.tenant == tenant && w.level == level && w.index == key

/-- The address of an entry of a table. -/
def entryAt (level : Nat) (va : W64) (base : Nat) : Nat := base + 8 * bitsN va.toNat (levelShift level) 11

/-- An entry of a table: from the die's walk cache if it holds it, else from memory. -/
def State.tableEntry (s : State) (die tcid tenant level : Nat) (va : W64) (base : Nat) : W64 :=
  match (s.die die).cached? tcid tenant level va with
  | some w => w.entry
  | none => s.tier1.readW64 (entryAt level va base)

/-- What a walk acquires with an entry of memory (R52): from the heads that the entry's write bears, and from the release fences that know the
write, which make it visible. -/
def State.memView (s : State) (die a : Nat) : Horizon :=
  match s.past.find? fun w => w.meets .tier1 a 8 with
  | none => Horizon.none
  | some w => joinHeads Horizon.none (s.syncs .dev (.mapUnit die) (s.chain .tier1 a 8 ++ s.relFences.filter fun h => h.view.knows w))

/-- The same of an entry of the walk cache. -/
def State.entryView (s : State) (die tcid tenant level : Nat) (va : W64) (base : Nat) : Horizon :=
  match (s.die die).cached? tcid tenant level va with
  | some w => w.view
  | none => s.memView die (entryAt level va base)

/-- The cache keeps a valid entry; it holds 16,384 of them (R50, R51). -/
def State.cacheEntry (s : State) (die tcid tenant level : Nat) (va : W64) (e : W64) (v : Horizon) : State :=
  let key := va.toNat / 2 ^ levelShift level
  s.updDie die fun d =>
    let rest := d.walkCache.filter fun w => !(w.tcid == tcid && w.tenant == tenant && w.level == level && w.index == key)
    { d with walkCache := List.take 16384 (⟨tcid, tenant, level, key, e, v⟩ :: rest) }

/-- The walk from a level's table down, in the order of R48, with what it has acquired so far (R52). DESIGN CHOICE (log 137): all its entries are
read at one moment, its completion; R52 leaves old or new open for each entry by itself. -/
def State.walkFrom (s : State) (die tcid tenant : Nat) (va : W64) (v : Horizon) : Nat → Nat → State × Except TFault W64
  | 0, base =>
    let e := s.tableEntry die tcid tenant 3 va base
    if !leafValid e then (s, .error (.notPresent (leafFp e) 3 e))
    else if leafReserved e || !leafKind e then (s, .error .protection)
    else if !s.leafOk tenant e (va.toNat / 2 ^ 14) then (s, .error .protection)
    else (s.cacheEntry die tcid tenant 3 va e (v.join (s.entryView die tcid tenant 3 va base)), .ok e)
  | n + 1, base =>
    let level := 2 - n
    let e := s.tableEntry die tcid tenant level va base
    if !leafValid e then (s, .error (.notPresent false level e))
    else if ptrReserved e || leafKind e || decide (s.tier1Limit ≤ ptrNext e) then (s, .error .protection)
    else
      let v := v.join (s.entryView die tcid tenant level va base)
      State.walkFrom (s.cacheEntry die tcid tenant level va e v) die tcid tenant va v n (ptrNext e)

/-- The whole walk of an address under a TCID (R48), by the walk cache of a die (R50). DESIGN CHOICE (log 125): the mailbox and launch engines walk
by that of die 0; the spec names none. A root that is not reachable (R420) fails as a pointer to such a table does. -/
def State.walk (s : State) (die tcid : Nat) (va : W64) : State × Except TFault W64 :=
  let tc := s.tcid tcid
  if bitsN va.toNat 58 6 != 0 || !tc.valid || decide (s.tier1Limit ≤ tc.root) then (s, .error .protection)
  else s.walkFrom die tcid tc.tenant va Horizon.none 3 tc.root

/-! ### Translation of an access (R50, R53) -/

/-- What an access finds: a translation, a fault, or a walk to wait for. -/
inductive TR where
  | ok (leaf : W64) (phys : Nat)
  | fault (s : State) (f : TFault)
  | miss (s : State)

/-- The physical address of a virtual one under a leaf. -/
def leafPhys (leaf : W64) (va : W64) : Nat := leafFrame leaf (va.toNat / 2 ^ 14) * 2 ^ 14 + va.toNat % 2 ^ 14

/-- The TLB entry that serves an access: the one installed last (R53). -/
def State.tlbHit (s : State) (core tcid : Nat) (va : W64) : Option TlbEnt :=
  let vpn := va.toNat / 2 ^ 14
  let tenant := (s.tcid tcid).tenant
  (s.core core).tlb.find? fun t => t.tcid == tcid && t.tenant == tenant && t.vpn / 2 ^ t.run == vpn / 2 ^ t.run

/-- What a translation that the TLB holds has acquired (R52). -/
def State.tlbView (s : State) (core tcid : Nat) (va : W64) : Horizon := ((s.tlbHit core tcid va).map fun t => t.view).getD Horizon.none

/-- A translation through the TLB; one that is not there is walked for, and `who` waits for the walk. -/
def State.translate (s : State) (core tcid : Nat) (va : W64) (who : Asker) : TR :=
  if bitsN va.toNat 58 6 != 0 || !(s.tcid tcid).valid then .fault s .protection
  else
    match s.tlbHit core tcid va with
    | some t => .ok t.leaf (leafPhys t.leaf va)
    | none =>
      let same (w : Walk) : Bool := w.core == core && w.tcid == tcid && w.va.toNat / 2 ^ 14 == va.toNat / 2 ^ 14
      if s.walks.any same then
        .miss { s with walks := updFirst same (fun w => if w.askers.contains who then w else { w with askers := w.askers ++ [who] }) s.walks }
      else .miss { s with nextId := s.nextId + 1, walks := s.walks ++ [⟨s.nextId, core, tcid, va, [who]⟩] }

/-- The TLB of a core takes an entry for the whole run, with what the walk has acquired; it holds 1,024 (R50, R52). -/
def State.tlbInstall (s : State) (core tcid : Nat) (va leaf : W64) : State :=
  let vpn := va.toNat / 2 ^ 14
  let tenant := (s.tcid tcid).tenant
  let v := (((s.die (dieOfCore core)).cached? tcid tenant 3 va).map fun w => w.view).getD Horizon.none
  let ent : TlbEnt := { tcid := tcid, tenant := tenant, vpn := vpn, run := leafRun leaf, leaf := leaf, view := v }
  s.updCore core fun c => { c with tlb := List.take 1024 (ent :: c.tlb) }

/-- A translation whose walk, where one is needed, is made in the same step (R60). -/
def State.translateNow (s : State) (core tcid : Nat) (va : W64) : State × Except TFault (W64 × Nat) :=
  if bitsN va.toNat 58 6 != 0 || !(s.tcid tcid).valid then (s, .error .protection)
  else
    match s.tlbHit core tcid va with
    | some t => (s, .ok (t.leaf, leafPhys t.leaf va))
    | none =>
      let out := s.walk (dieOfCore core) tcid va
      match out.2 with
      | .ok leaf => (out.1.tlbInstall core tcid va leaf, .ok (leaf, leafPhys leaf va))
      | .error f => (out.1, .error f)

/-- An entry that an invalidation covers (R57): form 0 is `va`, 1 `tcid`, 2 `all`. -/
def coversPages (form : Nat) (tcid : Nat) (va : W64) (run : Nat) (t : Nat) (firstPage pages : Nat) : Bool :=
  match form with
  | 0 =>
    let lo := va.toNat / 2 ^ 14 / 2 ^ run * 2 ^ run
    t == tcid && decide (firstPage < lo + 2 ^ run) && decide (lo < firstPage + pages)
  | 1 => t == tcid
  | _ => true

/-- Every TLB and walk cache of the device drops the covered entries. -/
def State.dropTranslations (s : State) (form tcid : Nat) (va : W64) (run : Nat) : State :=
  let keepT (t : TlbEnt) : Bool := !coversPages form tcid va run t.tcid (t.vpn / 2 ^ t.run * 2 ^ t.run) (2 ^ t.run)
  let keepW (w : WcEnt) : Bool :=
    let pages := if w.level = 3 then 2 ^ leafRun w.entry else 2 ^ (levelShift w.level - 14)
    let first := w.index * 2 ^ (levelShift w.level - 14) / pages * pages
    !coversPages form tcid va run w.tcid first pages
  { s with
    cores := s.cores.map fun c => (c.1, { c.2 with tlb := c.2.tlb.filter keepT })
    dies := s.dies.map fun d => { d with walkCache := d.walkCache.filter keepW } }

/-! ### Routing of translation faults (R61, R62) -/

/-- The fault of one item: its address, the kind, whether the translation is under the context's own TCID, the TCID it is
under, and the region handle. -/
structure ItemFault where
  pos : Nat
  va : Nat
  fault : TFault
  tcid : Nat
  own : Bool
  handle : W64

def TFault.isProtection : TFault → Bool
  | .protection => true
  | .notPresent _ _ _ => false

/-- k56's form of an address: the 256-byte line of a region access, else aligned down to 64 (R62). -/
def faultAddr (region : Bool) (va : Nat) : Nat := if region then va - va % 256 else va - va % 64

/-- The instruction's accesses are over: what it has asked for, and what of that has failed, counts for no other (R51, R58). -/
def Frag.settled (f : Frag) : Frag := { f with asks := [], touched := [], filled := [] }

def State.settled (s : State) (r : FragRef) : State :=
  match s.frag? r with
  | some f => if f.asks.isEmpty && f.touched.isEmpty && f.filled.isEmpty then s else s.updFrag r Frag.settled
  | none => s

/-- The fragment still executes its instruction. -/
def State.goesOn (s : State) (r : FragRef) : Bool :=
  match s.frag? r with
  | some f => f.state == .running && f.mask != 0 && !f.trapWait
  | none => false

/-- The accesses of the items that fault nowhere, made before their instruction vectors or parks (R433), and whether it still does. -/
def State.othersFirst (s : State) (r : FragRef) (others : Option (State → State)) : State × Bool :=
  match others with
  | none => (s, true)
  | some k => (k s, (k s).goesOn r)

/-- The faults of one instruction are taken (R61, R382): retirements, then what `others` gives the items without a fault (R433), then the handler or the
park. DESIGN CHOICE (log 141): a park in handler mode carries the code and the address of a protection fault where there is one.
`accesses` are the active items' positions with their addresses; the answer holds no mask where the fragment no longer executes the
instruction, else the items that go on. -/
def State.routeAfter (s : State) (r : FragRef) (source : Nat) (region : Bool) (mark : Nat) (accesses : List (Nat × Nat))
    (others : Option (State → State)) (faults : List ItemFault) : State × Option Lanes :=
  match s.frag? r, s.ctx? r.ctx with
  | some f, some c =>
    let prot := faults.filter fun x => x.fault.isProtection
    let rest := faults.filter fun x => !x.fault.isProtection
    match faults with
    | [] => (s, some f.mask)
    | f0 :: _ =>
      if f.shadow.isSome then
        let x := prot.headD f0
        let code := if prot.isEmpty then 3 else 4
        let addr := if prot.isEmpty then faultAddr region x.va else x.va + mark
        let y := s.othersFirst r others
        (if y.2 then y.1.park r code 2 (f.p14 c) { addr := addr, source := source, tcid := x.tcid } else y.1, none)
      else
        let m := Lanes.ofList (prot.map fun x => x.pos)
        let s := s.faultItems r 4 m source fun p =>
          ((prot.find? fun x => x.pos == p).map fun x => x.va + mark).getD 0
        match rest with
        | [] => (s, some (f.mask &&& ~~~ m))
        | x :: _ =>
          let y := s.othersFirst r others
          match y.2, x.fault with
          | false, _ => (y.1, none)
          | true, .protection => (y.1, none)
          | true, .notPresent fp level leaf =>
            let s := y.1
            let page := Lanes.ofList ((accesses.filter fun a => a.2 / 2 ^ 14 == x.va / 2 ^ 14).map fun a => a.1)
            let pm := page &&& f.mask &&& ~~~ m
            let addr := faultAddr region x.va
            if fp && x.own then
              (s.vector r pm
                { k56 := BitVec.ofNat 64 addr
                  k57 := BitVec.ofNat 64 (64 + level % 4 * 16 + source % 16)
                  k58 := leaf
                  k59 := x.handle }, none)
            else (s.park r 3 0 pm { addr := addr, source := source, tcid := x.tcid }, none)
  | _, _ => (s, none)

/-- The same where the items without a fault wait for the retry. -/
def State.routeFaults (s : State) (r : FragRef) (source : Nat) (region : Bool) (mark : Nat) (accesses : List (Nat × Nat))
    (faults : List ItemFault) : State × Option Lanes :=
  s.routeAfter r source region mark accesses none faults

end Sys2Proof.Machine
end

