-- ==== Sys2Proof/Machine/Trace.lean ====
section
/-! DEFINITION. The trace ring (R409-R413) and the launch: descriptor, header and checks (R154, R236, R255, R359). -/

namespace Sys2Proof.Machine

open Sys2Proof

/-! ### Trace records (R410, R411) -/

/-- Store 64-byte slots into a trace ring. -/
def State.writeTraceSlots (s : State) (a : Area) (at_ : Nat) : List (List Byte) → State
  | [] => s
  | x :: xs => State.writeTraceSlots (s.writeTier1 (Writer.of .mailbox) (a.base + 64 * (at_ % 2 ^ a.log)) x) a (at_ + 1) xs

/-- A byte string in slots of 64 bytes. -/
def slots64 (bs : List Byte) : List (List Byte) :=
  (List.range (bs.length / 64)).map fun k => (bs.drop (64 * k)).take 64

/-- Header word of a trace record. -/
def traceHead (kind slots flags tcid low : Nat) : W64 :=
  BitVec.ofNat 64 (kind * 2 ^ 56 + slots % 16 * 2 ^ 52 + flags % 256 * 2 ^ 44 + tcid % 4096 * 2 ^ 32 + low % 2 ^ 32)

/-- One record of a TCID's ring: written, with a lost record before it where one is due and both fit, or lost (R410). -/
def State.trace (s : State) (tcid : Nat) (ws : List W64) : State :=
  let a := s.area tcid 2
  if !a.configured then s
  else
    let rec_ := slots64 (wordsBytes ws 64)
    let lostRec := slots64 (wordsBytes
      [traceHead 7 1 0 tcid 0, BitVec.ofNat 64 s.tick, BitVec.ofNat 64 (a.lost - a.lostNoted)] 64)
    if a.lost = a.lostNoted then
      if rec_.length ≤ a.free then
        (s.writeTraceSlots a a.written rec_).setArea tcid 2 { a with written := a.written + rec_.length }
      else s.setArea tcid 2 { a with lost := a.lost + 1 }
    else if rec_.length + 1 ≤ a.free then
      (s.writeTraceSlots a a.written (lostRec ++ rec_)).setArea tcid 2
        { a with written := a.written + rec_.length + 1, lostNoted := a.lost }
    else if rec_.length ≤ a.free then
      (s.writeTraceSlots a a.written rec_).setArea tcid 2 { a with written := a.written + rec_.length }
    else s.setArea tcid 2 { a with lost := a.lost + 1 }

/-- Options of a trace ring: launch records, block records, sample shift (R409). -/
def Area.launchRecs (a : Area) : Bool := a.configured && bitN a.opts 26
def Area.blockRecs (a : Area) : Bool := a.configured && bitN a.opts 25
def Area.sampleShift (a : Area) : Nat := if a.configured then bitsN a.opts 16 5 else 0

/-! ### Descriptor and header -/

/-- A launch descriptor from its 20 words, or the offset of the first bad field (R255, R154, R4). -/
def parseDesc (ws : List W64) : Except Nat LDesc :=
  let w (n : Nat) : Nat := (ws.getD n 0).toNat
  let hdr := bitsN (w 0) 0 58
  let n := bitsN (w 1) 0 41
  let n0 := bitsN (w 2) 0 20 + 1
  let n1 := bitsN (w 2) 20 20 + 1
  if bitsN (w 0) 58 6 ≠ 0 ∨ hdr % 64 ≠ 0 then .error 0
  else if bitsN (w 1) 41 23 ≠ 0 ∨ n = 0 ∨ 2 ^ 40 < n then .error 8
  else if bitsN (w 2) 40 24 ≠ 0 ∨ n % (n0 * n1) ≠ 0 then .error 16
  else if bitsN (w 3) 3 61 ≠ 0 then .error 24
  else .ok { header := BitVec.ofNat 58 hdr, n := n, n0 := n0, n1 := n1, prio := bitsN (w 3) 0 3,
             args := (List.range 16).map fun i => ws.getD (4 + i) 0 }

/-- The mailbox reason of a bad descriptor field (R359). -/
def descReason (off : Nat) : Nat := if off = 8 ∨ off = 16 then 2 else 1

/-- A kernel header from its 64 bytes; none where R236 refuses it. -/
def parseHeader (bs : List Byte) : Option KHeader :=
  let v (off n : Nat) : Nat := natOfBytes ((bs.drop off).take n)
  let h : KHeader :=
    { blocksize := v 4 2, vregs := v 6 2, kregs := v 8 1, stripTiles := BitVec.ofNat 8 (v 9 1),
      blockTiles := BitVec.ofNat 8 (v 10 1), spill := v 12 4, shared := v 16 4, scratch := v 20 4 }
  if v 0 4 = 1 ∧ 1 ≤ h.blocksize ∧ h.blocksize ≤ 1024 ∧ 8 ≤ h.vregs ∧ h.vregs ≤ 384 ∧ h.vregs % 8 = 0 ∧
      8 ≤ h.kregs ∧ h.kregs ≤ 64 ∧ h.kregs % 8 = 0 ∧ h.stripTiles &&& h.blockTiles = 0 ∧ v 11 1 = 0 ∧
      h.spill ≤ 16384 ∧ h.spill % 64 = 0 ∧ h.shared ≤ 524288 ∧ h.scratch ≤ 67108864 ∧ v 24 40 = 0 then some h
  else none

/-- Strips of a full block. -/
def KHeader.strips (h : KHeader) : Nat := (h.blocksize + 63) / 64
def KHeader.shSize (h : KHeader) : Nat := sharedSize h.shared
def KHeader.spSize (h : KHeader) : Nat := h.spill * h.strips
/-- Bytes of the scratch region on each die, 0 for none (R25). -/
def KHeader.scratchSize (h : KHeader) : Nat := if h.scratch = 0 then 0 else max 4096 (pow2Above h.scratch)

/-- What a header fails beside its own fields: shared memory (reason 3), or a scratch region during Thaw (6) (R359). -/
def State.headerReason (s : State) (h : KHeader) : Option Nat :=
  if 524288 < h.shSize + h.spSize then some 3
  else if s.mgmt.thaw && h.scratch != 0 then some 6
  else none

/-- A fetch may use a leaf: ex, and tier 1 or 2 (R33, R34). -/
def fetchable (leaf : W64) : Bool := leafEx leaf && decide (leafTier leaf < 2)

/-- The header as the launch engine reads it, through the tables of the TCID (R34, R359). -/
def State.readHeader (s : State) (tcid : Nat) (hdr : VAddr) : State × Option (List Byte) :=
  let va : W64 := hdr.setWidth 64
  let out := s.walk 0 tcid va
  match out.2 with
  | .ok leaf => (out.1, if fetchable leaf then some (out.1.readPhys (leafTier leaf) (leafPhys leaf va) 64) else none)
  | .error _ => (out.1, none)

/-- Every check of R359 on a descriptor and its header: the header, or the reason of the refusal. -/
def State.checkLaunch (s : State) (tcid : Nat) (d : LDesc) : State × Except Nat KHeader :=
  if !(s.tcid tcid).valid then (s, .error 5)
  else
    let out := s.readHeader tcid d.header
    match out.2 with
    | none => (out.1, .error 4)
    | some bs =>
      match parseHeader bs with
      | none => (out.1, .error 1)
      | some h =>
        match out.1.headerReason h with
        | some why => (out.1, .error why)
        | none => (out.1, .ok h)

/-! ### Launches -/

def emptyRegs : Regs :=
  { k := Vector.replicate 64 0, fmt := fmtReset, preds := Vector.replicate 16 (.uni false), vtags := [],
    latches := noLatches, shifts := 0, kw := 0, rstack := [] }

/-- The registers of a launch context (R156). -/
def launchRegs (d : LDesc) : Regs :=
  { emptyRegs with
    k := Vector.ofFn fun i : Fin 64 => if i.val < 16 then d.args.getD i.val 0 else 0
    preds := (Vector.replicate 16 (PTag.uni false)).set 0 (.uni true)
    vtags := [(0, .aff 0 1)] }

/-- A launch as it is enqueued. -/
def mkLaunch (seq tcid : Nat) (path : LaunchPath) (d : LDesc) (h : KHeader) (queue depth tick : Nat) : Launch :=
  { seq := seq, tcid := tcid, path := path, desc := d, hdr := h, det := false, sup := false, dbg := false, depth := depth,
    queue := queue, ordered := false, state := .queued, enqueued := tick, headSince := 0, agedLevels := 0, kept := 0,
    activated := 0, activeOrder := 0, firstPlaced := none, lastPlaced := 0, starved := false, nextBlock := 0,
    retiredBlocks := [], lctx := { pc := d.header + 64, regs := launchRegs d, stopped := false }, codeGen := 0, code := Horizon.none, phase := 0,
    scratch := [], halted := none, recs := [], saveArea := none,
    savedBlocks := [], preempting := false, preemptTag := 0, preemptNoted := false, resuming := false }

/-- Launches of a queue that wait in it, in order. -/
def State.queued (s : State) (q : Nat) : List Launch := s.launches.filter fun l => l.queue == q && l.state == .queued

/-- Capacity of a queue (R354). -/
def queueRoom (q : Nat) : Nat := if q < 48 then Config.mailboxQueueRoom else Config.otherQueueRoom

def State.queueFree (s : State) (q : Nat) : Bool := decide ((s.queued q).length < queueRoom q)

/-- Append a launch to its queue with the next sequence number (R383); one that becomes the head starts its wait. -/
def State.enqueue (s : State) (l : Launch) : State :=
  let head := (s.queued l.queue).isEmpty
  { s with launchSeq := s.launchSeq + 1,
           launches := s.launches ++ [{ l with seq := s.launchSeq + 1, enqueued := s.tick,
                                               headSince := if head then s.cycle else 0 }] }

/-- Blocks of a launch (R154). -/
def Launch.blocks (l : Launch) : Nat := (l.desc.n + l.hdr.blocksize - 1) / l.hdr.blocksize

end Sys2Proof.Machine
end

