-- ==== Sys2Proof/Machine/Lines.lean ====
section
/-! DEFINITION. Scratchpad regions and their lines: handles (R22-R25), scratchpad storage, first touch (R58, R59), fills, stores
and write-backs (R78-R81, R100), discards, posted stores (R77), and the in-flight counters (R82-R84). -/

namespace Sys2Proof.Machine

open Sys2Proof

/-! ### Handles (R22-R24) -/

structure Handle where
  slot : Nat
  die : Nat
  gen : Nat
  clean : Bool

def parseHandle (h : W64) : Handle where
  slot := bitsN h.toNat 0 10
  die := bitsN h.toNat 14 2
  gen := bitsN h.toNat 20 12
  clean := bitsN h.toNat 10 4 == 0 && bitsN h.toNat 16 4 == 0 && bitsN h.toNat 32 32 == 0

/-- The region that a handle names on a die, for an access of a launch: slot and entry (R23). -/
def State.regionOf (s : State) (die : Nat) (l : Launch) (h : W64) : Option (Nat × RegionEnt) :=
  let x := parseHandle h
  if !x.clean then none
  else if x.slot = 0 ∧ x.gen = 0 then
    match l.scratch.find? fun y => y.1 == die with
    | some y => (s.regionAt? die y.2).map fun e => (y.2, e)
    | none => none
  else if x.slot = 0 then none
  else
    match s.regionAt? die x.slot with
    | none => none
    | some e =>
      let gen := SMap.getD (s.die die).gens x.slot 0
      if gen = x.gen ∧ (e.tcid = l.tcid ∨ (e.shared ∧ (s.tcid e.tcid).tenant = (s.tcid l.tcid).tenant)) then some (x.slot, e)
      else none

/-- Accesses through invalid handles are counted by tenant (R24). -/
def State.countInvalid (s : State) (tcid n : Nat) : State :=
  let t := (s.tcid tcid).tenant
  { s with mgmt := { s.mgmt with invalid := SMap.set s.mgmt.invalid t (SMap.getD s.mgmt.invalid t 0 + n) } }

/-! ### Lines (R78) -/

/-- The global address of a line (R27). -/
def RegionEnt.lineVa (e : RegionEnt) (n : Nat) : W64 := e.globalBase + BitVec.ofNat 64 (256 * n)

/-- Ask for a first touch or a fill of a line. -/
def State.askLine (s : State) (die slot n core tcid : Nat) (write fill : Bool) (who : List FragRef) : State :=
  s.updDie die fun d =>
    if d.lineReqs.any fun q => q.slot == slot && q.line == n then
      { d with lineReqs := updFirst (fun q => q.slot == slot && q.line == n)
                 (fun q => { q with write := q.write || write, fill := q.fill || fill, askers := (q.askers ++ who).eraseDups }) d.lineReqs }
    else { d with lineReqs := d.lineReqs ++ [⟨die, slot, n, core, tcid, write, fill, who⟩] }

/-- What an access finds at a line. -/
inductive LineGo where
  | ready
  | wait (s : State)
  | fault (s : State) (f : TFault)

/-- An access of a fragment to a line: `rd` and `wr` are the permissions that it needs, `need` the bytes that must be valid (R58, R59,
R78). A first touch that it has asked for and that failed is its fault; no failed translation is kept for another (R51). -/
def State.lineGo (s : State) (die slot : Nat) (e : RegionEnt) (n core : Nat) (rd wr : Bool) (need : BitVec 256) (r : FragRef)
    (touched : List (Nat × Nat × TFault)) : LineGo :=
  let ask (fill : Bool) : State :=
    (s.askLine die slot n core e.tcid wr fill [r]).updFrag r fun f =>
      if f.asks.contains (slot, n) then f else { f with asks := f.asks ++ [(slot, n)] }
  match (s.die die).line? slot n with
  | some x =>
    if (rd && !leafRd x.leaf) || (wr && !leafWr x.leaf) then .fault s .protection
    else if need &&& ~~~ x.v = 0 then .ready
    else .wait (ask true)
  | none =>
    match touched.find? fun x => x.1 == slot && x.2.1 == n with
    | some x => .fault s x.2.2
    | none => .wait (ask (need != 0))

/-- The access is the line's last (R80). -/
def State.useLine (s : State) (die slot n : Nat) : State :=
  s.updDie die fun d =>
    { d with lines := updFirst (fun x => x.slot == slot && x.line == n) (fun x => { x with used := s.cycle }) d.lines }

/-! ### Good and bad units of global memory (R99, R100, R401) -/

/-- Does a read of a 64-byte unit return uncorrectable data? -/
def State.badUnit (s : State) (tier u : Nat) : Bool :=
  match tier with
  | 0 => s.poison1.contains u
  | 1 => s.poison2.contains u || s.portDown u
  | 3 => s.poison3.contains u
  | _ => false
def State.badRead (s : State) (tier phys n : Nat) : Bool := (touchedUnits phys n).any fun u => s.badUnit tier u

/-- A read at a physical address on behalf of a TCID and not of a context: damaged data reads zero and is recorded with the TCID and its tenant
(R99, R101). -/
def State.readPart (s : State) (tcid tenant : Nat) (p : Nat × Nat × Nat) : State × List Byte :=
  match (touchedUnits p.2.1 p.2.2).find? fun u => s.badUnit p.1 u with
  | some u =>
    (s.logError (errRec s.tick tcid tenant (6 + p.1) 0 0 (max p.2.1 (64 * u)) 0), List.replicate p.2.2 0#8)
  | none => (s, s.readPhys p.1 p.2.1 p.2.2)

/-- Such a read of aligned 64-byte units one by one, each read once (R416). -/
def State.readUnits (s : State) (tcid tenant tier phys n : Nat) : State × List Byte :=
  (touchedUnits phys n).foldl (fun x u =>
    let lo := max phys (64 * u)
    let y := x.1.readPart tcid tenant (tier, lo, min (phys + n) (64 * u + 64) - lo)
    (y.1, x.2 ++ y.2)) (s, [])

/-- Mark a unit poisoned. -/
def State.poisonUnit (s : State) (tier u : Nat) : State :=
  match tier with
  | 0 => if s.poison1.contains u then s else { s with poison1 := s.poison1 ++ [u] }
  | 1 => if s.poison2.contains u || s.portDown u then s else { s with poison2 := s.poison2 ++ [u] }
  | 3 => if s.poison3.contains u then s else { s with poison3 := s.poison3 ++ [u] }
  | _ => s

/-! ### Fills and write-backs -/

/-- The bits of a line that lie in bad units of its memory. -/
def State.linePoison (s : State) (x : Line) : BitVec 256 :=
  (List.range 4).foldl (fun m k =>
    if s.badUnit (leafTier x.leaf) (x.phys / 64 + k) then m ||| lineBytes (64 * k) 64 else m) 0

/-- The fragments whose accesses wait for a line. -/
def State.fillers (s : State) (die slot n : Nat) : List FragRef :=
  (((s.die die).lineReqs.filter fun q => q.slot == slot && q.line == n).flatMap fun q => q.askers).eraseDups

/-- The `rfill` commands that wait for a line. -/
def Cmd.fills (c : Cmd) (die slot n : Nat) : Bool := c.writers.contains (die, slot) && c.waiting.contains n

/-- A fragment's waiting load has met the heads of a fill (R125). -/
def State.metFill (hs : List Head) (s : State) (r : FragRef) : State :=
  if hs.isEmpty then s else s.updFrag r fun f => { f with filled := (f.filled ++ hs).eraseDups }

/-- A fill meets bad units: an error record for each, with the TCID of the region and the core and pc of the first fragment that asked for the
line (R100, R101; DEDUCED, log 33). -/
def State.fillErrors (s : State) (die : Nat) (e : RegionEnt) (x : Line) (who : List FragRef) : State :=
  let bad := (List.range 4).filter fun k => s.badUnit (leafTier x.leaf) (x.phys / 64 + k) && (lineBytes (64 * k) 64 &&& ~~~ x.v) != 0
  let core := ((who.head?.bind fun r => s.ctx? r.ctx).map fun c => c.core).getD (64 * die)
  let pc : W64 := ((who.head?.bind fun r => s.frag? r).map fun f => f.pc.setWidth 64).getD 0
  bad.foldl (fun s k => s.logError (errRec s.tick e.tcid (s.tcid e.tcid).tenant 5 core 0 (x.phys / 64 * 64 + 64 * k) pc)) s

/-- The bytes outside V become those of memory, each unit of 16 bytes read for itself (R78, R100, R106). The fragments that asked for the fill
have read them, and an acquire load that the fill serves acquires through it; an `rfill` has read them by its decrement (R115, R125). `v` is what
an engine or slice knows that needs the line itself. -/
def State.fillLine (s : State) (die : Nat) (e : RegionEnt) (x : Line) (v : Horizon) : State :=
  let who := s.fillers die x.slot x.line
  let s := s.fillErrors die e x who
  let known := (s.cmds.filter fun c => c.fills die x.slot x.line).foldl (fun v c => v.join c.view)
    (who.foldl (fun v r => v.join (s.knownBy r)) (v.join x.view))
  let got := (List.range 16).map fun k => s.readPhysAt known (leafTier x.leaf) (x.phys + 16 * k) 16 k
  let f := got.flatMap fun g => g.1
  let met := got.foldl (fun y g => y.append g.2) Sight.none
  let a := e.pos + 256 * x.line
  let new := ((List.range 256).filter fun j => !x.v.getLsbD j).map fun j => (a + j, f.getD j 0)
  let bad := s.linePoison x &&& ~~~ x.v
  let s := who.foldl (fun s r => (s.saw r none met).metFill met.heads r) { s with freeCtr := s.freeCtr + 1 }
  let meets (c : Cmd) : Cmd :=
    if c.fills die x.slot x.line then { c with seen := c.seen.join ⟨0, [], met.seen⟩, heads := (c.heads ++ met.heads).eraseDups } else c
  let s : State := { s with cmds := s.cmds.map meets }
  let s := (runsOf new).foldl (fun s r => s.anew (.scratch die) r.1 r.2.length) s
  (s.writeScratchCells die new).updDie die fun d =>
    d.setLine { x with v := BitVec.allOnes 256, poison := x.poison ||| bad, used := s.cycle }

/-- Take a line's dirty bytes for a write-back. DESIGN CHOICE (log 116): a byte whose scratchpad word is damaged is written back as it stands,
and as good data. -/
def State.takeLine (s : State) (die : Nat) (e : RegionEnt) (x : Line) (for_ : WbFor) : State :=
  if x.d = 0 then s
  else
    let bs := s.readScratch die (e.pos + 256 * x.line) 256
    let idx := (List.range 256).filter fun j => x.d.getLsbD j
    let w : WriteBack :=
      { die := die, slot := x.slot, line := x.line, leaf := x.leaf, phys := x.phys,
        bytes := idx.map fun j => (j, bs.getD j 0), poison := idx.filter fun j => x.poison.getLsbD j, forWhat := for_ }
    { s with writeBacks := s.writeBacks ++ [w] }.updDie die fun d => d.setLine { x with d := 0 }

/-- Byte-masked writes to global memory; a unit written whole with good data is no longer marked (R100), and what lies behind a port whose
link is down is not written (R401). -/
def State.writeCells (s : State) (w : Writer) (tier : Nat) (cells : List (Nat × Byte)) : State :=
  let cells := if tier = 1 ∧ !s.mgmt.tier2Up.all id then cells.filter fun c => !s.portDown (c.1 / 64) else cells
  let s := match tierSpace tier with
    | some m => (runsOf cells).foldl (fun s r => s.wrote w m r.1 r.2.length) s
    | none => s
  let units := (cells.map fun c => c.1 / 64).eraseDups
  let whole := units.filter fun u => (cells.filter fun c => c.1 / 64 == u).length == 64
  match tier with
  | 0 => { s with tier1 := s.tier1.writeCells cells, poison1 := s.poison1.filter fun u => !whole.contains u }
  | 1 => { s with tier2 := s.tier2.writeCells cells, poison2 := s.poison2.filter fun u => !whole.contains u }
  | _ => s

/-- A write-back met a port whose link is down: an error record with the TCID of the region, which the command that asked for the
write-back names in its status (R99, R101, R401). -/
def State.lostWriteBack (s : State) (w : WriteBack) : State :=
  match w.bytes.find? fun c => s.portDown ((w.phys + c.1) / 64) with
  | none => s
  | some c =>
    let cmd : Option Cmd := match w.forWhat with
      | .cmd n => s.cmds.find? fun c => c.id == n
      | .none => none
    let tcid := ((s.regionAt? w.die w.slot).map fun e => e.tcid).getD 0
    let n := s.mgmt.errCount
    let s := s.logError (errRec s.tick tcid (s.tcid tcid).tenant 7 ((cmd.map fun c => c.core).getD (64 * w.die)) 0 (w.phys + c.1)
      ((cmd.map fun c => c.pc.setWidth 64).getD 0))
    match cmd with
    | some c => { s with cmds := updFirst (fun x => x.id == c.id) (fun x => { x with error := some (x.error.getD n) }) s.cmds }
    | none => s

/-- A write-back reaches memory. -/
def State.landWriteBack (s : State) (w : WriteBack) : State :=
  let tier := leafTier w.leaf
  let s := { s with writeBacks := dropFirst (fun x => x == w) s.writeBacks }
  let s := if tier = 1 ∧ !s.mgmt.tier2Up.all id then s.lostWriteBack w else s
  let cmd : Option Cmd := match w.forWhat with
    | .cmd n => s.cmds.find? fun c => c.id == n
    | .none => none
  let by_ : Writer := (cmd.map fun c => (⟨.frag c.ctx c.frag, false, c.rel⟩ : Writer)).getD (Writer.of (.mapUnit w.die))
  let s := s.writeCells by_ tier (w.bytes.map fun c => (w.phys + c.1, c.2))
  let s := w.poison.foldl (fun s j => s.poisonUnit tier ((w.phys + j) / 64)) s
  match w.forWhat with
  | .cmd n => { s with cmds := updFirst (fun c => c.id == n) (fun c => { c with pending := c.pending - 1 }) s.cmds }
  | .none => s

/-- The write-backs of a line that are in flight reach memory, in their order (R126). -/
def State.landLine (s : State) (die slot n : Nat) : State :=
  (s.writeBacks.filter fun w => w.die == die && w.slot == slot && w.line == n).foldl State.landWriteBack s

/-- Stores to a line, or to a region, that are not yet performed. -/
def State.storesTo (s : State) (die slot : Nat) (line : Option Nat) : List PStore :=
  s.stores.filter fun p => p.die == die && p.slot == slot &&
    match line with
    | some n => p.bytes.any fun c => c.1 / 256 == n
    | none => true

/-- Discard a line, its stores performed before (R78). -/
def State.discardLine (s : State) (die slot n : Nat) : State :=
  (s.performAll (s.storesTo die slot (some n))).updDie die fun d => d.dropLine slot n

/-- Lines of a region that have a translation. -/
def State.linesOf (s : State) (die slot : Nat) : List Line := (s.die die).lines.filter fun x => x.slot == slot

/-- Write back the dirty lines of a set; the answer counts them. -/
def State.writeBackLines (s : State) (die slot : Nat) (e : RegionEnt) (which : Nat → Bool) (for_ : WbFor) : State × Nat :=
  let dirty := (s.linesOf die slot).filter fun x => which x.line && x.d != 0
  (dirty.foldl (fun s x => s.takeLine die e x for_) s, dirty.length)

/-! ### Counters (R82-R85) -/

def Path.idx : Path → Fin 6
  | .sh => 0
  | .sp => 1
  | .cp => 2
  | .ga => 3
  | .xa => 4
  | .co => 5

def Ctx.counter (c : Ctx) (p : Path) : Nat := c.counters[Path.idx p]

def State.setCounter (s : State) (ctx : Nat) (p : Path) (g : Nat → Nat) : State :=
  s.updCtx ctx fun c => { c with counters := c.counters.set (Path.idx p) (g c.counters[Path.idx p]) }

/-- A command of a fragment. -/
def Cmd.new (id : Nat) (c : Ctx) (f : Frag) (tcid item : Nat) (path : Path) (kind : CmdKind) (pc : VAddr) (total : Nat) : Cmd :=
  { id := id, ctx := c.id, frag := f.id, block := c.block, core := c.core, tcid := tcid, item := item, path := path, kind := kind, pc := pc,
    total := total, doneCount := 0, done := [], rows := [], parts := [], beat := none, trans := [], cover := [], waiting := [], pending := 0, writers := [],
    error := none, refused := 0, deadPod := 0, deadHost := 0, fault := false
    view := f.view, seen := Horizon.none, heads := [], rel := f.rel }

/-- A command as it is committed: its counter is raised, and it knows what its fragment knows. -/
def State.commitCmd (s : State) (c : Cmd) : State :=
  let v := c.view.join (s.knownBy ⟨c.ctx, c.frag⟩)
  { s with nextId := s.nextId + 1, cmds := s.cmds ++ [{ c with view := v }] }.setCounter c.ctx c.path fun n => n + 1

/-- Everything that the command moves has been moved. -/
def Cmd.complete (c : Cmd) : Bool :=
  c.doneCount == c.total && c.rows.isEmpty && c.waiting.isEmpty && c.pending == 0

/-- A count that saturates (R128). -/
def sat16 (n : Nat) : Nat := min n 0xFFFF

/-- The oldest command of a context on a path. -/
def State.oldestCmd (s : State) (ctx : Nat) (p : Path) : Option Cmd := s.cmds.find? fun c => c.ctx == ctx && c.path == p

/-- What a lowered command has met joins what its path has (R115). DESIGN CHOICE (log 121): a `wait` takes up all of it, whatever its bound. -/
def Ctx.gain (c : Ctx) (p : Path) (x : Cmd) : Ctx :=
  let old := ((c.gained.find? fun y => y.1 == p).map fun y => y.2).getD (Horizon.none, [])
  { c with gained := (c.gained.filter fun y => y.1 != p) ++ [(p, old.1.join x.seen, (old.2 ++ x.heads).eraseDups)] }

/-- A complete command that is the oldest on its counter lowers it, and its outcomes join the context's (R83, R129). -/
def State.lower (s : State) (ctx : Nat) (p : Path) : State :=
  match s.oldestCmd ctx p with
  | none => s
  | some c =>
    if c.complete then
      let s := { s with cmds := s.cmds.filter fun x => x.id != c.id }
      let s := s.setCounter ctx p fun n => n - 1
      s.updCtx ctx fun x =>
        { x.gain p c with
          outcomes :=
            { uerr := x.outcomes.uerr + c.error.isSome.toNat, refused := x.outcomes.refused + c.refused,
              deadPod := x.outcomes.deadPod + c.deadPod, deadHost := x.outcomes.deadHost + c.deadHost } }
    else s

/-! ### Events of the lines -/

/-- A failed first touch goes to a fragment whose instruction has asked for it and is not over (R58). -/
def State.touchFailed (slot n : Nat) (t : TFault) (s : State) (r : FragRef) : State :=
  s.updFrag r fun f => if f.asks.contains (slot, n) then { f with touched := f.touched ++ [(slot, n, t)] } else f

/-- Every access that waits for a line or a translation is issued again. -/
def State.lineAnswer (s : State) (die slot n : Nat) (f : Option TFault) : State :=
  let who := ((s.die die).lineReqs.filter fun q => q.slot == slot && q.line == n).flatMap fun q => q.askers
  let s := s.updDie die fun d => { d with lineReqs := d.lineReqs.filter fun q => !(q.slot == slot && q.line == n) }
  match f with
  | none => s.wakeRetry
  | some t => (who.foldl (State.touchFailed slot n t) s).wakeRetry

/-- An `rfill` that waits for a line goes on without it. -/
def State.fillDone (s : State) (die slot n : Nat) : State :=
  { s with cmds := s.cmds.map fun c =>
      if c.writers.contains (die, slot) then { c with waiting := c.waiting.filter fun k => k != n } else c }

/-- Room for one more translation: the oldest line is written back and discarded (R80). -/
def State.makeRoom (s : State) (die : Nat) : State :=
  let d := s.die die
  if d.lines.length < Config.lineTranslations then s
  else
    match d.lines.foldl (fun (best : Option Line) x =>
      match best with
      | none => some x
      | some b => if x.used < b.used then some x else best) none with
    | none => s
    | some x =>
      match s.regionAt? die x.slot with
      | none => s.discardLine die x.slot x.line
      | some e =>
        let s := s.performAll (s.storesTo die x.slot (some x.line))
        let x := ((s.die die).line? x.slot x.line).getD x
        ((s.takeLine die e x .none).landLine die x.slot x.line).discardLine die x.slot x.line

/-- First touch of a line in the step that needs it (R60): its permissions, or its fault. -/
def State.touchLine (s : State) (die slot : Nat) (e : RegionEnt) (n core : Nat) (rd wr : Bool) : State × Option TFault :=
  let lacks (leaf : W64) : Bool := (rd && !leafRd leaf) || (wr && !leafWr leaf)
  match (s.die die).line? slot n with
  | some x => (s, if lacks x.leaf then some .protection else none)
  | none =>
    let out := s.translateNow core e.tcid (e.lineVa n)
    match out.2 with
    | .error f => (out.1, some f)
    | .ok t =>
      if decide (1 < leafTier t.1) || lacks t.1 then (out.1, some .protection)
      else
        let s := out.1.makeRoom die
        let x : Line := { slot := slot, line := n, leaf := t.1, phys := t.2, view := out.1.tlbView core e.tcid (e.lineVa n), v := 0, d := 0, poison := 0, used := s.cycle }
        let s := s.updDie die fun d =>
          { Die.setLine d x with lineReqs := d.lineReqs.filter fun q => !(q.slot == slot && q.line == n && !q.fill) }
        (s.wakeRetry, none)

/-- `LINE_FILL_COMPLETE` (R78). -/
def execLineFillComplete (l : LineRef) (s : State) : Out :=
  match (s.die l.die).line? l.slot l.line, s.regionAt? l.die l.slot with
  | some x, some e =>
    event ((s.die l.die).lineReqs.any fun q => q.slot == l.slot && q.line == l.line && q.fill)
      (((s.fillLine l.die e x Horizon.none).fillDone l.die l.slot l.line).lineAnswer l.die l.slot l.line none)
  | _, _ => .fault .notEnabled

/-- The line whose last access is oldest. -/
def Die.oldestLine (d : Die) : Option Line :=
  d.lines.foldl (fun best x =>
    match best with
    | none => some x
    | some b => if x.used < b.used then some x else best) none

/-- The line to be replaced: the one picked already, else the one whose last access is oldest (R80). -/
def Die.toReplace (d : Die) : Option Line :=
  match d.victim.bind fun v => d.line? v.1 v.2 with
  | some x => some x
  | none => d.oldestLine

/-- A request that waits for a free translation. -/
def Die.wantsLine (d : Die) : Bool :=
  decide (Config.lineTranslations ≤ d.lines.length) && d.lineReqs.any fun q => (d.line? q.slot q.line).isNone

/-- `LINE_REPLACEMENT` (R80): the oldest line, with the stores posted to it, is written back; once its write-back has reached memory it is
discarded. -/
def execLineReplacement (die : Nat) (s : State) : Out :=
  let d := s.die die
  match d.toReplace with
  | none => .fault .notEnabled
  | some x =>
    match s.regionAt? die x.slot with
    | none => .fault .notEnabled
    | some e =>
      let pick (v : Option (Nat × Nat)) (s : State) : State := s.updDie die fun d => { d with victim := v }
      let posted := s.storesTo die x.slot (some x.line)
      if !d.wantsLine then .fault .notEnabled
      else if !posted.isEmpty then
        let s := (pick (some (x.slot, x.line)) s).performAll posted
        .next (match (s.die die).line? x.slot x.line with
          | some y => s.takeLine die e y .none
          | none => s)
      else if x.d ≠ 0 then .next ((pick (some (x.slot, x.line)) s).takeLine die e x .none)
      else
        event (!s.writeBacks.any fun w => w.die == die && w.slot == x.slot && w.line == x.line)
          (pick none (s.discardLine die x.slot x.line))

/-- `WRITE_BACK_COMPLETE` (R79): the oldest of the line. -/
def execWriteBackComplete (l : LineRef) (s : State) : Out :=
  match s.writeBacks.find? fun w => w.die == l.die && w.slot == l.slot && w.line == l.line with
  | some w => .next (s.landWriteBack w).wakeRetry
  | none => .fault .notEnabled

/-- `STW_PERFORMED` (R77): stores of one context to one location keep their order (R117). -/
def execStwPerformed (n : Nat) (s : State) : Out :=
  match s.stores.find? fun p => p.id == n with
  | none => .fault .notEnabled
  | some p =>
    let clash := (s.stores.takeWhile fun q => q.id != n).any fun q =>
      q.ctx == p.ctx && q.die == p.die && q.slot == p.slot && q.bytes.any fun a => p.bytes.any fun b => a.1 == b.1
    event (!clash) ((s.performStore p).lower p.ctx .sp).wakeRetry

/-- `COMMAND_DECREMENT` (R83): the oldest command of the counter. -/
def execCommandDecrement (ctx : Nat) (p : Path) (s : State) : Out :=
  match s.oldestCmd ctx p with
  | some c => event c.complete (s.lower ctx p).wakeRetry
  | none => .fault .notEnabled

end Sys2Proof.Machine
end

