-- ==== Sys2Proof/Machine/Control.lean ====
section
/-! DEFINITION. Meanings of the control, span and system instructions (opcodes 0x01 to 0x21, R240-R267). -/

namespace Sys2Proof.Machine

open Sys2Proof

/-! ### Code in the instruction cache (R34, R135) -/

def lineOf (pc : VAddr) : VAddr := pc &&& ~~~ 63#58

def State.codeWord (s : State) (core tcid : Nat) (a : VAddr) : Option W32 :=
  ((s.core core).icache.find? fun l => l.tcid == tcid && l.line == lineOf a).map fun l =>
    BitVec.ofNat 32 (natOfBytes ((l.bytes.drop (a.toNat % 64)).take 4))

/-- Instructions from `a` up to the one at `last`, at most n of them; none where code is not in the cache. -/
def State.countTo (s : State) (core tcid : Nat) (last : VAddr) : Nat → VAddr → Option Nat
  | 0, _ => none
  | n + 1, a =>
    if a = last then some 1
    else
      match s.codeWord core tcid a with
      | none => none
      | some w => (State.countTo s core tcid last n (a + (if isLead w then 12 else 8))).map fun k => k + 1

/-! ### nop, transfers and joins -/

/-- `nop` (R240). -/
def execNop (g : Guard) (s : State) : Out := issue (.nop g) s [] (costC 1) fun e => e.done e.s

/-- A target in words from the instruction (R221). -/
def Env.target (e : Env) (t : BitVec 24) : VAddr := e.f.pc + t.signExtend 58 * 4

/-- The registers of a fragment as the spin detector compares them. -/
def Env.spinRegs (e : Env) : SpinRegs where
  k := e.f.regs.k
  preds := e.f.regs.preds
  vtags := e.f.regs.vtags
  mat := (e.f.regs.vtags.filter fun t => t.2 == .mat).map fun t =>
    (t.1, (e.f.items e.c).map fun i => (SMap.getD e.c.mat t.1 []).getD i 0)

/-- The spin detector (R188): a backward branch whose body holds at most 16 instructions, and two iterations in a row that
leave every vector, k and predicate register unchanged. -/
def Env.spin (e : Env) (s : State) (target : VAddr) : State :=
  if (s.countTo e.c.core e.l.tcid e.f.pc 16 target).isSome then
    let now := e.spinRegs
    s.updFrag e.r fun f =>
      let here : Bool := f.spin.branch == e.f.pc && f.spin.regs.isSome
      let n := if here && f.spin.regs == some now then f.spin.unchanged + 1 else 0
      { f with spin := { branch := e.f.pc, regs := some now, unchanged := n, demoted := f.spin.demoted || decide (2 ≤ n)
                         vreads := if here then f.spin.vreads else [], reads := if here then f.spin.reads else [] } }
  else s

/-- Maximal runs of consecutive strips with an active item of the mask, as first and last strips (R168). -/
def stripRuns (m : Lanes) : Nat → Nat → List (Nat × Nat)
  | 0, _ => []
  | n + 1, t =>
    let rest := stripRuns m n (t + 1)
    if Lanes.strip m t = 0 then rest
    else
      match rest with
      | (a, b) :: more => if a = t + 1 then (t, b) :: more else (t, t) :: rest
      | [] => [(t, t)]

/-- The fragments of a `bra` (R168): the taken runs, then the not-taken ones. -/
def cutFrags (strips : Nat) (taken rest : Lanes) (target next : VAddr) : List NewFrag :=
  ((stripRuns taken strips 0).map fun r => ⟨r.1, r.2, taken &&& Lanes.strips r.1 r.2, target⟩) ++
  (stripRuns rest strips 0).map fun r => ⟨r.1, r.2, rest &&& Lanes.strips r.1 r.2, next⟩

/-- The entries of a strip's parked fragments as its stack holds them, in ascending order (R171). DESIGN CHOICE (log 115): they lie above the
record groups of `push`. -/
def Ctx.parkedEntries (c : Ctx) (t : Nat) : List Byte :=
  ((sortOn Frag.rank (c.frags.filter fun f => f.entryParked.isSome && f.first == t)).flatMap fun f => f.entryWords c f.pc).flatMap
    fun w => bytesN 8 w.toNat

/-- Bytes of a strip's stack that parked entries take: 32 and 8 for each strip (R171). -/
def Ctx.parkedBytes (c : Ctx) (t : Nat) : Nat :=
  ((c.frags.filter fun f => f.entryParked.isSome && f.first == t).map fun f => 32 + 8 * (f.last + 1 - f.first)).foldl (· + ·) 0

/-- Bytes of the record groups on the spill stack of a strip of the block. -/
def Block.spillUsed (b : Block) (t : Nat) : Nat := (b.spill.getD t []).length

/-- The stack position of a strip of the context: its record groups and its parked entries (R20, R171). -/
def Env.stackPos (e : Env) (t : Nat) : Nat := e.b.spillUsed (e.c.firstStrip + t) + e.c.parkedBytes t

/-- The parked entries fit in the allowances of their first strips (R171). -/
def Env.parkedFit (e : Env) (xs : List NewFrag) : Bool :=
  (List.range e.c.strips).all fun t =>
    let new := ((xs.filter fun x => x.first == t).map fun x => 32 + 8 * (x.last + 1 - x.first)).foldl (· + ·) 0
    new == 0 || decide (e.stackPos t + new ≤ e.l.hdr.spill)

def State.arriveAll (s : State) (ctx : Nat) : List Nat → State
  | [] => s
  | i :: is => State.arriveAll (s.checkArrive ⟨ctx, i⟩) ctx is

/-- The cut (R168, R171), or the nesting-overflow fault on every active item. Its ticks come after that of the `bra`, which is counted
nowhere (R169, R408). -/
def Env.cut (e : Env) (xs : List NewFrag) (reconv : VAddr) : State :=
  let s := e.s
  let parked := xs.drop (s.freeEntries e.c.core e.c.part)
  if 64 ≤ e.f.depth + 1 || !e.parkedFit parked then s.faultItems e.r 7 e.f.mask 0 fun _ => 0
  else
    let kids := s.children e.c e.f xs reconv (e.c.cutEnds (s.cycle + 1))
    let p : Frag := { e.f with hasChildren := true }
    let c := { e.c.setFrag p with frags := (e.c.setFrag p).frags ++ kids }
    ({ s with nextId := s.nextId + xs.length }.setCtx c).arriveAll c.id (kids.map fun (k : Frag) => k.id)

/-- `bra` (R168, R241). -/
def execBra (x : BraOp) (s : State) : Out :=
  issue (.bra x) s [] (costC 1) fun e =>
    let V := e.view
    let q := V.plane (e.f.regs.predNot x.pred x.neg)
    let t := e.f.mask &&& q
    let n := e.f.mask &&& ~~~ q
    let target := e.target x.target
    if t = 0 then e.done e.s
    else if n = 0 then
      let s := if decide (target.toNat ≤ e.f.pc.toNat) then e.spin e.s target else e.s
      s.goto e.r target
    else
      let reconv := if x.reconv = 0 then e.f.reconv else e.target x.reconv
      e.cut (cutFrags e.c.strips t n target e.next) reconv

/-- `jmp`, direct (R242). -/
def execJmpDirect (target : BitVec 24) (s : State) : Out :=
  issue (.jmpDirect target) s [] (costC 1) fun e => e.s.goto e.r (e.target target)

/-- An indirect target: a protection fault where bits [63:58] are not zero, the illegal-instruction trap where it is not
aligned to 4 (R221, R242). -/
def Env.indirect (e : Env) (k : Fin 64) (go : VAddr → State) : State :=
  let a := e.k k
  if bitsN a.toNat 0 2 ≠ 0 then e.illegal
  else if bitsN a.toNat 58 6 ≠ 0 then e.s.faultItems e.r 4 e.f.mask 2 fun _ => a.toNat
  else go (a.setWidth 58)

def execJmpIndirect (k : Fin 64) (s : State) : Out :=
  issue (.jmpIndirect k) s [] (costC 1) fun e => e.indirect k fun a => e.s.goto e.r a

/-- `call` pushes its own address + 8 on the return stack of 16 entries (R242). -/
def Env.call (e : Env) (target : VAddr) : State :=
  if 16 ≤ e.f.regs.rstack.length then e.s.faultItems e.r 7 e.f.mask 0 fun _ => 0
  else
    let s := e.s.updFrag e.r fun f => { f with regs := { f.regs with rstack := (e.f.pc + 8) :: f.regs.rstack } }
    s.goto e.r target

def execCallDirect (target : BitVec 24) (s : State) : Out :=
  issue (.callDirect target) s [] (costC 1) fun e => e.call (e.target target)

def execCallIndirect (k : Fin 64) (s : State) : Out :=
  issue (.callIndirect k) s [] (costC 1) fun e => e.indirect k fun a => e.call a

/-- `ret` (R243). -/
def execRet (s : State) : Out :=
  issue .ret s [] (costC 1) fun e =>
    match e.f.regs.rstack with
    | [] => e.illegal
    | a :: rest => (e.s.updFrag e.r fun f => { f with regs := { f.regs with rstack := rest } }).goto e.r a

/-- `loop` (R244). -/
def execLoop (k : Fin 64) (target : BitVec 24) (s : State) : Out :=
  issue (.loop k target) s [] (costC 1) fun e =>
    let n := e.k k - 1
    let s := e.s.updFrag e.r fun f => { f with regs := (RegFile.setK ⟨f.regs, []⟩ k n).regs }
    if n = 0 then s.goto e.r (e.f.pc + 8) else s.goto e.r (e.target target)

/-- `join` (R245): nothing in a root, or where every sibling has exited. -/
def execJoin (s : State) : Out :=
  issue .join s [] (costC 1) fun e =>
    match e.f.parent with
    | none => e.done e.s
    | some p =>
      if ((e.c.kids p).filter fun g => g.id != e.f.id && g.state != .exited).isEmpty then e.done e.s
      else e.s.arrive e.r (e.f.pc + 8)

/-- `exit` (R246). -/
def execExit (g : Guard) (s : State) : Out :=
  issue (.exit g) s [] (costC 1) fun e =>
    e.guarded g fun p => if p = e.f.mask then e.s.retire e.r p else e.done (e.s.retire e.r p)

/-! ### Regions, yield, traps -/

/-- `region` (R247). -/
def execRegion (r : VRange) (s : State) : Out :=
  issue (.region r) s (useRange r) (costC 1) fun e => e.done ((e.s.endRegion e.r).openRegion e.r e.f.pc r)

/-- `yield` (R248). -/
def execYield (s : State) : Out :=
  issue .yield s [] (costC 1) fun e =>
    e.doneEnd (e.s.updFrag e.r fun f => { f with yieldUntil := e.s.cycle + Config.yieldTicks })

/-- The breakpoint record of R411. -/
def Env.brkRecord (e : Env) (s : State) (code : Byte) (pos : Nat) : State :=
  s.trace e.l.tcid [traceHead 3 1 0 e.l.tcid 0, BitVec.ofNat 64 s.tick, BitVec.ofNat 64 e.l.seq, e.f.pc.setWidth 64,
    BitVec.ofNat 64 (e.c.idx e.b pos), BitVec.ofNat 64 (code.toNat + e.c.core * 2 ^ 24 + e.c.part * 2 ^ 20)]

/-- `brk` (R249, R395). -/
def execBrk (code : Byte) (g : Guard) (s : State) : Out :=
  issue (.brk code g) s [] (costC 1) fun e =>
    e.guarded g fun p =>
      let s :=
        if e.l.dbg then
          (e.brkRecord e.s code ((Lanes.list p e.c.width).headD 0)).updCtx e.r.ctx fun c =>
            { c with halted := true }
        else e.s
      e.doneEnd s

/-- `trap` (R250): the region ends, so the resume address is the next instruction; then the vector. -/
def execTrap (code : Byte) (g : Guard) (s : State) : Out :=
  issue (.trap code g) s [] (costC 1) fun e =>
    let p := e.pass g
    if p = 0 then e.doneEnd e.s
    else if e.inHandler then
      e.s.park e.r 10 2 (e.f.p14 e.c) { addr := code.toNat, source := 4, tcid := e.l.tcid }
    else
      let s := (e.s.updFrag e.r fun f => { f with pc := e.next }).nextRegion e.r
      let s := s.updFrag e.r fun f => { f with pc := e.f.pc }
      s.vector e.r p { k56 := code.setWidth 64, k57 := 4, k58 := 0, k59 := 0 }

/-- `eret` (R251). -/
def execEret (s : State) : Out :=
  issue .eret s [] (costC 1) fun e => if e.inHandler then e.s.eret e.r else e.privileged

/-! ### Span collectives and child launches -/

/-- `elect` (R177, R252). DESIGN CHOICE (log 111): R162 says that a UNI-false guard writes no predicate, and R177 that the predicate is false
everywhere where no item passes; under a UNI-false guard the model follows R177, which says it of `elect`. -/
def execElect (pd : Fin 16) (g : Guard) (s : State) : Out :=
  issue (.elect pd g) s [] (costC 1) fun e =>
    let V := e.view
    let lead : Lanes := match (e.passing g).head? with
      | some i => Lanes.single i
      | none => 0
    let old := V.plane (e.f.regs.pred pd)
    e.done (e.put e.s (V.file.setPred pd (.mat (lead ||| (old &&& ~~~ e.f.mask)))))

/-- The mask of the passing items of a strip whose key equals that of position i (R178). -/
def matchMask (key : Val) (pass : Lanes) (i : Nat) : W64 :=
  let t := i / 64
  (lanesOf 64 fun j => pass.getLsbD (64 * t + j) && key.at (64 * t + j) == key.at i).setWidth 64

/-- `match` (R178, R253). -/
def execMatchKeys (ty : IntTy) (d : Dest (Fin 384)) (a : Src) (g : Guard) (s : State) : Out :=
  issueR (.matchKeys ty d a g) s (useD true d.reg :: useSrc ty.wide a)
    (fun V p _ i => (List.range 64).filterMap fun j =>
      if p.getLsbD (64 * (i / 64) + j) || 64 * (i / 64) + j == i then some (64 * (i / 64) + j) else none) (fun _ => costC 1) fun e =>
    e.unlessFalse g fun p =>
      let V := e.view
      let key := V.src ty.wide a
      let x := Val.mat ((List.range V.n).map fun i => if p.getLsbD i then matchMask key p i else 0)
      e.done (e.put e.s (V.write V.file ⟨g, d.nw, none⟩ p (.v d.reg) true false x))

/-- `regroup` (R179, R254): it waits for every item of the block; at depth above 0 it is illegal. -/
def execRegroup (key : Src) (r : VRange) (s : State) : Out :=
  issue (.regroup key r) s (useSrc false key ++ useRange r) (costC 1) fun e =>
    if e.f.depth ≠ 0 then e.illegal
    else e.wait e.s 15 .regroup

/-- The descriptor of an item at a shared offset: 20 words, each reduced by R15 within 32-byte units (R255). -/
def Block.readDesc (b : Block) (off : Nat) (units : Nat) : List W64 :=
  (List.range units).flatMap fun u =>
    let a := effAddr b.shSize 32 off (32 * u)
    (List.range 4).map fun w => b.shared.readW64 (a + 8 * w)

/-- What one item's child launch meets. -/
inductive ChildCheck where
  | ok (d : LDesc) (h : KHeader)
  | desc (off : Nat)
  | header
  | fault (va : Nat) (f : TFault)
  | depth
  | miss

/-- The key by which a fragment asks for a page, beside those of region lines. -/
def pageAsk (va : W64) : Nat × Nat := (1024, va.toNat / 2 ^ 14)

/-- A fragment's instruction waits for the walk of a page. -/
def State.askPage (s : State) (r : FragRef) (va : W64) : State :=
  { s with walkFaults := s.walkFaults.filter fun w => !(w.who == r && w.vpn == va.toNat / 2 ^ 14) }.updFrag r fun f =>
    if f.asks.contains (pageAsk va) then f else { f with asks := f.asks ++ [pageAsk va] }

/-- The walk that a fragment's instruction has asked for has failed. -/
def State.pageFault? (s : State) (r : FragRef) (va : W64) : Option TFault :=
  match s.frag? r with
  | some f =>
    if f.asks.contains (pageAsk va) then (s.walkFaults.find? fun w => w.who == r && w.vpn == va.toNat / 2 ^ 14).map fun w => w.fault else none
  | none => none

/-- The checks of one child (R181, R255). -/
def Env.childCheck (e : Env) (s : State) (off : Nat) : State × ChildCheck :=
  match parseDesc (e.b.readDesc off 5) with
  | .error o => (s, .desc o)
  | .ok d =>
    if 11 ≤ e.l.depth + 1 then (s, .depth)
    else
      let va : W64 := d.header.setWidth 64
      match s.pageFault? e.r va with
      | some f => (s, .fault va.toNat f)
      | none =>
      match s.translate e.c.core e.l.tcid va (.frag e.r) with
      | .miss s => (s.askPage e.r va, .miss)
      | .fault s f => (s, .fault va.toNat f)
      | .ok leaf phys =>
        if !fetchable leaf then (s, .fault va.toNat .protection)
        else
          match parseHeader (s.readPhys (leafTier leaf) phys 64) with
          | none => (s, .header)
          | some h => if (s.headerReason h).isSome then (s, .header) else (s, .ok d h)

def Env.childChecks (e : Env) (s : State) (a : Val) : List Nat → State × List (Nat × ChildCheck)
  | [] => (s, [])
  | p :: ps =>
    let x := e.childCheck s (a.at p).toNat
    let rest := Env.childChecks e x.1 a ps
    (rest.1, (p, x.2) :: rest.2)

/-- Enqueue what fits of the child launches a fragment has issued, in order (R255). -/
def State.enqueueChildren : Nat → State → FragRef → State
  | 0, s, _ => s
  | n + 1, s, r =>
    match s.toEnqueue.find? fun x => x.1 == r with
    | none => s
    | some x =>
      if s.queueFree x.2.queue then
        let rest := dropFirst (fun y => y.1 == r) s.toEnqueue
        let s := { s with toEnqueue := rest }.enqueue x.2
        let s := match x.2.path with
          | .child c b p =>
            (s.updCtx c fun k => { k with children := k.children ++ [(p, s.launchSeq)] }).updBlock b fun k =>
              { k with children := k.children ++ [s.launchSeq] }
          | _ => s
        State.enqueueChildren n s r
      else s

/-- After a step of enqueuing: done as a commit instruction, or waiting for room under "other". -/
def State.childrenDone (s : State) (r : FragRef) : Bool := !s.toEnqueue.any fun x => x.1 == r

/-- `launch` (R181, R255, R368): a child starts after the context's earlier stores (R114). -/
def execLaunch (a : Src) (g : Guard) (s : State) : Out :=
  issue (.launch a g) s (useSrc false a) (costC 1) fun e =>
    e.guarded g fun p =>
      if e.l.det then
        let s := e.s.faultItems e.r 8 p 0 fun _ => 0
        if s.goesOn e.r then e.orCheck s (e.done s) else s
      else
        let V := e.view
        let off := V.src false a
        let out := e.childChecks (e.s.publish e.c.id) off (Lanes.list (e.sound p) V.n)
        let s := out.1
        if out.2.any fun x => match x.2 with | .miss => true | _ => false then e.wait s 15 .retry
        else
          let prot := out.2.filterMap fun x => match x.2 with
            | .desc o => some (x.1, 2 ^ 60 + o)
            | .header => some (x.1, 2 ^ 60 + 255)
            | _ => none
          let deep := out.2.filterMap fun x => match x.2 with | .depth => some x.1 | _ => none
          let faults : List ItemFault := out.2.filterMap fun x => match x.2 with
            | .fault va f => some { pos := x.1, va := va, fault := f, tcid := e.l.tcid, own := true, handle := 0 }
            | _ => none
          let s := s.faultItems e.r 4 (Lanes.ofList (prot.map fun x => x.1)) 2 fun q =>
            ((prot.find? fun x => x.1 == q).map fun x => x.2).getD 0
          let alive (s : State) : Bool := match s.frag? e.r with
            | some f => f.state == .running && f.mask != 0
            | none => false
          let s := if alive s then s.faultItems e.r 7 (Lanes.ofList deep) 0 fun _ => 0 else s
          if !alive s then s
          else
            let route := s.routeFaults e.r 2 false 0 (faults.map fun x => (x.pos, x.va)) faults
            match route.2 with
            | none => route.1
            | some _ =>
              let s := route.1
              if !alive s then s
              else e.orCheck s <|
                let kids := out.2.filterMap fun x => match x.2 with
                  | .ok d h =>
                    some (e.r, { mkLaunch 0 e.l.tcid (.child e.c.id e.b.id x.1) d h (48 + d.prio) (e.l.depth + 1) s.tick with
                      code := (s.launchCode e.f.view.knowsPub).join e.l.code })
                  | _ => none
                let s := { s with toEnqueue := s.toEnqueue ++ kids }
                let s := State.enqueueChildren kids.length s e.r
                if s.childrenDone e.r then e.doneCommit s else e.wait s 15 .childQueue

/-- Child launches of the fragment's items that have not retired (R256). -/
def State.childrenOf (s : State) (c : Ctx) (f : Frag) : List Nat :=
  (c.children.filter fun x => f.mask.getLsbD x.1 &&
    s.launches.any fun l => l.seq == x.2 && l.state != .retired && l.state != .done).map fun x => x.2

/-- `wchild` (R256). -/
def execWchild (s : State) : Out :=
  issue .wchild s [] (costC 1) fun e =>
    if (e.s.childrenOf e.c e.f).isEmpty then e.done (e.s.knowAll e.r) else e.wait e.s 15 .wchild

/-! ### Barriers and shared register ranges -/

/-- `bar` (R257): after the context's earlier stores (R114) the bits of the active items are set; the fragment waits for the generation to
end. A restart that repeats the `bar` after the end of the generation at which it arrived departs without arriving again; the arrival that it
remembers is used up. -/
def execBar (n : Fin 16) (s : State) : Out :=
  issue (.bar n) s [] (costC 1) fun e =>
    let back : State := e.s.updFrag e.r fun f => { f with arrival := none }
    if e.f.arrival = some (n.val, true) then e.doneEnd (back.knowAll e.r)
    else
      let im := e.c.toIidx e.f.mask
      let s := e.wait (back.publish e.c.id) 8 (.bar n.val)
      let s := s.updBlock e.b.id fun b => { b with barriers := b.barriers.set n.val (b.barriers.getD n.val 0 ||| im) }
      s.barrierEnd e.b.id n.val

/-- The context of a slot of a partition. -/
def State.slotCtx? (s : State) (core part slot : Nat) : Option Ctx :=
  s.ctxs.find? fun c => c.core == core && c.part == part && c.slot == slot && c.state == .resident

/-- A k register that an instruction of the control rows writes once; nothing is written where the field names none. -/
def Env.putOpt (e : Env) (s : State) (d : Option (Fin 64)) (nw : Bool) (x : W64) : State :=
  match d with
  | some k => e.put s (e.view.file.putK k nw x)
  | none => e.put s (e.view.file.shift (.uni x))

/-- `shmap` (R186, R258). A context of more than one strip is illegal in every form, and so is its own slot as the partner. The ending forms
return the slot and end any mapping; the pairing form waits for its partner. -/
def execShmap (d : Dest (Option (Fin 64))) (a : Option (Fin 64)) (r : VRange) (s : State) : Out :=
  issue (.shmap d a r) s (useRange r) (costC 1) fun e =>
    let done (s : State) : State := e.doneEnd (e.putOpt (s.endShMap e.c.id) d.reg d.nw (BitVec.ofNat 64 e.c.slot))
    if e.c.strips ≠ 1 then e.illegal
    else
      match a with
      | none => done e.s
      | some ks =>
        let partner := bitsN (e.k ks).toNat 0 4
        if partner = e.c.slot then e.illegal
        else
          match r with
          | none => done e.s
          | some rng => (e.wait e.s 9 .shmap).updCtx e.c.id fun c => { c with shWish := some (partner, rng.1.val, rng.2.val) }

/-- Is a register in the context's mapped range? -/
def Ctx.mapped (c : Ctx) (r : Nat) : Bool :=
  match c.shmap with
  | some m => decide (m.lo ≤ r) && decide (r ≤ m.hi)
  | none => false

def Ctx.fullBit (c : Ctx) (r : Nat) : Bool :=
  match c.shmap with
  | some m => m.full.getD (r - m.lo) false
  | none => false

/-- Set a full bit in both contexts of the mapping. -/
def State.setFull (s : State) (ctx r : Nat) (v : Bool) : State :=
  match s.ctx? ctx with
  | none => s
  | some c =>
    match c.shmap with
    | none => s
    | some m =>
      let full := m.full.set (r - m.lo) v
      (s.updCtx ctx fun c => { c with shmap := some { m with full := full } }).updCtx m.partner fun p =>
        { p with shmap := p.shmap.map fun q => { q with full := full } }

/-- A demoted fragment of the partner whose loop reads a register just written is restored (R188). -/
def State.restoreSpin (s : State) (ctx r : Nat) : State :=
  s.updCtx ctx fun c => { c with frags := c.frags.map fun f => if f.spin.vreads.contains r then f.unspun else f }

/-- A register that an `fwr` writes: the partner's `opa` may still read what it held, until an `afence` that follows the observation of the
write (R132). -/
def State.keepOld (s : State) (partner r : Nat) (words : List W32) : State :=
  s.updCtx partner fun c => { c with shmap := c.shmap.map fun m => { m with olds := m.olds ++ [⟨r, words, false⟩] } }

/-- The context has found the register full (R132). -/
def State.seeFull (s : State) (ctx r : Nat) : State :=
  s.updCtx ctx fun c => { c with shmap := c.shmap.map fun m =>
    { m with olds := m.olds.map fun o => if o.reg = r then { o with seen := true } else o } }

/-- `fwr` (R186, R259). -/
def execFwr (d : Dest (Fin 384)) (a : Src) (g : Guard) (s : State) : Out :=
  issue (.fwr d a g) s (useD false d.reg :: useSrc false a) (costC 1) fun e =>
    if !e.c.mapped d.reg.val then e.illegal
    else
      e.unlessFalse g fun p =>
        if e.c.fullBit d.reg.val then e.wait (e.s.seeFull e.c.id d.reg.val) 9 .fullEmpty
        else
          let V := e.view
          let x := (V.src false a).toMat V.n
          let s := e.put e.s (V.write V.file ⟨g, d.nw, none⟩ p (.v d.reg) false false x)
          let s := s.setFull e.c.id d.reg.val true
          let s := match e.c.shmap with
            | some m => (s.restoreSpin m.partner d.reg.val).keepOld m.partner d.reg.val ((List.range V.n).map fun i => V.word d.reg.val i)
            | none => s
          e.doneEnd s

/-- `frd` (R186, R259). -/
def execFrd (d : Dest (Fin 384)) (a : Fin 384) (g : Guard) (s : State) : Out :=
  issue (.frd d a g) s [useD false d.reg, useV false a] (costC 1) fun e =>
    if !e.c.mapped a.val then e.illegal
    else
      e.unlessFalse g fun p =>
        if !e.c.fullBit a.val then e.wait e.s 9 .fullEmpty
        else
          let V := e.view
          let x := (V.v32 a.val).toMat V.n
          let s := e.put e.s (V.write V.file ⟨g, d.nw, none⟩ p (.v d.reg) false false x)
          e.doneEnd ((s.seeFull e.c.id a.val).setFull e.c.id a.val false)

/-! ### Tags, halt, status registers, counters -/

/-- Registers of `mat` that are not MAT yet. -/
def Env.toMake (e : Env) (d : Fin 384) (wide : Bool) : List Nat :=
  (if wide then [d.val, d.val + 1] else [d.val]).filter fun r => SMap.getD e.f.regs.vtags r (.uni 0) != .mat

/-- `mat` (R260): one tick for each strip and register that becomes MAT; the latches take the value (R185). -/
def execMat (d : Dest (Fin 384)) (wide : Bool) (s : State) : Out :=
  issueK (.mat d wide) s [useV wide d.reg, useD wide d.reg] (fun e => costC (max 1 (e.f.strips * (e.toMake d.reg wide).length))) fun e =>
    let V := e.view
    let R := if d.nw then V.file
      else (e.toMake d.reg wide).foldl (fun R r => V.setMat R r ((List.range V.n).map fun i => V.word r i)) V.file
    e.done (e.put e.s (R.shift ((V.vec wide d.reg.val).toMat V.n)))

/-- The word of R261 for a register's tag. -/
def tagWord : VTag → Nat
  | .uni _ => 0
  | .aff _ _ => 1
  | .affLo _ _ => 5
  | .affHi _ _ => 5
  | .mat => 2

def predWord : PTag → Nat
  | .uni _ => 0
  | .thr t below => t % 2 ^ 41 * 2 ^ 8 + (if below then 0 else 8) + 3
  | .mat _ => 2

/-- `rep` (R261). -/
def execRep (d : Dest (Fin 64)) (ofPred : Bool) (n : Fin 384) (s : State) : Out :=
  issue (.rep d ofPred n) s (if ofPred then [] else [useV false n]) (costC 1) fun e =>
    let w := if ofPred then predWord (e.f.regs.pred (Fin.ofNat 16 n.val))
      else tagWord (SMap.getD e.f.regs.vtags n.val (.uni 0))
    e.done (e.put e.s (e.view.file.putK d.reg d.nw (BitVec.ofNat 64 w)))

/-- Launches below a launch (R262). -/
def State.below (s : State) : Nat → Nat → List Nat
  | 0, _ => []
  | n + 1, seq =>
    let kids := (s.blocks.filter fun b => b.launch == seq).flatMap fun b => b.children
    kids ++ kids.flatMap fun k => State.below s n k

/-- The report of a launch that is halted again: of two contexts that halt in one tick the lower item; one that an earlier tick has halted keeps
its own (R262). -/
def HaltInfo.over (h : HaltInfo) : Option HaltInfo → HaltInfo
  | none => h
  | some o => if o.tick == h.tick && decide (h.item < o.item) then h else o

/-- Every launch named stops: its contexts issue no more, its staged contributions, deferred log and held entries are
discarded (R262). -/
def State.haltLaunch (s : State) (seq : Nat) (h : HaltInfo) : State :=
  let mine (b : Block) : Bool := b.launch == seq
  let ids := (s.blocks.filter mine).map fun b => b.id
  let ctxs := (s.ctxs.filter fun c => ids.contains c.block).map fun c => c.id
  { s.updLaunch seq fun l => { l with halted := some (h.over l.halted) } with
    blocks := s.blocks.map fun b => if mine b then ctxs.foldl (fun b c => b.discardCtx c) b else b
    log := s.log.filter fun x => x.1 != seq
    held := s.held.filter fun x => x.1 != seq
    toEnqueue := s.toEnqueue.filter fun x => !ctxs.contains x.1.ctx }

/-- `halt` (R262). -/
def execHalt (code : Byte) (g : Guard) (s : State) : Out :=
  issue (.halt code g) s [] (costC 1) fun e =>
    e.guarded g fun p =>
      let h : HaltInfo := { code := code.toNat, item := e.c.idx e.b ((Lanes.list p e.c.width).headD 0),
                            pc := e.f.pc, tick := e.s.tick }
      (e.s.below 12 e.l.seq).foldl (fun s k => s.haltLaunch k h) (e.s.haltLaunch e.l.seq h)

/-- A launch that has been halted in an earlier tick. What is chosen in the tick of the `halt` itself still executes, so that of two that halt in
one tick the lower item is reported (R262). -/
def State.stoppedByHalt (s : State) (l : Launch) : Bool := (l.halted.map fun h => decide (h.tick < s.tick)).getD false

/-- At the end of the tick of a `halt`, what its contexts have still staged, logged or started in that tick is discarded too (R262). -/
def State.haltAgain (s : State) : State :=
  s.launches.foldl (fun s l =>
    match l.halted with
    | some h => if h.tick == s.tick then (s.below 12 l.seq).foldl (fun s k => s.haltLaunch k h) (s.haltLaunch l.seq h) else s
    | none => s) s

/-- The handle of the launch's scratch region on a die (R22, R25). -/
def State.scratchHandle (s : State) (l : Launch) (die : Nat) : W64 :=
  match l.scratch.find? fun x => x.1 == die with
  | none => 0
  | some x => BitVec.ofNat 64 ((s.die die).gens.getD x.2 0 % 4096 * 2 ^ 20 + die * 2 ^ 14 + x.2)

/-- The address of the image that holds a kernel (R237). -/
def State.imageOf (s : State) (tcid : Nat) (hdr : VAddr) : W64 :=
  match s.images.find? fun x => x.1 == tcid && decide (x.2.1 ≤ hdr.toNat) && decide (hdr.toNat < x.2.1 + x.2.2) with
  | some x => BitVec.ofNat 64 x.2.1
  | none => Config.imageBase tcid hdr.toNat

/-- What `getsr` reads (R42, R154, R237, R263). -/
def Env.status (e : Env) : SrName → W64
  | .lanes => 64
  | .tick => BitVec.ofNat 64 e.s.tick
  | .clayer => e.s.clayer.getD e.l.tcid 0
  | .tvec => e.tc.tvec.setWidth 64
  | .pool => e.tc.w2
  | .tcid => BitVec.ofNat 64 (e.l.tcid % 4096 + e.tc.tenant * 2 ^ 16)
  | .mode => BitVec.ofNat 64 (e.l.det.toNat + 2 * e.sup.toNat + 4 * e.l.dbg.toNat + 8 * e.s.mgmt.thaw.toNat +
      16 * e.inHandler.toNat)
  | .phase => if e.l.det then BitVec.ofNat 64 e.l.phase else 0
  | .scratch => e.s.scratchHandle e.l e.die
  | .shape => BitVec.ofNat 64 (e.l.desc.n0 - 1 + (e.l.desc.n1 - 1) * 2 ^ 20)
  | .image => e.s.imageOf e.l.tcid e.l.desc.header

/-- An instruction that executes once and writes a k register. -/
def Env.onceK (e : Env) (g : Guard) (d : Fin 64) (nw : Bool) (x : W64) : State :=
  e.guarded g fun _ => e.done (e.put e.s (e.view.file.putK d nw x))

/-- `getsr` (R263). -/
def execGetsr (d : Dest (Fin 64)) (sr : SrName) (g : Guard) (s : State) : Out :=
  issue (.getsr d sr g) s [] (costC 1) fun e => e.onceK g d.reg d.nw (e.status sr)

/-- `setsr` (R42, R263): only `sr.clayer` may be written. -/
def execSetsr (sr : SrName) (a : Fin 64) (g : Guard) (s : State) : Out :=
  issue (.setsr sr a g) s [] (costC 1) fun e =>
    match sr with
    | .clayer => e.guarded g fun _ => e.done { e.s with clayer := e.s.clayer.set e.l.tcid (e.k a) }
    | _ => e.privileged

/-- `tick` (R264). -/
def execTick (d : Dest (Fin 64)) (g : Guard) (s : State) : Out :=
  issue (.tick d g) s [] (costC 1) fun e => e.onceK g d.reg d.nw (BitVec.ofNat 64 e.s.tick)

/-- `tick.s` waits until every earlier instruction of the fragment has completed (R264). -/
def execTickS (d : Dest (Fin 64)) (g : Guard) (s : State) : Out :=
  issue (.tickS d g) s [] (costC 1) fun e =>
    if e.f.loads.isEmpty then e.onceK g d.reg d.nw (BitVec.ofNat 64 e.s.tick) else e.wait e.s 1 .retry

/-- `cpub` (R134, R265): a release, so it follows every earlier store. -/
def execCpub (d : Dest (Option (Fin 64))) (g : Guard) (s : State) : Out :=
  issue (.cpub d g) s [] (costC 1) fun e =>
    e.guarded g fun _ =>
      if !(e.s.storesOf e.c.id).isEmpty then e.wait e.s 15 .retry
      else
        let s := { e.s with codeGen := e.s.codeGen + 1 }.publishCode e.r e.l.seq
        e.doneEnd (e.putOpt s d.reg d.nw (BitVec.ofNat 64 s.codeGen))

/-- `cinv` (R265); fetches after it see what the `cpub` events known to its context have published (R134). -/
def execCinv (g : Guard) (s : State) : Out :=
  issue (.cinv g) s [] (costC 1) fun e =>
    e.guarded g fun _ =>
      e.done (e.s.updCore e.c.core fun c => { c with icache := [], code := c.code.join (e.s.published e.f.view.knowsPub) })

/-- An invalidation is started; the instruction waits for its completion (R56, R57). -/
def Env.tlbi (e : Env) (g : Guard) (form : Nat) (va : W64) (tcid run : Nat) : State :=
  if !e.sup then e.privileged
  else
    e.guarded g fun _ =>
      let id := e.s.nextId
      let q : TlbiReq := { id := id, form := form, va := va, tcid := tcid, run := run,
                           cmds := e.s.cmds.map fun c => c.id, waiter := some e.r }
      let s := { e.s with nextId := id + 1, tlbis := e.s.tlbis ++ [q] }.dropTranslations form tcid va run
      e.wait s 15 (.tlbi id)

def execTlbiVa (a b : Fin 64) (g : Guard) (s : State) : Out :=
  issue (.tlbiVa a b g) s [] (costC 1) fun e =>
    e.tlbi g 0 (e.k a) (bitsN (e.k b).toNat 0 12) (bitsN (e.k b).toNat 16 4)

def execTlbiTcid (b : Fin 64) (g : Guard) (s : State) : Out :=
  issue (.tlbiTcid b g) s [] (costC 1) fun e => e.tlbi g 1 0 (bitsN (e.k b).toNat 0 12) 0

def execTlbiAll (g : Guard) (s : State) : Out :=
  issue (.tlbiAll g) s [] (costC 1) fun e => e.tlbi g 2 0 0 0

/-- `pmap` (R66, R67): the device carries out the requests one at a time, in arrival order. -/
def execPmap (d a : Fin 64) (g : Guard) (s : State) : Out :=
  issue (.pmap d a g) s [] (costC 1) fun e =>
    if !e.sup then e.privileged else e.guarded g fun _ => e.wait e.s 15 .pmap

/-- `ctr` (R267). -/
def execCtr (d : Dest (Fin 64)) (n : Fin 16) (g : Guard) (s : State) : Out :=
  issue (.ctr d n g) s [] (costC 1) fun e => e.onceK g d.reg d.nw (BitVec.ofNat 64 e.c.stalls[n])

/-- `ctr.clr` (R267). -/
def execCtrClr (d : Dest (Fin 64)) (n : Fin 16) (g : Guard) (s : State) : Out :=
  issue (.ctrClr d n g) s [] (costC 1) fun e =>
    e.guarded g fun _ =>
      let s := e.put e.s (e.view.file.putK d.reg d.nw (BitVec.ofNat 64 e.c.stalls[n]))
      e.doneEnd (s.updCtx e.c.id fun c => { c with stalls := c.stalls.set n 0 })

/-- Words that are not an instruction (R213, R230): the precise illegal-instruction trap at the first of them. -/
def execIll (s : State) : Out :=
  match s.env? .ill with
  | none => .fault .noFragment
  | some e => .next e.illegal

end Sys2Proof.Machine
end

