-- ==== Sys2Proof/Machine/Matrix.lean ====
section
/-! DEFINITION. Meanings of the matrix instructions but `ald` and `ast` (opcodes 0xA0 to 0xA5 and 0xA8 to 0xAA, R312-R323), the
application of a contraction (R194-R204, R317, R318), and the Geyser array's events (R362). -/

namespace Sys2Proof.Machine

open Sys2Proof

/-! ### Operand formats (R194, R196, R197) -/

def fmtP (f : W32) : Nat := bitsN f.toNat 8 6 + 1
def fmtZbs (f : W32) : Bool := f.getLsbD 14
def fmtSmode (f : W32) : Bool := bitsN f.toNat 18 2 == 1
def fmtReplace (f : W32) : Bool := bitsN f.toNat 20 2 == 1

/-- Classes of R196. -/
inductive MClass where
  | s | d | h | i
  deriving DecidableEq, Repr

/-- The class of a format code; the reserved codes have none. -/
def mClass (code : Nat) : Option MClass :=
  if code = 0 then some .s else if code = 1 then some .d else if code = 4 then some .i
  else if code = 2 ∨ code = 3 ∨ (8 ≤ code ∧ code ≤ 14) then some .h else none

/-- Accumulation of R197. -/
inductive MMode where
  | fp64 | fp32 | acc26 | int32
  deriving DecidableEq, Repr

def mMode (x y : Nat) : Option MMode :=
  match mClass x, mClass y with
  | some .d, some .d => some .fp64
  | some .i, some .i => some .int32
  | some .s, some .s => some .fp32
  | some .s, some .h => some .fp32
  | some .h, some .s => some .fp32
  | some .h, some .h => some .acc26
  | _, _ => none

def mIsBfp (code : Nat) : Bool := decide (8 ≤ code)
def mIsFloat (code : Nat) : Bool := decide (code < 4)

/-- Mantissa bits of BFPm. -/
def mBits (code : Nat) : Nat := code - 6

/-- Element k of an operand's registers. -/
def mRaw (code k : Nat) (regs : List W32) : Nat :=
  let at_ := k * mCont code
  if code = 1 then (regs.getD (2 * k) 0).toNat + 2 ^ 32 * (regs.getD (2 * k + 1) 0).toNat
  else bitsN (regs.getD (at_ / 32) 0).toNat (at_ % 32) (mCont code)

/-- Is an exponent byte applied to a format (R317)? -/
def mScaled (fmt : W32) (code : Nat) : Bool := mIsBfp code || (fmtSmode fmt && mIsFloat code)

/-- The value of an element: none is a zero block (R194, R317). -/
def mValue (fmt : W32) (code raw e : Nat) : Option FV :=
  let base : FV :=
    if code = 0 then fvOf fp32 raw else if code = 1 then fvOf fp64 raw else if code = 2 then fvOf bf16 raw
    else if code = 3 then fvOf fp16 raw else if code = 4 then intFV (sgnN 8 raw) else intFV (sgnN (mBits code) raw)
  if !mScaled fmt code then some base
  else if e = 0 then none
  else if e = 255 then some .nan
  else if mIsBfp code then some (scaleFV base ((e : Int) - 127 - (mBits code - 2)))
  else some (scaleFV base ((e : Int) - 127))

/-! ### The application (R201-R204, R318) -/

/-- One contributing item's values: x and y vectors. -/
structure MItem where
  xs : List FV
  ys : List FV

/-- Exponent byte n of an operand. -/
def expByte (e : W32) (n : Nat) : Nat := bitsN e.toNat (8 * n) 8

/-- A vector of m elements with exponent e: none where zero-block skip drops the item (R204). -/
def mVector (fmt : W32) (code m e : Nat) (regs : List W32) : Option (List FV) :=
  if mScaled fmt code && e == 0 then
    if fmtZbs fmt then none else some (List.replicate m (.fin false 0 0))
  else some ((List.range m).map fun k => (mValue fmt code (mRaw code k regs) e).getD (.fin false 0 0))

/-- The items of a group that have terms, by ascending position (R201, R317). -/
def groupItems (p : OpaParams) (terms : List OpaTerm) : List MItem :=
  let lead := (terms.head?.map fun t => t.e).getD 0
  terms.filterMap fun t =>
    let ex := expByte (if p.xmode then lead else t.e) p.xsel
    let ey := expByte (if p.ymode then lead else t.e) p.ysel
    match mVector p.fmt (fmtX p.fmt) p.m ex t.xs, mVector p.fmt (fmtY p.fmt) p.n ey t.ys with
    | some xs, some ys => some ⟨xs, ys⟩
    | _, _ => none

/-- The exact sum of the products of cell (i, j) over a group (R202, R204). -/
def groupSum (its : List MItem) (i j : Nat) : FV :=
  let prods := its.map fun t => mulFV (t.xs.getD i (.fin false 0 0)) (t.ys.getD j (.fin false 0 0))
  match prods with
  | [] => .fin false 0 0
  | v :: vs => vs.foldl (addFV false) v

/-- A value as an integer. -/
def intOf : FV → Int
  | .fin n m e => let v : Int := (m * 2 ^ e.toNat : Nat); if n then -v else v
  | _ => 0

/-- A cell, with the status bit, after the groups (R203). -/
def applyCell (mode : MMode) (p : Nat) (cell : Nat) (gs : List (List MItem)) (i j : Nat) : Nat × Bool :=
  match mode with
  | .fp32 => (gs.foldl (fun c g => roundFV fp32 .rne (addFV false (fvOf fp32 c) (groupSum g i j))) cell, false)
  | .fp64 => (gs.foldl (fun c g => roundFV fp64 .rne (addFV false (fvOf fp64 c) (groupSum g i j))) cell, false)
  | .int32 =>
    gs.foldl (fun c g =>
      let s := sgnN 32 c.1 + intOf (groupSum g i j)
      (wrapN 32 s, c.2 || decide (s < -(2 ^ 31)) || decide ((2 : Int) ^ 31 ≤ s))) (cell, false)
  | .acc26 =>
    let add (c : Nat) (v : FV) : Nat := roundFV fp32 .rne (addFV false (fvOf fp32 c) v)
    let out := gs.foldl (fun (x : Nat × FV × Nat) g =>
      let part := acc26 (addFV false x.2.1 (groupSum g i j))
      if x.2.2 + 1 = p then (add x.1 part, .fin false 0 0, 0) else (x.1, part, x.2.2 + 1)) (cell, .fin false 0 0, 0)
    (if 0 < out.2.2 then add out.1 out.2.1 else out.1, false)

/-- The word of cell (i, j); an FP64 cell takes two (R313). -/
def cellWord (wide : Bool) (i j : Nat) : Nat := if wide then 32 * i + 2 * j else 32 * i + j

def TileInst.cell (t : TileInst) (wide : Bool) (i j : Nat) : Nat :=
  let w := cellWord wide i j
  if wide then (t.word w).toNat + 2 ^ 32 * (t.word (w + 1)).toNat else (t.word w).toNat

def TileInst.setCell (t : TileInst) (wide : Bool) (i j x : Nat) : TileInst :=
  let w := cellWord wide i j
  if wide then (t.setWord w (BitVec.ofNat 32 x)).setWord (w + 1) (BitVec.ofNat 32 (x / 2 ^ 32))
  else t.setWord w (BitVec.ofNat 32 x)

/-- Terms in ascending position. -/
def sortTerms (l : List OpaTerm) : List OpaTerm := sortOn (fun t => t.pos) l

/-- Apply a closed contraction to its instance. -/
def TileInst.apply (t : TileInst) (x : Contraction) : TileInst :=
  match x.params with
  | none => t
  | some p =>
    match mMode (fmtX p.fmt) (fmtY p.fmt) with
    | none => t
    | some mode =>
      let terms := sortTerms x.terms
      let gs := ((List.range 64).map fun g => groupItems p (terms.filter fun t => t.pos / 16 == g)).filter
        fun l => !l.isEmpty
      if gs.isEmpty then t
      else
        let wide := mode == .fp64
        let cells := (List.range p.m).flatMap fun i => (List.range p.n).map fun j => (i, j)
        cells.foldl (fun t c =>
          let old := if fmtReplace p.fmt then 0 else t.cell wide c.1 c.2
          let new := applyCell mode (fmtP p.fmt) old gs c.1 c.2
          { t.setCell wide c.1 c.2 new.1 with overflow := t.overflow || new.2 }) t

/-! ### Reading and writing tiles (R133, R313, R323) -/

/-- Words that an open contraction covers. -/
def Contraction.covers (x : Contraction) (w : Nat) : Bool :=
  match x.params with
  | none => false
  | some p =>
    let n := if fmtX p.fmt = 1 then 2 * p.n else p.n
    decide (w / 32 < p.m) && decide (w % 32 < n)

/-- A word as an instruction reads it: undefined while an open contraction covers it (R133). -/
def TileInst.readWord (t : TileInst) (ctr pos w : Nat) : W32 :=
  if t.opens.any fun x => x.covers w then Config.freeCell ctr pos w else t.word w

/-- A tile operand must be declared with its scope (R312). -/
def Env.tileOk (e : Env) (t : TileOp) : Bool := e.l.hdr.tileOk t.tile.val t.blk

/-- The instances that the items of a mask reach. -/
def Env.insts (e : Env) (t : TileOp) (m : Lanes) : List TileInst :=
  (e.c.instKeys t.blk m).map fun k => e.b.inst t.tile.val k

/-- The instance of the item at position i. -/
def Ctx.instKey (c : Ctx) (blk : Bool) (i : Nat) : Option Nat := if blk then none else some (c.stripKey (i / 64))

def State.setInst (s : State) (block : Nat) (t : TileInst) : State := s.updBlock block fun b => b.setInst t

/-- Several registers written separately; b0 takes the first (R185). -/
def View.writeMany (V : View) (R : RegFile) (pass : Lanes) (first : Nat) (g : Guard) : List Val → RegFile
  | [] => R
  | x :: xs =>
    let o := optOf g
    let y0 := V.masked o pass (V.v32 first) x
    let rec go (R : RegFile) (r : Nat) : List Val → RegFile
      | [] => R
      | z :: zs => go (V.setVec R false r (V.masked o pass (V.v32 r) z)) (r + 1) zs
    (go (V.setVec R false first y0) (first + 1) xs).shift y0

/-- The frame of a tile instruction that executes once for each instance. -/
def Env.tileOnce (e : Env) (t : TileOp) (f : TileInst → State → State) : State :=
  if !e.tileOk t then e.illegal
  else e.guarded t.g fun p => e.done ((e.insts t p).foldl (fun s i => f i s) e.s)

/-- A machine check of items on a damaged tile word that they read (R98). DEDUCED (log 33): the address is the word's offset in its instance. -/
def Env.tileCheck (e : Env) (s : State) (m : Lanes) (w : Nat) : State := s.machineCheck e.r m 1 (4 * w)

/-- The least damaged word of an instance among those that an instruction reads. -/
def TileInst.hurtWord (t : TileInst) (reads : Nat → Bool) : Option Nat :=
  (t.damage.filter reads).foldl (fun b w => some ((b.map fun x => min x w).getD w)) none

/-! ### `fmt` (R315) -/

def execFmt (x : FmtSrc) (g : Guard) (s : State) : Out :=
  issue (.fmt x g) s [] (costC 1) fun e =>
    let v : W32 := match x with
      | .imm i => i
      | .k n => (e.k n).setWidth 32
    if !fmtValid v then e.illegal
    else e.guarded g fun _ => e.done (e.s.updFrag e.r fun f => { f with regs := { f.regs with fmt := v } })

/-! ### `opa` (R316-R319) -/

/-- The issue checks of R316. -/
def Env.opaOk (e : Env) (x : OpaOp) : Bool :=
  let f := e.f.regs.fmt
  let cx := fmtX f
  let cy := fmtY f
  (mMode cx cy).isSome && (cx != 1 || decide (x.nm1.val < 16)) &&
  ((opaUses x f).all fun u => u.ok e.l.hdr.vregs) &&
  !(x.e == .zero && (mScaled f cx || mScaled f cy)) &&
  !(fmtSmode f && (cx == 4 || cy == 4)) &&
  (match x.e with
    | .v _ => true
    | .k _ => true
    | .b _ => true
    | .zero => true
    | _ => false)

def opaParams (x : OpaOp) (fmt : W32) : OpaParams where
  fmt := fmt
  m := x.mm1.val + 1
  n := x.nm1.val + 1
  xmode := x.xmode
  ymode := x.ymode
  xsel := x.xsel.val
  ysel := x.ysel.val

/-- The term of the item at position i, from the registers as they stand. -/
def View.opaTerm (V : View) (x : OpaOp) (fmt : W32) (pos i : Nat) : OpaTerm where
  pos := pos
  xs := (List.range (mSpan (fmtX fmt) (x.mm1.val + 1))).map fun k => V.word (x.x.val + k) i
  ys := (List.range (mSpan (fmtY fmt) (x.nm1.val + 1))).map fun k => V.word (x.y.val + k) i
  e := ((V.src false x.e).at i).setWidth 32

/-- Products per tick of R197: numerator and denominator. -/
def mRate (mode : MMode) (ycode : Nat) : Nat × Nat :=
  match mode with
  | .fp64 => (64, 1)
  | .fp32 => (256, 1)
  | .acc26 => if mIsBfp ycode then (16384, mBits ycode) else (1024, 1)
  | .int32 => (2048, 1)

/-- Ticks of a group of c items. -/
def groupTicks (p : OpaParams) (c : Nat) : Nat :=
  match mMode (fmtX p.fmt) (fmtY p.fmt) with
  | none => 1
  | some mode =>
    let r := mRate mode (fmtY p.fmt)
    (c * p.m * p.n * r.2 + r.1 - 1) / r.1

/-- Ticks of the groups of a strip that have contributing items (R362). -/
def stripGroups (p : OpaParams) (pass : Lanes) (t : Nat) : List Nat :=
  (List.range 4).filterMap fun g =>
    let n := ((List.range 16).filter fun j => pass.getLsbD (64 * t + 16 * g + j)).length
    if n = 0 then none else some (groupTicks p n)

/-- Active items pass a site of an instance, with terms for the passing ones; the contraction opens, under a new number, if none is open. -/
def passSite (e : Env) (t : TileOp) (site : Nat) (p : Option OpaParams) (terms : List OpaTerm) (key : Option Nat)
    (s : State) : State :=
  s.updBlock e.b.id fun b =>
    let i := b.inst t.tile.val key
    let x := (i.open? site).getD
      { id := s.nextId, site := site, params := none, passed := 0, terms := [], staged := [], closedAt := none }
    let m := e.c.instMask key e.f.mask &&& ~~~ x.allPassed
    if m = 0 then b
    else b.setInst (i.setOpen ({ x with params := x.params.or p }.stage e.c.id e.f.region.serial m terms))

/-- The contraction that is open at a site of an instance now. -/
def State.openAt (s : State) (block tile : Nat) (key : Option Nat) (site : Nat) : Option Contraction :=
  (s.block? block).bind fun b => (b.inst tile key).open? site

/-- The names of the contractions that the fragment passes (R175). -/
def Env.named (e : Env) (t : TileOp) (site : Nat) (s : State) : State :=
  s.updFrag e.r fun f =>
    { f with passedSinceCut := addNames f.passedSinceCut ((e.c.instKeys t.blk f.mask).map fun k => (t.tile.val, k, site)) }

/-- Has an active item already passed an open contraction of the site? -/
def Env.passedOpen (e : Env) (t : TileOp) (site : Nat) (m : Lanes) : Bool :=
  (e.c.instKeys t.blk m).any fun k =>
    match (e.b.inst t.tile.val k).open? site with
    | some x => x.allPassed &&& e.c.instMask k m != 0
    | none => false

/-- Has an item of m passed a contraction of the site that has not been applied yet (R321)? -/
def Ctx.unapplied (c : Ctx) (b : Block) (t : TileOp) (site : Nat) (m : Lanes) : Bool :=
  (c.instKeys t.blk m).any fun k =>
    (b.inst t.tile.val k).opens.any fun x => x.site == site && x.allPassed &&& c.instMask k m != 0

/-- A register element that the array reads: the earlier value or the later one, freely (R131). -/
def latePick (ctr pos elem : Nat) (old new : W32) : W32 :=
  if old = new then old else if Config.arrayReadsLate ctr (1024 * elem + pos) elem then new else old

/-- A register element of an operand where writes by the partner's `fwr` have not been awaited: the value now or one from before them
(R132). -/
def Ctx.unfenced (c : Ctx) (ctr pos elem r i : Nat) (w : W32) : W32 :=
  match c.shmap with
  | none => w
  | some m => ((m.olds.filter fun o => o.reg == r).zipIdx).foldl (fun w o => latePick (ctr + o.2) pos elem (o.1.words.getD i 0) w) w

/-- A term as the operand-ready rules allow it: `n` is the item's position in its instance, `i` that in the context. -/
def Ctx.readyTerm (c : Ctx) (x : OpaOp) (ctr i : Nat) (t : OpaTerm) : OpaTerm :=
  { t with
    xs := t.xs.zipIdx.map fun p => c.unfenced ctr t.pos p.2 (x.x.val + p.2) i p.1
    ys := t.ys.zipIdx.map fun p => c.unfenced ctr t.pos (64 + p.2) (x.y.val + p.2) i p.1
    e := match x.e with
      | .v r => c.unfenced ctr t.pos 128 r.val i t.e
      | _ => t.e }

/-- How many free choices the terms of a context take at most. -/
def Ctx.oldCount (c : Ctx) : Nat := ((c.shmap.map fun m => m.olds.length).getD 0)

/-- The passes, terms and array requests of an `opa` for the items of m, of which `pass` contribute. -/
def Env.opaPass (e : Env) (x : OpaOp) (t : TileOp) (p : OpaParams) (m pass : Lanes) : State :=
  let V := e.view
  let term (i : Nat) : OpaTerm := e.c.readyTerm x e.s.freeCtr i (V.opaTerm x p.fmt (e.c.instPos t.blk i) i)
  let s := (e.c.instKeys t.blk m).foldl (fun s k =>
    passSite e t x.site.val (some p) (((Lanes.list pass V.n).filter fun i => e.c.instKey t.blk i == k).map term) k s) e.s
  let s := e.named t x.site.val s
  let reqs : List GReq := (List.range e.c.strips).filterMap fun st =>
    let gs := stripGroups p pass st
    let key := if t.blk then none else some (e.c.stripKey st)
    if gs.isEmpty then none
    else some { contraction := ((s.openAt e.b.id t.tile.val key x.site.val).map fun y => y.id).getD s.nextId
                items := pass &&& (Lanes.below 64 <<< (64 * st)), ctx := e.c.id, frag := e.f.id, region := e.f.region.serial, op := x,
                strip := st, groups := gs, level := e.l.desc.prio, entered := s.cycle, running := false, order := s.nextId }
  { s with nextId := s.nextId + 1, freeCtr := s.freeCtr + e.c.oldCount }.updPart e.c.core e.c.part fun q => { q with arr := q.arr ++ reqs }

/-- `opa` (R316-R319); during the Thaw service only with FP32 formats (R420). -/
def execOpa (x : OpaOp) (s : State) : Out :=
  issue (.opa x) s [] (costC 1) fun e =>
    let t : TileOp := ⟨x.tile, x.blk, x.g⟩
    let p := opaParams x e.f.regs.fmt
    if !e.tileOk t || !e.opaOk x || (e.s.mgmt.thaw && (fmtX e.f.regs.fmt != 0 || fmtY e.f.regs.fmt != 0)) then e.illegal
    else if e.blocked (opaUses x e.f.regs.fmt) then e.wait e.s 1 .retry
    else if e.passedOpen t x.site.val e.f.mask then e.wait (e.s.nextRegion e.r) 5 .await
    else
      let pass := e.pass x.g
      let need := ((List.range e.c.strips).filter fun st => Lanes.strip pass st != 0).length
      if 16 < (e.s.part e.c.core e.c.part).arr.length + need then e.wait e.s 4 .queueRoom
      else
        let bad := (e.c.instKeys t.blk e.f.mask).filter fun k =>
          match ((e.b.inst t.tile.val k).open? x.site.val).bind fun y => y.params with
          | some q => q != p
          | none => false
        if bad.isEmpty then e.orCheck e.s (e.done (e.opaPass x t p e.f.mask pass))
        else
          let m := Lanes.ofList ((Lanes.list e.f.mask e.c.width).filter fun i => bad.contains (e.c.instKey t.blk i))
          let rest := e.f.mask &&& ~~~ m
          if e.inHandler ∨ rest = 0 then e.s.faultItems e.r 1 m 0 fun _ => 0
          else e.orCheck (e.s.faultItems e.r 1 m 0 fun _ => 0) (e.done ((e.opaPass x t p rest (pass &&& rest)).faultItems e.r 1 m 0 fun _ => 0))

/-! ### `opc`, `await`, `afence` (R320-R322) -/

def execOpc (x : SiteOp) (s : State) : Out :=
  issue (.opc x) s [] (costC 1) fun e =>
    if !e.tileOk x.t then e.illegal
    else
      let s := (e.c.instKeys x.t.blk e.f.mask).foldl (fun s k => passSite e x.t x.site.val none [] k s) e.s
      e.done (e.named x.t x.site.val { s with nextId := s.nextId + 1 })

/-- `await`: the region ends, then the wait until every contraction passed has been applied. -/
def execAwait (x : SiteOp) (s : State) : Out :=
  issue (.await x) s [] (costC 1) fun e =>
    if !e.tileOk x.t then e.illegal
    else e.guarded x.t.g fun _ =>
      let s := e.s.nextRegion e.r
      if e.c.unapplied e.b x.t x.site.val e.f.mask then e.wait s 5 .await else e.done s

/-- `afence` (R132, R322): the `fwr` writes that this context has observed have reached the register file, so that an `opa` after it reads
nothing older. -/
def execAfence (s : State) : Out :=
  issue .afence s [] (costC 1) fun e =>
    e.done (e.s.updCtx e.c.id fun c =>
      { c with shmap := c.shmap.map fun m => { m with olds := m.olds.filter fun o => !o.seen } })

/-! ### `azero`, `aread`, `awrt`, `aprom` (R323) -/

def execAzero (x : TileOp) (s : State) : Out :=
  issue (.azero x) s [] (costC 1) fun e =>
    e.tileOnce x fun i s => s.setInst e.b.id { i with words := [], overflow := false, damage := [] }

/-- The row that an item names. -/
def Env.rowOf (e : Env) (x : RowOp) (i : Nat) : Nat := ((e.view.src false x.row).at i).toNat % 32

def execAreadRow (x : RowOp) (s : State) : Out :=
  issue (.areadRow x) s (⟨x.v.val, x.cm1.val + 1, false, true, none⟩ :: useSrc false x.row) (costC 1) fun e =>
    if !e.tileOk x.t then e.illegal
    else e.unlessFalse x.t.g fun p =>
      let V := e.view
      let inst (i : Nat) : TileInst := e.b.inst x.t.tile.val (e.c.instKey x.t.blk i)
      let bad := (Lanes.list p V.n).filterMap fun i =>
        ((inst i).hurtWord fun w => decide (32 * e.rowOf x i ≤ w) && decide (w ≤ 32 * e.rowOf x i + x.cm1.val)).map fun w => (i, w)
      if !bad.isEmpty then e.tileCheck e.s (Lanes.ofList (bad.map fun y => y.1)) ((bad.map fun y => y.2).headD 0)
      else
        let vals := (List.range (x.cm1.val + 1)).map fun k =>
          Val.mat ((List.range V.n).map fun i =>
            if p.getLsbD i then
              ((inst i).readWord e.s.freeCtr (e.c.instPos x.t.blk i) (32 * e.rowOf x i + k)).setWidth 64
            else 0)
        e.done (e.put e.s (V.writeMany V.file p x.v.val x.t.g vals))

def execAreadStatus (x : StatusOp) (s : State) : Out :=
  issue (.areadStatus x) s [] (costC 1) fun e =>
    if !e.tileOk x.t then e.illegal
    else e.guarded x.t.g fun p =>
      match e.insts x.t p with
      | [] => e.done e.s
      | i :: _ => e.done (e.put e.s (e.view.file.putK x.k false (i.status.setWidth 64)))

/-- A word is written whole, so it is no longer damaged. -/
def TileInst.put (t : TileInst) (w : Nat) (x : W32) : TileInst :=
  { t.setWord w x with damage := t.damage.filter fun d => d != w }

def execAwrtRow (x : RowOp) (s : State) : Out :=
  issue (.awrtRow x) s (⟨x.v.val, x.cm1.val + 1, false, false, none⟩ :: useSrc false x.row) (costC 1) fun e =>
    if !e.tileOk x.t then e.illegal
    else e.guarded x.t.g fun p =>
      let V := e.view
      let one (b : Block) (i : Nat) : Block :=
        let t := b.inst x.t.tile.val (e.c.instKey x.t.blk i)
        b.setInst ((List.range (x.cm1.val + 1)).foldl
          (fun t k => t.put (32 * e.rowOf x i + k) (V.word (x.v.val + k) i)) t)
      e.done (e.s.updBlock e.b.id fun b => (Lanes.list p V.n).foldl one b)

def execAwrtStatus (x : StatusOp) (s : State) : Out :=
  issue (.awrtStatus x) s [] (costC 1) fun e =>
    e.tileOnce x.t fun i s => s.setInst e.b.id { i with overflow := (e.k x.k).getLsbD 0 }

/-- The cells of `aprom`: each is read, and written rounded. -/
def Env.prom (e : Env) (x : PromOp) (f : W32 → FV) : State :=
  if !e.tileOk x.t then e.illegal
  else e.guarded x.t.g fun p =>
    let sv := fvOf fp32 (bitsN (e.k x.k).toNat 0 32)
    let words := (List.range (x.mm1.val + 1)).flatMap fun i => (List.range (x.nm1.val + 1)).map fun j => 32 * i + j
    let hurt (i : Nat) : Option Nat := (e.b.inst x.t.tile.val (e.c.instKey x.t.blk i)).hurtWord words.contains
    let bad := (Lanes.list p e.c.width).filterMap fun i => (hurt i).map fun w => (i, w)
    if !bad.isEmpty then e.tileCheck e.s (Lanes.ofList (bad.map fun y => y.1)) ((bad.map fun y => y.2).headD 0)
    else
      let one (t : TileInst) : TileInst :=
        words.foldl (fun u w =>
          u.setWord w (BitVec.ofNat 32 (roundFV fp32 .rne (mulFV (f (t.readWord e.s.freeCtr 0 w)) sv)))) t
      e.doneEnd ((e.insts x.t p).foldl (fun s t => s.setInst e.b.id (one t)) e.s)

def execApromCvt (x : PromOp) (s : State) : Out :=
  issue (.apromCvt x) s [] (costC 1) fun e => e.prom x fun w => intFV (sgnN 32 w.toNat)
def execApromScl (x : PromOp) (s : State) : Out :=
  issue (.apromScl x) s [] (costC 1) fun e => e.prom x fun w => fvOf fp32 w.toNat

/-! ### The Geyser array (R131, R362) -/

/-- The waiting request of highest level, the earlier of equals. -/
def bestReq (l : List GReq) : Option GReq :=
  (l.filter fun g => !g.running).foldl (fun best g =>
    match best with
    | none => some g
    | some b =>
      if decide (b.level < g.level) || (b.level == g.level && decide (g.order < b.order)) then some g else best) none

/-- The elements of a term read again. -/
def lateTerm (ctr : Nat) (t u : OpaTerm) : OpaTerm :=
  { t with
    xs := t.xs.zipIdx.map fun p => latePick ctr t.pos p.2 p.1 (u.xs.getD p.2 p.1)
    ys := t.ys.zipIdx.map fun p => latePick ctr t.pos (64 + p.2) p.1 (u.ys.getD p.2 p.1)
    e := latePick ctr t.pos 128 t.e u.e }

/-- The array reads the operands of a request's own items, from the fragments that hold them now. DESIGN CHOICE (log 9): of the values that a
register has held since the `opa` it may take the first and the present one; what is written later is not read, and a k register or a latch as the
exponent operand is read at the issue (R131, R316). -/
def State.lateRead (s : State) (g : GReq) : State :=
  match s.ctx? g.ctx with
  | none => s
  | some c =>
    match s.block? c.block with
    | none => s
    | some b =>
      let key := if g.op.blk then none else some (c.stripKey g.strip)
      let i := b.inst g.op.tile.val key
      match i.opens.find? fun x => x.id == g.contraction with
      | none => s
      | some x =>
        match x.params with
        | none => s
        | some p =>
          let again (t : OpaTerm) : OpaTerm :=
            match (Lanes.list g.items c.width).find? fun i => c.instPos g.op.blk i == t.pos with
            | none => t
            | some at_ =>
              match c.leaves.find? fun f => f.mask.getLsbD at_ with
              | none => t
              | some f =>
                let V := viewOf c b f s.freeCtr
                let u := V.opaTerm g.op p.fmt t.pos at_
                lateTerm s.freeCtr t { u with e := match g.op.e with
                  | .v _ => u.e
                  | _ => t.e }
          let x := { x with terms := x.terms.map again
                            staged := x.staged.map fun st => { st with terms := st.terms.map again } }
          { s with freeCtr := s.freeCtr + 1 }.setInst b.id (i.setOpen x)

/-- A waiting request whose next level is due (R362): no request is chosen before it has risen. -/
def GReq.ageDue (cycle : Nat) (g : GReq) : Bool := !g.running && decide (g.level < 7) && decide (g.entered + Config.geyserAgeTicks ≤ cycle)

/-- `GEYSER_REQUEST_START`. -/
def execGeyserRequestStart (p : PartRef) (s : State) : Out :=
  let arr := (s.part p.core p.part).arr
  match bestReq arr with
  | none => .fault .notEnabled
  | some g =>
    event (!(arr.any fun x => x.running) && !arr.any (GReq.ageDue s.cycle))
      ((s.updPart p.core p.part fun q =>
        { q with arr := updFirst (fun x => x == g) (fun x => { x with running := true, entered := s.cycle }) q.arr }).lateRead g)

/-- `GEYSER_GROUP_COMPLETE`: after the group's ticks; at the k-step a request two levels above overtakes. -/
def execGeyserGroupComplete (p : PartRef) (s : State) : Out :=
  let arr := (s.part p.core p.part).arr
  match arr.find? fun x => x.running with
  | none => .fault .notEnabled
  | some g =>
    let set (l : List GReq) : State := s.updPart p.core p.part fun q => { q with arr := l }
    event (decide (g.entered + g.groups.headD 0 ≤ s.cycle) && !arr.any (GReq.ageDue s.cycle))
      (match g.groups.drop 1 with
        | [] => (set (dropFirst (fun x => x == g) arr)).wakeQueue p.core p.part
        | rest =>
          let overtaken := match bestReq arr with
            | some h => decide (g.level + 2 ≤ h.level)
            | none => false
          let g' : GReq := if overtaken then { g with groups := rest, running := false, entered := s.cycle, order := s.nextId }
            else { g with groups := rest, entered := s.cycle }
          { set (updFirst (fun x => x == g) (fun _ => g') arr) with nextId := s.nextId + 1 })

/-- `GEYSER_REQUEST_AGEING`. -/
def execGeyserRequestAgeing (p : PartRef) (s : State) : Out :=
  event ((s.part p.core p.part).arr.any (GReq.ageDue s.cycle))
    (s.updPart p.core p.part fun q =>
      { q with arr := q.arr.map fun g =>
          if g.ageDue s.cycle then { g with level := g.level + 1, entered := g.entered + Config.geyserAgeTicks } else g })

/-! ### Closure and its waiters (R318, R321) -/

/-- Array requests that still read for a contraction. -/
def State.requestsOf (s : State) (b : Block) (tile : Nat) (key : Option Nat) (contraction : Nat) : Bool :=
  (s.ctxsOf b.id).any fun c =>
    (s.part c.core c.part).arr.any fun g =>
      g.ctx == c.id && g.op.tile.val == tile && g.contraction == contraction &&
      (match key with
        | none => g.op.blk
        | some k => !g.op.blk && c.stripKey g.strip == k)

/-- The contraction that is applied next on an instance: closed, and the first by moment and site. -/
def TileInst.next? (t : TileInst) : Option Contraction :=
  let key (x : Contraction) : Nat := x.closedAt.getD 0 * 16 + x.site
  ((t.opens.filter fun x => x.closedAt.isSome).foldl (fun best x =>
    match best with
    | none => some x
    | some b => if key x < key b then some x else best) none)

/-- `CONTRACTION_CLOSURE` for a strip's instance, or the block's where the tile is declared at block scope. -/
def execContractionClosure (block : Nat) (tile : Fin 8) (strip : Nat) (site : Fin 16) (s : State) : Out :=
  match s.block? block with
  | none => .fault .notEnabled
  | some b =>
    let blk := ((s.launch? b.launch).map fun l => l.hdr.blockTiles.getLsbD tile.val).getD false
    let key := if blk then none else some strip
    let t := b.inst tile.val key
    match t.next? with
    | none => .fault .notEnabled
    | some x =>
      event (x.site == site.val && !s.requestsOf b tile.val key x.id)
        (s.setInst block { t.apply x with opens := t.opens.filter fun y => y.id != x.id })

/-- The site operand of a waiting `await` or `opa`. -/
def siteOf : Instr → Option SiteOp
  | .await x => some x
  | .opa x => some ⟨⟨x.tile, x.blk, x.g⟩, x.site⟩
  | _ => none

/-- `AWAIT_COMPLETION`: an `await` ends when every contraction that an active item has passed is applied; an `opa` is issued again when none is
still open. -/
def execAwaitCompletion (r : FragRef) (s : State) : Out :=
  match s.ctx? r.ctx, s.frag? r with
  | some c, some f =>
    match s.block? c.block, f.wait with
    | some b, some w =>
      match siteOf w.instr with
      | some x =>
        let opened := (c.instKeys x.t.blk f.mask).any fun k =>
          match (b.inst x.t.tile.val k).open? x.site.val with
          | some y => y.allPassed &&& c.instMask k f.mask != 0
          | none => false
        let ready := w.what == .await && f.state == .running
        match w.instr with
        | .await _ => event (ready && !c.unapplied b x.t x.site.val f.mask) (s.complete r false)
        | _ => event (ready && !opened) (s.updFrag r fun f => { f with wait := none })
      | none => .fault .notEnabled
    | _, _ => .fault .notEnabled
  | _, _ => .fault .notEnabled

end Sys2Proof.Machine
end

