-- ==== Sys2Proof/Machine/LocalMem.lean ====
section
/-! DEFINITION. Meanings of the local memory and synchronisation instructions but the span ones (opcodes 0xB0 to 0xB7, R325-R330),
of `ald` and `ast` (R324), and of their completion events. -/

namespace Sys2Proof.Machine

open Sys2Proof

/-! ### Access sizes (R224) -/

def szBytes : MSize → Nat
  | .i32 | .n32 => 4
  | .i64 | .n64 => 8
  | .i16 | .n16 => 2
  | .i8 | .n8 => 1
  | .quad => 16

/-- Registers of the data. -/
def szRegs : MSize → Nat
  | .i64 | .n64 => 2
  | .quad => 4
  | _ => 1

def szWide : MSize → Bool
  | .i64 | .n64 => true
  | _ => false

/-- A loaded value as register words, lowest register first. -/
def szWords (sz : MSize) (bs : List Byte) : List W32 :=
  match sz with
  | .i16 => [BitVec.ofInt 32 (sgnN 16 (natOfBytes bs))]
  | .i8 => [BitVec.ofInt 32 (sgnN 8 (natOfBytes bs))]
  | _ => (List.range (szRegs sz)).map fun k => BitVec.ofNat 32 (natOfBytes ((bs.drop (4 * k)).take 4))

def atomBytes (op : AtomOp) : Nat := if op.wide then 8 else 4

/-- What an RMW writes: old ⊕ b (R327, R340). -/
def atomApply (op : AtomOp) (old b : W64) : W64 :=
  match op with
  | .add t => int2 t (addE t) old b
  | .min t => int2 t (minE t) old b
  | .max t => int2 t (maxE t) old b
  | .exch _ => b
  | .and _ => old &&& b
  | .or _ => old ||| b
  | .xor _ => old ^^^ b
  | .fadd w => let f := if w then fp64 else fp32; BitVec.ofNat 64 (addF f .rne old.toNat b.toNat)

def atomFadd : AtomOp → Bool
  | .fadd _ => true
  | _ => false

/-! ### Address spaces (R13, R23, R24) -/

/-- The storage that an instruction names. -/
inductive Space where
  | shared
  | region (slot : Nat) (ent : RegionEnt)
  /-- an invalid handle -/
  | void

/-- Shared memory, or the region of a handle register on the issuing die. -/
def Env.space (e : Env) (h : Option (Fin 64)) : Space :=
  match h with
  | none => .shared
  | some n =>
    match e.s.regionOf e.die e.l (e.k n) with
    | some x => .region x.1 x.2
    | none => .void

def Env.spaceSize (e : Env) : Space → Nat
  | .shared => e.b.shSize
  | .region _ ent => ent.size
  | .void => 2 ^ 32

def State.readLocal (s : State) (block die : Nat) (sp : Space) (off n : Nat) : List Byte :=
  match sp with
  | .shared => ((s.block? block).map fun b => b.shared.readBytes off n).getD []
  | .region _ ent => s.readScratch die (ent.pos + off) n
  | .void => List.replicate n 0#8

/-- Where the bytes of a space lie. -/
def Space.place (block die : Nat) : Space → Option (MemSpace × Nat)
  | .shared => some (.shared block, 0)
  | .region _ ent => some (.scratch die, ent.pos)
  | .void => none

/-- A read by an agent that knows v. -/
def State.readLocalAt (s : State) (v : Horizon) (block die : Nat) (sp : Space) (off n pos : Nat) : List Byte × Sight :=
  match sp.place block die with
  | some p => s.readAt v p.1 (p.2 + off) n pos
  | none => (List.replicate n 0#8, Sight.none)

/-- What the read half of an RMW meets: it reads the latest write (R118). -/
def State.sightLocal (s : State) (block die : Nat) (sp : Space) (off n : Nat) : Sight :=
  match sp.place block die with
  | some p => s.sight p.1 (p.2 + off) n s.lastWrite
  | none => Sight.none

/-- A write of an agent. -/
def State.writeLocal (s : State) (w : Writer) (block die : Nat) (sp : Space) (off : Nat) (bs : List Byte) : State :=
  match sp with
  | .shared => s.writeSharedBy w block off bs
  | .region slot ent => s.storeRegionBy w die slot ent off bs
  | .void => s

/-- Words of which one instruction has written every byte, by several accesses, are no longer damaged (R98). -/
def State.mendLocal (s : State) (block die : Nat) (sp : Space) (at_ : List Nat) : State :=
  match sp with
  | .shared =>
    if ((s.block? block).map fun b => b.damage.isEmpty).getD true then s
    else s.updBlock block fun b => { b with damage := b.damage.filter fun w => !(wordsCovered at_).contains w }
  | .region _ ent => s.mendScratch die (at_.map fun a => ent.pos + a)
  | .void => s

/-- The source of R101 where bytes that are read hold a damaged word or a poisoned byte. -/
def State.badLocal (s : State) (block die : Nat) (sp : Space) (off n : Nat) : Option Nat :=
  match sp with
  | .shared =>
    if ((s.block? block).map fun b => b.damage.any fun w => decide (8 * w < off + n) && decide (off < 8 * w + 8)).getD false
    then some 3 else none
  | .region slot ent =>
    let d := s.die die
    let a := ent.pos + off
    if (d.damage.any fun w => decide (8 * w < a + n) && decide (a < 8 * w + 8)) then some 4
    else if ent.lined then
      match d.line? slot (off / 256) with
      | some x => if x.poison &&& lineBytes (off % 256) n = 0 then none else some 5
      | none => none
    else none
  | .void => none

/-! ### The accesses of one instruction -/

/-- One access: the items that it serves, its effective offset and its size. -/
structure Acc where
  items : Lanes
  off : Nat
  size : Nat

/-- The offsets of the bytes that accesses reach. -/
def accBytes (accs : List Acc) : List Nat := accs.flatMap fun a => (List.range a.size).map fun k => a.off + k

/-- Offsets of R15 for the items of a mask; one access for all of them where the address is UNI and `once` is set (R163). -/
def accsOf (A size : Nat) (a : Val) (imm : Int) (once : Bool) (p : Lanes) (n : Nat) : List Acc :=
  if once && a.isUni then (if p = 0 then [] else [⟨p, effAddr A size (a.at 0).toNat imm, size⟩])
  else (Lanes.list p n).map fun i => ⟨Lanes.single i, effAddr A size (a.at i).toNat imm, size⟩

/-- A context's own stores to a region that come before, or are, one to a byte of its accesses are performed first: per location its accesses are
in program order (R117). -/
def State.ownStores (s : State) (ctx die slot : Nat) (accs : List Acc) : State :=
  let mine := s.stores.filter fun p => p.ctx == ctx && p.die == die && p.slot == slot
  let hits (p : PStore) : Bool := p.bytes.any fun c => accs.any fun a => decide (a.off ≤ c.1) && decide (c.1 < a.off + a.size)
  s.performAll ((mine.reverse.dropWhile fun p => !hits p).reverse)

/-- Lines that accesses reach, with the bytes they need, ascending by first access. -/
def accLines (accs : List Acc) : List (Nat × BitVec 256) :=
  accs.foldl (fun l a =>
    let n := a.off / 256
    let m := lineBytes (a.off % 256) a.size
    if l.any fun x => x.1 == n then updFirst (fun x => x.1 == n) (fun x => (x.1, x.2 ||| m)) l else l ++ [(n, m)]) []

/-- The accesses to a region with lines: the state with what has been asked for, whether some line must be waited for, and
the lines at fault. -/
def Env.lineCheck (e : Env) (slot : Nat) (ent : RegionEnt) (rd wr : Bool) (lines : List (Nat × BitVec 256)) (s : State) :
    State × Bool × List (Nat × TFault) :=
  lines.foldl (fun x l =>
    match x.1.lineGo e.die slot ent l.1 e.c.core rd wr (if rd then l.2 else 0) e.r e.f.touched with
    | .ready => (x.1.useLine e.die slot l.1, x.2)
    | .wait s => (s, true, x.2.2)
    | .fault s f => (s, x.2.1, x.2.2 ++ [(l.1, f)])) (s, false, [])

/-- Items at fault, each with its first access to a line at a protection fault, else its first to a line at fault (R61). -/
def lineFaultsOf (accs : List Acc) (faults : List (Nat × TFault)) (ent : RegionEnt) (own : Bool) (h : W64) (n : Nat) :
    List ItemFault :=
  let first (i : Nat) (fs : List (Nat × TFault)) : Option ItemFault :=
    (accs.find? fun a => a.items.getLsbD i && fs.any fun f => f.1 == a.off / 256).bind fun a =>
      (fs.find? fun f => f.1 == a.off / 256).map fun f =>
        { pos := i, va := (ent.globalBase + BitVec.ofNat 64 a.off).toNat, fault := f.2, tcid := ent.tcid, own := own, handle := h }
  (List.range n).filterMap fun i => (first i (faults.filter fun f => f.2.isProtection)).or (first i faults)

/-- Every item at fault by the state of its stash region (R96). -/
def stashFaults (accs : List Acc) (ent : RegionEnt) (own : Bool) (h : W64) (p : Lanes) (n : Nat) : List ItemFault :=
  (Lanes.list p n).map fun i =>
    let off := ((accs.find? fun a => a.items.getLsbD i).map fun a => a.off).getD 0
    { pos := i, va := (ent.globalBase + BitVec.ofNat 64 off).toNat, fault := .protection, tcid := ent.tcid, own := own, handle := h }

/-- Does a stash region refuse the access (R96)? -/
def RegionEnt.refuses (ent : RegionEnt) (rd wr : Bool) : Bool :=
  ent.kind == .stash && ((rd && !ent.sealed) || (wr && ent.sealed))

/-- The 16 KiB pages that the accesses of a region reach, with the items that reach each. -/
def accPages (accs : List Acc) (ent : RegionEnt) : List (Nat × Lanes) :=
  accs.foldl (fun l a =>
    let n := (ent.globalBase + BitVec.ofNat 64 a.off).toNat / 2 ^ 14
    if l.any fun x => x.1 == n then updFirst (fun x => x.1 == n) (fun x => (x.1, x.2 ||| a.items)) l else l ++ [(n, a.items)]) []

/-- The accesses of an instruction to its space: waits for lines (R58, R78), then faults (R59, R61, R96), then the machine check of damaged
operands (R382), and invalid handles (R24); `k` goes on with the items that are left. Where the instruction vectors or parks, `lane` is what a lane
load or store does first for the items without a fault (R433; DEDUCED, log 129: whatever the routes of the faulting ones). A posted store is
ordered with the context's earlier ones when it is performed, any other access here (`direct`). -/
def Env.access (e : Env) (s : State) (sp : Space) (h : W64) (rd wr direct : Bool) (lane : Option (State → Lanes → State)) (p : Lanes) (accs : List Acc)
    (k : State → Lanes → State) : State :=
  match sp with
  | .shared => e.orCheck s (k s p)
  | .void => e.orCheck s (k (s.countInvalid e.l.tcid accs.length) p)
  | .region slot ent =>
    let accs := match e.hurt with
      | some _ => (accs.map fun a => { a with items := e.sound a.items }).filter fun a => a.items != 0
      | none => accs
    let s := if direct then s.ownStores e.c.id e.die slot accs else s
    let own := ent.tcid == e.l.tcid
    let src := if wr then 1 else 0
    let route (s : State) (faults : List ItemFault) : State :=
      let at_ := (accPages accs ent).flatMap fun x => (Lanes.list x.2 e.c.width).map fun i => (i, x.1 * 2 ^ 14)
      let rest := e.sound p &&& ~~~ Lanes.ofList (faults.map fun x => x.pos)
      let others : Option (State → State) := if rest = 0 then none else lane.map fun g s => g s rest
      let out := (s.settled e.r).routeAfter e.r src true 0 at_ others faults
      match out.2 with
      | none => out.1
      | some m => if out.1.goesOn e.r then e.orCheck out.1 (k out.1 (p &&& m)) else out.1
    if ent.refuses rd wr then route s (stashFaults accs ent own h (e.sound p) e.c.width)
    else if !ent.lined then e.orCheck s (k (s.settled e.r) p)
    else
      let out := e.lineCheck slot ent rd wr (accLines accs) s
      if out.2.1 then e.wait out.1 10 .retry
      else if !out.2.2.isEmpty then route out.1 (lineFaultsOf accs out.2.2 ent own h e.c.width)
      else e.orCheck out.1 (k (out.1.settled e.r) p)

/-- The words that accesses name, for the loop that reads them (R188). -/
def Env.noteLoads (e : Env) (s : State) (sp : Space) (accs : List Acc) : State :=
  if e.f.spin.regs.isNone then s
  else
    match sp with
    | .shared => accs.foldl (fun s a => s.noteLoad e.r (.shared e.b.id) a.off a.size) s
    | .region _ ent => accs.foldl (fun s a => s.noteLoad e.r (.scratch e.die) (ent.pos + a.off) a.size) s
    | .void => s

/-- Items that consume a damaged word, with the source and the offset of the first. -/
def Env.consumed (e : Env) (s : State) (sp : Space) (p : Lanes) (accs : List Acc) : Option (Lanes × Nat × Nat) :=
  let bad := accs.filterMap fun a => (s.badLocal e.b.id e.die sp a.off a.size).map fun n => (a, n)
  match bad with
  | [] => none
  | (a, n) :: _ =>
    let m := p &&& bad.foldl (fun m x => m ||| x.1.items) 0
    if m = 0 then none else some (m, n, a.off)

/-- The machine check of a local read (R98, R100). -/
def Env.localCheck (e : Env) (s : State) (sp : Space) (h : W64) (p : Lanes) (accs : List Acc) (k : State) : State :=
  match e.consumed s sp p accs with
  | some x => s.machineCheck e.r x.1 x.2.1 (x.2.2 + h.toNat % 2 ^ 32 * 2 ^ 32)
  | none => k

/-! ### Bank wavefronts (R75, R76) -/

/-- Ticks that one strip's accesses take: the largest count of words wanted of one bank; an RMW serves its items one by one. -/
def bankTicks (rmw : Bool) (accs : List Acc) : Nat :=
  let words := accs.flatMap fun a => (List.range ((a.size + 3) / 4)).map fun k => a.off / 4 + k
  let words := if rmw then words else words.eraseDups
  (List.range 32).foldl (fun m b => max m (words.filter fun w => w % 32 == b).length) 0

/-- Ticks of a shared-memory access, strip by strip. -/
def waveTicks (rmw : Bool) (strips : Nat) (accs : List Acc) : Nat :=
  max 1 (((List.range strips).map fun t => bankTicks rmw (accs.filter fun a => a.items &&& Lanes.strips t t != 0)).foldl (· + ·) 0)

def memImm (m : MemAddr) (size : Nat) : Int := m.disp.toInt * size

/-- The accesses of a lane memory instruction. -/
def Env.accs (e : Env) (m : MemAddr) (size : Nat) (sp : Space) (once : Bool) (p : Lanes) : List Acc :=
  accsOf (e.spaceSize sp) size (e.view.src false m.a) (memImm m size) once p e.c.width

/-- The ticks of a lane access: those after the first of each strip's wavefront wait for a bank (R76). -/
def Env.memCost (e : Env) (m : MemAddr) (size : Nat) (h : Option (Fin 64)) (once rmw : Bool) (g : Guard) : Cost :=
  match h with
  | some _ => costC 1
  | none =>
    let p := e.pass g
    let n := waveTicks rmw e.c.strips (e.accs m size .shared once p)
    { costC n with bank := n - ((List.range e.c.strips).filter fun t => Lanes.strip p t != 0).length }

/-- An acquire or a release that must follow the context's earlier `stw` (R113, R127). DEDUCED (log 117): a release of any scope waits for all of
them, whichever scope its partner has. -/
def Env.afterStores (e : Env) (rel : Bool) (k : State) : State :=
  if rel && !(State.storesOf e.s e.c.id).isEmpty then e.wait e.s 15 .retry else k

def orderRel : Order → Bool
  | .rel => true
  | .ar => true
  | _ => false

/-! ### Loads (R163, R326) -/

/-- The loaded words of each access, and from them one word list for each register of the destination. -/
def loadWords (accs : List (Acc × List W32)) (n k : Nat) : List W32 :=
  (List.range n).map fun i => ((accs.find? fun a => a.1.items.getLsbD i).map fun a => a.2.getD k 0).getD 0

/-- The value that the latches take: the first register, or the pair (R185). -/
def loadVal (wide : Bool) (uni : Option (List W32)) (ws : List (List W32)) : Val :=
  match uni with
  | some l => .uni (if wide then l.getD 1 0 ++ l.getD 0 0 else (l.getD 0 0).setWidth 64)
  | none =>
    let lo := ws.getD 0 []
    let hi := ws.getD 1 []
    .mat (lo.zipIdx.map fun x => if wide then hi.getD x.2 0 ++ x.1 else x.1.setWidth 64)

/-- What a load does for the items `p'`, but for moving on: the data is read now, of a moment that its context's view allows, and reaches its
registers at the load's return. -/
def Env.loadBody (e : Env) (x : LdsOp) (sp : Space) (all : List Acc) (s : State) (p' : Lanes) : State :=
  let V := e.view
  let accs := all.filter fun a => a.items &&& p' != 0
  let reads := accs.zipIdx.map fun a => (a.1, s.readLocalAt (s.knownBy e.r) e.b.id e.die sp a.1.off (szBytes x.sz) a.2)
  let got := reads.map fun a => (a.1, szWords x.sz a.2.1)
  let uni : Option (List W32) := match got with
    | [a] => if V.keeps x.g none && (V.src false x.m.a).isUni then some a.2 else none
    | _ => none
  let ws := (List.range (szRegs x.sz)).map fun k => loadWords got V.n k
  let dst := (List.range (szRegs x.sz)).map fun k =>
    match uni with
    | some l => (x.d.val + k, VTag.uni (l.getD k 0), [])
    | none => (x.d.val + k, VTag.mat, ws.getD k [])
  let y := V.masked (optOf x.g) p' (V.vec (szWide x.sz) x.d.val) (loadVal (szWide x.sz) uni ws)
  let R := V.file.shift y
  let s := e.put s R
  let pend : PendingLoad := { dst := dst, lanes := p', serial := e.f.region.serial, handler := e.inHandler, shift := R.regs.shifts }
  let s := s.updFrag e.r fun f => { f with loads := f.loads ++ [pend] }
  let s : State := { s with freeCtr := s.freeCtr + 1 }
  let met := reads.foldl (fun y a => y.append a.2.2) Sight.none
  s.saw e.r (if x.acq then some x.scope else none) { met with heads := (met.heads ++ e.f.filled).eraseDups }

/-- A load from a space. -/
def Env.load (e : Env) (x : LdsOp) (h : Option (Fin 64)) : State :=
  e.unlessFalse x.g fun p =>
    let sp := e.space h
    let hv := e.kOpt h
    let accs := e.accs x.m (szBytes x.sz) sp true p
    let checked (fin : State → State) (s : State) (p' : Lanes) : State :=
      let s := e.noteLoads s sp accs
      e.localCheck s sp hv p' accs (fin (e.loadBody x sp accs s p'))
    e.access e.s sp hv true false true (some (checked id)) p accs (checked e.done)

def ldUses (x : LdsOp) : List VUse := [⟨x.d.val, (szRegs x.sz), (szWide x.sz), true, none⟩] ++ useSrc false x.m.a

def execLds (x : LdsOp) (s : State) : Out :=
  issueK (.lds x) s (ldUses x) (fun e => e.memCost x.m (szBytes x.sz) none true false x.g) fun e => e.load x none

def execLdw (x : LdwOp) (s : State) : Out :=
  issue (.ldw x) s (ldUses x.x) (costC 1) fun e => e.load x.x (some x.h)

/-- A load's words among the inputs of a region. -/
def landIn (n : Nat) (own : Lanes) (l : PendingLoad) (sn : RegionSnap) : RegionSnap :=
  let one (x : Nat × (VTag × List W32)) : Nat × (VTag × List W32) :=
    match l.dst.find? fun d => d.1 == x.1 with
    | some d => (x.1, mergeLoad n own l.lanes x.2.1 x.2.2 d.2.1 d.2.2)
    | none => x
  { sn with vregs := sn.vregs.map one }

/-- The same in the inputs of a region that did not issue the load itself: it opened later, or a handler issued the load. -/
def patchSnap (n : Nat) (own : Lanes) (l : PendingLoad) (r : Region) : Region :=
  if r.serial = l.serial && !l.handler then r else { r with snap := landIn n own l r.snap }

/-- What vectoring kept, when a load's data returns in the handler: a load issued before it counts as no write of the handler (R63). -/
def Shadow.landed (n : Nat) (own : Lanes) (l : PendingLoad) (sh : Shadow) : Shadow :=
  { sh with region := patchSnap n own l sh.region, held := landIn n own l sh.held }

/-- The registers of a load, written. -/
def Frag.loadWrite (c : Ctx) (f : Frag) (l : PendingLoad) : RegFile :=
  l.dst.foldl (fun (R : RegFile) d =>
    let x := mergeLoad c.width f.mask l.lanes (SMap.getD R.regs.vtags d.1 (.uni 0)) (SMap.getD R.mat d.1 []) d.2.1 d.2.2
    match x.1 with
    | .mat =>
      { regs := { R.regs with vtags := SMap.set R.regs.vtags d.1 .mat }
        mat := matSet c.width f.mask R.mat d.1 x.2 }
    | t => R.setTag d.1 t) ⟨f.regs, c.mat⟩

/-- A load's data reaches a fragment: its registers, and the inputs of its region. The registers of a fragment that is cut are its children's. -/
def Ctx.landOn (l : PendingLoad) (c : Ctx) (f : Frag) : Ctx :=
  let R : RegFile := if f.hasChildren then ⟨f.regs, c.mat⟩ else f.loadWrite c l
  let shadow : Option Shadow := f.shadow.map fun sh => sh.landed c.width f.mask l
  let f' : Frag :=
    { f with regs := R.regs, loads := dropFirst (fun x => x == l) f.loads, region := patchSnap c.width f.mask l f.region, shadow := shadow }
  { c with mat := R.mat }.setFrag f'

/-- A load's data returns, to every fragment that awaits it since a cut (R172, R174). -/
def Ctx.land (c : Ctx) (l : PendingLoad) : Ctx :=
  ((c.frags.filter fun f => f.loads.contains l).foldl (Ctx.landOn l) c).ownWrote (fun r => l.dst.any fun d => d.1 == r) l.lanes

/-- `LOAD_DATA_RETURN` (R77): the oldest load of the fragment; what waits for it is issued again. -/
def execLoadDataReturn (r : FragRef) (s : State) : Out :=
  match s.ctx? r.ctx, s.frag? r with
  | some c, some f =>
    match f.loads with
    | [] => .fault .notEnabled
    | l :: _ => .next ((shSync (s.setCtx (c.land l)) c.id).wakeRetry)
  | _, _ => .fault .notEnabled

/-! ### Stores (R17, R77, R326) -/

/-- The bytes that an item stores. -/
def View.storeBytes (V : View) (sz : MSize) (b : Src) (i : Nat) : List Byte :=
  match sz, b with
  | .quad, .v n => (List.range 4).flatMap fun k => bytesN 4 (V.word (n.val + k) i).toNat
  | .quad, _ => List.replicate 16 0#8
  | _, _ => bytesN (szBytes sz) ((V.src (szWide sz) b).at i).toNat

def stUses (x : StsOp) : List VUse :=
  (match x.b with
    | .v n => [⟨n.val, (szRegs x.sz), (szWide x.sz), false, none⟩]
    | _ => []) ++ useSrc false x.m.a

/-- The position of an access that serves one item. -/
def Acc.pos (a : Acc) : Nat := (Lanes.lowest a.items).getD 0

def execSts (x : StsOp) (s : State) : Out :=
  issueK (.sts x) s (stUses x) (fun e => e.memCost x.m (szBytes x.sz) none false false x.g) fun e =>
    e.guarded x.g fun p =>
      e.afterStores x.rel
        (let V := e.view
         let accs := e.accs x.m (szBytes x.sz) .shared false p
         let w : Writer := ⟨e.r.agent, true, e.s.headsOf e.r (if x.rel then some x.scope else none)⟩
         let s := accs.foldl (fun s a => s.writeSharedBy w e.b.id a.off (V.storeBytes x.sz x.b a.pos)) e.s
         e.done (s.mendLocal e.b.id e.die .shared (accBytes accs)))

/-- What an `stw` does for the items `p'`, but for moving on: a command on `sp`, and the posted bytes. -/
def Env.stwBody (e : Env) (x : StwOp) (sp : Space) (accs : List Acc) (s : State) (p' : Lanes) : State :=
  let cmd := Cmd.new s.nextId e.c e.f e.l.tcid 0 .sp (.sp p') e.f.pc 0
  match sp with
  | .region slot _ =>
    if p' = 0 then s
    else
      let bytes := (accs.filter fun a => p'.getLsbD a.pos).flatMap fun a =>
        (e.view.storeBytes x.x.sz x.x.b a.pos).zipIdx.map fun y => (a.off + y.2, y.1)
      let st : PStore :=
        { id := s.nextId + 1, ctx := e.c.id, frag := e.f.id, cmd := cmd.id, die := e.die, slot := slot
          gen := SMap.getD (s.die e.die).gens slot 0, bytes := bytes
          heads := s.headsOf e.r (if x.x.rel then some x.x.scope else none) }
      let s := s.commitCmd { cmd with pending := 1 }
      { s with nextId := s.nextId + 1, stores := s.stores ++ [st] }
  | _ => s.commitCmd cmd

/-- `stw` is posted: it raises `sp`, and its bytes are in the region when it is performed. -/
def execStw (x : StwOp) (s : State) : Out :=
  issue (.stw x) s (stUses x.x) (costC 1) fun e =>
    e.guarded x.x.g fun p =>
      e.afterStores x.x.rel
        (if 4095 ≤ e.c.counter .sp then e.wait e.s 15 .retry
         else
           let sp := e.space (some x.h)
           let accs := e.accs x.x.m (szBytes x.x.sz) sp false p
           e.access e.s sp (e.k x.h) false true false (some (e.stwBody x sp accs)) p accs fun s p' => e.done (e.stwBody x sp accs s p'))

/-! ### `atom` and `cas` (R327, R328) -/

/-- How an RMW and its failed form are ordered (R108, R109): the scope that a read acquires at, by whether the write was made, and that of a
release. -/
structure RmwOrder where
  acq : Option Scope
  failAcq : Option Scope
  rel : Option Scope

/-- Items in ascending item index: the new bytes of an item, if any, from its old ones; the answer gives the old values. An RMW joins the release
chain of what it reads (R113). -/
def State.rmwAll (s : State) (r : FragRef) (filled : List Head) (block die : Nat) (sp : Space) (o : RmwOrder) (f : Nat → W64 → Option W64) :
    List Acc → State × List (Nat × W64)
  | [] => (s, [])
  | a :: rest =>
    let old : W64 := BitVec.ofNat 64 (natOfBytes (s.readLocal block die sp a.off a.size))
    let met := s.sightLocal block die sp a.off a.size
    let all : Sight := { met with heads := (met.heads ++ filled).eraseDups }
    let s := match f a.pos old with
      | some x =>
        let s := s.saw r o.acq all
        s.writeLocal ⟨r.agent, true, (met.heads ++ s.headsOf r o.rel).eraseDups⟩ block die sp a.off (bytesN a.size x.toNat)
      | none => s.saw r o.failAcq all
    let out := State.rmwAll s r filled block die sp o f rest
    (out.1, (a.pos, old) :: out.2)

def orderAcq : Order → Bool
  | .acq => true
  | .ar => true
  | _ => false

/-- The order of an `atom` or `cas`. -/
def rmwOrder (order : Order) (failAcq : Bool) (sc : Scope) : RmwOrder :=
  let at_ (b : Bool) : Option Scope := if b then some sc else none
  ⟨at_ (orderAcq order), at_ failAcq, at_ (orderRel order)⟩

/-- The common part of `atom` and `cas`: MAT result, commit. -/
def Env.rmw (e : Env) (g : Guard) (o : RmwOrder) (h : Option (Fin 64)) (d : Option (Fin 384)) (m : MemAddr) (wide : Bool)
    (f : Nat → W64 → Option W64) : State :=
  e.unlessFalse g fun p =>
    e.afterStores o.rel.isSome
      (let sp := e.space h
       let size := if wide then 8 else 4
       let accs := e.accs m size sp false p
       e.access e.s sp (e.kOpt h) true true true none p accs fun s p' =>
         let s := e.noteLoads s sp accs
         let accs := accs.filter fun a => p'.getLsbD a.pos
         e.localCheck s sp (e.kOpt h) p' accs
           (let V := e.view
            let f' (i : Nat) (old : W64) : Option W64 := match sp with
              | .void => none
              | _ => f i old
            let out := s.rmwAll e.r e.f.filled e.b.id e.die sp o f' accs
            let x := Val.mat ((List.range V.n).map fun i => ((out.2.find? fun y => y.1 == i).map fun y => y.2).getD 0)
            let dst : Dst := match d with
              | some n => .v n
              | none => .zero
            e.doneCommit (e.put out.1 (V.write V.file (optOf g) p' dst wide false x))))

def useOpt (wide : Bool) : Option (Fin 384) → List VUse
  | some n => [useD wide n]
  | none => []

def execAtom (x : AtomInstr) (s : State) : Out :=
  issueK (.atom x) s (useOpt x.op.wide x.d ++ useSrc x.op.wide x.b ++ useSrc false x.m.a)
    (fun e => e.memCost x.m (atomBytes x.op) x.h false true x.g) fun e =>
      if e.l.det && atomFadd x.op then
        e.guarded x.g fun p =>
          let s := e.s.faultItems e.r 8 p 0 fun _ => 0
          if s.goesOn e.r then e.orCheck s (e.done s) else s
      else e.rmw x.g (rmwOrder x.order false x.scope) x.h x.d x.m x.op.wide fun i old => some (atomApply x.op old ((e.view.src x.op.wide x.b).at i))

def execCas (x : CasInstr) (s : State) : Out :=
  let w := x.ty.wide
  issueK (.cas x) s (useOpt w x.d ++ useSrc w x.b ++ useSrc w x.swap ++ useSrc false x.m.a)
    (fun e => e.memCost x.m (if w then 8 else 4) x.h false true x.g) fun e =>
      e.rmw x.g (rmwOrder x.order x.failAcq x.scope) x.h x.d x.m w fun i old =>
        if old = (e.view.src w x.b).at i then some ((e.view.src w x.swap).at i) else none

/-! ### `fence` and `wait` (R127-R130, R329, R330) -/

def scopePod : Scope → Bool
  | .pod => true
  | _ => false
def scopeHost : Scope → Bool
  | .sys => true
  | .pod => true
  | _ => false

/-- What a fence of a scope gathers and what stays pending (R128, R129). -/
def Outcomes.gather (o : Outcomes) (sc : Scope) : W64 × Outcomes :=
  let dead := sat16 ((if scopePod sc then o.deadPod else 0) + if scopeHost sc then o.deadHost else 0)
  let ref := sat16 o.refused
  let err := sat16 o.uerr
  (BitVec.ofNat 64 ((if dead = 0 then 0 else 2 ^ 63) + (if ref = 0 then 0 else 2 ^ 62) + (if err = 0 then 0 else 2 ^ 61) +
      dead * 2 ^ 32 + ref * 2 ^ 16 + err),
   { uerr := 0, refused := 0, deadPod := if scopePod sc then 0 else o.deadPod, deadHost := if scopeHost sc then 0 else o.deadHost })

/-- The effect of a completing fence: its place among the views, the status word, and the latches. -/
def State.fenceDone (s : State) (r : FragRef) (x : FenceOp) : State :=
  let s := s.fenceViews r (orderAcq x.order) (orderRel x.order) x.scope
  match s.ctx? r.ctx with
  | none => s
  | some c =>
    let out := c.outcomes.gather x.scope
    let put (f : Frag) : Frag :=
      let R : RegFile := ⟨f.regs, c.mat⟩
      { f with regs := (match x.d with
          | some k => R.putK k x.nw out.1
          | none => R.shift (.uni out.1)).regs }
    (s.setCtx { c with outcomes := out.2 }).updFrag r put

def execFence (x : FenceOp) (s : State) : Out :=
  issue (.fence x) s [] (costC 1) fun e =>
    e.guarded x.g fun _ =>
      if orderRel x.order && !(State.storesOf e.s e.c.id).isEmpty then e.wait e.s 15 .fence
      else e.doneCommit (e.s.fenceDone e.r x)

/-- `FENCE_COMPLETION`. -/
def execFenceCompletion (r : FragRef) (s : State) : Out :=
  match (s.frag? r).bind fun f => f.wait with
  | some w =>
    match w.instr with
    | .fence x => event ((s.storesOf r.ctx).isEmpty && w.what == .fence) (((s.fenceDone r x).markCommit r).complete r true)
    | _ => .fault .notEnabled
  | none => .fault .notEnabled

/-- The stall reason of `wait` (R330). -/
def pathReason : Path → Nat
  | .sh => 6
  | .sp => 6
  | .cp => 7
  | .ga => 7
  | .xa => 15
  | .co => 15

/-- The counter is at most the bound (R85). -/
def Ctx.waitOver (c : Ctx) (f : Frag) (x : WaitOp) : Bool :=
  let bound := match x.bound with
    | some n => f.regs.k[n].toNat
    | none => 0
  decide (c.counter x.path ≤ bound)

def execWait (x : WaitOp) (s : State) : Out :=
  issue (.wait x) s [] (costC 1) fun e =>
    e.guarded x.g fun _ => if e.c.waitOver e.f x then e.done (e.s.takeUp e.r x.path) else e.wait e.s (pathReason x.path) .counter

/-- `WAIT_COMPLETION`. -/
def execWaitCompletion (r : FragRef) (s : State) : Out :=
  match s.ctx? r.ctx, s.frag? r with
  | some c, some f =>
    match f.wait with
    | some w =>
      match w.instr with
      | .wait x => event (c.waitOver f x && w.what == .counter) ((s.takeUp r x.path).complete r false)
      | _ => .fault .notEnabled
    | none => .fault .notEnabled
  | _, _ => .fault .notEnabled

/-! ### `ald` and `ast` (R324) -/

def tileOpOf (x : TileMem) : TileOp := ⟨x.tile, x.blk, x.g⟩

/-- The instances that the items of a mask reach: instance, its items, and its t. -/
def Env.tileParts (e : Env) (blk : Bool) (p : Lanes) : List (Option Nat × Lanes × Nat) :=
  if blk then [(none, p, 0)]
  else ((List.range e.c.strips).filter fun t => Lanes.strip p t != 0).map fun t =>
    (some (e.c.stripKey t), p &&& Lanes.strips t t, e.c.posBase / 64 + t)

/-- The accesses of one instance, words ascending. -/
def Env.tileAccs (e : Env) (x : TileMem) (sp : Space) (t : Option Nat × Lanes × Nat) : List Acc :=
  let base := (e.kOpt x.a).toNat
  let imm : Int := x.disp.toInt * 16 + 4096 * t.2.2
  (List.range 1024).map fun w => ⟨t.2.1, effAddr (e.spaceSize sp) 4 base (imm + 4 * w), 4⟩

def Env.tileMove (e : Env) (x : TileMem) (store : Bool) (k : State → Space → Lanes → State) : State :=
  if !e.tileOk (tileOpOf x) then e.illegal
  else e.guarded x.g fun p =>
    let sp := e.space x.h
    let accs := (e.tileParts x.blk p).flatMap fun t => e.tileAccs x sp t
    e.access e.s sp (e.kOpt x.h) (!store) store true none p accs fun s p' =>
      if store then k s sp p' else e.localCheck s sp (e.kOpt x.h) p' accs (k s sp p')

def execAld (x : TileMem) (s : State) : Out :=
  issue (.ald x) s [] (costC 1) fun e =>
    e.tileMove x false fun s sp p =>
      let one (s : State) (t : Option Nat × Lanes × Nat) : State :=
        let inst := ((s.block? e.b.id).getD e.b).inst x.tile.val t.1
        let ws := (e.tileAccs x sp t).map fun a => natOfBytes (s.readLocal e.b.id e.die sp a.off 4)
        let put (i : TileInst) (y : Nat × Nat) : TileInst := i.setWord y.2 (BitVec.ofNat 32 y.1)
        s.setInst e.b.id { ws.zipIdx.foldl put inst with damage := [] }
      e.done (((e.tileParts x.blk p).foldl one s).knowAll e.r)

def execAst (x : TileMem) (s : State) : Out :=
  issue (.ast x) s [] (costC 1) fun e =>
    e.tileMove x true fun s sp p =>
      let inst (t : Option Nat × Lanes × Nat) : TileInst := e.b.inst x.tile.val t.1
      let bad := (e.tileParts x.blk p).filterMap fun t => ((inst t).hurtWord fun _ => true).map fun w => (t.2.1, w)
      if !bad.isEmpty then e.tileCheck s (bad.foldl (fun m y => m ||| y.1) 0) ((bad.map fun y => y.2).headD 0)
      else
        let one (s : State) (t : Option Nat × Lanes × Nat) : State :=
          (e.tileAccs x sp t).zipIdx.foldl (fun s a =>
            s.writeLocal ⟨e.r.agent, true, e.f.rel⟩ e.b.id e.die sp a.1.off (bytesN 4 ((inst t).readWord e.s.freeCtr (1024 * t.2.2) a.2).toNat)) s
        let s := (e.tileParts x.blk p).foldl one s
        e.done (s.mendLocal e.b.id e.die sp (accBytes ((e.tileParts x.blk p).flatMap fun t => e.tileAccs x sp t)))

end Sys2Proof.Machine
end

