-- ==== Sys2Proof/Machine/Spans.lean ====
section
/-! DEFINITION. Meanings of the spill-stack and region instructions (opcodes 0xB8 to 0xBE, R331-R333), with the record format of
R72 and R73. -/

namespace Sys2Proof.Machine

open Sys2Proof

/-! ### Record groups (R72, R73) -/

/-- Little-endian bytes of a word. -/
def wordBytes (x : Nat) : List Byte := bytesN 4 x

/-- A format byte and its payload. -/
structure SpillRec where
  fmt : Nat
  data : List Byte

/-- The record of 64 values, in the smallest format that holds every delta. -/
def matRec (vals : List W32) : SpillRec :=
  let base := vals.headD 0
  let ds := vals.map fun v => (v - base).toInt
  if ds.all fun d => decide (-128 ≤ d) && decide (d < 128) then
    ⟨2, wordBytes base.toNat ++ ds.map fun d => BitVec.ofInt 8 d⟩
  else if ds.all fun d => decide (-32768 ≤ d) && decide (d < 32768) then
    ⟨3, wordBytes base.toNat ++ ds.flatMap fun d => bytesN 2 (wrapN 16 d)⟩
  else ⟨4, vals.flatMap fun v => wordBytes v.toNat⟩

/-- Does lane j of strip t hold an item that exists (R5)? -/
def Ctx.existsAt (c : Ctx) (b : Block) (i : Nat) : Bool :=
  match c.items with
  | some m => decide (i < Lanes.count m)
  | none => b.exists_.getLsbD (64 * c.firstStrip + i)

/-- The record of a register for strip t; `lo` and `hi` bound the group. -/
def Env.spillRec (e : Env) (lo hi t r : Nat) : SpillRec :=
  let V := e.view
  let at0 (st : W64) (b : W64) : W64 := b + st * BitVec.ofNat 64 (64 * t)
  let mat : SpillRec :=
    let base := V.word r (64 * t)
    matRec ((List.range 64).map fun j => if e.c.existsAt e.b (64 * t + j) then V.word r (64 * t + j) else base)
  let paired (q : Nat) : Bool := decide (lo ≤ q) && decide (q ≤ hi)
  match SMap.getD V.regs.vtags r (.uni 0) with
  | .uni v => ⟨0, wordBytes v.toNat⟩
  | .aff b st => ⟨1, wordBytes (b + st * BitVec.ofNat 32 (64 * t)).toNat ++ wordBytes st.toNat⟩
  | .affLo b st =>
    if paired (r + 1) && SMap.getD V.regs.vtags (r + 1) (.uni 0) == .affHi b st then
      ⟨0x81, wordBytes (at0 st b).toNat ++ wordBytes st.toNat⟩
    else mat
  | .affHi b st =>
    if paired (r - 1) && SMap.getD V.regs.vtags (r - 1) (.uni 0) == .affLo b st then
      ⟨0x81, wordBytes ((at0 st b).toNat / 2 ^ 32) ++ wordBytes (st.toNat / 2 ^ 32)⟩
    else mat
  | .mat => mat

/-- The whole group of a strip. -/
def Env.spillGroup (e : Env) (lo hi t : Nat) : List Byte :=
  let n := hi + 1 - lo
  let recs := (List.range n).map fun k => e.spillRec lo hi t (lo + k)
  let fmts := (recs.map fun r => BitVec.ofNat 8 r.fmt) ++ List.replicate ((4 - n % 4) % 4) 0#8
  let body := fmts ++ recs.flatMap fun r => r.data
  let head := wordBytes ((body.length + 8) * 2 ^ 16 + (n - 1) * 2 ^ 9 + lo)
  head ++ body ++ head

/-- Strips that the fragment covers. -/
def Frag.strips' (f : Frag) : List Nat := (List.range (f.last + 1 - f.first)).map fun k => f.first + k

/-- The record groups on the stack of a strip. -/
def Env.stack (e : Env) (t : Nat) : List Byte := e.b.spill.getD (e.c.firstStrip + t) []

def ticks16 (n : Nat) : Nat := (n + 15) / 16

/-- A full or short stack: a protection fault on every active item, with the position of its strip's stack (R20). -/
def Env.stackFault (e : Env) : State := e.s.faultItems e.r 4 e.f.mask 0 fun i => 2 ^ 63 + e.stackPos (i / 64)

/-- The 8-byte words of a strip's stack from one position to another. -/
def stackWords (lo hi : Nat) : List Nat := (List.range ((hi + 7) / 8)).filter fun w => decide (lo < 8 * w + 8)

/-- Words of a strip's stack that n bytes from a position write whole are no longer damaged (R98). -/
def Block.mendStack (b : Block) (t pos n : Nat) : Block :=
  let clear := coveredWords pos n
  { b with spillDamage := b.spillDamage.filter fun d => !(d.1 == t && clear.contains d.2) }

/-- Put a strip's stack. -/
def Block.setStack (b : Block) (t : Nat) (bs : List Byte) : Block :=
  { b with spill := (List.range (max b.spill.length (t + 1))).map fun k => if k = t then bs else b.spill.getD k [] }

def spillUse (lo hi : Fin 384) (wr : Bool) : List VUse := [⟨lo.val, hi.val + 1 - lo.val, false, wr, none⟩]

/-- `push` (R72, R331); the region ends. -/
def execPush (lo hi : Fin 384) (s : State) : Out :=
  issueK (.push lo hi) s (spillUse lo hi false)
    (fun e => costC (max 1 ((e.f.strips'.map fun t => ticks16 (e.spillGroup lo.val hi.val t).length).foldl (· + ·) 0))) fun e =>
      let groups := e.f.strips'.map fun t => (t, e.spillGroup lo.val hi.val t)
      if groups.any fun g => decide (e.l.hdr.spill < e.stackPos g.1 + g.2.length) then e.stackFault
      else
        e.doneEnd (e.s.updBlock e.b.id fun b =>
          groups.foldl (fun b g =>
            let t := e.c.firstStrip + g.1
            let st := b.spill.getD t []
            (b.setStack t (st ++ g.2)).mendStack t st.length g.2.length) b)

/-! ### Groups as `pop` reads them (R74) -/

/-- The group on top of a stack: first register, records and length. -/
def topGroup (bs : List Byte) : Option (Nat × List SpillRec × Nat) :=
  if bs.length < 4 then none
  else
    let tr := natOfBytes (bs.drop (bs.length - 4))
    let len := bitsN tr 16 16
    let n := bitsN tr 9 5 + 1
    if bs.length < len ∨ len < 8 then none
    else
      let g := bs.drop (bs.length - len)
      let fmts := ((g.drop 4).take n).map fun b => b.toNat
      let size (f : Nat) : Nat := if f = 0 then 4 else if f = 1 ∨ f = 0x81 then 8 else if f = 2 then 68 else if f = 3 then 132 else 256
      let recs := fmts.foldl (fun (x : List SpillRec × List Byte) f =>
        (x.1 ++ [⟨f, x.2.take (size f)⟩], x.2.drop (size f))) ([], g.drop (4 + (n + 3) / 4 * 4))
      some (bitsN tr 0 9, recs.1, len)

/-- The records on a stack, group after group from the top; every group takes some bytes of it. -/
def recordsOn : Nat → List Byte → Nat
  | 0, _ => 0
  | k + 1, bs =>
    match topGroup bs with
    | none => 0
    | some g => g.2.1.length + recordsOn k (bs.take (bs.length - g.2.2))

/-- The tag that a record restores, for strip t; `other` is the record of the pair's other register. -/
def recTag (t r : Nat) (x : SpillRec) (other : Option SpillRec) : VTag :=
  let w (k : Nat) (y : SpillRec) : Nat := natOfBytes ((y.data.drop (4 * k)).take 4)
  if x.fmt = 0 then .uni (BitVec.ofNat 32 (w 0 x))
  else if x.fmt = 1 then
    let st := BitVec.ofNat 32 (w 1 x)
    .aff (BitVec.ofNat 32 (w 0 x) - st * BitVec.ofNat 32 (64 * t)) st
  else if x.fmt = 0x81 then
    match other with
    | none => .mat
    | some y =>
      let even := r % 2 == 0
      let lo := if even then x else y
      let hi := if even then y else x
      let st := BitVec.ofNat 64 (w 1 lo + 2 ^ 32 * w 1 hi)
      let b := BitVec.ofNat 64 (w 0 lo + 2 ^ 32 * w 0 hi) - st * BitVec.ofNat 64 (64 * t)
      if even then .affLo b st else .affHi b st
  else .mat

/-- The 64 values of a MAT record. -/
def recMat (x : SpillRec) : List W32 :=
  let base := BitVec.ofNat 32 (natOfBytes (x.data.take 4))
  if x.fmt = 2 then (x.data.drop 4).map fun b => base + BitVec.ofInt 32 (sgnN 8 b.toNat)
  else if x.fmt = 3 then
    (List.range 64).map fun j => base + BitVec.ofInt 32 (sgnN 16 (natOfBytes ((x.data.drop (4 + 2 * j)).take 2)))
  else (List.range 64).map fun j => BitVec.ofNat 32 (natOfBytes ((x.data.drop (4 * j)).take 4))

/-- A register's records, one for each strip that has one: strip, tag and values. -/
def recsOf (groups : List (Nat × Nat × List SpillRec)) (r : Nat) : List (Nat × VTag × List W32) :=
  groups.filterMap fun g =>
    if g.2.1 ≤ r ∧ r < g.2.1 + g.2.2.length then
      (g.2.2[r - g.2.1]?).map fun x =>
        let q := if r % 2 = 0 then r + 1 else r - 1
        let other := if g.2.1 ≤ q then g.2.2[q - g.2.1]? else none
        (g.1, recTag g.1 r x other, recMat x)
    else none

/-- One register restored: its tag where every strip agrees, else MAT with each strip's own values. -/
def Env.restoreReg (e : Env) (groups : List (Nat × Nat × List SpillRec)) (R : RegFile) (r : Nat) : RegFile :=
  let V := e.view
  let recs := recsOf groups r
  match recs with
  | [] => R
  | x :: rest =>
    let same := recs.length == groups.length && x.2.1 != .mat && rest.all fun y => y.2.1 == x.2.1
    if same then R.setTag r x.2.1
    else
      V.setMat R r ((List.range V.n).map fun i =>
        match recs.find? fun y => y.1 == i / 64 with
        | some y =>
          match y.2.1 with
          | .mat => y.2.2.getD (i % 64) 0
          | t => tagWordAt t [] i
        | none => V.word r i)

/-- The partner of a restored register, left in the file as half of an AFF pair, becomes MAT. -/
def Env.splitPair (e : Env) (regs : List Nat) (R : RegFile) (r : Nat) : RegFile :=
  let V := e.view
  let q := if r % 2 = 0 then r + 1 else r - 1
  if regs.contains q then R
  else
    match SMap.getD R.regs.vtags q (.uni 0) with
    | .affLo _ _ => V.setMat R q ((List.range V.n).map fun i => V.word q i)
    | .affHi _ _ => V.setMat R q ((List.range V.n).map fun i => V.word q i)
    | _ => R

/-- `pop` (R74, R331, R332) removes the group on top of each stack, of whatever length, and faults where a stack holds fewer records
than it names (R20); the latches take the first register restored. A damaged word of a group gives the items of its strip a machine check
(R98), with its offset in the block's spill area (DEDUCED, log 33). -/
def execPop (lo hi : Fin 384) (s : State) : Out :=
  issueK (.pop lo hi) s (spillUse lo hi true)
    (fun e => costC (max 1 ((e.f.strips'.map fun t => ticks16 (((topGroup (e.stack t)).map fun g => g.2.2).getD 0)).foldl (· + ·) 0)))
    fun e =>
      let tops := e.f.strips'.map fun t => (t, topGroup (e.stack t))
      let short := e.f.strips'.any fun t => decide (recordsOn (e.stack t).length (e.stack t) < hi.val + 1 - lo.val)
      let bad := tops.filterMap fun g =>
        let n := (e.stack g.1).length
        let read := stackWords (n - (g.2.map fun x => x.2.2).getD 0) n
        (e.b.spillDamage.find? fun d => d.1 == e.c.firstStrip + g.1 && read.contains d.2).map fun d => (g.1, d)
      if short then e.stackFault
      else if !bad.isEmpty then
        let d := (bad.map fun y => y.2).headD (0, 0)
        e.s.machineCheck e.r (bad.foldl (fun m y => m ||| (e.f.mask &&& Lanes.strips y.1 y.1)) 0) 3 (e.l.hdr.spill * d.1 + 8 * d.2)
      else
        let groups := tops.filterMap fun g => g.2.map fun x => (g.1, x.1, x.2.1)
        let regs := (List.range 384).filter fun r => groups.any fun g => decide (g.2.1 ≤ r) && decide (r < g.2.1 + g.2.2.length)
        let R := regs.foldl (e.restoreReg groups) e.view.file
        let R := regs.foldl (e.splitPair regs) R
        let first := View.v32 { e.view with regs := R.regs, mat := R.mat } (regs.headD 0)
        let s := e.put e.s (R.shift first)
        e.doneEnd (s.updBlock e.b.id fun b =>
          tops.foldl (fun b g =>
            let st := b.spill.getD (e.c.firstStrip + g.1) []
            b.setStack (e.c.firstStrip + g.1) (st.take (st.length - ((g.2.map fun x => x.2.2).getD 0)))) b)

/-! ### Regions (R333) -/

/-- The line numbers of a set: the whole region, or the lines that a wrapped range of bytes touches. -/
def lineSet (size off len : Nat) (whole : Bool) (n : Nat) : Bool :=
  let lines := size / 256
  if whole || decide (size ≤ len) then decide (n < lines)
  else if len = 0 then false
  else
    let o := off % size
    decide (n < lines) && decide ((n + lines - o / 256) % lines ≤ (o % 256 + len - 1) / 256)

/-- A region instruction: nothing through an invalid handle, a protection fault on a region of the wrong kind. -/
def Env.onRegion (e : Env) (h : Fin 64) (g : Guard) (ok : RegionEnt → Bool) (done : State → State)
    (k : Nat → RegionEnt → Lanes → State) : State :=
  e.guarded g fun p =>
    match e.s.regionOf e.die e.l (e.k h) with
    | none => e.orCheck e.s (done (e.s.countInvalid e.l.tcid 1))
    | some x =>
      if ok x.2 then e.orCheck e.s (k x.1 x.2 p)
      else
        let s := e.s.faultItems e.r 4 p 0 fun _ => ((e.k h) ||| BitVec.ofNat 64 (2 ^ 59)).toNat
        if s.goesOn e.r then e.orCheck s (done s) else s

/-- The kinds that `runmap` and `rwb` take. -/
def RegionEnt.mappedOrStash (e : RegionEnt) : Bool := e.kind == .mapped || e.kind == .stash

/-- Every line of a region is dropped. -/
def Die.dropLines (d : Die) (slot : Nat) : Die :=
  { d with lines := d.lines.filter fun x => x.slot != slot
           lineReqs := d.lineReqs.filter fun x => x.slot != slot }

/-- The lines of a region go; fills that waited for them are over. -/
def State.dropLines (s : State) (die slot : Nat) : State :=
  ({ s with cmds := s.cmds.map fun (c : Cmd) => if c.writers.contains (die, slot) then { c with waiting := [] } else c }.updDie die
    fun d => Die.dropLines d slot).wakeRetry

/-- All posted stores to a region are performed, whoever made them. -/
def State.settleRegion (s : State) (die slot : Nat) : State := s.performAll (s.storesTo die slot none)

/-- The region instruction's line set from its operands. -/
def Env.lineSetOf (e : Env) (x : LinesOp) (ent : RegionEnt) (n : Nat) : Bool :=
  lineSet ent.size (e.kOpt x.off).toNat (e.kOpt x.len).toNat x.len.isNone n

/-- A counted command of the region on `sp`, with what it waits for. -/
def Env.spCommand (e : Env) (s : State) (p : Lanes) : Cmd := Cmd.new s.nextId e.c e.f e.l.tcid 0 .sp (.sp p) e.f.pc 0

/-- The counter `sp` is full: the instruction waits at issue (R83). -/
def Env.spRoom (e : Env) (k : State) : State := if 4095 ≤ e.c.counter .sp then e.wait e.s 15 .retry else k

def execRmap (h : Fin 64) (g : Option (Fin 64)) (gd : Guard) (s : State) : Out :=
  issue (.rmap h g gd) s [] (costC 1) fun e =>
    e.onRegion h gd (fun ent => ent.kind == .plain && bitsN (e.kOpt g).toNat 0 8 == 0) e.doneEnd fun slot ent _ =>
      let s := e.s.settleRegion e.die slot
      let s := s.setRegion e.die slot { ent with kind := .mapped, globalBase := e.kOpt g }
      e.doneEnd ((s.dropLines e.die slot).anew (.scratch e.die) ent.pos ent.size)

/-- Write back the dirty lines of a set as one `sp` command. -/
def Env.writeBack (e : Env) (slot : Nat) (ent : RegionEnt) (p : Lanes) (which : Nat → Bool) : State :=
  let s := e.s.settleRegion e.die slot
  let cmd := e.spCommand s p
  let s := s.commitCmd cmd
  let out := s.writeBackLines e.die slot ent which (.cmd cmd.id)
  { out.1 with cmds := updFirst (fun c => c.id == cmd.id) (fun c => { c with pending := out.2 }) out.1.cmds }

def execRunmap (h : Fin 64) (g : Guard) (s : State) : Out :=
  issue (.runmap h g) s [] (costC 1) fun e =>
    e.onRegion h g RegionEnt.mappedOrStash e.done fun slot ent p =>
      e.spRoom
        (let s := e.writeBack slot ent p fun _ => true
         let s := s.setRegion e.die slot { ent with kind := .plain }
         e.done (s.dropLines e.die slot))

def execRwb (x : LinesOp) (s : State) : Out :=
  issue (.rwb x) s [] (costC 1) fun e =>
    e.onRegion x.h x.g RegionEnt.mappedOrStash e.done fun slot ent p =>
      e.spRoom (e.done (e.writeBack slot ent p (e.lineSetOf x ent)))

def execRinv (x : LinesOp) (s : State) : Out :=
  issue (.rinv x) s [] (costC 1) fun e =>
    e.onRegion x.h x.g (fun ent => ent.kind == .mapped) e.done fun slot ent _ =>
      e.done (((e.s.linesOf e.die slot).filter fun l => e.lineSetOf x ent l.line).foldl
        (fun s l => s.discardLine e.die slot l.line) (e.s.settleRegion e.die slot))

/-- A first touch by `rfill`: rd (R59). -/
def Env.fillTouch (e : Env) (slot : Nat) (ent : RegionEnt) (x : State × List (Nat × TFault)) (n : Nat) : State × List (Nat × TFault) :=
  let out := x.1.touchLine e.die slot ent n e.c.core true false
  (out.1, match out.2 with
    | some f => x.2 ++ [(n, f)]
    | none => x.2)

/-- `rfill` first-touches the lines of its set, takes a fault there, then its command fills them. -/
def execRfill (x : LinesOp) (s : State) : Out :=
  issue (.rfill x) s [] (costC 1) fun e =>
    e.onRegion x.h x.g (fun ent => ent.kind == .mapped || (ent.kind == .stash && ent.sealed)) e.done fun slot ent p =>
      e.spRoom
        (let s := e.s.settleRegion e.die slot
         let set := (List.range (ent.size / 256)).filter (e.lineSetOf x ent)
         let out := set.foldl (e.fillTouch slot ent) (s, [])
         let worst := (out.2.find? fun f => f.2.isProtection).or out.2.head?
         match worst with
         | some f =>
           let va := (ent.lineVa f.1).toNat
           let faults : List ItemFault := (Lanes.list p e.c.width).map fun i =>
             { pos := i, va := va, fault := f.2, tcid := ent.tcid, own := ent.tcid == e.l.tcid, handle := e.k x.h }
           let route := out.1.routeFaults e.r 0 true 0 (faults.map fun f => (f.pos, va)) faults
           if route.2.isSome && route.1.goesOn e.r then e.done route.1 else route.1
         | none =>
           let todo := set.filter fun n => match (out.1.die e.die).line? slot n with
             | some l => l.v != BitVec.allOnes 256
             | none => true
           let cmd := e.spCommand out.1 p
           let s := out.1.commitCmd { cmd with waiting := todo, writers := [(e.die, slot)] }
           e.done (todo.foldl (fun s n => s.askLine e.die slot n e.c.core ent.tcid false true []) s))

end Sys2Proof.Machine
end

