-- ==== Sys2Proof/Machine/Copy.lean ====
section
/-! DEFINITION. Engine descriptors and the elements they move: the copy descriptor (R87), its refusals (R90, R338, R339, R346), the
element order and the dense layouts (R88, R89), and the BFP8 conversions (R94, R95). -/

namespace Sys2Proof.Machine

open Sys2Proof

/-! ### The copy descriptor (R87) -/

/-- Little-endian field of n bytes at an offset of a descriptor. -/
def field (bs : List Byte) (off n : Nat) : Nat := natOfBytes ((bs.drop off).take n)

def parseCopy (bs : List Byte) : CopyDesc :=
  let w := field bs 0 8
  { transpose := bitN w 23, conv := bitsN w 20 3, arrive := bitN w 19, toStrided := bitN w 18
    denseSpace := bitsN w 16 2, stridedSpace := bitsN w 14 2, layout := bitsN w 12 2, esize := bitsN w 8 2, ndim := bitsN w 0 4
    strided := BitVec.ofNat 64 (field bs 8 8), dense := BitVec.ofNat 64 (field bs 16 8)
    expOff := BitVec.ofNat 32 (field bs 24 4), arriveOff := BitVec.ofNat 32 (field bs 28 4)
    ext := (List.range 9).map fun d => field bs (32 + 4 * d) 4
    pitch := field bs 68 4
    stride := (List.range 9).map fun d => sgnN 48 (field bs (72 + 6 * d) 6) }

/-- Extent of dimension d, 1 at or above ndim (R88). -/
def CopyDesc.extent (d : CopyDesc) (k : Nat) : Nat := if k < d.ndim then d.ext.getD k 0 else 1

def CopyDesc.elemBytes (d : CopyDesc) : Nat := 2 ^ d.esize

/-- Elements of the command. -/
def CopyDesc.elems (d : CopyDesc) : Nat := ((List.range d.ndim).map d.extent).foldl (· * ·) 1

/-- Offsets of the fields that break a rule of every copy-like command (R90). -/
def badFields (bs : List Byte) (d : CopyDesc) : List Nat :=
  let w := field bs 0 8
  let dims := List.range 9
  let tb := d.layout == 2
  let addr (space off : Nat) (a : W64) : List Nat := if space = 1 ∧ bitsN a.toNat 32 32 ≠ 0 then [off] else []
  (if bitsN w 24 40 ≠ 0 ∨ bitsN w 10 2 ≠ 0 ∨ bitsN w 4 4 ≠ 0 ∨ 2 < d.conv ∨ d.denseSpace = 3 ∨ d.stridedSpace = 3 ∨
      d.layout = 3 ∨ d.ndim = 0 ∨ 9 < d.ndim ∨ (d.transpose ∧ !tb) then [0] else []) ++
  addr d.stridedSpace 8 d.strided ++ addr d.denseSpace 16 d.dense ++
  (dims.filter fun k => decide (d.ndim ≤ k) && d.ext.getD k 0 != 0).map (fun k => 32 + 4 * k) ++
  (if tb ∧ d.extent 0 % 16 ≠ 0 then [32] else []) ++
  (if tb ∧ d.extent 1 % 16 ≠ 0 then [36] else []) ++
  (if tb ∧ d.pitch ≠ 0 then [68] else []) ++
  (dims.filter fun k => decide (d.ndim ≤ k) && d.stride.getD k 0 != 0).map (fun k => 72 + 6 * k) ++
  (if field bs 126 2 ≠ 0 then [126] else [])

/-- The first of some offsets. -/
def firstField (l : List Nat) : Option Nat := (sortOn (fun x => x) l).head?

/-- The kind of region that a side names: none where it is not a valid scratchpad side. -/
abbrev SideKind := Option (RKind × Bool)

/-- Refusals of `copy` (R90, R338): `dk` and `sk` are the regions of the dense and strided sides. -/
def copyRefused (bs : List Byte) (d : CopyDesc) (dk sk : SideKind) : Option Nat :=
  let stash (k : SideKind) : Bool := match k with
    | some (.stash, _) => true
    | _ => false
  firstField (badFields bs d ++
    (if d.conv = 1 ∨ (d.conv = 2 ∧ !(d.toStrided && d.esize == 1 && dk == some (.stash, true))) then [0] else []) ++
    (if d.toStrided ∧ stash sk then [8] else []) ++
    (if !d.toStrided ∧ stash dk then [16] else []))

/-- Refusals of `stash` (R94, R346). -/
def stashRefused (bs : List Byte) (d : CopyDesc) (dk : SideKind) : Option Nat :=
  let isStash := match dk with
    | some (.stash, _) => true
    | _ => false
  firstField (badFields bs d ++
    (if d.toStrided ∨ d.conv = 2 ∨ (d.conv = 1 ∧ (d.esize ≠ 1 ∨ d.layout ≠ 0)) then [0] else []) ++
    (if isStash then [] else [16]) ++
    (if d.conv = 1 ∧ d.extent 0 % 16 ≠ 0 then [32] else []))

/-- Refusals of `gather` and `scatter` (R90, R339). -/
def gatherRefused (bs : List Byte) (d : CopyDesc) (scatter : Bool) (dk sk : SideKind) : Option Nat :=
  let stash (k : SideKind) : Bool := match k with
    | some (.stash, false) => true
    | _ => false
  firstField (badFields bs d ++
    (if d.ndim ≠ 1 ∨ d.conv ≠ 0 ∨ d.transpose ∨ d.arrive ∨ d.layout ≠ 0 ∨ d.denseSpace = 0 ∨ d.toStrided ≠ scatter then [0] else []) ++
    (if scatter ∧ stash sk then [8] else []) ++
    (if !scatter ∧ stash dk then [16] else []) ++
    (if d.ext.getD 0 0 ≠ 0 then [32] else []) ++
    (if d.pitch ≠ 0 then [68] else []))

/-! ### Elements (R88, R89) -/

/-- Indices of element n, dimension 0 fastest. -/
def indicesOf : List Nat → Nat → List Nat
  | [], _ => []
  | e :: es, n => n % e :: indicesOf es (n / e)

def CopyDesc.index (d : CopyDesc) (n : Nat) : List Nat := indicesOf ((List.range d.ndim).map d.extent) n

/-- Elements to the strided side from its address. -/
def CopyDesc.stridedPos (d : CopyDesc) (i : List Nat) : Int :=
  ((List.range d.ndim).map fun k => d.stride.getD k 0 * (i.getD k 0 : Nat)).foldl (· + ·) 0

/-- i[2] + extent[2] × (i[3] + …). -/
def CopyDesc.outer (d : CopyDesc) (i : List Nat) : Nat :=
  ((List.range 9).drop 2).foldr (fun k acc => i.getD k 0 + d.extent k * acc) 0

/-- The dense position. -/
def CopyDesc.densePos (d : CopyDesc) (i : List Nat) : Nat :=
  let e0 := d.extent 0
  let e1 := d.extent 1
  let i0 := i.getD 0 0
  let i1 := i.getD 1 0
  let o := d.outer i
  if d.layout = 0 then i0 + (if d.pitch = 0 then e0 else d.pitch) * (i1 + e1 * o)
  else if d.layout = 1 then i1 + (if d.pitch = 0 then e1 else d.pitch) * (i0 + e0 * o)
  else
    let r := if d.transpose then i0 else i1
    let c := if d.transpose then i1 else i0
    let C := if d.transpose then e1 else e0
    (r / 16 * (C / 16) + c / 16) * 256 + r % 16 * 16 + c % 16 + e0 * e1 * o

/-- Where a piece of data lies. -/
inductive Loc where
  | global (va : W64)
  | shared (off : Nat)
  | scratch (h : W64) (off : Nat)
  deriving DecidableEq, Repr

/-- A side's address, moved by a number of bytes. -/
def sideLoc (space : Nat) (a : W64) (delta : Int) : Loc :=
  let off := wrapN 32 ((bitsN a.toNat 0 32 : Nat) + delta)
  if space = 0 then .global (a + BitVec.ofInt 64 delta)
  else if space = 1 then .shared off
  else .scratch (a >>> 32) off

/-- One indivisible piece of a command: what it reads, what it writes, and the bytes it makes of them. -/
structure Move where
  reads : List (Loc × Nat)
  writes : List (Loc × Nat)
  make : List Byte → List Byte

/-! ### BFP8 (R94, R95) -/

/-- x / 2^(e − 133), rounded to nearest even. -/
def bfpRound (e : Nat) (x : Nat) : Int :=
  match fvOf bf16 x with
  | .fin neg m ex => let r := roundInt .rne neg m (ex - ((e : Int) - 133)); if neg then -(r : Int) else r
  | _ => 0

/-- The exponent and mantissas of a group from exponent e on. -/
def bfpFit (xs : List Nat) : Nat → Nat → Nat × List Int
  | 0, e => (e, xs.map (bfpRound e))
  | n + 1, e =>
    let ms := xs.map (bfpRound e)
    if ms.all fun m => decide (-127 ≤ m) && decide (m ≤ 127) then (e, ms)
    else if e = 254 then (e, ms.map fun m => max (-127) (min 127 m))
    else bfpFit xs n (e + 1)

/-- A group of 16 BF16 values as an exponent byte and mantissas. -/
def bfpGroup (xs : List Nat) : Nat × List Int :=
  let emax := (xs.map fun x => bitsN x 7 8).foldl max 0
  if emax = 255 then (255, xs.map fun _ => 0)
  else if emax = 0 then (0, xs.map fun _ => 0)
  else bfpFit xs 255 emax

/-- Bytes of a stashed group: 16 mantissas, then the exponent. -/
def bfpBytes (bs : List Byte) : List Byte :=
  let g := bfpGroup ((List.range 16).map fun k => field bs (2 * k) 2)
  (g.2.map fun m => BitVec.ofInt 8 m) ++ [BitVec.ofNat 8 g.1]

/-- A mantissa byte and its exponent byte as BF16. -/
def bfpExpand (bs : List Byte) : List Byte :=
  let m := sgnN 8 (field bs 0 1)
  let e := field bs 1 1
  let x := if e = 255 then bf16.nan else if e = 0 then 0 else roundFV bf16 .rne (scaleFV (intFV m) ((e : Int) - 133))
  bytesN 2 x

/-! ### What the commands move -/

/-- Pieces of a copy: its elements, or the groups of 16 of a conversion to BFP8. -/
def CopyDesc.moves (d : CopyDesc) : Nat := if d.conv = 1 then d.elems / 16 else d.elems

/-- Pieces of a row (R86). -/
def CopyDesc.perRow (d : CopyDesc) : Nat := if d.conv = 1 then d.extent 0 / 16 else d.extent 0

def CopyDesc.stridedLoc (d : CopyDesc) (i : List Nat) : Loc :=
  sideLoc d.stridedSpace d.strided ((d.elemBytes : Int) * d.stridedPos i)

def CopyDesc.denseLoc (d : CopyDesc) (size : Nat) (i : List Nat) : Loc :=
  sideLoc d.denseSpace d.dense ((size * d.densePos i : Nat) : Int)

/-- Exponent byte of group g. -/
def CopyDesc.expLoc (d : CopyDesc) (g : Nat) : Loc := sideLoc d.denseSpace d.dense ((d.expOff.toNat + g : Nat) : Int)

/-- Piece n of a copy. DESIGN CHOICE (log 144): the exponent group of an element is its visiting index over 16, across rows. -/
def CopyDesc.move (d : CopyDesc) (n : Nat) : Move :=
  if d.conv = 1 then
    let is := (List.range 16).map fun k => d.index (16 * n + k)
    { reads := is.map fun i => (d.stridedLoc i, 2)
      writes := (is.map fun i => (d.denseLoc 1 i, 1)) ++ [(d.expLoc n, 1)]
      make := bfpBytes }
  else if d.conv = 2 then
    let i := d.index n
    { reads := [(d.denseLoc 1 i, 1), (d.expLoc (n / 16), 1)], writes := [(d.stridedLoc i, 2)], make := bfpExpand }
  else
    let i := d.index n
    let s := (d.stridedLoc i, d.elemBytes)
    let t := (d.denseLoc d.elemBytes i, d.elemBytes)
    { reads := [if d.toStrided then t else s], writes := [if d.toStrided then s else t], make := fun b => b }

/-- The element of one lane of a `gather` or `scatter` (R339); `addr` is the index. -/
def gatherMove (d : CopyDesc) (scatter : Bool) (a : LaneArg) : Move :=
  let far := (sideLoc d.stridedSpace d.strided ((d.elemBytes : Int) * d.stride.getD 0 0 * a.addr.toInt), d.elemBytes)
  let near := (sideLoc d.denseSpace d.dense ((d.elemBytes * a.pos : Nat) : Int), d.elemBytes)
  { reads := [if scatter then near else far], writes := [if scatter then far else near], make := fun b => b }

/-- `dred` on one element (R205, R344). -/
def dredApply (op : DredOp) (ty : DredTy) (old b : W64) : W64 :=
  let fl (f : FF) : W64 := BitVec.ofNat 64 (match op with
    | .add => addF f .rne old.toNat b.toNat
    | .min => minF f old.toNat b.toNat
    | .max => maxF f old.toNat b.toNat)
  let int (t : IntTy) : W64 := match op with
    | .add => int2 t (addE t) old b
    | .min => int2 t (minE t) old b
    | .max => int2 t (maxE t) old b
  match ty with
  | .f32 => fl fp32
  | .f64 => fl fp64
  | .i32 => int .i32
  | .i64 => int .i64

def dredBytes : DredTy → Nat
  | .f32 => 4
  | .i32 => 4
  | _ => 8

end Sys2Proof.Machine
end

