-- ==== Sys2Proof/Machine/Engine.lean ====
section
/-! DEFINITION. Engine commands in flight: where their data lies, translation before the commit and in chunks (R60), their elements
(R88, R104, R106), errors (R99-R101), remote requests (R402, R403), arrivals (R86), and the issue of commands (R336). -/

namespace Sys2Proof.Machine

open Sys2Proof

/-! ### Commands -/

def State.cmd? (s : State) (id : Nat) : Option Cmd := s.cmds.find? fun c => c.id == id
def State.updCmd (s : State) (id : Nat) (g : Cmd → Cmd) : State :=
  { s with cmds := updFirst (fun c => c.id == id) g s.cmds }

/-- The agent whose events a command's accesses are (R102). -/
def Cmd.agent (c : Cmd) : Agent := .frag c.ctx c.frag

/-- The positions of the items that issued a command. -/
def Cmd.positions (c : Cmd) : Lanes :=
  match c.kind with
  | .copy _ _ => Lanes.single c.item
  | .coll _ _ => Lanes.single c.item
  | .gather _ _ _ l => Lanes.ofList (l.map fun a => a.pos)
  | .xatom _ _ l => Lanes.ofList (l.map fun a => a.pos)
  | .dred _ _ l => Lanes.ofList (l.map fun a => a.pos)
  | .sp m => m

/-- Bytes of an element of a collective (R342). -/
def collBytes : NumTy → Nat
  | .int t => if t.wide then 8 else 4
  | .fp t => if t.wide then 8 else 4

/-- Piece n of a command as it reads and writes memory. -/
def Cmd.move (c : Cmd) (n : Nat) : Move :=
  let none_ : Move := ⟨[], [], fun b => b⟩
  match c.kind with
  | .copy d _ => d.move n
  | .gather d sc _ l => match l[n]? with
    | some a => gatherMove d sc a
    | none => none_
  | .xatom op ret l => match l[n]? with
    | some a =>
      let g := (Loc.global a.addr, if op.wide then 8 else 4)
      let back := match (ret.getD []).find? fun r => r.1 == a.pos with
        | some r => [(Loc.shared r.2.toNat, g.2)]
        | none => []
      ⟨[g], g :: back, fun b => b⟩
    | none => none_
  | .dred _ ty l => match l[n]? with
    | some a => ⟨[(.global a.addr, dredBytes ty)], [(.global a.addr, dredBytes ty)], fun b => b⟩
    | none => none_
  | .coll d _ =>
    let size := collBytes d.params.ty
    if n < d.params.count then ⟨[(.global (d.src + BitVec.ofNat 64 (size * n)), size)], [], fun b => b⟩
    else ⟨[], [(.global (d.dst + BitVec.ofNat 64 (size * (n - d.params.count))), size)], fun b => b⟩
  | .sp _ => none_

/-- The source of an error record for a tier (R101). -/
def tierSource (tier : Nat) : Nat := if tier = 3 then 8 else 6 + tier

/-- The command completes with an error status that names the record written here (R99, R101). -/
def State.engineError (s : State) (c : Cmd) (source addr : Nat) : State :=
  let part := if source < 4 then ((s.ctx? c.ctx).map fun x => x.part).getD 0 else 0
  let n := s.mgmt.errCount
  (s.logError (errRec s.tick c.tcid (s.tcid c.tcid).tenant source c.core part addr (c.pc.setWidth 64))).updCmd c.id fun x =>
    { x with error := some (x.error.getD n) }

/-- Elements done, with what has been done beyond the next one. -/
def advanceDone : Nat → Nat → List Nat → Nat × List Nat
  | 0, k, l => (k, l)
  | n + 1, k, l => if l.contains k then advanceDone n (k + 1) (l.filter fun x => x != k) else (k, l)

/-- Element n has been moved. -/
def State.moveDone (s : State) (id n : Nat) : State :=
  s.updCmd id fun c =>
    let l := c.done ++ [n]
    let x := advanceDone l.length c.doneCount l
    { c with doneCount := x.1, done := x.2, parts := c.parts.filter fun p => p.elem != n }

/-- An element of a contribution joins its instance. -/
def State.giveColl (s : State) (c : Cmd) (n : Nat) (d : List Byte) (bad : Bool) : State :=
  match c.kind with
  | .coll x inst =>
    let upd (i : CollInst) : CollInst :=
      { i with parts := i.parts ++ [(x.slot, n, d, bad)] }
    { s with ual := { s.ual with insts := updFirst (fun i => i.group == x.group && i.inst == inst) upd s.ual.insts } }
  | _ => s

/-- An element of a slot's source that could not be read is lost to its instance: its values are zero, and the loss counts at the other commands
of the instance too (R343). -/
def State.loseSource (s : State) (id n : Nat) : State :=
  match s.cmd? id with
  | some c =>
    match c.kind with
    | .coll d i =>
      if n < d.params.count then
        let others := ((s.ual.insts.find? fun y => y.group == d.group && y.inst == i).map fun y => y.local_).getD []
        (others.filter fun l => l.2 != id).foldl (fun s l => s.updCmd l.2 fun c => { c with deadPod := c.deadPod + 1 }) (s.giveColl c n [] true)
      else s
    | _ => s
  | none => s

/-- Element n could not reach its memory (R36, R128). -/
def State.moveDead (s : State) (id n : Nat) (host : Bool) : State :=
  ((s.loseSource id n).updCmd id fun c =>
    if host then { c with deadHost := c.deadHost + 1 } else { c with deadPod := c.deadPod + 1 }).moveDone id n

/-- Elements that have been moved. -/
def Cmd.isDone (c : Cmd) (n : Nat) : Bool := decide (n < c.doneCount) || c.done.contains n

/-- Pieces of a row; 0 where the command has no rows. -/
def Cmd.perRow (c : Cmd) : Nat :=
  match c.kind with
  | .copy d _ => d.perRow
  | _ => 0

/-- Every piece of a row has been moved. -/
def Cmd.rowDone (c : Cmd) (r : Nat) : Bool := (List.range c.perRow).all fun k => c.isDone (r * c.perRow + k)

/-- Items of a command that retire by a fault record: those that have not left. -/
def State.retireItems (s : State) (c : Cmd) (addr : Nat) : State :=
  match s.ctx? c.ctx with
  | none => s
  | some x =>
    (x.leaves.map fun f => f.id).foldl (fun s id =>
      match s.frag? ⟨c.ctx, id⟩ with
      | none => s
      | some f =>
        let m := f.mask &&& c.positions
        if m = 0 then s
        else (s.record c.ctx 4 c.pc f.region.entry (fun _ => addr) (Lanes.list m x.width)).retireFault ⟨c.ctx, id⟩ m) s

/-- A fault in a later chunk stops the command (R60): its record holds the faulting address with bit 62 set (R382). -/
def State.stopCmd (s : State) (c : Cmd) (addr : Nat) : State :=
  let s := s.updCmd c.id fun c =>
    { c with fault := true, total := c.doneCount, done := [], parts := [], rows := c.rows.filter c.rowDone }
  s.retireItems c (2 ^ 62 + addr % 2 ^ 62)

/-! ### Where data lies -/

inductive Place where
  | mem (tier phys : Nat)
  | host (phys : Nat)
  | remote (phys : Nat)
  | shared (off : Nat)
  | region (die slot : Nat) (ent : RegionEnt) (off : Nat)
  | void
  /-- a page that is not translated -/
  | lost (va : Nat)

/-- The global address of a place that can no longer be had. -/
def Place.va : Place → Nat
  | .region _ _ ent off => (ent.globalBase + BitVec.ofNat 64 off).toNat
  | .lost va => va
  | _ => 0

/-- Bytes of a global range page by page. -/
def splitPages (va : W64) (n : Nat) : List (W64 × Nat) :=
  let room := 2 ^ 14 - va.toNat % 2 ^ 14
  if n ≤ room then [(va, n)] else [(va, room), (va + BitVec.ofNat 64 room, n - room)]

def placeOf (leaf va : W64) : Place :=
  let phys := leafPhys leaf va
  if leafTier leaf < 2 then .mem (leafTier leaf) phys else if leafTier leaf = 2 then .remote phys else .host phys

def Cmd.leaf? (c : Cmd) (va : W64) : Option W64 := (c.trans.find? fun t => t.1 == va.toNat / 2 ^ 14).map fun t => t.2

/-- The launch that a command belongs to. -/
def State.cmdLaunch (s : State) (c : Cmd) : Option Launch := (s.block? c.block).bind fun b => s.launch? b.launch

/-- The region of a local side, on the die that its handle names (R23). -/
def State.sideRegion (s : State) (l : Launch) (h : W64) : Option (Nat × Nat × RegionEnt) :=
  let die := bitsN h.toNat 14 2
  (s.regionOf die l h).map fun x => (die, x.1, x.2)

def State.placesOf (s : State) (c : Cmd) (x : Loc × Nat) : List (Place × Nat) :=
  match x.1 with
  | .global va => (splitPages va x.2).map fun p =>
    (match c.leaf? p.1 with
      | some leaf => placeOf leaf p.1
      | none => .lost p.1.toNat, p.2)
  | .shared off =>
    match s.block? c.block with
    | some b => [(.shared (effAddr b.shSize x.2 off 0), x.2)]
    | none => [(.void, x.2)]
  | .scratch h off =>
    match (s.cmdLaunch c).bind fun l => s.sideRegion l h with
    | some r => [(.region r.1 r.2.1 r.2.2 (effAddr r.2.2.size x.2 off 0), x.2)]
    | none => [(.void, x.2)]

/-! ### Reads and writes of one place -/

/-- A line as an element needs it: translated, and filled for a read (R60, R78). -/
def State.readyLine (s : State) (die slot : Nat) (ent : RegionEnt) (off n core : Nat) (v : Horizon) (rd wr : Bool) : State × Bool :=
  let out := s.touchLine die slot ent (off / 256) core rd wr
  match out.2 with
  | some _ => (out.1, false)
  | none =>
    match (out.1.die die).line? slot (off / 256) with
    | none => (out.1, false)
    | some x =>
      if rd && lineBytes (off % 256) n &&& ~~~ x.v != 0 then (out.1.fillLine die ent x v, true)
      else (out.1.useLine die slot (off / 256), true)

/-- Commands whose elements travel in beats (R106). DESIGN CHOICE (log 119): each element of `gather`, `scatter`, `xatom` and `dred` is a beat of its
own. -/
def Cmd.beats (c : Cmd) : Bool :=
  match c.kind with
  | .copy _ _ => true
  | .coll _ _ => true
  | _ => false

/-- What a read of a command has met (R113, R115). -/
def State.cmdSaw (s : State) (c : Cmd) (x : Sight) : State :=
  let s : State := { s with freeCtr := s.freeCtr + 1 }
  if x.seen.isEmpty && x.heads.isEmpty then s
  else s.updCmd c.id fun c => { c with seen := c.seen.join ⟨0, [], x.seen⟩, heads := (c.heads ++ x.heads).eraseDups }

/-- Bytes of global or host memory as one who knows v reads them, and whether they are damaged. -/
def State.readGlobal (s : State) (c : Cmd) (v : Horizon) (tier phys n : Nat) : State × List Byte × Bool :=
  match (touchedUnits phys n).find? fun u => s.badUnit tier u with
  | some u => (s.engineError c (tierSource tier) (max phys (64 * u)), List.replicate n 0#8, true)
  | none =>
    let x := s.readPhysAt v tier phys n 0
    (s.cmdSaw c x.2, x.1, false)

/-- The same in beats: an aligned unit of 64 bytes is read at once, and the elements after one another that lie in it take their bytes of
that read (R106). DESIGN CHOICE (log 119). -/
def State.readBeat (s : State) (c : Cmd) (v : Horizon) (tier phys n : Nat) : State × List Byte × Bool :=
  let u := phys / 64
  if c.beats && decide (phys % 64 + n ≤ 64) then
    let cut (b : Beat) : List Byte × Bool := ((b.bytes.drop (phys % 64)).take n, b.bad)
    match ((s.cmd? c.id).bind fun c => c.beat).filter fun b => b.tier == tier && b.unit == u with
    | some b => (s, cut b)
    | none =>
      let x := s.readGlobal c v tier (64 * u) 64
      let b : Beat := ⟨tier, u, x.2.1, x.2.2⟩
      (x.1.updCmd c.id fun c => { c with beat := some b }, cut b)
  else s.readGlobal c v tier phys n

/-- Bytes of a place as one who knows v reads them, and whether they are damaged; none where a line can no longer be had. -/
def State.readPlace (s : State) (c : Cmd) (v : Horizon) (p : Place) (n : Nat) : State × Option (List Byte × Bool) :=
  match p with
  | .mem tier phys => let x := s.readBeat c v tier phys n; (x.1, some x.2)
  | .host phys => let x := s.readBeat c v 3 phys n; (x.1, some x.2)
  | .shared off =>
    match s.badLocal c.block 0 .shared off n with
    | some src => (s.engineError c src off, some (List.replicate n 0#8, true))
    | none =>
      let x := s.readLocalAt v c.block 0 .shared off n 0
      (s.cmdSaw c x.2, some (x.1, false))
  | .region die slot ent off =>
    let go := if ent.lined then s.readyLine die slot ent off n c.core v true false else (s, true)
    if !go.2 then (go.1, none)
    else
      match go.1.badLocal c.block die (.region slot ent) off n with
      | some src => (go.1.engineError c src ((go.1.handleOf die slot).toNat % 2 ^ 32 * 2 ^ 32 + off), some (List.replicate n 0#8, true))
      | none =>
        let x := go.1.readLocalAt v c.block die (.region slot ent) off n 0
        (go.1.cmdSaw c x.2, some (x.1, false))
  | .void => (s.countInvalid c.tcid 1, some (List.replicate n 0#8, false))
  | _ => (s, none)

/-- A beat that the command itself writes into is read anew. -/
def State.dropBeat (s : State) (c : Cmd) (tier phys n : Nat) : State :=
  match (s.cmd? c.id).bind fun c => c.beat with
  | some b => if b.tier == tier && (touchedUnits phys n).contains b.unit then s.updCmd c.id fun c => { c with beat := none } else s
  | none => s

/-- What lies behind a port whose link is down completes with the error status and is not written (R401). -/
def State.downWrite (s : State) (c : Cmd) (tier phys n : Nat) : State :=
  match s.downUnits tier phys n with
  | [] => s
  | u :: _ => s.engineError c 7 (max phys (64 * u))

/-- Good bytes written to marked units, which are clear once they are covered whole (R100). -/
def State.coverUnit (s : State) (c : Cmd) (tier phys n : Nat) (u : Nat) : State :=
  let listed := if tier = 0 then s.poison1.contains u else s.poison2.contains u
  if !listed then s
  else
    let lo := max phys (64 * u)
    let hi := min (phys + n) (64 * u + 64)
    let m := (2 ^ (hi - lo) - 1) * 2 ^ (lo - 64 * u)
    let old := (((s.cmd? c.id).getD c).cover.find? fun x => x.1 == tier && x.2.1 == u).map fun x => x.2.2
    let new := old.getD 0 ||| m
    let s := s.updCmd c.id fun c =>
      { c with cover := (c.cover.filter fun x => !(x.1 == tier && x.2.1 == u)) ++ [(tier, u, new)] }
    if new = 2 ^ 64 - 1 then
      { s with poison1 := if tier = 0 then s.poison1.filter fun x => x != u else s.poison1
               poison2 := if tier = 1 then s.poison2.filter fun x => x != u else s.poison2 }
    else s

/-- Bytes written to a place; the answer tells whether a line could be had. -/
def State.writePlace (s : State) (c : Cmd) (w : Writer) (p : Place) (bs : List Byte) (good : Bool) : State × Bool :=
  match p with
  | .mem tier phys =>
    let s := (s.dropBeat c tier phys bs.length).downWrite c tier phys bs.length
    let s := s.writeCells w tier (bs.zipIdx.map fun b => (phys + b.2, b.1))
    (if good then (touchedUnits phys bs.length).foldl (fun s u => s.coverUnit c tier phys bs.length u) s else s, true)
  | .host phys => ((s.dropBeat c 3 phys bs.length).writePhys w 3 phys bs, true)
  | .shared off => (s.writeSharedBy w c.block off bs, true)
  | .region die slot ent off =>
    let go := if ent.lined then s.readyLine die slot ent off bs.length c.core Horizon.none false true else (s, true)
    if go.2 then (go.1.storeRegionBy w die slot ent off bs, true) else go
  | .void => (s.countInvalid c.tcid 1, true)
  | _ => (s, false)

/-! ### Remote requests (R402, R403) -/

/-- The live port that an element takes (R402). -/
def State.portOf (s : State) (device page : Nat) : Option Nat :=
  let mask := SMap.getD s.ual.routes device 0
  let live := (List.range 16).filter fun p => bitN mask p && (s.ual.portsUp[p]?).getD false
  live[Config.portHash device page % live.length]?

/-- Bytes served on a port in a direction (0 out, 1 in) in a tenant class (R404, R414). -/
def State.serve (s : State) (port cls dir n : Nat) : State :=
  let k := port * 32 + dir * 16 + cls
  { s with ual := { s.ual with served := SMap.set s.ual.served k (SMap.getD s.ual.served k 0 + n) } }

/-- A request takes bytes on its port by its kind: a read on the way in, a write on the way out, the others both ways. -/
def State.serveReq (s : State) (q : RemoteReq) (back : Bool) : State :=
  match q.kind, back with
  | .read, false => s
  | .write _, true => s
  | .reduce _ _ _, true => s
  | .contribute _ _ _ _ _, true => s
  | _, _ => s.serve q.port q.cls back.toNat q.length

/-- Send a request of a tenant in its class (R402-R404); none where no live port of the route is left. -/
def State.sendReq (s : State) (tcid port : Nat) (q : RemoteReq) : State :=
  let tenant := (s.tcid tcid).tenant
  let q : RemoteReq := { q with id := s.nextId, port := port, key := SMap.getD s.ual.keys tenant 0, cls := SMap.getD s.ual.classes tenant 0 }
  let s : State := { s with nextId := s.nextId + 1, ual := { s.ual with requests := s.ual.requests ++ [q] } }
  s.serveReq q false

/-- A request for bytes of another device's memory. -/
def memReq (ctx cmd elem phys len : Nat) (kind : RemoteKind) : RemoteReq :=
  { id := 0, ctx := ctx, cmd := cmd, elem := elem, port := 0, device := phys / 2 ^ 42, entry := phys / 2 ^ 32 % 1024, offset := phys % 2 ^ 32
    key := 0, cls := 0, kind := kind, length := len }

def Cmd.part? (c : Cmd) (n : Nat) : Option ElemPart := c.parts.find? fun p => p.elem == n
def State.setPart (s : State) (id : Nat) (p : ElemPart) : State :=
  s.updCmd id fun c => { c with parts := (c.parts.filter fun q => q.elem != p.elem) ++ [p] }

/-- Send a request for step k of element n, or lose the element at once. -/
def State.sendRemote (s : State) (c : Cmd) (n k phys len page : Nat) (kind : RemoteKind) (d : List Byte) (bad : Bool) (stage : ElemStage) : State :=
  match s.portOf (phys / 2 ^ 42) page with
  | none => s.moveDead c.id n false
  | some port => (s.sendReq c.tcid port (memReq c.ctx c.id n phys len kind)).setPart c.id ⟨n, k, d, bad, stage⟩

/-! ### One element, step by step -/

/-- Steps of an element. -/
inductive Step where
  | rd (p : Place) (n : Nat)
  | rmw (ps : List (Place × Nat)) (kind : RemoteKind) (f : W64 → W64)
  | make (g : List Byte → List Byte) (out : Nat)
  /-- what it reads has been read: it waits for its place among the writes of its beat and its page (R106, R136) -/
  | ready
  | wr (p : Place) (n : Nat)
  /-- the data becomes an element of the slot's contribution to its collective instance (R343) -/
  | give

def sumLens (l : List (Loc × Nat)) : Nat := (l.map fun x => x.2).foldl (· + ·) 0

/-- Bytes of several places, as one read of the latest writes (R118). -/
def State.readPlaces (s : State) (c : Cmd) : List (Place × Nat) → State × Option (List Byte × Bool)
  | [] => (s, some ([], false))
  | p :: ps =>
    match s.readPlace c (Horizon.upTo s.lastWrite) p.1 p.2 with
    | (s, none) => (s, none)
    | (s, some x) =>
      match State.readPlaces s c ps with
      | (s, none) => (s, none)
      | (s, some y) => (s, some (x.1 ++ y.1, x.2 || y.2))

/-- Where the bytes of a place lie. -/
def Place.at (c : Cmd) : Place → Option (MemSpace × Nat)
  | .mem tier phys => (tierSpace tier).map fun m => (m, phys)
  | .host phys => some (.host, phys)
  | .shared off => some (.shared c.block, off)
  | .region die _ ent off => some (.scratch die, ent.pos + off)
  | _ => none

/-- The release chain that an RMW of a command joins. -/
def State.chainAt (s : State) (c : Cmd) (ps : List (Place × Nat)) : List Head :=
  (ps.flatMap fun p => ((p.1.at c).map fun a => s.chain a.1 a.2 p.2).getD []).eraseDups

def State.writePlaces (s : State) (c : Cmd) (w : Writer) : List (Place × Nat) → List Byte → State
  | [], _ => s
  | p :: ps, bs => State.writePlaces (s.writePlace c w p.1 (bs.take p.2) false).1 c w ps (bs.drop p.2)

/-- The page that an element's request concerns: it picks the port. -/
def Place.page : Place → Nat
  | .remote phys => phys % 2 ^ 42 / 2 ^ 14
  | _ => 0

/-- The steps of element n from step k on; a remote step ends the run until its response, and the element stops once it is ready to write. -/
def State.runSteps (c : Cmd) (n : Nat) : List Step → Nat → State → List Byte → Bool → State
  | [], _, s, _, _ => s.moveDone c.id n
  | .rd p len :: rest, k, s, d, bad =>
    match p with
    | .remote phys => s.sendRemote c n k phys len p.page .read d bad .reading
    | .lost va => s.stopCmd c va
    | p =>
      if (p matches .host _) && !s.mgmt.hostUp then s.moveDead c.id n true
      else
        match s.readPlace c c.view p len with
        | (s, none) => s.stopCmd c p.va
        | (s, some x) => State.runSteps c n rest (k + 1) s (d ++ x.1) (bad || x.2)
  | .rmw ps kind f :: rest, k, s, d, bad =>
    match ps with
    | (.remote phys, len) :: _ => s.sendRemote c n k phys len (Place.remote phys).page kind d bad .reading
    | _ =>
      match s.readPlaces c ps with
      | (s, none) => s.stopCmd c ((ps.map fun p => p.1.va).foldl max 0)
      | (s, some x) =>
        let old : W64 := BitVec.ofNat 64 (natOfBytes x.1)
        let len := x.1.length
        let new := if x.2 then List.replicate len 0#8 else bytesN len (f old).toNat
        State.runSteps c n rest (k + 1) (s.writePlaces c ⟨c.agent, false, (s.chainAt c ps ++ c.rel).eraseDups⟩ ps new) (d ++ x.1) (bad || x.2)
  | .make g out :: rest, k, s, d, bad =>
    State.runSteps c n rest (k + 1) s (if bad then List.replicate out 0#8 else g d) bad
  | .ready :: _, k, s, d, bad => s.setPart c.id ⟨n, k, d, bad, .ready⟩
  | .wr p len :: rest, k, s, d, bad =>
    match p with
    | .remote phys => s.sendRemote c n k phys len p.page (.write (d.take len)) (d.drop len) bad .writing
    | .lost va => s.stopCmd c va
    | p =>
      if (p matches .host _) && !s.mgmt.hostUp then s.moveDead c.id n true
      else
        match s.writePlace c ⟨c.agent, false, c.rel⟩ p (d.take len) (!bad) with
        | (s, false) => s.stopCmd c p.va
        | (s, true) => State.runSteps c n rest (k + 1) s (d.drop len) bad
  | .give :: rest, k, s, d, bad => State.runSteps c n rest (k + 1) (s.giveColl c n d bad) [] bad

/-- The read-modify-write of n bytes at ps (R104): one action where it lies on this device, or in one page of another. DESIGN CHOICE (log 139):
the bytes of an element that crosses into or out of a page of another device are read, and the new ones then written, page by page. -/
def rmwSteps (ps : List (Place × Nat)) (kind : RemoteKind) (f : W64 → W64) : List Step :=
  let n := (ps.map fun p => p.2).foldl (· + ·) 0
  if decide (1 < ps.length) && ps.any fun p => p.1 matches .remote _ then
    (ps.map fun p => Step.rd p.1 p.2) ++
      [.make (fun old => bytesN n (f (BitVec.ofNat 64 (natOfBytes old))).toNat ++ old) (2 * n), .ready] ++ ps.map fun p => Step.wr p.1 p.2
  else [.rmw ps kind f]

/-- The steps of element n; `out` gives what a collective writes. -/
def State.stepsWith (s : State) (out : List Byte) (c : Cmd) (n : Nat) : List Step :=
  let m := c.move n
  let places (l : List (Loc × Nat)) : List (Place × Nat) := l.flatMap fun x => s.placesOf c x
  match c.kind with
  | .xatom op _ l =>
    match l[n]? with
    | none => []
    | some a =>
      let back : List Step := (places (m.writes.drop 1)).map fun (p : Place × Nat) => Step.wr p.1 p.2
      rmwSteps (places m.reads) (.atomic op a.val) (fun old => atomApply op old a.val) ++ back
  | .dred op ty l =>
    match l[n]? with
    | none => []
    | some a => rmwSteps (places m.reads) (.reduce op ty a.val) fun old => dredApply op ty old a.val
  | .coll d _ =>
    if n < d.params.count then ((places m.reads).map fun (p : Place × Nat) => Step.rd p.1 p.2) ++ [.give]
    else .make (fun _ => out) out.length :: .ready :: (places m.writes).map fun (p : Place × Nat) => Step.wr p.1 p.2
  | _ =>
    let ins : List Step := (places m.reads).map fun (p : Place × Nat) => Step.rd p.1 p.2
    let outs : List Step := (places m.writes).map fun (p : Place × Nat) => Step.wr p.1 p.2
    ins ++ [.make m.make (sumLens m.writes), .ready] ++ outs

/-! ### Translation (R60) -/

/-- A run by the block of pages and the block of frames that it maps, and its size (R49). -/
def runOf (page : Nat) (leaf : W64) : Nat × Nat × Nat :=
  let n := 2 ^ leafRun leaf
  (page / n * n, leafTier leaf * 2 ^ 40 + leafPfn leaf / n * n, n)

/-- A translation under way: pages with their leaves, the runs they lie in, whether 4,096 runs are held, and the first fault:
address, kind and TCID. `sealed`: a region's seal does not matter, for a `stash` that committed before it (R347). -/
structure Xl where
  s : State
  trans : List (Nat × W64)
  runs : List (Nat × Nat × Nat)
  full : Bool
  fault : Option (Nat × TFault × Nat)
  sealed : Bool

def Xl.start (s : State) : Xl := ⟨s, [], [], false, none, false⟩

/-- What a path may do with a leaf (R33, R59). -/
def leafServes (leaf : W64) (rd wr host : Bool) : Bool :=
  (!rd || leafRd leaf) && (!wr || leafWr leaf) && (host || leafTier leaf != 3)

/-- One page of the command. -/
def Xl.page (core tcid : Nat) (rd wr host : Bool) (x : Xl) (va : W64) : Xl :=
  if x.full || x.fault.isSome then x
  else if bitsN va.toNat 58 6 ≠ 0 then { x with fault := some (va.toNat, .protection, tcid) }
  else
    let page := va.toNat / 2 ^ 14
    match x.trans.find? fun t => t.1 == page with
    | some t => if leafServes t.2 rd wr host then x else { x with fault := some (va.toNat, .protection, tcid) }
    | none =>
      let out := x.s.translateNow core tcid va
      match out.2 with
      | .error f => { x with s := out.1, fault := some (va.toNat, f, tcid) }
      | .ok t =>
        if !leafServes t.1 rd wr host then { x with s := out.1, fault := some (va.toNat, .protection, tcid) }
        else
          let run := runOf page t.1
          if x.runs.contains run then { x with s := out.1, trans := x.trans ++ [(page, t.1)] }
          else if Config.chunkRuns ≤ x.runs.length then { x with s := out.1, full := true }
          else { x with s := out.1, trans := x.trans ++ [(page, t.1)], runs := x.runs ++ [run] }

/-- One side of an element: its pages, or its line where its region has lines. -/
def Xl.loc (core : Nat) (l : Launch) (rd wr host : Bool) (x : Xl) (y : Loc × Nat) : Xl :=
  if x.full || x.fault.isSome then x
  else
    match y.1 with
    | .global va => (splitPages va y.2).foldl (fun x p => Xl.page core l.tcid rd wr host x p.1) x
    | .shared _ => x
    | .scratch h off =>
      match x.s.sideRegion l h with
      | none => x
      | some r =>
        let ent := r.2.2
        let at_ := effAddr ent.size y.2 off 0
        let va := (ent.globalBase + BitVec.ofNat 64 at_).toNat
        if ent.refuses rd wr && !x.sealed then { x with fault := some (va, .protection, ent.tcid) }
        else if !ent.lined then x
        else
          let out := x.s.touchLine r.1 r.2.1 ent (at_ / 256) core rd wr
          { x with s := out.1, fault := out.2.map fun f => (va, f, ent.tcid) }

def Xl.move (core : Nat) (l : Launch) (rmw host : Bool) (x : Xl) (m : Move) : Xl :=
  let x := m.reads.foldl (Xl.loc core l true rmw host) x
  (if rmw then m.writes.drop 1 else m.writes).foldl (Xl.loc core l false true host) x

/-- Elements from i on, `n` of them at most. -/
def Xl.moves (core : Nat) (l : Launch) (rmw host : Bool) (f : Nat → Move) : Nat → Nat → Xl → Xl
  | 0, _, x => x
  | n + 1, i, x =>
    if x.full || x.fault.isSome then x else Xl.moves core l rmw host f n (i + 1) (Xl.move core l rmw host x (f i))

/-- Does a command's kind change memory in place, and may it reach host memory (R33)? -/
def Cmd.rmw (c : Cmd) : Bool :=
  match c.kind with
  | .xatom _ _ _ => true
  | .dred _ _ _ => true
  | _ => false
def Cmd.hostOk (c : Cmd) : Bool :=
  match c.kind with
  | .copy _ _ => true
  | .gather _ _ _ _ => true
  | _ => false

/-- The pages of an element lie in the chunk that is translated. -/
def Cmd.covered (c : Cmd) (n : Nat) : Bool :=
  let m := c.move n
  (m.reads ++ m.writes).all fun x =>
    match x.1 with
    | .global va => (splitPages va x.2).all fun p => (c.leaf? p.1).isSome
    | _ => true

/-- The next chunk from element n on, or the address of the fault that it meets. -/
def State.nextChunk (s : State) (c : Cmd) (n : Nat) : State × Except Nat Cmd :=
  match s.cmdLaunch c with
  | none => (s, .error 0)
  | some l =>
    let x := Xl.moves c.core l c.rmw c.hostOk c.move (c.total - n) n { Xl.start s with sealed := c.kind matches .copy _ true }
    match x.fault with
    | some f => (x.s, .error f.1)
    | none => (x.s.updCmd c.id fun c => { c with trans := x.trans }, .ok { c with trans := x.trans })

/-! ### Order of elements (R88, R105, R136) -/

/-- A place by its storage. -/
def Place.key : Place → Option (Nat × Nat)
  | .mem t p => some (t, p)
  | .remote p => some (2, p)
  | .host p => some (3, p)
  | .shared o => some (4, o)
  | .region d _ e o => some (5 + d, e.pos + o)
  | _ => none

def overlap (a b : Place × Nat) : Bool :=
  match a.1.key, b.1.key with
  | some x, some y => x.1 == y.1 && decide (x.2 < y.2 + b.2) && decide (y.2 < x.2 + a.2)
  | _, _ => false

/-- Element n may not run before the earlier element m. -/
def State.clash (s : State) (c : Cmd) (m n : Nat) : Bool :=
  let places (l : List (Loc × Nat)) : List (Place × Nat) := l.flatMap fun x => s.placesOf c x
  let w := places (c.move n).writes
  (places ((c.move m).reads ++ (c.move m).writes)).any fun a => w.any fun b => overlap a b

def Cmd.started (c : Cmd) (n : Nat) : Bool := c.isDone n || (c.part? n).isSome

def State.isRemote (s : State) (c : Cmd) (n : Nat) : Bool :=
  ((c.move n).reads ++ (c.move n).writes).any fun x => (s.placesOf c x).any fun p => match p.1 with
    | .remote _ => true
    | _ => false

/-- Element n may run now: it is the next, or nothing orders it behind an earlier one. -/
def State.mayRun (s : State) (c : Cmd) (n : Nat) : Bool :=
  decide (n < c.total) && !c.started n &&
    (n == c.doneCount ||
      (c.covered n && (List.range n).all fun m => c.isDone m || (!s.clash c m n && (!s.isRemote c n || c.started m))))

/-! ### Beats and pages of the writes (R106, R136) -/

/-- The aligned unit of 64 bytes that an element of a command writes into, as tier and unit; none where it writes no single one. -/
def State.beatOf (s : State) (c : Cmd) (n : Nat) : Option (Nat × Nat) :=
  if !c.beats then none
  else
    match ((c.move n).writes.flatMap fun x => s.placesOf c x) with
    | [(.mem t p, len)] => if p % 64 + len ≤ 64 then some (t, p / 64) else none
    | [(.host p, len)] => if p % 64 + len ≤ 64 then some (3, p / 64) else none
    | _ => none

/-- The page of another device that an element writes first. -/
def State.remotePage (s : State) (c : Cmd) (n : Nat) : Option (Nat × Nat) :=
  match ((c.move n).writes.flatMap fun x => s.placesOf c x) with
  | (.remote p, _) :: _ => some (p / 2 ^ 42, (Place.remote p).page)
  | _ => none

/-- Element n and those after it that write into its beat, in visiting order. -/
def State.beatRun (s : State) (c : Cmd) (n : Nat) : Nat → List Nat
  | 0 => [n]
  | k + 1 =>
    if decide (n + 1 < c.total) && (s.beatOf c n).isSome && s.beatOf c (n + 1) == s.beatOf c n then n :: State.beatRun s c (n + 1) k else [n]

/-- Element n is not run before the element ahead of it in its beat. -/
def State.leads (s : State) (c : Cmd) (n : Nat) : Bool :=
  n == 0 || c.started (n - 1) || (s.beatOf c n).isNone || s.beatOf c n != s.beatOf c (n - 1)

/-- An element that is ready writes once the others of its beat that are under way are ready too, and once the elements before it that write
to its page of another device have been sent. -/
def State.writesNow (s : State) (c : Cmd) (p : ElemPart) : Bool :=
  let beat := s.beatOf c p.elem
  let page := s.remotePage c p.elem
  p.stage == .ready && c.parts.all fun q =>
    (beat.isNone || q.stage != .reading || s.beatOf c q.elem != beat) &&
    (page.isNone || decide (p.elem ≤ q.elem) || q.stage == .writing || s.remotePage c q.elem != page)

/-! ### Events of the engine -/

/-- `COPY_ROW_ARRIVAL` (R86): the arrival word counts a row whose bytes have all been written; a damaged word becomes zero (R99). -/
def execCopyRowArrival (cmd row : Nat) (s : State) : Out :=
  match s.cmd? cmd with
  | none => .fault .notEnabled
  | some c =>
    match c.kind with
    | .copy d _ =>
      let s' :=
        match s.block? c.block with
        | none => s
        | some b =>
          let off := effAddr b.shSize 4 d.arriveOff.toNat 0
          let mine : Head := ⟨.blk, c.agent, c.view.join (Horizon.of c.agent s.lastWrite)⟩
          let w : Writer := ⟨c.agent, false, (s.chain (.shared c.block) off 4 ++ c.rel ++ [mine]).eraseDups⟩
          match s.badLocal c.block 0 .shared off 4 with
          | some src => (s.engineError c src off).writeSharedBy w c.block off (bytesN 4 0)
          | none => s.writeSharedBy w c.block off (bytesN 4 (b.shared.readW32 off + 1).toNat)
      event (c.rows.contains row && c.rowDone row) (s'.updCmd cmd fun c => { c with rows := c.rows.filter fun r => r != row })
    | _ => .fault .notEnabled

/-! ### Issue (R336) -/

/-- A command to be issued: its items, and its refusal where it has one. -/
structure Job where
  cmd : Cmd
  refused : Option Nat

/-- What translation leaves of a job: the command, the faults of its items, and the pages that its items reach. -/
structure JobOut where
  s : State
  cmd : Option Cmd
  faults : List ItemFault
  reach : List (Nat × Nat)

def Env.itemFault (e : Env) (pos : Nat) (f : Nat × TFault × Nat) : ItemFault :=
  { pos := pos, va := f.1, fault := f.2.1, tcid := f.2.2, own := f.2.2 == e.l.tcid, handle := 0 }

def reachOf (pos : Nat) (t : List (Nat × W64)) : List (Nat × Nat) := t.map fun p => (pos, p.1 * 2 ^ 14)

/-- Translate the lanes of a per-strip command: a lane at fault drops out (R339). -/
def Env.xlLanes (e : Env) (c : Cmd) : List Nat → JobOut → List Nat → JobOut × List Nat
  | [], o, keep => (o, keep)
  | n :: ns, o, keep =>
    let t := ((o.cmd.map fun c => c.trans).getD [])
    let m := c.move n
    let x := Xl.move e.c.core e.l c.rmw c.hostOk { Xl.start o.s with trans := t } m
    let pos := ((Lanes.list c.positions e.c.width)[n]?).getD 0
    let vas := (m.reads ++ m.writes).filterMap fun y => match y.1 with
      | .global va => some (pos, va.toNat)
      | _ => none
    match x.fault with
    | some f => Env.xlLanes e c ns { o with s := x.s, faults := o.faults ++ [e.itemFault pos f], reach := o.reach ++ vas ++ [(pos, f.1)] } keep
    | none =>
      Env.xlLanes e c ns { o with s := x.s, cmd := o.cmd.map (fun c => { c with trans := x.trans }), reach := o.reach ++ vas } (keep ++ [n])

/-- The lanes of a command that stay in it. -/
def Cmd.keepLanes (c : Cmd) (keep : List Nat) : Cmd :=
  let sel (l : List LaneArg) : List LaneArg := keep.filterMap fun n => l[n]?
  let c := { c with total := keep.length }
  match c.kind with
  | .gather d sc t l => { c with kind := .gather d sc t (sel l) }
  | .xatom op r l => { c with kind := .xatom op r (sel l) }
  | .dred op ty l => { c with kind := .dred op ty (sel l) }
  | _ => c

/-- Translate one job. -/
def Env.xlJob (e : Env) (s : State) (j : Job) : JobOut :=
  let items := Lanes.list j.cmd.positions e.c.width
  match j.refused with
  | some a =>
    { s := s, cmd := none, reach := []
      faults := items.map fun i => { pos := i, va := a, fault := .protection, tcid := e.l.tcid, own := true, handle := 0 } }
  | none =>
    let whole := match j.cmd.kind with
      | .copy _ _ => true
      | .coll _ _ => true
      | _ => false
    if whole then
      let x := Xl.moves e.c.core e.l false j.cmd.hostOk j.cmd.move j.cmd.total 0 (Xl.start s)
      let reach := reachOf j.cmd.item x.trans
      match x.fault with
      | some f => { s := x.s, cmd := none, faults := [e.itemFault j.cmd.item f], reach := reach ++ [(j.cmd.item, f.1)] }
      | none => { s := x.s, cmd := some { j.cmd with trans := x.trans }, faults := [], reach := reach }
    else
      let out := Env.xlLanes e j.cmd (List.range j.cmd.total) { s := s, cmd := some j.cmd, faults := [], reach := [] } []
      { out.1 with cmd := if out.2.isEmpty then none else out.1.cmd.map fun c => c.keepLanes out.2 }

def Env.xlJobs (e : Env) (s : State) (jobs : List Job) : State × List Cmd × List ItemFault × List (Nat × Nat) :=
  jobs.foldl (fun x j =>
    let o := e.xlJob x.1 j
    (o.s, x.2.1 ++ o.cmd.toList, x.2.2.1 ++ o.faults, x.2.2.2 ++ o.reach)) (s, [], [], [])

/-- A counter has room for the commands of a path (R83). DESIGN CHOICE (log 120): an instruction that issues several commands waits as a whole
until all of them fit. -/
def Env.pathsFit (e : Env) (jobs : List Job) : Bool :=
  [Path.sh, .sp, .cp, .ga, .xa, .co].all fun p =>
    decide (e.c.counter p + (jobs.filter fun j => j.cmd.path == p).length ≤ 4095)

/-- Slot C is held for n ticks from the instruction's issue on (R336), and the fragment with it (R427). -/
def State.holdC (s : State) (e : Env) (n : Nat) : State :=
  (s.updPart e.c.core e.c.part fun p => { p with busyC := max p.busyC (e.s.cycle + n) }).updFrag e.r fun f =>
    { f with busy := max f.busy (e.s.cycle + n) }

/-- Translate, take the faults, then the machine check of what is damaged, or commit (R336, R382). `charge` prepares the state of what translates; `commit` makes one command. -/
def Env.runJobs (e : Env) (jobs : List Job) (charge : State → State) (commit : State → Cmd → State) : State :=
  if !e.pathsFit jobs then e.wait e.s 15 .retry
  else
    let out := e.xlJobs (charge e.s) jobs
    let faults := out.2.2.1
    let absent := faults.any fun f => !f.fault.isProtection
    let base := if absent then e.s else out.1
    let route := base.routeFaults e.r 3 false 0 out.2.2.2 faults
    match route.2 with
    | none => route.1
    | some _ =>
      if !faults.isEmpty && !route.1.goesOn e.r then route.1
      else
        let s := (route.1.publish e.c.id).holdC e out.2.1.length
        e.orCheck route.1 (e.doneCommit (out.2.1.foldl (fun s c => commit s { c with id := s.nextId }) s))

/-- Lanes of the passing items of one strip. -/
def Env.laneArgs (e : Env) (p : Lanes) (t : Nat) (addr val : Val) : List LaneArg :=
  ((Lanes.list p e.c.width).filter fun i => i / 64 == t).map fun i =>
    { pos := i, item := e.c.idx e.b i, addr := addr.at i, val := val.at i }

/-- Strips that hold a passing item. -/
def Env.stripsOf (e : Env) (p : Lanes) : List Nat := (List.range e.c.strips).filter fun t => Lanes.strip p t != 0

def Env.newCmd (e : Env) (item : Nat) (path : Path) (kind : CmdKind) (total : Nat) : Cmd :=
  Cmd.new 0 e.c e.f e.l.tcid item path kind e.f.pc total

/-- Offset of unit k of a descriptor in shared memory (R334). -/
def Env.descAt (e : Env) (a : W64) (disp : BitVec 7) (u k : Nat) : Nat :=
  effAddr e.b.shSize u (bitsN a.toNat 0 32) (disp.toInt * u + (u * k : Nat))

/-- A descriptor of n bytes in shared memory, in units of u bytes. -/
def Env.readShDesc (e : Env) (a : W64) (disp : BitVec 7) (u n : Nat) : List Byte :=
  (List.range (n / u)).flatMap fun k => e.b.shared.readBytes (e.descAt a disp u k) u

/-- The items of m whose descriptors hold a damaged word consume it (R98): the frame in which they are left out, and take their machine check
after the retirements (R382). -/
def Env.withDescs (e : Env) (m : Lanes) (a : Val) (disp : BitVec 7) (u n : Nat) : Env :=
  if e.b.damage.isEmpty then e
  else
    let bad (i : Nat) : Option Nat := ((List.range (n / u)).map fun k => e.descAt (a.at i) disp u k).find? fun off =>
      (e.s.badLocal e.b.id e.die .shared off u).isSome
    let hit := (Lanes.list m e.c.width).filter fun i => (bad i).isSome
    match hit with
    | [] => e
    | i :: _ =>
      let old := e.hurt.getD (0, 3, (bad i).getD 0)
      { e with hurt := some (old.1 ||| Lanes.ofList hit, old.2) }

/-- The region of a copy's side, for its refusals. -/
def Env.sideKind (e : Env) (space : Nat) (a : W64) : SideKind :=
  if space = 2 then (e.s.sideRegion e.l (a >>> 32)).map fun r => (r.2.2.kind, r.2.2.sealed) else none

/-- A side in shared memory or in scratchpad of the issuing die (R82). -/
def Env.nearSide (e : Env) (space : Nat) (a : W64) : Bool :=
  space == 1 || (space == 2 && bitsN a.toNat 46 2 == e.die)

/-- The path of a copy. -/
def Env.copyPath (e : Env) (d : CopyDesc) : Path :=
  if e.nearSide d.stridedSpace d.strided && e.nearSide d.denseSpace d.dense then .sh else .cp

def refusal (f : Option Nat) : Option Nat := f.map fun o => 2 ^ 61 + o

/-- Rows of a copy with the arrive option. -/
def CopyDesc.rows (d : CopyDesc) : List Nat :=
  if d.arrive ∧ d.perRow ≠ 0 then List.range (d.moves / d.perRow) else []

end Sys2Proof.Machine
end

