-- ==== Sys2Proof/Machine/Collective.lean ====
section
/-! DEFINITION. Collectives (R342, R343, R406): descriptor, instances, results, and the contributions of other devices. -/

namespace Sys2Proof.Machine

open Sys2Proof

/-! ### Groups and descriptors (R342, R406) -/

def State.collGroup? (s : State) (g : Nat) : Option CollGroup := SMap.get? s.ual.groups g

/-- The device owns the slot and the slot is populated. -/
def State.ownsSlot (s : State) (g slot : Nat) : Bool :=
  match s.collGroup? g with
  | none => false
  | some x =>
    x.populated.contains slot &&
      x.members.any fun m => m.1 == s.ual.device && decide (m.2.1 ≤ slot) && decide (slot ≤ m.2.2)

def redOpOf (c : Nat) : RedOp :=
  if c = 0 then .add else if c = 1 then .min else if c = 2 then .max else if c = 3 then .and else if c = 4 then .or else .xor

/-- The element type of sf and a type code. -/
def collTy (sf : Bool) (c : Nat) : Option NumTy :=
  if !sf then some (.int (intTyOf (BitVec.ofNat 3 c)))
  else if c = 0 then some (.fp .f32)
  else if c = 1 then some (.fp .f64)
  else if c = 2 then some (.fp .bf16x2)
  else if c = 3 then some (.fp .f16x2)
  else none

def parseColl (bs : List Byte) : CollDesc :=
  let w := field bs 0 8
  { slot := bitsN w 40 12, group := bitsN w 32 8
    params := { kind := bitsN w 0 2, op := redOpOf (bitsN w 6 3), ty := (collTy (bitN w 12) (bitsN w 9 3)).getD (.int .i32)
                count := bitsN (field bs 24 8) 0 40, root := bitsN (field bs 32 8) 0 12 }
    src := BitVec.ofNat 64 (field bs 8 8), dst := BitVec.ofNat 64 (field bs 16 8) }

/-- The first field that is refused. -/
def State.collRefused (s : State) (bs : List Byte) : Option Nat :=
  let w := field bs 0 8
  let d := parseColl bs
  firstField (
    (if bitsN w 52 12 ≠ 0 ∨ bitsN w 13 19 ≠ 0 ∨ bitsN w 2 4 ≠ 0 ∨ 5 < bitsN w 6 3 ∨ (collTy (bitN w 12) (bitsN w 9 3)).isNone ∨
        (bitN w 12 ∧ 2 < bitsN w 6 3) ∨ !s.ownsSlot d.group d.slot then [0] else []) ++
    (if bitsN (field bs 24 8) 40 24 ≠ 0 ∨ d.params.count = 0 then [24] else []) ++
    (if bitsN (field bs 32 8) 12 52 ≠ 0 then [32] else []) ++
    ((List.range 11).filter fun k => field bs (40 + 8 * k) 8 != 0).map fun k => 40 + 8 * k)

/-! ### Instances -/

def CollInst.new (g i : Nat) : CollInst :=
  { group := g, inst := i, params := [], gens := [], parts := [], lost := [], refusedSlots := [], local_ := [] }

def State.inst? (s : State) (g i : Nat) : Option CollInst := s.ual.insts.find? fun x => x.group == g && x.inst == i

/-- Update an instance, which opens with the first that concerns it. -/
def State.updInst (s : State) (g i : Nat) (f : CollInst → CollInst) : State :=
  let insts := if (s.inst? g i).isSome then s.ual.insts else s.ual.insts ++ [CollInst.new g i]
  { s with ual := { s.ual with insts := updFirst (fun x => x.group == g && x.inst == i) f insts } }

/-- The lowest populated slot, which gives the instance its parameters. -/
def CollGroup.lead (g : CollGroup) : Nat := (sortOn (fun x => x) g.populated).headD 0

/-- Elements that a command writes. -/
def collOuts (p : CollParams) (slots slot : Nat) : Nat :=
  match p.kind with
  | 0 => p.count
  | 1 => if slot = p.root then p.count else 0
  | 2 => p.count * slots
  | _ => p.count

def collTotal (p : CollParams) (slots slot : Nat) : Nat := p.count + collOuts p slots slot

/-- The parameters of an instance once its lead is known. -/
def State.instParams (s : State) (g i : Nat) : Option CollParams :=
  match s.collGroup? g, s.inst? g i with
  | some x, some y => (y.params.find? fun p => p.1 == x.lead).map fun p => p.2
  | _, _ => none

/-- Every command of an instance takes the instance's parameters. -/
def State.setParams (s : State) (g i : Nat) : State :=
  match s.instParams g i, s.collGroup? g, s.inst? g i with
  | some p, some x, some y =>
    y.local_.foldl (fun s l => s.updCmd l.2 fun c =>
      match c.kind with
      | .coll d n => { c with kind := .coll { d with params := p } n, total := collTotal p x.populated.length d.slot }
      | _ => c) s
  | _, _, _ => s

/-- Every populated slot's source is known, or known to be lost (R343). -/
def State.instFull (s : State) (g i : Nat) : Bool :=
  match s.instParams g i, s.collGroup? g, s.inst? g i with
  | some p, some x, some y =>
    x.populated.all fun slot =>
      y.lost.contains slot || y.refusedSlots.contains slot ||
        decide (p.count ≤ (y.parts.filter fun e => e.1 == slot).length)
  | _, _, _ => false

/-- Element k of a slot: none where it is lost, refused or damaged. -/
def CollInst.elem (y : CollInst) (slot k : Nat) : Option W64 :=
  if y.lost.contains slot || y.refusedSlots.contains slot then none
  else
    match y.parts.find? fun e => e.1 == slot && e.2.1 == k with
    | some e => if e.2.2.2 then none else some (BitVec.ofNat 64 (natOfBytes e.2.2.1))
    | none => none

/-- The root value of element k over the tree of 4,096 slots; zero where a contribution is missing. -/
def CollInst.root (y : CollInst) (x : CollGroup) (p : CollParams) (k : Nat) : W64 :=
  let vals := x.populated.map fun slot => (slot, y.elem slot k)
  if vals.any fun v => v.2.isNone then 0
  else
    let leaves := (List.range 4096).map fun slot => (vals.find? fun v => v.1 == slot).bind fun v => v.2
    (((List.range 12).foldl (fun l _ => pairUp (combine p.op p.ty .rne) l) leaves).headD none).getD 0

/-- What element j of a destination takes (R343, R406). -/
def State.collOut (s : State) (g i j : Nat) : W64 :=
  match s.instParams g i, s.collGroup? g, s.inst? g i with
  | some p, some x, some y =>
    canonical p.ty
      (match p.kind with
        | 0 => y.root x p j
        | 1 => y.root x p j
        | 2 => (y.elem ((sortOn (fun z => z) x.populated).getD (j / p.count) 0) (j % p.count)).getD 0
        | _ => (y.elem p.root j).getD 0)
  | _, _, _ => 0

/-- The steps of element n of any command. -/
def State.steps (s : State) (c : Cmd) (n : Nat) : List Step :=
  match c.kind with
  | .coll d i => s.stepsWith (bytesN (collBytes d.params.ty) (s.collOut d.group i (n - d.params.count)).toNat) c n
  | _ => s.stepsWith [] c n

/-- An element of a collective may run: its parameters are known, and a destination waits for every source. -/
def State.collReady (s : State) (c : Cmd) (n : Nat) : Bool :=
  match c.kind with
  | .coll d i => (s.instParams d.group i).isSome && (decide (n < d.params.count) || s.instFull d.group i)
  | _ => true

/-- The whole source of a command's slot as its instance holds it, a damaged element as zero. -/
def CollInst.source (y : CollInst) (p : CollParams) (slot : Nat) : List Byte :=
  (List.range p.count).flatMap fun k => bytesN (collBytes p.ty) ((y.elem slot k).getD 0).toNat

/-- Once a command has read its slot's source, the contribution goes to every other member, in the class of its tenant: at once lost where no live
port leads there (R343, R402, R404). The command waits for the answers. -/
def State.collSent (s : State) (c : Cmd) (n : Nat) : State :=
  match c.kind, s.cmd? c.id with
  | .coll d i, some now =>
    if decide (n < d.params.count) && (List.range d.params.count).all now.isDone then
      match s.collGroup? d.group, s.inst? d.group i with
      | some x, some y =>
        let away := ((x.members.map fun m => m.1).filter fun m => m != s.ual.device).eraseDups
        let data := y.source d.params d.slot
        away.foldl (fun s m =>
          match s.portOf m 0 with
          | none => s.updCmd c.id fun c => { c with deadPod := c.deadPod + 1 }
          | some port =>
            let q : RemoteReq := { memReq c.ctx c.id n (m * 2 ^ 42) data.length (.contribute d.group i d.slot x.generation data) with entry := 0 }
            (s.sendReq c.tcid port q).updCmd c.id fun c => { c with pending := c.pending + 1 }) s
      | _, _ => s
    else s
  | _, _ => s

/-- An instance whose commands on this device are all done goes; a command that was stopped leaves its slot lost. -/
def State.collAfter (s : State) (c : Cmd) : State :=
  match c.kind with
  | .coll d i =>
    let now := s.cmd? c.id
    let s := if (now.map fun c => c.fault).getD false then s.updInst d.group i fun y => { y with lost := y.lost ++ [d.slot] } else s
    match s.inst? d.group i, s.collGroup? d.group with
    | some y, some x =>
      let mine := x.populated.filter fun slot => s.ownsSlot d.group slot
      let finished := (mine.all fun slot => y.local_.any fun l => l.1 == slot) &&
        y.local_.all fun l => ((s.cmd? l.2).map fun c => c.doneCount == c.total).getD true
      if finished then { s with ual := { s.ual with insts := s.ual.insts.filter fun z => !(z.group == d.group && z.inst == i) } } else s
    | _, _ => s
  | _ => s

/-- An element that is ready, and may, writes; it is done, or waits for the answers to its remote writes. -/
def State.writeElem (s : State) (id : Nat) (n : Nat) : State :=
  match s.cmd? id with
  | none => s
  | some c =>
    match c.part? n with
    | some p =>
      if s.writesNow c p then
        ((State.runSteps c n ((s.steps c n).drop (p.step + 1)) (p.step + 1) s p.data p.bad).collSent c n).collAfter c
      else s
    | none => s

/-- The elements that are ready write, in visiting order (R106, R136). -/
def State.writeReady (s : State) (id : Nat) : State :=
  match s.cmd? id with
  | none => s
  | some c =>
    let now := (c.parts.filter fun p => p.stage == .ready).map fun p => p.elem
    ((sortOn (fun n => n) now).foldl (fun s n => s.writeElem id n) s).asOne ⟨c.ctx, c.frag⟩ s.lastWrite

/-- Element n of a command reads what it reads. -/
def State.startElem (s : State) (id : Nat) (n : Nat) (force : Bool) : State :=
  match s.cmd? id with
  | none => s
  | some c =>
    if force || (s.mayRun c n && s.collReady c n) then ((State.runSteps c n (s.steps c n) 0 s [] false).collSent c n).collAfter c else s

/-- Element n of a command runs, with the others of its beat (R106), its chunk translated first where it is a later one (R60). -/
def State.element (s : State) (c : Cmd) (n : Nat) : State :=
  let go (s : State) (c : Cmd) : State :=
    ((s.beatRun c n 63).foldl (fun s m => s.startElem c.id m (m == n)) s).writeReady c.id
  if c.covered n then go s c
  else
    match s.nextChunk c n with
    | (s, .error va) => (s.stopCmd c va).collAfter c
    | (s, .ok c) => go s c

/-- `ENGINE_ELEMENT_COMPLETE`. -/
def execEngineElementComplete (cmd n : Nat) (s : State) : Out :=
  match s.cmd? cmd with
  | none => .fault .notEnabled
  | some c => event (s.mayRun c n && s.collReady c n && s.leads c n) (s.element c n)

/-! ### `coll` (R342) -/

/-- A command of a slot becomes part of that slot's next instance. -/
def State.commitColl (s : State) (c : Cmd) : State :=
  match c.kind with
  | .coll d _ =>
    let key := 4096 * d.group + d.slot
    let i := SMap.getD s.ual.issuedInst key 0
    let s : State := { s with ual := { s.ual with issuedInst := SMap.set s.ual.issuedInst key (i + 1) } }
    let y := (s.inst? d.group i).getD (CollInst.new d.group i)
    let s := s.commitCmd { c with kind := .coll d i, deadPod := y.lost.length, refused := y.refusedSlots.length }
    (s.updInst d.group i fun y =>
      { y with params := y.params ++ [(d.slot, d.params)], local_ := y.local_ ++ [(d.slot, c.id)] }).setParams d.group i
  | _ => s.commitCmd c

def descUses (a : Src) : List VUse := useSrc false a

def execColl (x : DescOp) (s : State) : Out :=
  issue (.coll x) s (descUses x.a) (costC 1) fun e =>
    e.guarded x.g fun p =>
      let a := e.view.src false x.a
      let e := e.withDescs p a x.disp 128 128
      let jobs : List Job := (Lanes.list (e.sound p) e.c.width).map fun i =>
        let bs := e.readShDesc (a.at i) x.disp 128 128
        let d := parseColl bs
        let slots := ((e.s.collGroup? d.group).map fun g => g.populated.length).getD 0
        { cmd := e.newCmd i .co (.coll d 0) (collTotal d.params slots d.slot), refused := refusal (e.s.collRefused bs) }
      e.runJobs jobs (fun s => s) State.commitColl

/-! ### Contributions of other devices (R343, R406) -/

/-- Elements of a contribution. -/
def collElems (size : Nat) (data : List Byte) (count : Nat) : List (Nat × List Byte) :=
  (List.range count).map fun k => (k, (data.drop (size * k)).take size)

/-- What a member's contribution adds to the outcomes of this device's commands of the instance. -/
def State.countInst (s : State) (g i : Nat) (f : Cmd → Cmd) : State :=
  (((s.inst? g i).map fun y => y.local_).getD []).foldl (fun s l => s.updCmd l.2 f) s

/-- A contribution under another generation is refused: what depends on it is zero (R406). -/
def State.refuseSlot (s : State) (g i slot : Nat) : State :=
  ((s.updInst g i fun y =>
      { y with refusedSlots := y.refusedSlots ++ [slot], parts := y.parts.filter fun e => e.1 != slot }).setParams g i).countInst g i
    fun c => { c with refused := c.refused + 1 }

/-- The answer to a contribution: a bare response, on the port it came by and in its class. A lost one is not answered. -/
def State.answerColl (s : State) (m : CollMsg) (refused : Bool) : State :=
  if m.lost then s
  else
    let r : RemoteRsp :=
      { port := m.port.val, cls := m.cls.val, request := m.request, status := if refused then .refused else .ok, data := [] }
    let s := s.serve m.port.val m.cls.val 1 ((m.data.map fun d => d.length).getD 0)
    { s with ual := { s.ual with responses := s.ual.responses ++ [r] } }

/-- `COLLECTIVE_CONTRIBUTION`: a slot of another member, its data, its parameters, or its loss. The answer leaves on the port it came by, in its
class. -/
def execCollectiveContribution (m : CollMsg) (s : State) : Out :=
  match s.collGroup? m.group.val with
  | none => event (m.lost || s.ual.portsUp[m.port]) (s.answerColl m true)
  | some x =>
    let slot := m.slot.val
    let g := m.group.val
    let i := m.inst
    let refuse := m.generation != x.generation
    let mine := x.populated.contains slot && !s.ownsSlot g slot
    let ok := (refuse || mine) && (m.lost || s.ual.portsUp[m.port])
    let known := match s.inst? g i with
      | some y => y.lost.contains slot || y.refusedSlots.contains slot || y.parts.any fun e => e.1 == slot
      | none => false
    let param (y : CollInst) : CollInst :=
      let y := if y.params.any fun p => p.1 == slot then y else { y with params := y.params ++ [(slot, m.params)] }
      { y with gens := (y.gens.filter fun g => g.1 != slot) ++ [(slot, m.generation)] }
    let s' := s.updInst g i param
    let got :=
      if refuse && !mine then s.countInst g i fun c => { c with refused := c.refused + 1 }
      else if refuse then s'.refuseSlot g i slot
      else if m.lost then
        ((s'.updInst g i fun y => { y with lost := y.lost ++ [slot] }).setParams g i).countInst g i fun c => { c with deadPod := c.deadPod + 1 }
      else
        match m.data with
        | none => s'.setParams g i
        | some data =>
          let p := (s'.instParams g i).getD m.params
          let es := (collElems (collBytes p.ty) data p.count).map fun e => (slot, e.1, e.2, false)
          (s'.updInst g i fun y => { y with parts := y.parts ++ es }).setParams g i
    event (ok && !(mine && known)) (got.answerColl m refuse)

/-- An entry of a group is rewritten: contributions of others that open instances hold under another generation are refused (R406). -/
def State.recheckGroup (s : State) (g : Nat) (generation : W32) : State :=
  (s.ual.insts.filter fun y => y.group == g).foldl (fun s y =>
    ((y.gens.filter fun x => x.2 != generation && !y.refusedSlots.contains x.1).map fun x => x.1).foldl
      (fun s slot => s.refuseSlot g y.inst slot) s) s

end Sys2Proof.Machine
end

