-- ==== Sys2Proof/Machine/FloatOps.lean ====
section
/-! DEFINITION. Meanings of the floating-point and special-function instructions (opcodes 0x70 to 0x85, R291-R300). -/

namespace Sys2Proof.Machine

open Sys2Proof

/-- Ticks of the special-function rows of R293. -/
def tickS (t : FTy) (f32 pk f64 : Nat) : Nat :=
  match t with
  | .f32 => f32
  | .f64 => f64
  | _ => pk

/-- A row of the floating-point chapter. -/
def Alu.timed (a : Alu) : Alu := { a with float := true }

def fpAlu1 (x : F1) (f : Rm → Nat → Nat) (ticks : Nat) : Alu :=
  (aluOf x.o (useSrc x.ty.wide x.a) x.d x.ty.wide false (fun V => [V.src x.ty.wide x.a]) .plain false
    (fun V l => fl1 x.ty (f (V.rm x.o)) (arg0 l)) ticks).timed
def fpAlu2 (x : F2) (f : Rm → Nat → Nat → Nat) (ticks : Nat) : Alu :=
  (aluOf x.o (useSrc x.ty.wide x.a ++ useSrc x.ty.wide x.b) x.d x.ty.wide false
    (fun V => [V.src x.ty.wide x.a, V.src x.ty.wide x.b]) .plain false
    (fun V l => fl2 x.ty (f (V.rm x.o)) (arg0 l) (arg1 l)) ticks).timed

/-! ### Arithmetic (R294, R295) -/

def aluFadd (x : F2) : Alu := fpAlu2 x (addF (FTy.ff x.ty)) (tickS x.ty 1 1 2)
def execFadd (x : F2) (s : State) : Out := (aluFadd x).step (.fadd x) s
def aluFsub (x : F2) : Alu := fpAlu2 x (subF (FTy.ff x.ty)) (tickS x.ty 1 1 2)
def execFsub (x : F2) (s : State) : Out := (aluFsub x).step (.fsub x) s
def aluFmul (x : F2) : Alu := fpAlu2 x (mulF (FTy.ff x.ty)) (tickS x.ty 1 1 2)
def execFmul (x : F2) (s : State) : Out := (aluFmul x).step (.fmul x) s
def aluFma (x : F3) : Alu :=
  (aluOf x.o (useSrc x.ty.wide x.a ++ useSrc x.ty.wide x.b ++ useSrc x.ty.wide x.c) x.d x.ty.wide false
    (fun V => [V.src x.ty.wide x.a, V.src x.ty.wide x.b, V.src x.ty.wide x.c]) .plain false
    (fun V l => fl3 x.ty (fmaF (FTy.ff x.ty) (V.rm x.o)) (arg0 l) (arg1 l) (arg2 l)) (tickS x.ty 1 1 2)).timed
def execFma (x : F3) (s : State) : Out := (aluFma x).step (.fma x) s
def aluFmin (x : F2) : Alu := fpAlu2 x (fun _ => minF (FTy.ff x.ty)) (tickS x.ty 1 1 2)
def execFmin (x : F2) (s : State) : Out := (aluFmin x).step (.fmin x) s
def aluFmax (x : F2) : Alu := fpAlu2 x (fun _ => maxF (FTy.ff x.ty)) (tickS x.ty 1 1 2)
def execFmax (x : F2) (s : State) : Out := (aluFmax x).step (.fmax x) s
def aluFabs (x : F1) : Alu := fpAlu1 x (fun _ => absF (FTy.ff x.ty)) (tickS x.ty 1 1 2)
def execFabs (x : F1) (s : State) : Out := (aluFabs x).step (.fabs x) s
def aluFneg (x : F1) : Alu := fpAlu1 x (fun _ => negF (FTy.ff x.ty)) (tickS x.ty 1 1 2)
def execFneg (x : F1) (s : State) : Out := (aluFneg x).step (.fneg x) s

/-! ### Comparison, conversion, rounding, class (R296-R299) -/

def fcmpFmt (wide : Bool) : FF := if wide then fp64 else fp32

def aluFcmp (x : FcmpOp) : Alu where
  o := ⟨x.g, false, x.pfx⟩
  uses := useSrc x.wide x.a ++ useSrc x.wide x.b
  dst := none
  srcs := fun V => [V.src x.wide x.a, V.src x.wide x.b]
  val := noVal
  pdst := some x.pd
  pval := fun V pass keep => V.fcmpTag keep pass (fcmpFmt x.wide) x.rel (V.src x.wide x.a) (V.src x.wide x.b)
  ticks := tickS (if x.wide then .f64 else .f32) 1 1 2
  float := true
def execFcmp (x : FcmpOp) (s : State) : Out := (aluFcmp x).step (.fcmp x) s

/-- DESIGN CHOICE (log 147): R293 gives `fcvt` no column of its own where one side has 64 bits; it takes that of the 64-bit types. -/
def aluFcvt (x : FcvtOp) : Alu :=
  (aluOf x.o (useSrc x.src.wide x.a) x.d x.dst.wide false (fun V => [V.src x.src.wide x.a]) .plain false
    (fun V l => cvtW (.fp x.src) (.fp x.dst) false (V.rm x.o) (arg0 l)) (if x.src.wide || x.dst.wide then 2 else 1)).timed
def execFcvt (x : FcvtOp) (s : State) : Out := (aluFcvt x).step (.fcvt x) s

def aluFrnd (x : F1) : Alu := fpAlu1 x (rndF (FTy.ff x.ty)) (tickS x.ty 1 1 2)
def execFrnd (x : F1) (s : State) : Out := (aluFrnd x).step (.frnd x) s

/-- `fclass` (R299): for `.f64` a 32-bit value in an even register or, zero-extended, in a k register. -/
def aluFclass (x : F1) : Alu :=
  let a := aluOf x.o (useSrc x.ty.wide x.a) x.d false false (fun V => [V.src x.ty.wide x.a]) .plain false
    (fun _ l => fl1 x.ty (classF (FTy.ff x.ty)) (arg0 l)) (tickS x.ty 1 1 2)
  { a with uses := a.uses.map (fun u => if u.wr then { u with even := x.ty.wide } else u), float := true }
def execFclass (x : F1) (s : State) : Out := (aluFclass x).step (.fclass x) s

/-! ### Special functions (R206, R207, R300) -/

def aluFrcp (x : F1) : Alu := fpAlu1 x (fun _ => viaF32 x.ty (rcpF (FTy.sff x.ty))) (tickS x.ty 4 8 16)
def execFrcp (x : F1) (s : State) : Out := (aluFrcp x).step (.frcp x) s
def aluFrsq (x : F1) : Alu := fpAlu1 x (fun _ => viaF32 x.ty (rsqF (FTy.sff x.ty))) (tickS x.ty 4 8 16)
def execFrsq (x : F1) (s : State) : Out := (aluFrsq x).step (.frsq x) s
def aluFsqrt (x : F1) : Alu := fpAlu1 x (sqrtE x.ty) (tickS x.ty 8 8 16)
def execFsqrt (x : F1) (s : State) : Out := (aluFsqrt x).step (.fsqrt x) s
def aluFex2 (x : F1) : Alu := fpAlu1 x (fun _ => viaF32 x.ty ex2F) (tickS x.ty 4 8 16)
def execFex2 (x : F1) (s : State) : Out := (aluFex2 x).step (.fex2 x) s
def aluFlg2 (x : F1) : Alu := fpAlu1 x (fun _ => viaF32 x.ty lg2F) (tickS x.ty 4 8 16)
def execFlg2 (x : F1) (s : State) : Out := (aluFlg2 x).step (.flg2 x) s
def aluFsin (x : F1) : Alu := fpAlu1 x (fun _ => viaF32 x.ty sinF) (tickS x.ty 4 8 16)
def execFsin (x : F1) (s : State) : Out := (aluFsin x).step (.fsin x) s
def aluFcos (x : F1) : Alu := fpAlu1 x (fun _ => viaF32 x.ty cosF) (tickS x.ty 4 8 16)
def execFcos (x : F1) (s : State) : Out := (aluFcos x).step (.fcos x) s
def aluFtanh (x : F1) : Alu := fpAlu1 x (fun _ => viaF32 x.ty tanhF) (tickS x.ty 4 8 16)
def execFtanh (x : F1) (s : State) : Out := (aluFtanh x).step (.ftanh x) s

def aluFdiv (x : F2) : Alu := fpAlu2 x (fun _ => fdivE x.ty) (tickS x.ty 8 8 16)
def execFdiv (x : F2) (s : State) : Out := (aluFdiv x).step (.fdiv x) s

/-- `fscale` (R294): the exponent is a signed integer of the element's width. -/
def aluFscale (x : F2) : Alu :=
  let f := FTy.ff x.ty
  fpAlu2 x (fun rm a b => scaleF f rm a (sgnN f.width b)) (tickS x.ty 1 1 2)
def execFscale (x : F2) (s : State) : Out := (aluFscale x).step (.fscale x) s

end Sys2Proof.Machine
end

