-- ==== Sys2Proof/Machine/Integer.lean ====
section
/-! DEFINITION. Meanings of the integer, address and bit instructions (opcodes 0x30 to 0x5A, R268-R288). -/

namespace Sys2Proof.Machine

open Sys2Proof

/-- Ticks by width. -/
def tickW (wide : Bool) (a b : Nat) : Nat := if wide then b else a

/-- One source of an integer type. -/
def intAlu1 (x : Alu1) (rule : TagRule) (f : IntTy → Nat → Nat) : Alu :=
  aluOf x.o (useSrc x.ty.wide x.a) x.d x.ty.wide (x.ty == .i32) (fun V => [V.src x.ty.wide x.a]) rule x.ty.scalar
    (fun _ l => int1 x.ty (f x.ty) (arg0 l)) (tickW x.ty.wide 1 2)

/-- Two sources. -/
def intAlu2 (x : Alu2) (rule : TagRule) (f : IntTy → Nat → Nat → Nat) (t32 t64 : Nat) : Alu :=
  aluOf x.o (useSrc x.ty.wide x.a ++ useB x.ty.wide x.b) x.d x.ty.wide (x.ty == .i32)
    (fun V => [V.src x.ty.wide x.a, V.bsrc x.ty x.b]) rule x.ty.scalar
    (fun _ l => int2 x.ty (f x.ty) (arg0 l) (arg1 l)) (tickW x.ty.wide t32 t64)

/-- Three sources. -/
def intAlu3 (x : Alu3) (f : IntTy → Nat → Nat → Nat → Nat) (t32 t64 : Nat) : Alu :=
  aluOf x.o (useSrc x.ty.wide x.a ++ useB x.ty.wide x.b ++ useSrc x.ty.wide x.c) x.d x.ty.wide (x.ty == .i32)
    (fun V => [V.src x.ty.wide x.a, V.bsrc x.ty x.b, V.src x.ty.wide x.c]) .plain x.ty.scalar
    (fun _ l => int3 x.ty (f x.ty) (arg0 l) (arg1 l) (arg2 l)) (tickW x.ty.wide t32 t64)

/-! ### Arithmetic (R271-R275) -/

def aluAdd (x : Alu2) : Alu := intAlu2 x .linear addE 1 2
def execAdd (x : Alu2) (s : State) : Out := (aluAdd x).step (.add x) s
def aluSub (x : Alu2) : Alu := intAlu2 x .linear subE 1 2
def execSub (x : Alu2) (s : State) : Out := (aluSub x).step (.sub x) s

/-- The bit of a carry-in at position i; field 0 is no carry (R272). -/
def View.carryIn (V : View) (p : Fin 16) (i : Nat) : Bool := p != 0 && (V.regs.pred p).at V.places i

/-- `addc` and `subb` (R272): a result and a carry for each item. -/
def carryAlu (x : CarryOp) (f : IntTy → Nat → Nat → Bool → Nat × Bool) : Alu :=
  let y := x.x
  let srcs (V : View) : List Val := [V.src y.ty.wide y.a, V.bsrc y.ty y.b]
  let uni (V : View) (keep : Bool) : Bool :=
    keep && (srcs V).all Val.isUni && (x.pIn == 0 || (V.regs.pred x.pIn).isUni)
  let at_ (V : View) (i : Nat) : Nat × Bool :=
    f y.ty ((V.src y.ty.wide y.a).at i).toNat ((V.bsrc y.ty y.b).at i).toNat (V.carryIn x.pIn i)
  { o := y.o
    uses := useDst y.ty.wide y.d ++ useSrc y.ty.wide y.a ++ useB y.ty.wide y.b
    dst := some (y.d, y.ty.wide, y.ty == .i32)
    srcs := srcs
    val := fun V pass keep => liftP V.n pass (uni V keep) fun i => BitVec.ofNat 64 (at_ V i).1
    pdst := some x.pOut
    pval := fun V pass keep =>
      if uni V keep then .uni (at_ V 0).2 else .mat (lanesOf V.n fun i => pass.getLsbD i && (at_ V i).2)
    ticks := tickW y.ty.wide 1 2 }

def aluAddc (x : CarryOp) : Alu := carryAlu x addCarry
def execAddc (x : CarryOp) (s : State) : Out := (aluAddc x).step (.addc x) s
def aluSubb (x : CarryOp) : Alu := carryAlu x subBorrow
def execSubb (x : CarryOp) (s : State) : Out := (aluSubb x).step (.subb x) s

def aluMul (x : Alu2) : Alu := intAlu2 x .scale mulE 1 4
def execMul (x : Alu2) (s : State) : Out := (aluMul x).step (.mul x) s
def aluMulh (x : Alu2) : Alu := intAlu2 x .plain mulhE 1 4
def execMulh (x : Alu2) (s : State) : Out := (aluMulh x).step (.mulh x) s
def aluMad (x : Alu3) : Alu := intAlu3 x madE 1 4
def execMad (x : Alu3) (s : State) : Out := (aluMad x).step (.mad x) s
def aluDiv (x : Alu2) : Alu := intAlu2 x .plain divE 16 40
def execDiv (x : Alu2) (s : State) : Out := (aluDiv x).step (.div x) s
def aluRem (x : Alu2) : Alu := intAlu2 x .plain remE 16 40
def execRem (x : Alu2) (s : State) : Out := (aluRem x).step (.rem x) s
def aluMin (x : Alu2) : Alu := intAlu2 x .plain minE 1 2
def execMin (x : Alu2) (s : State) : Out := (aluMin x).step (.min x) s
def aluMax (x : Alu2) : Alu := intAlu2 x .plain maxE 1 2
def execMax (x : Alu2) (s : State) : Out := (aluMax x).step (.max x) s
def aluAbs (x : Alu1) : Alu := intAlu1 x .plain absE
def execAbs (x : Alu1) (s : State) : Out := (aluAbs x).step (.abs x) s
def aluNeg (x : Alu1) : Alu := intAlu1 x .linear negE
def execNeg (x : Alu1) (s : State) : Out := (aluNeg x).step (.neg x) s
def aluSadd (x : Alu2) : Alu := intAlu2 x .plain saddE 1 2
def execSadd (x : Alu2) (s : State) : Out := (aluSadd x).step (.sadd x) s
def aluSsub (x : Alu2) : Alu := intAlu2 x .plain ssubE 1 2
def execSsub (x : Alu2) (s : State) : Out := (aluSsub x).step (.ssub x) s

/-- `lea` (R275). -/
def aluLea (x : LeaOp) : Alu := intAlu2 x.x .linear (fun t a b => leaE t x.sh.val a b) 1 2
def execLea (x : LeaOp) (s : State) : Out := (aluLea x).step (.lea x) s

/-! ### Logic, shifts and bit fields (R276-R279) -/

def aluAnd (x : Alu2) : Alu := intAlu2 x .plain andE 1 2
def execAnd (x : Alu2) (s : State) : Out := (aluAnd x).step (.and x) s
def aluOr (x : Alu2) : Alu := intAlu2 x .plain orE 1 2
def execOr (x : Alu2) (s : State) : Out := (aluOr x).step (.or x) s
def aluXor (x : Alu2) : Alu := intAlu2 x .plain xorE 1 2
def execXor (x : Alu2) (s : State) : Out := (aluXor x).step (.xor x) s
def aluNot (x : Alu1) : Alu := intAlu1 x .plain notE
def execNot (x : Alu1) (s : State) : Out := (aluNot x).step (.not x) s
def aluAndn (x : Alu2) : Alu := intAlu2 x .plain andnE 1 2
def execAndn (x : Alu2) (s : State) : Out := (aluAndn x).step (.andn x) s
def aluShl (x : Alu2) : Alu := intAlu2 x .shift shlE 1 2
def execShl (x : Alu2) (s : State) : Out := (aluShl x).step (.shl x) s
def aluShr (x : Alu2) : Alu := intAlu2 x .plain shrE 1 2
def execShr (x : Alu2) (s : State) : Out := (aluShr x).step (.shr x) s
def aluSar (x : Alu2) : Alu := intAlu2 x .plain sarE 1 2
def execSar (x : Alu2) (s : State) : Out := (aluSar x).step (.sar x) s
def aluRol (x : Alu2) : Alu := intAlu2 x .plain rolE 1 2
def execRol (x : Alu2) (s : State) : Out := (aluRol x).step (.rol x) s
def aluRor (x : Alu2) : Alu := intAlu2 x .plain rorE 1 2
def execRor (x : Alu2) (s : State) : Out := (aluRor x).step (.ror x) s
def aluClz (x : Alu1) : Alu := intAlu1 x .plain clzE
def execClz (x : Alu1) (s : State) : Out := (aluClz x).step (.clz x) s
def aluCtz (x : Alu1) : Alu := intAlu1 x .plain ctzE
def execCtz (x : Alu1) (s : State) : Out := (aluCtz x).step (.ctz x) s
def aluFfs (x : Alu1) : Alu := intAlu1 x .plain ffsE
def execFfs (x : Alu1) (s : State) : Out := (aluFfs x).step (.ffs x) s
def aluPopc (x : Alu1) : Alu := intAlu1 x .plain popcE
def execPopc (x : Alu1) (s : State) : Out := (aluPopc x).step (.popc x) s
def aluBrev (x : Alu1) : Alu := intAlu1 x .plain brevE
def execBrev (x : Alu1) (s : State) : Out := (aluBrev x).step (.brev x) s
def aluBfx (x : Alu2) : Alu := intAlu2 x .plain bfxE 1 2
def execBfx (x : Alu2) (s : State) : Out := (aluBfx x).step (.bfx x) s
def aluBfi (x : Alu3) : Alu := intAlu3 x bfiE 1 2
def execBfi (x : Alu3) (s : State) : Out := (aluBfi x).step (.bfi x) s

/-! ### Selection, comparison and moves (R280-R282) -/

/-- `sel` (R280): under a UNI predicate the chosen source with its tag. -/
def aluSel (x : SelOp) : Alu :=
  let y := x.x
  let srcs (V : View) : List Val := [V.src y.ty.wide y.a, V.bsrc y.ty y.b]
  { o := y.o
    uses := useDst y.ty.wide y.d ++ useSrc y.ty.wide y.a ++ useB y.ty.wide y.b
    dst := some (y.d, y.ty.wide, y.ty == .i32)
    srcs := srcs
    val := fun V pass keep =>
      let q := V.regs.predNot x.q x.qneg
      let a := V.src y.ty.wide y.a
      let b := V.bsrc y.ty y.b
      match keep, q with
      | true, .uni c => if c then a else b
      | _, _ =>
        .mat ((List.range V.n).map fun i => if pass.getLsbD i then (if q.at V.places i then a.at i else b.at i) else 0)
    pdst := none
    pval := noPval
    ticks := tickW y.ty.wide 1 2 }
def execSel (x : SelOp) (s : State) : Out := (aluSel x).step (.sel x) s

/-- `cmp` (R281). -/
def aluCmp (x : CmpOp) : Alu where
  o := ⟨x.g, false, x.pfx⟩
  uses := useSrc x.ty.wide x.a ++ useB x.ty.wide x.b
  dst := none
  srcs := fun V => [V.src x.ty.wide x.a, V.bsrc x.ty x.b]
  val := noVal
  pdst := some x.pd
  pval := fun V pass keep => V.cmpTag keep pass x.ty x.rel (V.src x.ty.wide x.a) (V.bsrc x.ty x.b)
  ticks := tickW x.ty.wide 1 2
def execCmp (x : CmpOp) (s : State) : Out := (aluCmp x).step (.cmp x) s

def aluMov (x : Alu1) : Alu := intAlu1 x .linear fun _ a => a
def execMov (x : Alu1) (s : State) : Out := (aluMov x).step (.mov x) s

/-- `movi` (R220, R282). -/
def aluMovi (x : MoviOp) : Alu :=
  match x.d with
  | .v n => { aluOf ⟨x.g, x.nw, none⟩ [] (.v n) false false (fun _ => []) .plain false (fun _ _ => x.imm.setWidth 64) 1 with uses := [useD false n] }
  | .k n => aluOf ⟨x.g, x.nw, none⟩ [] (.k n) true false (fun _ => []) .plain false (fun _ _ => x.imm.signExtend 64) 1
def execMovi (x : MoviOp) (s : State) : Out := (aluMovi x).step (.movi x) s

/-- `movk` (R220, R282). -/
def aluMovk (x : MovkOp) : Alu :=
  aluOf ⟨x.g, x.nw, none⟩ [] (.k x.d) true false (fun _ => []) .plain false
    (fun V _ => x.imm ++ V.regs.k[x.d].setWidth 32) 1
def execMovk (x : MovkOp) (s : State) : Out := (aluMovk x).step (.movk x) s

/-! ### Conversions, packing, permutation, dot product (R283-R288) -/

def aluCvt (x : CvtOp) : Alu :=
  aluOf x.o (useSrc x.src.wide x.a) x.d x.dst.wide (x.dst == .int .i32) (fun V => [V.src x.src.wide x.a]) .plain false
    (fun V l => cvtW x.src x.dst x.sat (V.rm x.o) (arg0 l)) (tickW (x.src.wide || x.dst.wide) 1 2)
def execCvt (x : CvtOp) (s : State) : Out := (aluCvt x).step (.cvt x) s

/-- `pack` (R285): the 8-bit form reads four sources. -/
def aluPack (x : PackOp) : Alu :=
  let four := packWide x.dst
  let bty : IntTy := match x.src with
    | .int t => t
    | .fp _ => .n32
  aluOf x.o (useSrc false x.a ++ useB false x.b ++ if four then useSrc false x.c ++ useSrc false x.d4 else [])
    x.d false (x.dst == .int .i32)
    (fun V => [V.src false x.a, V.bsrc bty x.b] ++ if four then [V.src false x.c, V.src false x.d4] else []) .plain false
    (fun V l => packW x.src x.dst x.sat (V.rm x.o) l) 1
def execPack (x : PackOp) (s : State) : Out := (aluPack x).step (.pack x) s

def aluUnpk (x : UnpkOp) : Alu :=
  aluOf x.o (useSrc false x.a) x.d false (x.dst == .int .i32) (fun V => [V.src false x.a]) .plain false
    (fun _ l => unpkW x.src x.dst x.sat x.e.val (arg0 l)) 1
def execUnpk (x : UnpkOp) (s : State) : Out := (aluUnpk x).step (.unpk x) s

def aluPrm (x : Alu3) : Alu :=
  aluOf x.o (useSrc false x.a ++ useB false x.b ++ useSrc false x.c) x.d false (x.ty == .i32)
    (fun V => [V.src false x.a, V.bsrc x.ty x.b, V.src false x.c]) .plain false
    (fun _ l => prmW (arg0 l) (arg1 l) (arg2 l)) 1
def execPrm (x : Alu3) (s : State) : Out := (aluPrm x).step (.prm x) s

def aluDp4 (x : Dp4Op) : Alu :=
  let y := x.x
  aluOf y.o (useSrc false y.a ++ useB false y.b ++ useSrc false y.c) y.d false y.ty.signed
    (fun V => [V.src false y.a, V.bsrc y.ty y.b, V.src false y.c]) .plain false
    (fun _ l => dp4W y.ty x.r.val x.sat (arg0 l) (arg1 l) (arg2 l)) 1
def execDp4 (x : Dp4Op) (s : State) : Out := (aluDp4 x).step (.dp4 x) s

end Sys2Proof.Machine
end

