-- ==== Sys2Proof/Machine/Predicate.lean ====
section
/-! DEFINITION. Meanings of the predicate instructions (opcodes 0x60 to 0x67, R268, R289, R290). -/

namespace Sys2Proof.Machine

open Sys2Proof

/-- A predicate result: it shifts no latch. -/
def predAlu (g : Guard) (pd : Fin 16) (f : View → PTag) : Alu where
  o := optOf g
  uses := []
  dst := none
  srcs := fun _ => []
  val := noVal
  pdst := some pd
  pval := fun V _ _ => f V
  ticks := 1

def aluPand (x : Pred2) : Alu :=
  predAlu x.g x.pd fun V => V.pand (V.regs.predNot x.pa x.na) (V.regs.predNot x.pb x.nb)
def execPand (x : Pred2) (s : State) : Out := (aluPand x).step (.pand x) s
def aluPor (x : Pred2) : Alu :=
  predAlu x.g x.pd fun V => V.por (V.regs.predNot x.pa x.na) (V.regs.predNot x.pb x.nb)
def execPor (x : Pred2) (s : State) : Out := (aluPor x).step (.por x) s
def aluPxor (x : Pred2) : Alu :=
  predAlu x.g x.pd fun V => V.pxor (V.regs.predNot x.pa x.na) (V.regs.predNot x.pb x.nb)
def execPxor (x : Pred2) (s : State) : Out := (aluPxor x).step (.pxor x) s
def aluPnot (x : Pred1) : Alu := predAlu x.g x.pd fun V => (V.regs.pred x.pa).not
def execPnot (x : Pred1) (s : State) : Out := (aluPnot x).step (.pnot x) s
def aluPmov (x : Pred1) : Alu := predAlu x.g x.pd fun V => V.regs.pred x.pa
def execPmov (x : Pred1) (s : State) : Out := (aluPmov x).step (.pmov x) s
def aluPset (x : PsetOp) : Alu := predAlu x.g x.pd fun _ => .uni x.val
def execPset (x : PsetOp) (s : State) : Out := (aluPset x).step (.pset x) s

/-- A k register written once from the passing items at which a predicate holds (R290). -/
def predK (i : Instr) (x : PredK) (f : Env → List Nat → W64) (s : State) : Out :=
  issueK i s [] (fun e => costL e.f.strips) fun e =>
    e.guarded x.g fun p =>
      let V := e.view
      let hits := Lanes.list (p &&& V.plane (V.regs.pred x.pa)) V.n
      e.done (e.put e.s (V.file.putK x.d x.nw (f e hits)))

def execPcnt (x : PredK) (s : State) : Out := predK (.pcnt x) x (fun _ hits => BitVec.ofNat 64 hits.length) s

/-- `pfirst`: the item index, or every bit set. -/
def execPfirst (x : PredK) (s : State) : Out :=
  predK (.pfirst x) x (fun e hits =>
    match hits.head? with
    | some i => BitVec.ofNat 64 (e.c.idx e.b i)
    | none => BitVec.allOnes 64) s

end Sys2Proof.Machine
end

