-- ==== Sys2Proof/Machine/Fold.lean ====
section
/-! DEFINITION. Launch-level folding (R164, R165): what the launch engine executes itself, once for the whole launch. -/

namespace Sys2Proof.Machine

open Sys2Proof

/-- The computing instructions that may be folded: opcodes 0x30 to 0x5A, 0x60 to 0x65 and 0x70 to 0x85. -/
def foldAlu : Instr → Option Alu
  | .add x => some (aluAdd x)
  | .sub x => some (aluSub x)
  | .addc x => some (aluAddc x)
  | .subb x => some (aluSubb x)
  | .mul x => some (aluMul x)
  | .mulh x => some (aluMulh x)
  | .mad x => some (aluMad x)
  | .div x => some (aluDiv x)
  | .rem x => some (aluRem x)
  | .min x => some (aluMin x)
  | .max x => some (aluMax x)
  | .abs x => some (aluAbs x)
  | .neg x => some (aluNeg x)
  | .sadd x => some (aluSadd x)
  | .ssub x => some (aluSsub x)
  | .lea x => some (aluLea x)
  | .and x => some (aluAnd x)
  | .or x => some (aluOr x)
  | .xor x => some (aluXor x)
  | .not x => some (aluNot x)
  | .andn x => some (aluAndn x)
  | .shl x => some (aluShl x)
  | .shr x => some (aluShr x)
  | .sar x => some (aluSar x)
  | .rol x => some (aluRol x)
  | .ror x => some (aluRor x)
  | .clz x => some (aluClz x)
  | .ctz x => some (aluCtz x)
  | .ffs x => some (aluFfs x)
  | .popc x => some (aluPopc x)
  | .brev x => some (aluBrev x)
  | .bfx x => some (aluBfx x)
  | .bfi x => some (aluBfi x)
  | .sel x => some (aluSel x)
  | .cmp x => some (aluCmp x)
  | .mov x => some (aluMov x)
  | .movi x => some (aluMovi x)
  | .movk x => some (aluMovk x)
  | .cvt x => some (aluCvt x)
  | .pack x => some (aluPack x)
  | .unpk x => some (aluUnpk x)
  | .prm x => some (aluPrm x)
  | .dp4 x => some (aluDp4 x)
  | .pand x => some (aluPand x)
  | .por x => some (aluPor x)
  | .pxor x => some (aluPxor x)
  | .pnot x => some (aluPnot x)
  | .pmov x => some (aluPmov x)
  | .pset x => some (aluPset x)
  | .fadd x => some (aluFadd x)
  | .fsub x => some (aluFsub x)
  | .fmul x => some (aluFmul x)
  | .fma x => some (aluFma x)
  | .fmin x => some (aluFmin x)
  | .fmax x => some (aluFmax x)
  | .fabs x => some (aluFabs x)
  | .fneg x => some (aluFneg x)
  | .fcmp x => some (aluFcmp x)
  | .fcvt x => some (aluFcvt x)
  | .frnd x => some (aluFrnd x)
  | .fclass x => some (aluFclass x)
  | .frcp x => some (aluFrcp x)
  | .frsq x => some (aluFrsq x)
  | .fsqrt x => some (aluFsqrt x)
  | .fex2 x => some (aluFex2 x)
  | .flg2 x => some (aluFlg2 x)
  | .fsin x => some (aluFsin x)
  | .fcos x => some (aluFcos x)
  | .ftanh x => some (aluFtanh x)
  | .fdiv x => some (aluFdiv x)
  | .fscale x => some (aluFscale x)
  | _ => none

/-- The launch context as operands see it: AFF values have their origin at item 0, and all N items exist (R155, R161). -/
def launchView (l : Launch) (ctr : Nat) : View where
  launch := true
  n := 1
  strips := 0
  origin := 0
  base := 0
  bidx := 0
  items := none
  exist := l.desc.n
  mat := []
  own := Lanes.single 0
  regs := l.lctx.regs
  ctr := ctr

/-- The value of a UNI guard; none where the guard is THR or MAT. -/
def View.uniGuard (V : View) (g : Guard) : Option Bool :=
  match V.guard g with
  | .uni b => some b
  | _ => none

/-- Every source of a computing instruction is UNI or AFF, a predicate among them UNI, and every result keeps a tag, or it writes a k register
from UNI sources only (R164). A guard that is false changes none of this. -/
def Alu.foldable (a : Alu) (i : Instr) (vregs : Nat) (V : View) : Bool :=
  let keep := match a.o.pfx with
    | none => true
    | some q => q.msk == 0
  let res := a.val V V.own keep
  let reg := match a.dst with
    | some (.k _, _) => (a.srcs V).all Val.isUni
    | some (.v _, _) => !res.isMat
    | some (.zero, _) => !res.isMat
    | none => true
  let pred := match a.pdst with
    | some _ => !(a.pval V V.own keep).isMat
    | none => true
  a.uses.all (fun u => u.ok vregs) && (a.srcs V).all (fun x => !x.isMat) && (predReads i).all (fun p => (V.regs.pred p).isUni) &&
    keep && reg && pred

/-- The launch context after a foldable instruction; none where the instruction is not foldable. `len` is its length. -/
def Launch.foldOne (l : Launch) (i : Instr) (len ctr : Nat) : Option LCtx :=
  let V := launchView l ctr
  let x := l.lctx
  let next : LCtx := { x with pc := x.pc + BitVec.ofNat 58 len }
  match i with
  | .nop g => (V.uniGuard g).map fun _ => next
  | .jmpDirect t => some { x with pc := x.pc + t.signExtend 58 * 4 }
  | .jmpIndirect k =>
    let a := x.regs.k[k]
    if bitsN a.toNat 0 2 = 0 ∧ bitsN a.toNat 58 6 = 0 then some { x with pc := a.setWidth 58 } else none
  | .bra b =>
    match x.regs.predNot b.pred b.neg with
    | .uni true => some { x with pc := x.pc + b.target.signExtend 58 * 4 }
    | .uni false => some next
    | _ => none
  | .fmt src g =>
    let v : W32 := match src with
      | .imm w => w
      | .k n => (x.regs.k[n]).setWidth 32
    match V.uniGuard g with
    | some b => if !fmtValid v then none else some (if b then { next with regs := { x.regs with fmt := v } } else next)
    | none => none
  | i =>
    match foldAlu i with
    | none => none
    | some a =>
      match V.uniGuard a.o.g with
      | some pass =>
        if a.foldable i l.hdr.vregs V then some (if pass then { next with regs := (a.file V).regs } else next) else none
      | none => none

/-- A word of code as the launch engine fetches it (R34). -/
def State.launchWord (s : State) (tcid : Nat) (a : VAddr) : State × Option W32 :=
  let va : W64 := a.setWidth 64
  let out := s.walk 0 tcid va
  match out.2 with
  | .ok leaf =>
    (out.1, if fetchable leaf then some (BitVec.ofNat 32 (natOfBytes (out.1.readPhys (leafTier leaf) (leafPhys leaf va) 4))) else none)
  | .error _ => (out.1, none)

/-- The instruction at an address, with its length. -/
def State.launchInstr (s : State) (tcid : Nat) (a : VAddr) : State × Option (Instr × Nat) :=
  match s.launchWord tcid a with
  | (s, none) => (s, none)
  | (s, some w0) =>
    match s.launchWord tcid (a + 4) with
    | (s, none) => (s, none)
    | (s, some w1) =>
      if isLead w0 then
        match s.launchWord tcid (a + 8) with
        | (s, none) => (s, none)
        | (s, some w2) => (s, some (decodeOrIll [w0, w1, w2]))
      else (s, some (decodeOrIll [w0, w1]))

/-- Fold at most n instructions of a launch. -/
def State.fold (seq : Nat) : Nat → State → State
  | 0, s => s
  | n + 1, s =>
    match s.launch? seq with
    | none => s
    | some l =>
      let stop (s : State) : State := s.updLaunch seq fun l => { l with lctx := { l.lctx with stopped := true } }
      match s.launchInstr l.tcid l.lctx.pc with
      | (s, none) => stop s
      | (s, some i) =>
        match l.foldOne i.1 i.2 s.freeCtr with
        | none => stop s
        | some x => State.fold seq n ({ s with freeCtr := s.freeCtr + 1 }.updLaunch seq fun l => { l with lctx := x })

/-- A register or predicate of the launch context as a context with its first item at `origin` holds it (R165). -/
def VTag.rebase (origin : Nat) : VTag → VTag
  | .aff b st => .aff (b + st * BitVec.ofNat 32 origin) st
  | .affLo b st => .affLo (b + st * BitVec.ofNat 64 origin) st
  | .affHi b st => .affHi (b + st * BitVec.ofNat 64 origin) st
  | t => t

/-- The registers of a partition context at the placement cut; its latches are undefined (R165, R185). -/
def Regs.placed (r : Regs) (origin : Nat) : Regs :=
  { r with vtags := r.vtags.map fun x => (x.1, x.2.rebase origin), latches := noLatches }

end Sys2Proof.Machine
end

