-- ==== Sys2Proof/Machine/EngineOps.lean ====
section
/-! DEFINITION. Meanings of the engine instructions but `coll` (opcodes 0xC0 to 0xC3 and 0xC5 to 0xC7, R338-R341, R344-R347), the
charges of a stash region (R92, R93), and the responses of other devices. -/

namespace Sys2Proof.Machine

open Sys2Proof

/-! ### `copy`, `gather`, `scatter` (R338, R339) -/

def execCopy (x : DescOp) (s : State) : Out :=
  issue (.copy x) s (descUses x.a) (costC 1) fun e =>
    e.guarded x.g fun p =>
      let a := e.view.src false x.a
      let e := e.withDescs p a x.disp 128 128
      let jobs : List Job := (Lanes.list (e.sound p) e.c.width).map fun i =>
        let bs := e.readShDesc (a.at i) x.disp 128 128
        let d := parseCopy bs
        let cmd := e.newCmd i (e.copyPath d) (.copy d false) d.moves
        { cmd := { cmd with rows := d.rows }
          refused := refusal (copyRefused bs d (e.sideKind d.denseSpace d.dense) (e.sideKind d.stridedSpace d.strided)) }
      e.runJobs jobs (fun s => s) State.commitCmd

def Env.gatherRun (e : Env) (x : GatherOp) (scatter : Bool) : State :=
  e.guarded x.g fun p =>
    let e := e.withDescs p (.uni (e.kOpt x.a)) x.disp 128 128
    let p := e.sound p
    let bs := e.readShDesc (e.kOpt x.a) x.disp 128 128
    let d := parseCopy bs
    let ix := e.view.src x.ty.wide x.b
    let ext (v : W64) : W64 := if x.ty.wide then v else if x.ty.signed then (v.setWidth 32).signExtend 64 else low32 v
    let bad := refusal (gatherRefused bs d scatter (e.sideKind d.denseSpace d.dense) (e.sideKind d.stridedSpace d.strided))
    let jobs : List Job := (e.stripsOf p).map fun t =>
      let lanes := (e.laneArgs p t ix (.uni 0)).map fun a => { a with addr := ext a.addr }
      { cmd := e.newCmd 0 .ga (.gather d scatter t lanes) lanes.length, refused := bad }
    e.runJobs jobs (fun s => s) State.commitCmd

def execGather (x : GatherOp) (s : State) : Out :=
  issue (.gather x) s (useSrc x.ty.wide x.b) (costC 1) fun e => e.gatherRun x false

def execScatter (x : GatherOp) (s : State) : Out :=
  issue (.scatter x) s (useSrc x.ty.wide x.b) (costC 1) fun e => e.gatherRun x true

/-! ### `xatom` (R340, R341) -/

/-- The 64-bit address of each item. -/
def View.addr64 (V : View) : ASrc → Val
  | .v n => V.v64 n.val
  | .k n => .uni V.regs.k[n]

def useA : ASrc → List VUse
  | .v n => [useV true n]
  | .k _ => []

def execXatom (x : XatomOp) (s : State) : Out :=
  issue (.xatom x) s (useA x.a ++ useSrc x.op.wide x.b ++ useSrc false x.d) (costC 1) fun e =>
      e.guarded x.g fun p =>
        if e.l.det && atomFadd x.op then
          let s := e.s.faultItems e.r 8 p 0 fun _ => 0
          if s.goesOn e.r then e.orCheck s (e.done s) else s
        else
          let p := e.sound p
          let V := e.view
          let ret : Option (List (Nat × W32)) := match x.d with
            | .zero => none
            | d => some ((Lanes.list p V.n).map fun i => (i, ((V.src false d).at i).setWidth 32))
          let jobs : List Job := (e.stripsOf p).map fun t =>
            let lanes := e.laneArgs p t (V.addr64 x.a) (V.src x.op.wide x.b)
            let cmd := e.newCmd 0 .xa (.xatom x.op ret lanes) lanes.length
            { cmd := cmd, refused := none }
          e.runJobs jobs (fun s => s) fun s c => s.commitCmd { c with rel := s.headsOf e.r (if x.rel then some x.scope else none) }

/-! ### `dred` (R344, R345, R367) -/

/-- Records that a launch's deferred log may hold. -/
def State.logRoom (s : State) (tcid : Nat) : Nat :=
  let a := s.area tcid 1
  if a.configured then 2 ^ a.log else 0

/-- The records of a deterministic `dred`, in ascending item index (R345). -/
def State.logDred (s : State) (l : Launch) (b : Block) (c : Cmd) : State :=
  match c.kind with
  | .dred op ty lanes =>
    let one (s : State) (a : LaneArg) : State :=
      let n := (s.log.filter fun x => x.1 == l.seq && x.2.item == a.item).length
      let pages := (splitPages a.addr (dredBytes ty)).map fun p => p.1.toNat / 2 ^ 14
      let r : LogRec := { ctx := c.ctx, vcore := b.index % 1024, block := b.index, item := a.item, count := n, op := op, ty := ty, addr := a.addr
                          val := a.val, trans := c.trans.filter fun t => pages.contains t.1 }
      { s with log := s.log ++ [(l.seq, r)] }
    lanes.foldl one s
  | _ => s

def execDred (x : DredInstr) (s : State) : Out :=
  let wide := dredBytes x.ty == 8
  issue (.dred x) s (useA x.a ++ useSrc wide x.b) (costC 1) fun e =>
    e.guarded x.g fun p =>
      let p := e.sound p
      let V := e.view
      let held := (e.s.log.filter fun r => r.1 == e.l.seq).length
      let full := e.l.det && decide (e.s.logRoom e.l.tcid < held + Lanes.count p)
      let jobs : List Job := (e.stripsOf p).map fun t =>
        let lanes := e.laneArgs p t (V.addr64 x.a) (V.src wide x.b)
        { cmd := e.newCmd 0 .co (.dred x.op x.ty lanes) lanes.length, refused := if full then some (2 ^ 57) else none }
      e.runJobs jobs (fun s => s) fun s c =>
        if e.l.det then (s.logDred e.l e.b c).commitCmd { c with total := 0 } else s.commitCmd c

/-! ### Stash charges (R91-R93) -/

/-- The address of a page's level-3 leaf; none where a table above it is missing. -/
def State.leafEntry (s : State) (die tcid : Nat) (va : W64) : Nat → Nat → Option Nat
  | 0, base => some (base + 8 * bitsN va.toNat (levelShift 3) 11)
  | n + 1, base =>
    let e := s.tableEntry die tcid (s.tcid tcid).tenant (2 - n) va base
    if leafValid e && !ptrReserved e && !leafKind e && decide (ptrNext e < s.tier1Limit) then State.leafEntry s die tcid va n (ptrNext e)
    else none

/-- Pages of a stash region that a command writes, ascending. -/
def stashPages (e : Env) (ent : RegionEnt) (d : CopyDesc) : List Nat :=
  let offs := (List.range d.moves).flatMap fun n => (d.move n).writes.filterMap fun y => match y.1 with
    | .scratch _ off => some (effAddr ent.size y.2 off 0)
    | _ => none
  let pages := offs.foldl (fun (l : List Nat) o =>
    let p := (ent.globalBase.toNat + o) / 2 ^ 14
    if l.contains p then l else l ++ [p]) []
  if e.l.hdr.blocksize = 0 then [] else sortOn (fun p => p) pages

/-- What charging has come to: the state, and the handle of a region whose quotas are exceeded. -/
structure Charge where
  s : State
  over_ : Option W64

/-- Charge one page: backing of the region's next page, and its leaf. -/
def Charge.page (core die slot : Nat) (h : W64) (x : Charge) (page : Nat) : Charge :=
  if x.over_.isSome then x
  else
    match x.s.regionAt? die slot with
    | none => x
    | some ent =>
      let va : W64 := BitVec.ofNat 64 (page * 2 ^ 14)
      match x.s.leafEntry (dieOfCore core) ent.tcid va 3 (x.s.tcid ent.tcid).root with
      | none => x
      | some at_ =>
        if leafValid (x.s.tier1.readW64 at_) then x
        else if ent.quota1 + ent.quota2 ≤ ent.charged then { x with over_ := some h }
        else
          let k := ent.charged
          let phys := if k < ent.quota1 then ent.base1 + 2 ^ 14 * k else ent.base2 + 2 ^ 14 * (k - ent.quota1)
          let tier := if k < ent.quota1 then 0 else 1
          let leaf := 15 + phys / 2 ^ 14 * 2 ^ 10 + (x.s.tcid ent.tcid).tenant * 2 ^ 50 + tier * 2 ^ 58
          { x with s := (x.s.writeTier1W64 at_ (BitVec.ofNat 64 leaf)).setRegion die slot { ent with charged := k + 1 } }

/-- Charge what the jobs of a `stash` need. -/
def Env.charge (e : Env) (s : State) (jobs : List Job) : Charge :=
  jobs.foldl (fun x j =>
    match j.refused, j.cmd.kind with
    | none, .copy d _ =>
      match x.s.sideRegion e.l (d.dense >>> 32) with
      | some r => if r.2.2.sealed then x else (stashPages e r.2.2 d).foldl (Charge.page e.c.core r.1 r.2.1 (d.dense >>> 32)) x
      | none => x
    | _, _ => x) ⟨s, none⟩

/-- `stash` (R346): an overflow parks the fragment with nothing charged (R93, R386). -/
def execStash (x : DescOp) (s : State) : Out :=
  issue (.stash x) s (descUses x.a) (costC 1) fun e =>
    e.guarded x.g fun p =>
      let a := e.view.src false x.a
      let e := e.withDescs p a x.disp 128 128
      let jobs : List Job := (Lanes.list (e.sound p) e.c.width).map fun i =>
        let bs := e.readShDesc (a.at i) x.disp 128 128
        let d := parseCopy bs
        let cmd := e.newCmd i .cp (.copy d true) d.moves
        { cmd := { cmd with rows := d.rows }, refused := refusal (stashRefused bs d (e.sideKind d.denseSpace d.dense)) }
      let ch := e.charge e.s jobs
      match ch.over_ with
      | none => e.runJobs jobs (fun _ => ch.s) State.commitCmd
      | some h =>
        let out := e.xlJobs ch.s jobs
        let prot := out.2.2.1.filter fun f => f.fault.isProtection
        let route := e.s.routeFaults e.r 3 false 0 out.2.2.2 prot
        if !prot.isEmpty && !route.1.goesOn e.r then route.1
        else
          e.orCheck route.1 <|
          let f := (route.1.frag? e.r).getD e.f
          let info : FaultInfo := { addr := h.toNat, source := 3, tcid := e.l.tcid }
          if e.inHandler then route.1.park e.r 5 2 (f.p14 e.c) info else route.1.park e.r 5 3 (p &&& f.mask) info

/-! ### `seal` (R347) -/

/-- Commands that still stash into a region. -/
def State.stashing (s : State) (die slot : Nat) : Bool :=
  s.cmds.any fun c =>
    match c.kind with
    | .copy d true =>
      !c.complete && (((s.cmdLaunch c).bind fun l => s.sideRegion l (d.dense >>> 32)).map fun r => r.1 == die && r.2.1 == slot).getD false
    | _ => false

/-- Start the write-back of every dirty line of a region. -/
def State.cleanRegion (s : State) (die slot : Nat) (ent : RegionEnt) : State :=
  ((s.settleRegion die slot).writeBackLines die slot ent (fun _ => true) .none).1

def execSeal (h : Fin 64) (s : State) : Out :=
  issue (.seal h) s [] (costC 1) fun e =>
    e.onRegion h ⟨0, false⟩ (fun ent => ent.kind == .stash) e.doneEnd fun slot ent _ =>
      if ent.sealed then e.doneEnd e.s
      else
        let s := e.s.settleRegion e.die slot
        let s := s.setRegion e.die slot { ent with sealed := true }
        e.wait (s.cleanRegion e.die slot ent) 15 .seal

/-- `SEAL_COMPLETION`: lines made dirty by the last `stash` commands are written back; then the lines go and the wait ends. -/
def execSealCompletion (r : FragRef) (s : State) : Out :=
  match s.ctx? r.ctx, s.frag? r with
  | some c, some f =>
    match f.wait, s.launchOfCtx? c with
    | some w, some l =>
      match w.instr with
      | .seal h =>
        let die := dieOfCore c.core
        match s.regionOf die l f.regs.k[h] with
        | none => event (w.what == .seal) (s.complete r true)
        | some x =>
          let dirty := (s.linesOf die x.1).any fun y => y.d != 0
          let flying := s.writeBacks.any fun b => b.die == die && b.slot == x.1
          let ok := w.what == .seal && !s.stashing die x.1
          if dirty then event ok (s.cleanRegion die x.1 x.2)
          else event (ok && !flying) (((s.dropLines die x.1).knowAll r).complete r true)
      | _ => .fault .notEnabled
    | _, _ => .fault .notEnabled
  | _, _ => .fault .notEnabled

/-! ### Responses (R36, R403) -/

/-- A remote step's answer: what a read gives, and whether it is damaged. -/
def State.answer (s : State) (c : Cmd) (q : RemoteReq) (st : RemoteStatus) (data : List Byte) : State × List Byte × Bool :=
  let zeros := List.replicate q.length 0#8
  match st with
  | .ok => (s, (data ++ zeros).take q.length, false)
  | .refused => (s.updCmd c.id fun c => { c with refused := c.refused + 1 }, zeros, false)
  | .poisoned => (s.engineError c 9 (q.device * 2 ^ 42 + q.entry * 2 ^ 32 + q.offset), zeros, true)

/-- An element of a deferred log that was refused, or lost on a dead link, is charged to the context that issued it (R403, R405). -/
def State.chargeStray (s : State) (ctx : Nat) (f : Outcomes → Outcomes) : State :=
  match (s.ctx? ctx).filter fun c => c.state != .left with
  | some _ => s.updCtx ctx fun c => { c with outcomes := f c.outcomes }
  | none => { s with strays := SMap.set s.strays ctx (f (SMap.getD s.strays ctx Outcomes.zero)) }

def Outcomes.addRefused (o : Outcomes) : Outcomes := { o with refused := o.refused + 1 }
def Outcomes.addDead (o : Outcomes) : Outcomes := { o with deadPod := o.deadPod + 1 }

/-- The answer to a record of a phase's deferred log: a refusal is charged, damage is recorded and counted (R345, R403). -/
def State.logAnswer (s : State) (q : RemoteReq) (st : RemoteStatus) : State :=
  match st, s.launch? q.elem with
  | .refused, _ => s.chargeStray q.ctx Outcomes.addRefused
  | .poisoned, some l =>
    let s := s.logError (errRec s.tick l.tcid (s.tcid l.tcid).tenant 9 0 0 (q.device * 2 ^ 42 + q.entry * 2 ^ 32 + q.offset) 0)
    { s with zeroed := SMap.set s.zeroed l.seq (SMap.getD s.zeroed l.seq 0 + 1) }
  | _, _ => s

/-- The element goes on from the step that waited for the answer. -/
def State.stepAnswer (s : State) (c : Cmd) (q : RemoteReq) (st : RemoteStatus) (data : List Byte) : State :=
  match q.kind, c.part? q.elem with
  | .contribute _ _ _ _ _, _ =>
    let x := s.answer c q st data
    (x.1.updCmd c.id fun c => { c with pending := c.pending - 1 }).collAfter c
  | kind, some p =>
    let x := s.answer c q st data
    let d := match kind with
      | .write _ => p.data
      | _ => p.data ++ x.2.1
    let s := State.runSteps c p.elem ((x.1.steps c p.elem).drop (p.step + 1)) (p.step + 1) x.1 d (p.bad || x.2.2)
    ((s.collSent c p.elem).collAfter c).writeReady c.id
  | _, none => s

/-- `REMOTE_RESPONSE_ARRIVAL`. -/
def execRemoteResponseArrival (request : Nat) (st : RemoteStatus) (data : List Byte) (s : State) : Out :=
  match s.ual.requests.find? fun q => q.id == request with
  | none => .fault .notEnabled
  | some q =>
    let s : State := { s with ual := { s.ual with requests := s.ual.requests.filter fun x => x.id != request } }
    let s := s.serveReq q true
    match s.cmd? q.cmd with
    | none => .next (if q.cmd = 0 then s.logAnswer q st else s)
    | some c => .next (s.stepAnswer c q st data)

end Sys2Proof.Machine
end

