-- ==== Sys2Proof/Machine/Regions.lean ====
section
/-! DEFINITION. Creating and freeing scratchpad regions (R21, R22, R25, R26), and accesses of the device's own units to a region that an
address of the form of R87 names: first touches of a range, reads, writes and write-backs. -/

namespace Sys2Proof.Machine

open Sys2Proof

/-! ### The region table -/

def mkRegion (kind : RKind) (logSize tcid : Nat) : RegionEnt :=
  { kind := kind, logSize := logSize, base := 0, tcid := tcid, shared := false, globalBase := 0, base1 := 0, quota1 := 0, base2 := 0
    quota2 := 0, charged := 0, sealed := false }

/-- A die's scratchpad: 64 MiB. -/
def scratchBytes : Nat := 2 ^ 26

/-- The lowest free slot of 1 to 1,023. -/
def Die.freeSlot (d : Die) : Option Nat :=
  ((List.range 1023).map fun k => k + 1).find? fun n => (SMap.get? d.regions n).isNone

/-- The lowest base at which an aligned block of the size is free. -/
def Die.freeBase (d : Die) (log : Nat) : Option Nat :=
  (List.range (scratchBytes / 2 ^ log)).find? fun b =>
    d.regions.all fun r => decide (r.2.pos + r.2.size ≤ b * 2 ^ log) || decide ((b + 1) * 2 ^ log ≤ r.2.pos)

/-- A new region: its slot, or none where the die has no slot or no room. -/
def State.createRegion (s : State) (die : Nat) (e : RegionEnt) : Option (State × Nat) :=
  match (s.die die).freeSlot, (s.die die).freeBase e.logSize with
  | some n, some b =>
    let e : RegionEnt := { e with base := b }
    some ((s.setRegion die n e).anew (.scratch die) e.pos e.size, n)
  | _, _ => none

/-- Every byte of a region becomes zero (R25), so that no word of it is damaged any more (R98). -/
def State.zeroRegion (s : State) (die slot : Nat) : State :=
  match s.regionAt? die slot with
  | none => s
  | some e => (s.anew (.scratch die) e.pos e.size).updDie die fun d =>
      { d with scratch := d.scratch.zero e.pos e.size
               damage := if d.damage.isEmpty then [] else d.damage.filter fun w => !(decide (e.pos ≤ 8 * w) && decide (8 * w < e.pos + e.size)) }

/-- Write-backs of a region that are on their way reach memory. -/
def State.landAll (s : State) (die slot : Nat) : State :=
  (s.writeBacks.filter fun w => w.die == die && w.slot == slot).foldl State.landWriteBack s

/-- The storage of a region goes out of use: what is in flight completes, dirty lines reach memory, lines go (R26). -/
def State.quietRegion (s : State) (die slot : Nat) : State :=
  match s.regionAt? die slot with
  | none => s
  | some e =>
    let s := (s.settleRegion die slot).landAll die slot
    let s := if e.backed then ((s.writeBackLines die slot e (fun _ => true) .none).1).landAll die slot else s
    s.dropLines die slot

/-- The generation of a slot rises. -/
def State.bumpGen (s : State) (die slot : Nat) : State :=
  s.updDie die fun d => { d with gens := SMap.set d.gens slot ((SMap.getD d.gens slot 0 + 1) % 4096) }

/-- Free a region (R26). -/
def State.freeRegion (s : State) (die slot : Nat) : State :=
  match s.regionAt? die slot with
  | none => s
  | some _ =>
    ((s.quietRegion die slot).bumpGen die slot).updDie die fun d => { d with regions := SMap.erase d.regions slot }

/-! ### Ranges in the form of R87 -/

/-- The map unit of a die translates as the die's first core. -/
def dieCore (die : Nat) : Nat := 64 * die

/-- What stands for the accessing context where there is none: a TCID without a launch region. -/
def ownerOf (tcid : Nat) : Launch :=
  mkLaunch 0 tcid .drain { header := 0, n := 1, n0 := 1, n1 := 1, prio := 0, args := [] }
    { blocksize := 1, vregs := 8, kregs := 8, stripTiles := 0, blockTiles := 0, spill := 0, shared := 0, scratch := 0 } 0 0 0

def offOf (a : W64) : Nat := bitsN a.toNat 0 32

/-- The address n bytes above another, its offset modulo 2^32. -/
def atOff (a : W64) (n : Nat) : W64 := BitVec.ofNat 64 (bitsN a.toNat 32 32 * 2 ^ 32 + (offOf a + n) % 2 ^ 32)

/-- Line numbers of n bytes from an offset, in order. -/
def rangeLines (size off n : Nat) : List Nat :=
  if n = 0 then []
  else
    let lines := size / 256
    let o := off % size
    (List.range (min lines ((o % 256 + n - 1) / 256 + 1))).map fun k => (o / 256 + k) % lines

/-- A fault of a range: address, kind, TCID and handle. -/
abbrev RangeFault := Nat × TFault × Nat × W64

def State.touchLines (die slot : Nat) (ent : RegionEnt) (h : W64) (core : Nat) (rd wr : Bool) :
    List Nat → State → State × Option RangeFault
  | [], s => (s, none)
  | n :: ns, s =>
    let out := s.touchLine die slot ent n core rd wr
    match out.2 with
    | some f => (out.1, some ((ent.lineVa n).toNat, f, ent.tcid, h))
    | none => State.touchLines die slot ent h core rd wr ns out.1

/-- First touch of the lines of n bytes at an address, which are accessed in units aligned to their size (R15, R60). -/
def State.touchRange (s : State) (l : Launch) (core : Nat) (a : W64) (unit n : Nat) (rd wr : Bool) : State × Option RangeFault :=
  let h := a >>> 32
  match s.sideRegion l h with
  | none => (s, none)
  | some r =>
    let ent := r.2.2
    if n = 0 then (s, none)
    else if ent.refuses rd wr then (s, some ((ent.globalBase + BitVec.ofNat 64 (offOf a % ent.size)).toNat, .protection, ent.tcid, h))
    else if !ent.lined then (s, none)
    else State.touchLines r.1 r.2.1 ent h core rd wr (rangeLines ent.size (offOf a / unit * unit) n) s

/-- One access of n bytes, and the damage that it consumes, as source and address; an invalid handle reads zero (R24, R98). -/
def State.readSide (s : State) (l : Launch) (core : Nat) (a : W64) (n : Nat) : State × List Byte × Option (Nat × Nat) :=
  match s.sideRegion l (a >>> 32) with
  | none => (s.countInvalid l.tcid 1, List.replicate n 0#8, none)
  | some r =>
    let off := effAddr r.2.2.size n (offOf a) 0
    let go := if r.2.2.lined then s.readyLine r.1 r.2.1 r.2.2 off n core (Horizon.upTo s.lastWrite) true false else (s, true)
    let bad := (go.1.badLocal 0 r.1 (.region r.2.1 r.2.2) off n).map fun src => (src, (a >>> 32).toNat * 2 ^ 32 + off)
    (go.1, if go.2 then go.1.readScratch r.1 (r.2.2.pos + off) n else List.replicate n 0#8, bad)

/-- Bytes written by an agent. -/
def State.writeSide (s : State) (w : Writer) (l : Launch) (core : Nat) (a : W64) (bs : List Byte) : State :=
  match s.sideRegion l (a >>> 32) with
  | none => s.countInvalid l.tcid 1
  | some r =>
    let off := effAddr r.2.2.size bs.length (offOf a) 0
    let go := if r.2.2.lined then s.readyLine r.1 r.2.1 r.2.2 off bs.length core Horizon.none false true else (s, true)
    if go.2 then go.1.storeRegionBy w r.1 r.2.1 r.2.2 off bs else go.1

/-- The lines of a range that are dirty reach memory. -/
def State.publishSide (s : State) (l : Launch) (a : W64) (n : Nat) (kinds : List RKind) : State :=
  match s.sideRegion l (a >>> 32) with
  | none => s
  | some r =>
    if kinds.contains r.2.2.kind then
      let lines := rangeLines r.2.2.size (offOf a) n
      ((s.writeBackLines r.1 r.2.1 r.2.2 lines.contains .none).1).landAll r.1 r.2.1
    else s

end Sys2Proof.Machine
end

