-- ==== Sys2Proof/Machine/Queues.lean ====
section
/-! DEFINITION. The Caldera queues: tables, appending and spilling (R369-R373), firing (R374-R378), deterministic mode (R379), and the
instructions on queues (R348-R350, R352, R353). -/

namespace Sys2Proof.Machine

open Sys2Proof

/-! ### Queues by key (R348, R370, R371) -/

def QClass.off : QClass := { valid := false, det := false, drop := false, prio := 0, age := 0, cap := 0, threshold := 0 }

def State.qclass (s : State) (n : Nat) : QClass := SMap.getD s.classes n QClass.off

/-- A queue of any TCID, with its home. -/
def State.queue? (s : State) (key : Nat) : Option (Nat × Queue) :=
  (List.range 4).findSome? fun d => ((s.die d).queues.find? fun q => q.key.toNat == key).map fun q => (d, q)

/-- The queue that a context of a TCID finds for a key. -/
def State.queueFor (s : State) (tcid key : Nat) : Option (Nat × Queue) :=
  (s.queue? key).filter fun x => x.2.tcid == tcid && (s.qclass x.2.cls).valid

def State.updQueue (s : State) (die : Nat) (key : W32) (g : Queue → Queue) : State :=
  s.updDie die fun d => { d with queues := updFirst (fun q => q.key == key) g d.queues }

def Queue.depth (q : Queue) : Nat := q.chip.length + q.ring.length

/-- Phases of a TCID that have ended. -/
def State.phasesEnded (s : State) (tcid : Nat) : Nat :=
  let now := s.launches.any fun l => l.tcid == tcid && l.det && (l.state == .active || l.state == .placed || l.state == .retired)
  SMap.getD s.phases tcid 0 - now.toNat

/-- The moment of an append. -/
def State.stampNow (s : State) (q : Queue) : QStamp := ⟨s.cycle, s.phasesEnded q.tcid⟩

/-- Age of the queue (R374): in ticks, or in phase ends where its class is deterministic (R379). -/
def State.queueAge (s : State) (q : Queue) : Nat :=
  match (q.chip.map fun e => e.at_) ++ q.ring with
  | [] => 0
  | t :: _ => if (s.qclass q.cls).det then s.phasesEnded q.tcid - t.phase else s.cycle - t.tick

def entryBytes (e : List W32) : List Byte := e.flatMap fun w => bytesN 4 w.toNat
def entryOf (bs : List Byte) : List W32 := (List.range 4).map fun k => BitVec.ofNat 32 (field bs (4 * k) 4)

/-! ### The spill ring (R373) -/

/-- Where the entry at a ring position lies: die, slot, region and offset. -/
def State.ringPlace (s : State) (q : Queue) (pos : Nat) : Option (Nat × Nat × RegionEnt × Nat) :=
  match s.sideRegion (ownerOf q.tcid) (q.spill >>> 32) with
  | some r =>
    if r.2.2.kind = .spill ∧ r.2.2.tcid = q.tcid then some (r.1, r.2.1, r.2.2, effAddr r.2.2.size 16 (offOf q.spill) (16 * pos : Nat))
    else none
  | none => none

/-- Ring positions of the 16 entries of the line that holds offset `off` of the region. -/
def ringIndexes (size start off : Nat) : List Nat :=
  (List.range 16).map fun j => (off / 256 * 256 + 16 * j + size - start / 16 * 16 % size) % size / 16

/-- Once all 16 entries of a ring line have been written, in the order of the ring, the line is written back and discarded. A line that the ring
shares with the rest of its region never is. -/
def State.closeRingLine (s : State) (die slot : Nat) (ent : RegionEnt) (q : Queue) (pos off : Nat) : State :=
  if (ringIndexes ent.size (offOf q.spill) off).all fun k => decide (k < q.spillCap) && decide (k ≤ pos) then
    match (s.die die).line? slot (off / 256) with
    | some x => ((s.takeLine die ent x .none).landAll die slot).discardLine die slot (off / 256)
    | none => s
  else s

/-- Bytes stored into a ring line: valid and dirty. -/
def State.storeRing (s : State) (die slot : Nat) (ent : RegionEnt) (off : Nat) (bs : List Byte) : State :=
  (s.writeScratch die (ent.pos + off) bs).dirtyLine die slot (off / 256) (lineBytes (off % 256) bs.length)

/-- Write an entry at a ring position; none where it cannot be appended. -/
def State.ringPut (s : State) (q : Queue) (pos : Nat) (e : List W32) : Option State :=
  match s.ringPlace q pos with
  | none => none
  | some (die, slot, ent, off) =>
    let go := s.readyLine die slot ent off 16 (dieCore die) Horizon.none false true
    if go.2 then some ((go.1.storeRing die slot ent off (entryBytes e)).closeRingLine die slot ent q pos off) else none

/-- Read the entry at the head of the ring; its words are free values where its line cannot be had, and zero where they are damaged (R99). -/
def State.ringGet (s : State) (q : Queue) : State × List W32 :=
  let lost (s : State) : State × List W32 :=
    ({ s with freeCtr := s.freeCtr + 1 }, (List.range 4).map fun k => Config.freeEntry s.freeCtr k)
  match s.ringPlace q q.ringHead with
  | none => lost s
  | some (die, slot, ent, off) =>
    let go := s.readyLine die slot ent off 16 (dieCore die) (Horizon.of (.mapUnit die) s.lastWrite) true false
    if !go.2 then lost go.1
    else
      match go.1.badLocal 0 die (.region slot ent) off 16 with
      | some src =>
        (go.1.logError (errRec s.tick q.tcid (s.tcid q.tcid).tenant src (dieCore die) 0 ((q.spill >>> 32).toNat * 2 ^ 32 + off) 0), entryOf (List.replicate 16 0#8))
      | none => (go.1, entryOf (go.1.readScratch die (ent.pos + off) 16))

/-! ### Appending and taking (R372) -/

/-- Append an entry; the answer is the status of R349, and 3 where the queue-spill fault is due. With `mute` an entry that does not
fit is dropped whatever the class says. -/
def State.append (s : State) (die : Nat) (q : Queue) (e : List W32) (mute : Bool) : State × Nat :=
  let c := s.qclass q.cls
  let t := s.stampNow q
  if q.ring.isEmpty && decide (q.chip.length < q.quota) then
    (s.updQueue die q.key fun q => { q with chip := q.chip ++ [⟨e, t⟩] }, 0)
  else
    let put := if q.ring.length < q.spillCap then s.ringPut q ((q.ringHead + q.ring.length) % q.spillCap) e else none
    match put with
    | some s => (s.updQueue die q.key fun q => { q with ring := q.ring ++ [t] }, 1)
    | none =>
      if c.drop || c.det || mute then (s.updQueue die q.key fun q => { q with drops := q.drops + 1 }, 2) else (s, 3)

/-- The entry at the ring's head leaves the ring. -/
def State.ringPop (s : State) (die : Nat) (q : Queue) : State × QEntry :=
  let out := s.ringGet q
  (out.1.updQueue die q.key fun q => { q with ring := q.ring.drop 1, ringHead := (q.ringHead + 1) % q.spillCap },
   ⟨out.2, q.ring.headD ⟨0, 0⟩⟩)

/-- Take up to n entries from the head. -/
def State.takeEntries (die : Nat) (key : W32) : Nat → State → State × List QEntry
  | 0, s => (s, [])
  | n + 1, s =>
    match (s.die die).queues.find? fun q => q.key == key with
    | none => (s, [])
    | some q =>
      match q.chip with
      | e :: rest =>
        let out := State.takeEntries die key n (s.updQueue die key fun q => { q with chip := rest })
        (out.1, e :: out.2)
      | [] =>
        if q.ring.isEmpty then (s, [])
        else
          let x := s.ringPop die q
          let out := State.takeEntries die key n x.1
          (out.1, x.2 :: out.2)

/-- Ring entries move on chip until the quota is filled. -/
def State.refillChip (die : Nat) (key : W32) : Nat → State → State
  | 0, s => s
  | n + 1, s =>
    match (s.die die).queues.find? fun q => q.key == key with
    | none => s
    | some q =>
      if q.ring.isEmpty || decide (q.quota ≤ q.chip.length) then s
      else
        let x := s.ringPop die q
        State.refillChip die key n (x.1.updQueue die key fun q => { q with chip := q.chip ++ [x.2] })

def State.take (s : State) (die : Nat) (q : Queue) (n : Nat) : State × List QEntry :=
  let out := State.takeEntries die q.key n s
  (State.refillChip die q.key q.ring.length out.1, out.2)

/-! ### Firing (R374-R377) -/

/-- The lowest-numbered free firing buffer. -/
def Queue.freeBuffer (q : Queue) : Option Nat := (List.range q.nbuf).find? fun j => !q.busy.contains j

/-- What a firing comes to: none where it is not taken, else the number of entries. -/
def State.fire (s : State) (die : Nat) (q : Queue) : State × Option Nat :=
  let c := s.qclass q.cls
  let n := min q.depth c.cap
  match q.freeBuffer with
  | none => (s, none)
  | some j =>
    if n = 0 then (s, some 0)
    else if !s.queueFree (56 + c.prio) then (s, none)
    else
      let buf := atOff q.buffers (j * c.cap * 16)
      let own := ownerOf q.tcid
      let bdie := bitsN buf.toNat 46 2
      let stamp := if c.det then s.phasesEnded q.tcid else s.tick
      let args : List W64 := [q.key.setWidth 64, BitVec.ofNat 64 n, buf, BitVec.ofNat 64 q.fired, BitVec.ofNat 64 stamp, 0, 0, 0]
      let words : List W64 := [q.header.setWidth 64, BitVec.ofNat 64 n, 0, BitVec.ofNat 64 c.prio] ++ args ++ q.args
      let refuse (s : State) : State × Option Nat :=
        if q.refusedNoted then (s, none)
        else
          ((s.updQueue die q.key fun q => { q with refusedNoted := true }).post
            { w0 := noticeW0 5 0 q.tcid 0, w1 := q.key.setWidth 64, w2 := 0, w3 := 0 }, none)
      match s.touchRange own (dieCore bdie) buf 16 (16 * n) false true with
      | (s, some _) => refuse s
      | (s, none) =>
        match parseDesc words with
        | .error _ => refuse s
        | .ok d =>
          match s.checkLaunch q.tcid d with
          | (s, .error _) => refuse s
          | (s, .ok h) =>
            let out := s.take die q n
            let s := out.2.zipIdx.foldl (fun s x => s.writeSide (Writer.of (.mapUnit bdie)) own (dieCore bdie) (atOff buf (16 * x.2)) (entryBytes x.1.words)) out.1
            let s := s.updQueue die q.key fun q => { q with busy := q.busy ++ [j], fired := q.fired + 1, refusedNoted := false }
            let l := mkLaunch 0 q.tcid (.firing die q.key j) d h (56 + c.prio) 0 s.tick
            (s.enqueue { l with det := c.det, code := s.launchCode fun _ => true }, some n)

/-- A firing buffer is free when its launch has retired (R377). -/
def State.freeBuffer (s : State) (l : Launch) : State :=
  match l.path with
  | .firing die key j => s.updQueue die key fun q => { q with busy := q.busy.filter fun x => x != j }
  | _ => s

/-- The rank of a candidate; none where the queue is no candidate (R375). -/
def State.rank (s : State) (q : Queue) (det : Bool) : Option Nat :=
  let c := s.qclass q.cls
  let age := s.queueAge q
  let limit := if det then c.age else 256 * c.age
  let old := (2 ^ 64 - min age (2 ^ 64)) * 2 ^ 32 + q.key.toNat
  if !c.valid || c.det != det || q.depth == 0 || q.freeBuffer.isNone || !s.queueFree (56 + c.prio) then none
  else if !q.ring.isEmpty then some old
  else if c.age ≠ 0 ∧ limit ≤ age then some (2 ^ 100 + old)
  else if c.threshold ≤ q.depth then some (2 ^ 101 + q.key.toNat)
  else none

/-- Candidates of a slice, in the order of R375; `only` restricts them to one TCID. -/
def State.candidates (s : State) (die : Nat) (det : Bool) (only : Option Nat) : List Queue :=
  let l := (s.die die).queues.filterMap fun q =>
    if (only.map fun t => t == q.tcid).getD true then (s.rank q det).map fun r => (r, q) else none
  (sortOn (fun x => x.1) l).map fun x => x.2

/-- The first candidate whose firing is taken. -/
def State.tryFire (die : Nat) : List Queue → State → State × Bool
  | [], s => (s, false)
  | q :: qs, s =>
    match s.fire die q with
    | (s, some _) => (s, true)
    | (s, none) => State.tryFire die qs s

/-- `FIRING_DECISION` (R375): one for each slice, every 16 ticks. -/
def execFiringDecision (die : Nat) (s : State) : Out :=
  let due := (s.die die).nextFiring
  event (decide (die < 4) && decide (due ≤ s.cycle))
    ((State.tryFire die (s.candidates die false none) s).1.updDie die fun d => { d with nextFiring := (s.cycle / 16 + 1) * 16 })

/-- The decisions of one slice at a phase end (R379). -/
def State.firePhase (die tcid : Nat) : Nat → State → State
  | 0, s => s
  | n + 1, s =>
    match State.tryFire die (s.candidates die true (some tcid)) s with
    | (s, true) => State.firePhase die tcid n s
    | (s, false) => s

/-- Firings at the end of a phase of a TCID. -/
def State.phaseFirings (s : State) (tcid : Nat) : State :=
  (List.range 4).foldl (fun s d =>
    State.firePhase d tcid (((s.die d).queues.map Queue.depth).foldl (· + ·) 0) s) s

/-! ### Instructions that wait -/

/-- The frame of a waiting fragment, the wait taken away. -/
def State.waitEnv (s : State) (r : FragRef) : Option Env :=
  match s.ctx? r.ctx with
  | none => none
  | some c =>
    match c.frag? r.frag, s.block? c.block with
    | some f, some b =>
      match f.wait, s.launch? b.launch with
      | some w, some l =>
        let f' : Frag := { f with wait := none }
        let c' := c.setFrag f'
        let s' := s.setCtx c'
        some { s := s', s0 := s', r := r, c := c', f := f', b := b, l := l, i := w.instr, len := w.len }
      | _, _ => none
    | _, _ => none

/-! ### `qpush` (R349) -/

/-- Key and words of an item's entry. -/
structure PushItem where
  pos : Nat
  key : Nat
  words : List W32

def Env.pushItems (e : Env) (x : QpushOp) (p : Lanes) : List PushItem :=
  let V := e.view
  let ex := V.src false x.a
  (Lanes.list p V.n).map fun i =>
    let w := (List.range 4).map fun k => V.word (x.b.val + k) i
    { pos := i, words := w, key := bitsN (w.getD 3 0).toNat 0 16 * 2 ^ 16 + bitsN (ex.at i).toNat 0 16 }

/-- No queue, or a k-slot above 7. -/
def Env.pushBad (e : Env) (y : PushItem) : Bool :=
  (e.s.queueFor e.l.tcid y.key).isNone || decide (7 < bitsN (y.words.getD 3 0).toNat 16 8)

/-- The address field of a queue fault (R348). -/
def keyMark (key : Nat) : Nat := 2 ^ 58 + key % 2 ^ 32

/-- Entries of a deterministic phase are held (R379). -/
def State.hold (s : State) (l : Launch) (b : Block) (c : Ctx) (y : PushItem) : State :=
  let item := c.idx b y.pos
  let n := (s.held.filter fun h => h.1 == l.seq && h.2.item == item).length
  let h : HeldPush := { vcore := b.index % 1024, block := b.index, item := item, count := n, key := BitVec.ofNat 32 y.key, entry := y.words }
  { s with held := s.held ++ [(l.seq, h)] }

def State.sendPush (s : State) (r : FragRef) (y : PushItem) : State :=
  let q : Push := { id := s.nextId, ctx := r.ctx, frag := r.frag, pos := y.pos, key := BitVec.ofNat 32 y.key, entry := y.words, status := none }
  { s with nextId := s.nextId + 1, pushes := s.pushes ++ [q] }

/-- The statuses of the items, written to d. -/
def Env.putStatus (e : Env) (x : QpushOp) (p : Lanes) (st : Nat → Nat) (s : State) : State :=
  let V := e.view
  let d : Dst := match x.d with
    | some n => .v n
    | none => .zero
  e.put s (V.write V.file (optOf x.g) p d false false (.mat ((List.range V.n).map fun i => BitVec.ofNat 64 (st i))))

def execQpush (x : QpushOp) (s : State) : Out :=
  issue (.qpush x) s (useOpt false x.d ++ [⟨x.b.val, 4, false, false, none⟩] ++ useSrc false x.a) (costC 1) fun e =>
    e.guarded x.g fun p =>
      let items := e.pushItems x (e.sound p)
      let bad := items.filter e.pushBad
      let good := items.filter fun y => !e.pushBad y
      let s := e.s.faultItems e.r 4 (Lanes.ofList (bad.map fun y => y.pos)) 0 fun i =>
        keyMark (((bad.find? fun y => y.pos == i).map fun y => y.key).getD 0)
      if !bad.isEmpty && !s.goesOn e.r then s
      else
      let strips := ((good.map fun y => y.pos / 64).eraseDups).length
      e.orCheck s <|
      let s := (s.publish e.c.id).holdC e strips
      if e.l.det || good.isEmpty then
        e.doneCommit (e.putStatus x (Lanes.ofList (good.map fun y => y.pos)) (fun _ => 0) (good.foldl (fun s y => s.hold e.l e.b e.c y) s))
      else e.wait (good.foldl (fun s y => s.sendPush e.r y) s) 15 .qpush

/-- Every entry has been appended or dropped: the statuses are written, and the items that got none take their faults. -/
def State.pushDone (s : State) (r : FragRef) : State :=
  let mine := s.pushes.filter fun q => q.ctx == r.ctx && q.frag == r.frag
  if mine.any fun q => q.status.isNone then s
  else
    match s.waitEnv r with
    | none => s
    | some e =>
      match e.i with
      | .qpush x =>
        let s : State := { e.s with pushes := s.pushes.filter fun q => !(q.ctx == r.ctx && q.frag == r.frag) }
        let at_ (ok : Nat → Bool) : Lanes := Lanes.ofList ((mine.filter fun q => ok (q.status.getD 0)).map fun q => q.pos)
        let of (i : Nat) : Option Push := mine.find? fun q => q.pos == i
        let s := e.putStatus x (at_ fun t => decide (t < 3)) (fun i => ((of i).bind fun q => q.status).getD 0) s
        let key (i : Nat) : Nat := ((of i).map fun q => q.key.toNat).getD 0
        let gone := at_ fun t => t == 4
        let full := at_ fun t => t == 3
        let s := if gone = 0 then s else s.faultItems r 4 gone 0 fun i => keyMark (key i)
        let s := if full ≠ 0 ∧ (gone = 0 ∨ s.goesOn r) then s.faultItems r 6 full 0 key else s
        if (gone ||| full) ≠ 0 ∧ !s.goesOn r then s else e.landed (useOpt false x.d) (e.doneCommit s)
      | _ => s

/-- `QUEUE_APPEND` (R349, R372): entries of one instruction to one queue keep their order. -/
def execQueueAppend (n : Nat) (s : State) : Out :=
  match s.pushes.find? fun q => q.id == n with
  | none => .fault .notEnabled
  | some q =>
    let earlier := (s.pushes.takeWhile fun y => y.id != n).any fun y =>
      y.ctx == q.ctx && y.frag == q.frag && y.key == q.key && y.status.isNone
    let tcid := ((s.ctx? q.ctx).bind fun c => s.launchOfCtx? c).map fun l => l.tcid
    let out := match s.queueFor (tcid.getD 4096) q.key.toNat with
      | some x => s.append x.1 x.2 q.entry false
      | none => (s, 4)
    let s' : State := { out.1 with pushes := updFirst (fun y => y.id == n) (fun y => { y with status := some out.2 }) out.1.pushes }
    event (!earlier && q.status.isNone) (s'.pushDone ⟨q.ctx, q.frag⟩)

/-- The held entries of a phase are appended in the order of their keys; the answer counts those dropped (R379). -/
def State.appendHeld (s : State) (seq tcid : Nat) : State × Nat :=
  let mine := (s.held.filter fun h => h.1 == seq).map fun h => h.2
  let key (h : HeldPush) : Nat := ((h.vcore * 2 ^ 41 + h.block) * 2 ^ 41 + h.item) * 2 ^ 64 + h.count
  (sortOn key mine).foldl (fun x h =>
    match x.1.queueFor tcid h.key.toNat with
    | none => (x.1, x.2 + 1)
    | some q =>
      let out := x.1.append q.1 q.2 h.entry true
      (out.1, if out.2 = 2 then x.2 + 1 else x.2)) ({ s with held := s.held.filter fun h => h.1 != seq }, 0)

/-! ### `qfire`, `qstat` (R350) -/

/-- A queue instruction on a key: a protection fault where the key has no queue (R348). -/
def Env.onQueue (e : Env) (g : Guard) (key : W64) (k : Nat → Queue → State) : State :=
  e.guarded g fun p =>
    match e.s.queueFor e.l.tcid key.toNat with
    | some x => e.orCheck e.s (k x.1 x.2)
    | none =>
      let s := e.s.faultItems e.r 4 p 0 fun _ => keyMark key.toNat
      if s.goesOn e.r then e.orCheck s (e.done s) else s

def execQfire (d : Option (Fin 64)) (a : Fin 64) (g : Guard) (s : State) : Out :=
  issue (.qfire d a g) s [] (costC 1) fun e =>
    e.onQueue g (e.k a) fun die q =>
      let out := (e.s.publish e.c.id).fire die q
      let n : W64 := BitVec.ofNat 64 (out.2.getD 0)
      let V := e.view
      e.doneEnd (e.put out.1 (match d with
        | some k => V.file.putK k false n
        | none => V.file.shift (.uni n)))

/-- The word of `qstat`. -/
def State.qstatWord (s : State) (q : Queue) : W64 :=
  let age := if (s.qclass q.cls).det then s.queueAge q else s.queueAge q / 256
  BitVec.ofNat 64 ((if q.ring.isEmpty then 0 else 2 ^ 63) + min age 0xFFFFFF * 2 ^ 32 + q.depth % 2 ^ 32)

def execQstat (d : Fin 64) (a : Fin 64) (g : Guard) (s : State) : Out :=
  issue (.qstat d a g) s [] (costC 1) fun e =>
    e.onQueue g (e.k a) fun _ q => e.done (e.put e.s (e.view.file.putK d false (e.s.qstatWord q)))

/-! ### `qcomb` (R352) -/

/-- Route the fault of a range on every active item (R61). -/
def Env.rangeFault (e : Env) (s : State) (wr : Bool) (f : RangeFault) : State :=
  let items := Lanes.list e.f.mask e.c.width
  let faults : List ItemFault := items.map fun i =>
    { pos := i, va := f.1, fault := f.2.1, tcid := f.2.2.1, own := f.2.2.1 == e.l.tcid, handle := f.2.2.2 }
  (s.routeFaults e.r (if wr then 1 else 0) true 0 (items.map fun i => (i, f.1)) faults).1

/-- A refused descriptor field (R90): every active item retires. -/
def Env.refuse (e : Env) (mark off : Nat) : State := e.s.faultItems e.r 4 e.f.mask 0 fun _ => mark + off

structure QComb where
  T : Nat
  H : Nat
  K : Nat
  obf : Bool
  ybf : Bool
  y : W64
  w : W64
  st : W64
  out : W64
  flag : W64

def parseComb (bs : List Byte) : Except Nat QComb :=
  let w := field bs 0 8
  let K := bitsN w 8 4
  let H := bitsN w 16 16
  let a (n : Nat) : W64 := BitVec.ofNat 64 (field bs n 8)
  if bitsN w 56 8 ≠ 0 ∨ bitsN w 12 4 ≠ 0 ∨ bitsN w 6 2 ≠ 0 ∨ bitsN w 0 2 ≠ 0 ∨ K = 0 ∨ 8 < K ∨ H = 0 ∨ 16384 < H ∨
      1 < bitsN w 4 2 ∨ 1 < bitsN w 2 2 then .error 0
  else if field bs 48 8 ≠ 0 then .error 48
  else if field bs 56 8 ≠ 0 then .error 56
  else .ok { T := bitsN w 32 24, H := H, K := K, obf := bitsN w 4 2 == 1, ybf := bitsN w 2 2 == 1
             y := a 8, w := a 16, st := a 24, out := a 32, flag := a 40 }

/-- acc over the contributions of one element; a BF16 contribution is widened exactly. -/
def combElem (q : QComb) (ws ys : List Nat) : Nat :=
  let acc := (ws.zip ys).foldl (fun (acc : Option Nat) x =>
    let y := if q.ybf then x.2 * 2 ^ 16 else x.2
    some (match acc with
      | none => mulF fp32 .rne x.1 y
      | some a => fmaF fp32 .rne x.1 y a)) none
  match acc with
  | none => 0
  | some a => if q.obf then convF fp32 bf16 .rne a else a

/-- A list of reads, in order, with the first damage that they consume. -/
def State.readSides (l : Launch) (core n : Nat) : List W64 → State → State × List Nat × Option (Nat × Nat)
  | [], s => (s, [], none)
  | a :: as, s =>
    let x := s.readSide l core a n
    let out := State.readSides l core n as x.1
    (out.1, natOfBytes x.2.1 :: out.2.1, x.2.2.or out.2.2)

/-- What `qcomb` has come to: the state, the tokens with flag 1, and the first damage consumed. -/
structure Comb where
  s : State
  flags : Nat
  bad : Option (Nat × Nat)

/-- One token: every read of its row, then its writes. -/
def State.combToken (l : Launch) (w : Writer) (core : Nat) (q : QComb) (x : Comb) (t : Nat) : Comb :=
  let yb := if q.ybf then 2 else 4
  let ob := if q.obf then 2 else 4
  let row (sl : Nat) : Nat := t * q.K + sl
  let st := State.readSides l core 1 ((List.range q.K).map fun sl => atOff q.st (row sl)) x.s
  let live := (List.range q.K).filter fun sl => st.2.1.getD sl 2 == 0
  let ws := State.readSides l core 4 (live.map fun sl => atOff q.w (4 * row sl)) st.1
  let ys := live.foldl (fun (y : State × List (List Nat) × Option (Nat × Nat)) sl =>
    let r := State.readSides l core yb ((List.range q.H).map fun h => atOff q.y (yb * (row sl * q.H + h))) y.1
    (r.1, y.2.1 ++ [r.2.1], y.2.2.or r.2.2)) (ws.1, [], none)
  let s := (List.range q.H).foldl (fun s h =>
    s.writeSide w l core (atOff q.out (ob * (t * q.H + h)))
      (bytesN ob (combElem q ws.2.1 (ys.2.1.map fun r => r.getD h 0)))) ys.1
  let flag := if st.2.1.contains 1 then 1 else 0
  { s := s.writeSide w l core (atOff q.flag t) [BitVec.ofNat 8 flag], flags := x.flags + flag
    bad := ((x.bad.or st.2.2).or ws.2.2).or ys.2.2 }

/-- First touches of several ranges, in order: address, unit, bytes and whether it is written. -/
def State.touchRanges (l : Launch) (core : Nat) : List (W64 × Nat × Nat × Bool) → State → State × Option (Bool × RangeFault)
  | [], s => (s, none)
  | x :: xs, s =>
    match s.touchRange l core x.1 x.2.1 x.2.2.1 (!x.2.2.2) x.2.2.2 with
    | (s, some f) => (s, some (x.2.2.2, f))
    | (s, none) => State.touchRanges l core xs s

/-- The descriptor of `qcomb` and `qdrain` (R334). -/
def Env.queueDesc (e : Env) (x : QdescOp) (n : Nat) : List Byte := e.readShDesc (e.kOpt x.a) x.disp 64 n

/-- An instruction on such a descriptor: the machine check where it holds a damaged word (R98). -/
def Env.onDesc (e : Env) (x : QdescOp) (n : Nat) (k : List Byte → State) : State :=
  (e.withDescs e.f.mask (.uni (e.kOpt x.a)) x.disp 64 n).orCheck e.s (k (e.queueDesc x n))

def Env.putCount (e : Env) (x : QdescOp) (s : State) (n : Nat) : State :=
  let V := e.view
  e.put s (match x.d with
    | some k => V.file.putK k false (BitVec.ofNat 64 n)
    | none => V.file.shift (.uni (BitVec.ofNat 64 n)))

def execQcomb (x : QdescOp) (s : State) : Out :=
  issue (.qcomb x) s [] (costC 1) fun e =>
    e.onDesc x 64 fun bs =>
      match parseComb bs with
      | .error o => e.refuse (2 ^ 61) o
      | .ok q =>
        let n := q.T * q.K
        let yb := if q.ybf then 2 else 4
        let ob := if q.obf then 2 else 4
        let go := State.touchRanges e.l e.c.core
          [(q.st, 1, n, false), (q.w, 4, 4 * n, false), (q.y, yb, yb * n * q.H, false), (q.out, ob, ob * q.T * q.H, true), (q.flag, 1, q.T, true)] e.s
        match go.2 with
        | some f => e.rangeFault go.1 f.1 f.2
        | none =>
          let s := go.1.publish e.c.id
          let out := (List.range q.T).foldl (State.combToken e.l ⟨e.r.agent, true, e.f.rel⟩ e.c.core q) ⟨s, 0, none⟩
          match out.bad with
          | some b => s.machineCheck e.r e.f.mask b.1 b.2
          | none => e.done ((e.putCount x out.s out.flags).knowAll e.r)

/-! ### `qdrain` (R353) -/

structure QDrain where
  d : LDesc
  layer : Nat
  E : Nat
  entries : W64
  shapes : W64

/-- The fields of the descriptor: the launch's as R255 checks them, then the drain's. -/
def parseDrain (bs : List Byte) : Except Nat QDrain :=
  let w (k : Nat) : Nat := field bs (8 * k) 8
  let E := bitsN (w 20) 16 16
  if bitsN (w 1) 41 23 ≠ 0 then .error (2 ^ 60 + (if bitsN (w 0) 58 6 ≠ 0 ∨ w 0 % 64 ≠ 0 then 0 else 8))
  else
    let words : List W64 := (List.range 20).map fun k => if k = 1 then 1 else BitVec.ofNat 64 (w k)
    match parseDesc words with
    | .error o => .error (2 ^ 60 + o)
    | .ok d =>
      if bitsN (w 20) 32 32 ≠ 0 ∨ E = 0 ∨ 4096 < E then .error (2 ^ 61 + 160)
      else if w 23 ≠ 0 then .error (2 ^ 61 + 184)
      else .ok { d := d, layer := bitsN (w 20) 0 16, E := E, entries := BitVec.ofNat 64 (w 21), shapes := BitVec.ofNat 64 (w 22) }

/-- The queues of the layer, one for each expert. -/
def Env.drainQueues (e : Env) (q : QDrain) : List (Option (Nat × Queue)) :=
  (List.range q.E).map fun x => e.s.queueFor e.l.tcid (q.layer * 2 ^ 16 + x)

def drainCount (qs : List (Option (Nat × Queue))) : Nat :=
  (qs.map fun x => (x.map fun y => y.2.depth).getD 0).foldl (· + ·) 0

/-- Take one expert's entries, and write its shape record and entries. -/
def Env.drainOne (e : Env) (q : QDrain) (x : State × Nat) (y : Option (Nat × Queue) × Nat) : State × Nat :=
  let out := match y.1 with
    | some z => x.1.take z.1 z.2 z.2.depth
    | none => (x.1, [])
  let s := out.1.writeSide ⟨e.r.agent, true, e.f.rel⟩ e.l e.c.core (atOff q.shapes (16 * y.2)) (bytesN 8 out.2.length)
  let s := s.writeSide ⟨e.r.agent, true, e.f.rel⟩ e.l e.c.core (atOff q.shapes (16 * y.2 + 8)) (bytesN 8 x.2)
  let s := out.2.zipIdx.foldl (fun s z => s.writeSide ⟨e.r.agent, true, e.f.rel⟩ e.l e.c.core (atOff q.entries (16 * (x.2 + z.2))) (entryBytes z.1.words)) s
  (s, x.2 + out.2.length)

/-- The header, checked at the instruction where a launch is to be made (R359). -/
inductive DrainHeader where
  | ok (h : Option KHeader)
  | bad
  | fault (va : Nat) (f : TFault)

def Env.drainHeader (e : Env) (s : State) (q : QDrain) (n : Nat) : State × DrainHeader :=
  if n = 0 then (s, .ok none)
  else
    let va : W64 := q.d.header.setWidth 64
    match s.translateNow e.c.core e.l.tcid va with
    | (s, .error f) => (s, .fault va.toNat f)
    | (s, .ok t) =>
      if !fetchable t.1 then (s, .fault va.toNat .protection)
      else
        match parseHeader (s.readPhys (leafTier t.1) t.2 64) with
        | none => (s, .bad)
        | some h => (s, if (s.headerReason h).isSome then .bad else .ok (some h))

/-- The whole of `qdrain`, once its launch queue has room. -/
def Env.drain (e : Env) (x : QdescOp) (q : QDrain) : State :=
  let qs := e.drainQueues q
  let n := drainCount qs
  let go := State.touchRanges e.l e.c.core [(q.shapes, 8, 16 * q.E, true), (q.entries, 16, 16 * n, true)] e.s
  match go.2 with
  | some f => e.rangeFault go.1 f.1 f.2
  | none =>
    match e.drainHeader go.1 q n with
    | (_, .bad) => e.refuse (2 ^ 60) 255
    | (s, .fault va f) =>
      let items := Lanes.list e.f.mask e.c.width
      let faults : List ItemFault := items.map fun i => { pos := i, va := va, fault := f, tcid := e.l.tcid, own := true, handle := 0 }
      (s.routeFaults e.r 2 false 0 (items.map fun i => (i, va)) faults).1
    | (s, .ok h) =>
      let out := qs.zipIdx.foldl (e.drainOne q) (s.publish e.c.id, 0)
      let s := out.1.publishSide e.l q.shapes (16 * q.E) [.mapped]
      let s := s.publishSide e.l q.entries (16 * n) [.mapped]
      let s := match h with
        | none => s
        | some h =>
          let l := mkLaunch 0 e.l.tcid .drain { q.d with n := n } h (56 + q.d.prio) 0 s.tick
          s.enqueue { l with det := e.l.det, code := (s.launchCode e.f.view.knowsPub).join e.l.code }
      e.doneEnd ((e.putCount x s n).knowAll e.r)

/-- `qdrain` has work for a launch and its queue has no room (R354). -/
def Env.drainWaits (e : Env) (q : QDrain) : Bool :=
  drainCount (e.drainQueues q) != 0 && !e.s.queueFree (56 + q.d.prio)

def execQdrain (x : QdescOp) (s : State) : Out :=
  issue (.qdrain x) s [] (costC 1) fun e =>
    e.onDesc x 192 fun bs =>
      match parseDrain bs with
      | .error o => e.refuse 0 o
      | .ok q => if e.drainWaits q then e.wait e.s 15 .qdrain else e.drain x q

/-- `QDRAIN_ENQUEUE` (R354). -/
def execQdrainEnqueue (r : FragRef) (s : State) : Out :=
  match s.frag? r, s.waitEnv r with
  | some f, some e =>
    match e.i with
    | .qdrain x =>
      match parseDrain (e.queueDesc x 192) with
      | .error o => event (f.waitsFor .qdrain) (e.refuse 0 o)
      | .ok q => event (f.waitsFor .qdrain && !e.drainWaits q) (e.drain x q)
    | _ => .fault .notEnabled
  | _, _ => .fault .notEnabled

/-! ### Expert slots (R351, R381) -/

def slotLayer (key : W64) : Nat := bitsN key.toNat 16 16
def slotExpert (key : W64) : Nat := bitsN key.toNat 0 16

/-- The slot that a new key takes: its index; none where the request must wait. -/
def SlotSet.victim (x : SlotSet) (clayer : W64) : Option Nat :=
  match x.slots.findIdx? fun y => y.state == .empty with
  | some n => some n
  | none =>
    let free := x.slots.zipIdx.filter fun y => y.1.state == .ready && y.1.pins.isEmpty
    let rank (y : ESlot × Nat) : Nat :=
      (((slotLayer y.1.key : Int) - clayer.toNat) % (x.layers : Int)).toNat * 2 ^ 16 + slotExpert y.1.key
    (free.foldl (fun (best : Option (ESlot × Nat)) y =>
      match best with
      | none => some y
      | some b => if rank b < rank y then some y else best) none).map fun y => y.2

/-- Replace slot n of a die's set. -/
def State.setSlot (s : State) (die n : Nat) (y : ESlot) : State :=
  s.updDie die fun d => { d with slotSet := d.slotSet.map fun x => { x with slots := x.slots.set n y } }

def Env.putSlot (e : Env) (s : State) (d : Fin 63) (h st : W64) : State :=
  let R := e.view.file.putK (Fin.ofNat 64 d.val) false h
  e.put s (R.setK (Fin.ofNat 64 (d.val + 1)) st)

/-- The request of `eslot.get`; none where it must wait. -/
def Env.slotRequest (e : Env) (x : SlotSet) (d : Fin 63) (key clayer : W64) : Option State :=
  match x.slots.zipIdx.find? fun y => y.1.state != .empty && y.1.key == key with
  | some y =>
    if y.1.state = .filling ∧ y.1.filler ≠ some e.c.id then none
    else
      let pins := if y.1.pins.contains e.c.id then y.1.pins else y.1.pins ++ [e.c.id]
      let s := e.s.setSlot e.die y.2 { y.1 with pins := pins }
      some (e.doneEnd (e.putSlot s d (s.handleOf e.die y.1.region) 0))
  | none =>
    match x.victim clayer with
    | none => none
    | some n =>
      match x.slots[n]? with
      | none => none
      | some y =>
        let s := (e.s.quietRegion e.die y.region).bumpGen e.die y.region
        let st := if y.state = .ready then 5 + slotExpert y.key * 2 ^ 32 + slotLayer y.key * 2 ^ 48 else 1
        let s := s.setSlot e.die n { region := y.region, key := key, state := .filling, filler := some e.c.id, pins := [e.c.id] }
        some (e.doneEnd (e.putSlot s d (s.handleOf e.die y.region) (BitVec.ofNat 64 st)))

def Env.slotGet (e : Env) (d : Fin 63) (a : Fin 64) (clayer : W64) : Option State :=
  let key := e.k a
  match (e.s.die e.die).slotSet with
  | some x =>
    if bitsN key.toNat 32 32 ≠ 0 ∨ x.layers ≤ slotLayer key then
      some (e.s.faultItems e.r 4 e.f.mask 0 fun _ => keyMark key.toNat)
    else e.slotRequest x d key clayer
  | none => some (e.s.faultItems e.r 4 e.f.mask 0 fun _ => keyMark key.toNat)

/-- The request of a fragment that waits in `eslot.get`: `sr.clayer` as it read it, and its stamp of arrival. -/
def Frag.eslotWait? (f : Frag) : Option (W64 × Nat) :=
  match f.wait with
  | some w =>
    match w.what with
    | .eslot clayer => some (clayer, w.stamp)
    | _ => none
  | none => none

/-- The request with which a fragment waits can be served now. -/
def State.servable (s : State) (r : FragRef) : Bool :=
  match (s.frag? r).bind Frag.eslotWait?, s.waitEnv r with
  | some w, some e =>
    match e.i with
    | .eslotGet d a => (e.slotGet d a w.1).isSome
    | _ => false
  | _, _ => false

/-- Fragments of a die's contexts that wait with a request, with the stamps of their arrival. -/
def State.slotWaiters (s : State) (die : Nat) : List (FragRef × Nat) :=
  (s.ctxs.filter fun c => dieOfCore c.core == die).flatMap fun c => c.frags.filterMap fun f =>
    f.eslotWait?.map fun w => (⟨c.id, f.id⟩, w.2)

/-- A request that arrived before the stamp can be served now: requests are carried out in the order of their arrival. -/
def State.slotAhead (s : State) (die stamp : Nat) : Bool :=
  (s.slotWaiters die).any fun x => decide (x.2 < stamp) && s.servable x.1

/-- `sr.clayer` of the issuing context's TCID. -/
def Env.clayer (e : Env) : W64 := SMap.getD e.s.clayer e.l.tcid 0

def execEslotGet (d : Fin 63) (a : Fin 64) (s : State) : Out :=
  issue (.eslotGet d a) s [] (costC 1) fun e =>
    let wait := e.wait e.s 15 (.eslot e.clayer)
    if e.s.slotAhead e.die e.s.nextId then wait else (e.slotGet d a e.clayer).getD wait

/-- `ESLOT_WAIT_RETRY`: the first request, by arrival, that can be served. -/
def execEslotWaitRetry (r : FragRef) (s : State) : Out :=
  match (s.frag? r).bind Frag.eslotWait?, s.waitEnv r with
  | some w, some e =>
    match e.i with
    | .eslotGet d a =>
      match e.slotGet d a w.1 with
      | some s' => event (!s.slotAhead e.die w.2) s'
      | none => .fault .notEnabled
    | _ => .fault .notEnabled
  | _, _ => .fault .notEnabled

/-- The expert slot that a valid handle names. -/
def Env.slotOf (e : Env) (h : W64) : Option (Nat × ESlot) :=
  match (e.s.die e.die).slotSet, e.s.regionOf e.die e.l h with
  | some x, some r => (x.slots.zipIdx.find? fun y => y.1.region == r.1).map fun y => (y.2, y.1)
  | _, _ => none

def execEslotReady (a : Fin 64) (s : State) : Out :=
  issue (.eslotReady a) s [] (costC 1) fun e =>
    e.doneEnd (match e.slotOf (e.k a) with
      | some (n, y) =>
        if y.state = .filling ∧ y.filler = some e.c.id then e.s.setSlot e.die n { y with state := .ready, filler := none } else e.s
      | none => e.s)

def execEslotPut (a : Fin 64) (s : State) : Out :=
  issue (.eslotPut a) s [] (costC 1) fun e =>
    e.doneEnd (match e.slotOf (e.k a) with
      | some (n, y) => e.s.setSlot e.die n { y with pins := y.pins.filter fun c => c != e.c.id }
      | none => e.s)

/-- The slot without an exited context. -/
def ESlot.leave (ctx : Nat) (y : ESlot) : ESlot :=
  if y.filler = some ctx then { y with state := .empty, filler := none, pins := [] }
  else { y with pins := y.pins.filter fun c => c != ctx }

/-- Every request that waits on a die is made again, and reads `sr.clayer` again. -/
def State.askSlots (s : State) (die : Nat) : State :=
  (s.slotWaiters die).foldl (fun s x =>
    let now := (((s.ctx? x.1.ctx).bind fun c => s.launchOfCtx? c).map fun l => SMap.getD s.clayer l.tcid 0).getD 0
    s.updFrag x.1 fun f => { f with wait := f.wait.map fun w => { w with what := .eslot now } }) s

/-- A context that exits leaves every pin, and a slot that it was filling is empty; the waiters then make their requests again. -/
def State.leaveSlots (s : State) (ctx : Nat) : State :=
  (List.range 4).foldl (fun s d =>
    let filling := ((s.die d).slotSet.map fun x => x.slots.any fun y => y.filler == some ctx).getD false
    let s := s.updDie d fun d => { d with slotSet := d.slotSet.map fun x => { x with slots := x.slots.map (ESlot.leave ctx) } }
    if filling then s.askSlots d else s) s

end Sys2Proof.Machine
end

