-- ==== Sys2Proof/Machine/Launching.lean ====
section
/-! DEFINITION. From launch queue to retired launch: activation and ageing (R355, R356), placement (R357, R358, R365), clearing (R12),
departure and retirement of blocks, the end of a phase (R345, R364, R379), completion notices and digests (R400, R411, R412, R416). -/

namespace Sys2Proof.Machine

open Sys2Proof

/-! ### Activation (R355, R356) -/

/-- Effective priority of a queue by its head. -/
def Launch.effPrio (l : Launch) : Nat := min 7 (l.desc.prio + l.agedLevels)

/-- A queue's ageing starts again where another launch has come to its head (R355). -/
def State.newHead (before after : State) (q : Nat) : State :=
  let old := (before.queued q).head?.map fun l => l.seq
  match (after.queued q).head? with
  | some h => if old = some h.seq then after else after.updLaunch h.seq fun h => { h with headSince := after.cycle, agedLevels := 0 }
  | none => after

/-- Heads of the queues that hold a launch, by ascending queue. -/
def State.heads (s : State) : List Launch := (List.range 64).filterMap fun q => (s.queued q).head?

/-- A head has waited another level's worth of ticks. -/
def State.ageDue (s : State) (l : Launch) : Bool :=
  decide (l.effPrio < 7) && decide (l.headSince + Config.ageTicks * (l.agedLevels + 1) ≤ s.cycle)

/-- `LAUNCH_QUEUE_AGEING` (R355). -/
def execLaunchQueueAgeing (q : Fin 64) (s : State) : Out :=
  match (s.queued q.val).head? with
  | none => .fault .notEnabled
  | some l => event (s.ageDue l) (s.updLaunch l.seq fun l => { l with agedLevels := l.agedLevels + 1 })

def LaunchState.activated : LaunchState → Bool
  | .active => true
  | .placed => true
  | .retired => true
  | _ => false

/-- A head that is passed over: its ordered queue's previous launch has not retired, or another phase of its TCID has not ended
(R356, R364). -/
def State.passedOver (s : State) (l : Launch) : Bool :=
  (l.ordered && s.launches.any fun m => m.queue == l.queue && decide (m.seq < l.seq) && (m.state == .active || m.state == .placed)) ||
  (l.det && s.launches.any fun m => m.tcid == l.tcid && m.det && m.state.activated)

/-- The head that is activated next: highest effective priority, then earlier tick of enqueuing, then lower queue number. -/
def State.nextHead (s : State) : Option Launch :=
  (s.heads.filter fun l => !s.passedOver l).foldl (fun (best : Option Launch) l =>
    match best with
    | none => some l
    | some b =>
      if decide (b.effPrio < l.effPrio) || (b.effPrio == l.effPrio && decide (l.enqueued < b.enqueued)) then some l else best) none

def State.actives (s : State) : List Launch := s.launches.filter fun l => l.state == .active

/-- The launch's region of each die, zeroed; none where some die has no room (R25). -/
def State.scratchRegions (log tcid : Nat) : List Nat → State → List (Nat × Nat) → Option (State × List (Nat × Nat))
  | [], s, got => some (s, got)
  | d :: ds, s, got =>
    match s.createRegion d (mkRegion .plain log tcid) with
    | none => none
    | some x => State.scratchRegions log tcid ds (x.1.zeroRegion d x.2) (got ++ [(d, x.2)])

/-- A head becomes active; none where its scratch regions have no room. -/
def State.activate (s : State) (l : Launch) : Option State :=
  let room := if l.hdr.scratchSize = 0 then some (s, []) else State.scratchRegions (Nat.log2 l.hdr.scratchSize) l.tcid [0, 1, 2, 3] s []
  match room with
  | none => none
  | some x =>
    let s := x.1
    let phase := if l.det then SMap.getD s.phases l.tcid 0 + 1 else 0
    let s : State := if l.det then { s with phases := SMap.set s.phases l.tcid phase } else s
    let s := { s with nextId := s.nextId + 1 }.updLaunch l.seq fun l =>
      { l with state := .active, activated := s.tick, lastPlaced := s.cycle, activeOrder := s.nextId, kept := l.effPrio
               codeGen := s.codeGen, phase := phase, scratch := x.2 }
    some (x.1.newHead s l.queue)

/-! ### Digests (R416) -/

/-- Bytes of a range, page by page; none where a page cannot be read. A damaged unit reads zero and is recorded (R101). -/
def State.rangeBytes (tcid : Nat) : List (W64 × Nat) → State → State × Option (List Byte)
  | [], s => (s, some [])
  | p :: ps, s =>
    match s.walk 0 tcid p.1 with
    | (s, .error _) => (s, none)
    | (s, .ok leaf) =>
      if !leafRd leaf then (s, none)
      else
        let far := leafTier leaf == 2 || (leafTier leaf == 3 && !s.mgmt.hostUp)
        let x : State × List Byte :=
          if far then ({ s with freeCtr := s.freeCtr + 1 }, (List.range p.2).map fun k => Config.farByte s.freeCtr k)
          else s.readUnits tcid (s.tcid tcid).tenant (leafTier leaf) (leafPhys leaf p.1) p.2
        match State.rangeBytes tcid ps x.1 with
        | (s, some rest) => (s, some (x.2 ++ rest))
        | (s, none) => (s, none)

/-- A range page by page. -/
def pagesOf (va : W64) : Nat → Nat → List (W64 × Nat)
  | 0, _ => []
  | k + 1, n =>
    if n = 0 then []
    else
      let room := min n (2 ^ 14 - va.toNat % 2 ^ 14)
      (va, room) :: pagesOf (va + BitVec.ofNat 64 room) k (n - room)

/-- One digest record. -/
def State.digest (s : State) (l : Launch) (r : RecRange) : State :=
  let out := State.rangeBytes l.tcid (pagesOf r.va (r.length / 2 ^ 14 + 2) r.length) s
  let d : Nat := match out.2 with
    | some bs => Config.sm3 bs
    | none => 0
  let s := out.1
  s.trace l.tcid ([traceHead 6 1 0 l.tcid 0, BitVec.ofNat 64 s.tick, BitVec.ofNat 64 l.seq,
    BitVec.ofNat 64 (r.pair + r.output.toNat * 2 ^ 8 + out.2.isNone.toNat * 2 ^ 16)] ++
    (List.range 4).map fun k => BitVec.ofNat 64 (d / 2 ^ (64 * k)))

def State.digests (s : State) (l : Launch) (output : Bool) : State :=
  (l.recs.filter fun r => r.output == output).foldl (fun s r => s.digest l r) s

/-- Once folding has stopped, the input ranges are read. -/
def State.inputDigests (s : State) (seq : Nat) : State :=
  match s.launch? seq with
  | none => s
  | some l => if l.lctx.stopped then s.digests l false else s

/-- Instructions that one activation event folds; a launch whose folding has not stopped goes on in the next event. -/
def foldStep : Nat := 1024

/-- `LAUNCH_ACTIVATION` (R356): an active launch whose folding has not stopped folds on; else the next head becomes active and folds
(R165). -/
def execLaunchActivation (s : State) : Out :=
  match s.actives.find? fun l => !l.lctx.stopped && l.halted.isNone with
  | some l => .next ((State.fold l.seq foldStep s).inputDigests l.seq)
  | none =>
    if 16 ≤ s.actives.length ∨ (s.heads.any s.ageDue) then .fault .notEnabled
    else
      match s.nextHead with
      | none => .fault .notEnabled
      | some l =>
        match s.activate l with
        | none => .fault .notEnabled
        | some s => .next ((State.fold l.seq foldStep s).inputDigests l.seq)

/-! ### What a core has room for (R14, R69, R71, R358) -/

/-- Blocks that hold storage on a core. -/
def State.holding (s : State) (core : Nat) : List Block := s.blocks.filter fun b => b.core == core && !b.saved

def coreShared : Nat := 524288

/-- The lowest place of an allocation of n bytes: a multiple of 128, below every spill area. -/
def lowFit (bs : List Block) (n : Nat) : Option Nat :=
  let floor := bs.foldl (fun m b => if b.spSize = 0 then m else min m b.spBase) coreShared
  let ends := 0 :: bs.map fun b => (b.shBase + b.shSize + 127) / 128 * 128
  (sortOn (fun x => x) ends).find? fun a =>
    decide (a + n ≤ floor) && bs.all fun b => decide (a + n ≤ b.shBase) || decide (b.shBase + b.shSize ≤ a)

/-- The highest place of a spill area of n bytes: above every allocation in use and above `top`, the end of the block's own. -/
def highFit (bs : List Block) (top n : Nat) : Option Nat :=
  let floor := bs.foldl (fun m b => max m (b.shBase + b.shSize)) top
  let tops := coreShared :: (bs.filter fun b => b.spSize != 0).map fun b => b.spBase
  ((sortOn (fun x => x) tops).reverse.find? fun t =>
    decide (n ≤ t) && decide (floor ≤ t - n) &&
      bs.all fun b => b.spSize == 0 || decide (t ≤ b.spBase) || decide (b.spBase + b.spSize ≤ t - n)).map fun t => t - n

/-- Free context slots of a partition. -/
def State.freeSlots (s : State) (core part : Nat) : List Nat := (List.range 16).filter fun n => (s.slotCtx? core part n).isNone

/-- What contexts need of one partition: how many they are, their split-table entries, registers and tile slots. -/
structure PartNeed where
  off : Nat
  ctxs : Nat
  entries : Nat
  regs : Nat
  tiles : Nat

def State.partFits (s : State) (core part0 : Nat) (x : PartNeed) : Bool :=
  let p := (part0 + x.off) % 16
  decide (x.ctxs ≤ (s.freeSlots core p).length) && decide (s.regsTaken core p + x.regs ≤ 384) &&
    decide (s.tilesTaken core p + x.tiles ≤ 8) && decide (x.entries ≤ s.freeEntries core p)

/-- Where a block goes: core, first partition, allocation and spill area. -/
structure Spot where
  core : Nat
  part0 : Nat
  shBase : Nat
  spBase : Nat

/-- A block fits on a core (R358). -/
def State.spotOn (s : State) (h : KHeader) (needs : List PartNeed) (core : Nat) : Option Spot :=
  let bs := s.holding core
  match lowFit bs h.shSize with
  | none => none
  | some a =>
    let sp := if h.spSize = 0 then some 0 else highFit bs (a + h.shSize) h.spSize
    match sp with
    | none => none
    | some b =>
      ((List.range 16).find? fun p => needs.all (s.partFits core p)).map fun p => ⟨core, p, a, b⟩

/-- Enabled cores in ascending number. -/
def State.enabledCores (s : State) : List Nat := (List.range 256).filter fun c => s.mgmt.coreMask.getLsbD c

/-- A context of the core that `regroup` parked goes before any block (R180). -/
def State.parkedOn (s : State) (core : Nat) : Bool :=
  s.ctxs.any fun c => c.core == core && c.state == .parked && ((s.block? c.block).map fun b => !b.saved).getD false

/-- Cores of a die to be tried for block b of a launch: for a phase the core of the block's virtual core (R365), else every enabled
core, starting after the one used last (R358). -/
def State.coresFor (s : State) (die : Nat) (l : Launch) (b : Nat) : List Nat :=
  let cores :=
    if l.det then
      let en := s.enabledCores
      let before := decide (b < 1024) || l.retiredBlocks.contains (b - 1024)
      (if before then (en[b % 1024 % en.length]?).toList else []).filter fun c => dieOfCore c == die
    else
      let last := (s.die die).lastCore
      ((List.range 64).map fun k => 64 * die + (last + 1 + k) % 64).filter fun c => s.mgmt.coreMask.getLsbD c
  cores.filter fun c => !s.parkedOn c

/-! ### Placement of a new block (R167) -/

/-- Partitions of a new block: one context of one strip in each. -/
def newNeeds (h : KHeader) : List PartNeed :=
  (List.range h.strips).map fun t =>
    { off := t, ctxs := 1, entries := 1, regs := h.vregs
      tiles := tileCount h.stripTiles + if t = 0 then tileCount h.blockTiles else 0 }

/-- Items of block b that exist, by iidx. -/
def Launch.existing (l : Launch) (b : Nat) : Lanes := Lanes.below (min l.hdr.blocksize (l.desc.n - b * l.hdr.blocksize))

def noSpin : Spin := { branch := 0, regs := none, unchanged := 0, demoted := false, vreads := [], reads := [] }

/-- The reconvergence address of a root: none, all ones (chapters 20 and 23). -/
def noReconv : VAddr := BitVec.allOnes 58

/-- A root fragment at a pc, with its split-table entry. -/
def rootFrag (entry last : Nat) (pc : VAddr) (mask : Lanes) (regs : Regs) (cycle : Nat) : Frag :=
  let none_ : RegionSnap := { k := regs.k, fmt := regs.fmt, preds := regs.preds, rstack := [], vregs := [] }
  { id := 0, entry := entry, parent := none, state := if mask = 0 then .exited else .running, first := 0, last := last, depth := 0, capacity := false
    pc := pc, reconv := noReconv, fmtCut := regs.fmt, mask := mask, regs := regs
    region := { entry := pc, range := none, snap := none_, committed := false, serial := 0 }, cont := pc, hasChildren := false
    passedSinceCut := [], wait := none, loads := [], park := none, shadow := none, lastIssue := cycle, looked := 0, busy := 0, bank := 0
    collector := none, reserved := none, hold := 0, yieldUntil := 0, spin := noSpin, entryParked := none, trapWait := false, asks := [], touched := []
    arrival := none, view := Horizon.none, rel := [], acq := [], filled := [] }

/-- A context with one root fragment. -/
def freshCtx (id block core part slot strips firstStrip origin : Nat) (items : Option Lanes) (posBase : Nat) (live : Lanes)
    (root : Frag) : Ctx :=
  { id := id, block := block, core := core, part := part, slot := slot, state := .resident, strips := strips, firstStrip := firstStrip
    origin := origin, items := items, posBase := posBase, live := live, retired := 0, mat := [], frags := [root]
    counters := Vector.replicate 6 0, outcomes := Outcomes.zero, stalls := Vector.replicate 16 0, handlerEntries := 0, snapDone := false
    shmap := none, shWish := none, children := [], damage := [], preempt := none, stopping := false, halted := false
    issued := false, debugWrites := [], gained := [] }

/-- The context of strip t of a new block, with its first region: v0 to v0 at its first pc (R247). -/
def State.placeStrip (l : Launch) (block index core part0 : Nat) (s : State) (t : Nat) : State :=
  let p := (part0 + t) % 16
  let origin := index * l.hdr.blocksize + 64 * t
  let live := (l.existing index >>> (64 * t)) &&& Lanes.below 64
  let root := { rootFrag ((s.freshEntries core p 1).headD 0) 0 l.lctx.pc live (l.lctx.regs.placed origin) s.cycle with
    view := Horizon.upTo s.lastWrite }
  let c := freshCtx s.nextId block core p ((s.freeSlots core p).headD 0) 1 t origin none (64 * t) live root
  let r : FragRef := ⟨s.nextId, 0⟩
  let s : State := { s with nextId := s.nextId + 1, ctxs := s.ctxs ++ [c] }
  s.openRegion r l.lctx.pc (some (0, 0))

/-- The next block of a launch at its place, before its shared allocation is cleared (R12, R357). -/
def newBlock (id : Nat) (l : Launch) (x : Spot) (order : Nat) : Block :=
  { id := id, launch := l.seq, index := l.nextBlock, core := x.core, part0 := x.part0, strips := l.hdr.strips, size := l.hdr.blocksize
    shBase := x.shBase, shSize := l.hdr.shSize, spBase := x.spBase, spSize := l.hdr.spSize, shared := Mem.empty
    toClear := l.hdr.shSize, placed := false, order := order, spill := List.replicate l.hdr.strips [], exists_ := l.existing l.nextBlock
    retired := 0, barriers := List.replicate 16 0, tiles := [], children := [], startTick := 0, stallSum := List.replicate 16 0
    outcomes := Outcomes.zero, faultRetired := 0, damage := [], spillDamage := [], saved := false }

/-- Lines of the core that are older than the launch's code are discarded, and fetches see what the launch must see (R134). -/
def State.staleLines (s : State) (core : Nat) (l : Launch) : State :=
  let stale (x : ILine) : Bool := s.past.any fun w => l.code.knows w && x.words.any fun y => w.meets y.1 (8 * y.2.1) 8 && decide (y.2.2 < w.id)
  s.updCore core fun c => { c with icache := c.icache.filter fun x => decide (l.codeGen ≤ x.gen) && !stale x, code := c.code.join l.code }

/-- The launch engine has placed a block in this cycle. -/
def State.placedOn (s : State) (seq core : Nat) : State :=
  let s := s.updDie (dieOfCore core) fun d => { d with lastCore := core % 64, placedAt := s.cycle + 1 }
  s.updLaunch seq fun l => { l with lastPlaced := s.cycle, starved := false }

def State.placeNew (s : State) (l : Launch) (x : Spot) : State :=
  let id := s.nextId
  let s := s.staleLines x.core l
  let s : State := { s with nextId := id + 1, blocks := s.blocks ++ [newBlock id l x id] }
  let s := (List.range l.hdr.strips).foldl (State.placeStrip l id l.nextBlock x.core x.part0) s
  let n := l.nextBlock + 1
  (s.placedOn l.seq x.core).updLaunch l.seq fun l => { l with nextBlock := n, state := if n = l.blocks then .placed else l.state }

/-! ### Becoming resident -/

/-- The context's fragments with new entries, in ascending order of the old ones (R170); those that are parked without one keep none. -/
def Ctx.renumber (c : Ctx) (es : List Nat) : Ctx :=
  let old := ((c.entries.filter fun f => f.entryParked.isNone).map fun f => f.id)
  { c with frags := c.frags.map fun f => match old.findIdx? fun i => i == f.id with
             | some k => { f with entry := es.getD k 0 }
             | none => f }

/-- A context becomes resident now: its fragments have waited since this cycle (R361). -/
def Ctx.fromNow (cycle : Nat) (c : Ctx) : Ctx := { c with frags := c.frags.map fun f => { f with lastIssue := cycle } }

/-! ### Clearing (R12) -/

/-- The block whose allocation a core's engine clears: the first in the order of placement. -/
def State.clearing (s : State) (core : Nat) : Option Block :=
  (s.holding core).foldl (fun (best : Option Block) b =>
    if b.placed then best
    else
      match best with
      | none => some b
      | some x => if b.order < x.order then some b else best) none

/-- `ALLOCATION_CLEARED`: the block's contexts may issue. -/
def execAllocationCleared (core : Nat) (s : State) : Out :=
  match s.clearing core with
  | none => .fault .notEnabled
  | some b =>
    let s' := s.updBlock b.id fun b => { b with placed := true, startTick := s.tick, shared := Mem.empty }
    let s' : State := { s' with ctxs := s'.ctxs.map fun c => if c.block == b.id then c.fromNow s.cycle else c }
    event (b.toClear == 0) (s'.updLaunch b.launch fun l => { l with firstPlaced := some (l.firstPlaced.getD s.tick) })

/-! ### Departure and retirement (R84, R246, R262) -/

/-- A launch that `halt` has stopped. -/
def State.haltedCtx (s : State) (c : Ctx) : Bool := ((s.launchOfCtx? c).map s.stoppedByHalt).getD false

/-- Every command of the context is complete, the array reads nothing for it, and no entry of its is on its way. -/
def State.drained (s : State) (c : Ctx) (halted : Bool) : Bool :=
  c.counters.toList.all (fun n => n == 0) &&
    (halted || !(s.part c.core c.part).arr.any fun g => g.ctx == c.id) && !s.pushes.any fun q => q.ctx == c.id && q.status.isNone

def Outcomes.add (a b : Outcomes) : Outcomes :=
  { uerr := a.uerr + b.uerr, refused := a.refused + b.refused, deadPod := a.deadPod + b.deadPod, deadHost := a.deadHost + b.deadHost }

def addLists (a b : List Nat) : List Nat := (List.range 16).map fun i => a.getD i 0 + b.getD i 0

/-- A context leaves its partition; its counters and outcomes join its block's. -/
def State.departCtx (s : State) (c : Ctx) : State :=
  let s := (s.endShMap c.id).leaveSlots c.id
  let s := s.dropReqs c.core c.part fun g => g.ctx == c.id
  let s : State := { s with pushes := s.pushes.filter fun q => q.ctx != c.id, toEnqueue := s.toEnqueue.filter fun x => x.1.ctx != c.id }
  let s := s.updBlock c.block fun b =>
    { b with stallSum := addLists b.stallSum c.stalls.toList, outcomes := b.outcomes.add c.outcomes }
  s.updCtx c.id fun c =>
    { c with state := .left, frags := [], counters := Vector.replicate 6 0, stalls := Vector.replicate 16 0, outcomes := Outcomes.zero }

/-- `CONTEXT_DEPARTURE`. -/
def execContextDeparture (ctx : Nat) (s : State) : Out :=
  match s.ctx? ctx with
  | none => .fault .notEnabled
  | some c =>
    let halted := s.haltedCtx c
    let gone := (c.state == .resident && c.live == 0) || (halted && c.state != .left)
    event (gone && s.drained c halted) (s.departCtx c)

/-- The launches below a block have retired (R181). -/
def State.childrenRetired (s : State) (b : Block) : Bool :=
  b.children.all fun n => !s.launches.any fun l => l.seq == n && l.state != .retired && l.state != .done

/-- A block record (R412). -/
def State.blockRecord (s : State) (l : Launch) (b : Block) (saved : Bool) : State :=
  let cs := s.ctxsOf b.id
  let stalls := cs.foldl (fun a c => addLists a c.stalls.toList) b.stallSum
  let outs := cs.foldl (fun a c => a.add c.outcomes) b.outcomes
  let flags := saved.toNat * 128 + l.halted.isSome.toNat * 64
  if !(s.area l.tcid 2).blockRecs then s
  else
    s.trace l.tcid ([traceHead 1 3 flags l.tcid (b.core * 2 ^ 24 + b.part0 * 2 ^ 20 + b.strips * 2 ^ 15), BitVec.ofNat 64 s.tick,
      BitVec.ofNat 64 l.seq, BitVec.ofNat 64 b.index, BitVec.ofNat 64 (b.index % 1024), BitVec.ofNat 64 b.startTick,
      (outs.gather .pod).1, BitVec.ofNat 64 (b.faultRetired % 2 ^ 32)] ++ stalls.map fun n => BitVec.ofNat 64 n)

def freeScratch (s : State) (x : Nat × Nat) : State := s.freeRegion x.1 x.2

/-- The launch's last block has retired: its firing buffer and its regions are free, and its record is written. -/
def State.retireLaunch (s : State) (seq : Nat) : State :=
  match s.launch? seq with
  | none => s
  | some l =>
    let s := l.scratch.foldl freeScratch (s.freeBuffer l)
    let s := s.updLaunch seq fun l => { l with state := .retired, scratch := [] }
    if (s.area l.tcid 2).launchRecs then
      s.trace l.tcid [traceHead 2 1 0 l.tcid 0, BitVec.ofNat 64 s.tick, BitVec.ofNat 64 seq, BitVec.ofNat 64 l.activated,
        BitVec.ofNat 64 (l.firstPlaced.getD 0), BitVec.ofNat 64 l.halted.isSome.toNat, BitVec.ofNat 64 l.blocks]
    else s

/-- Nothing of a launch is left to run: every block has retired, or it was halted and no block of it remains. -/
def State.allRetired (s : State) (l : Launch) : Bool :=
  !(s.blocks.any fun b => b.launch == l.seq) && (l.halted.isSome || decide (l.blocks ≤ l.retiredBlocks.length))

/-- Once every block of a launch that is pre-empted has been saved, the mailbox says so (R391). -/
def State.preemptCheck (s : State) (seq : Nat) : State :=
  match s.launch? seq with
  | none => s
  | some l =>
    if l.preempting && !l.preemptNoted && (s.blocks.all fun b => b.launch != seq || b.saved) then
      (s.updLaunch seq fun l => { l with preemptNoted := true }).post
        { w0 := noticeW0 7 0 l.tcid l.preemptTag.toNat, w1 := BitVec.ofNat 64 seq, w2 := 0, w3 := 0 }
    else s

/-- `BLOCK_RETIRE`. -/
def execBlockRetire (block : Nat) (s : State) : Out :=
  match s.block? block with
  | none => .fault .notEnabled
  | some b =>
    match s.launch? b.launch with
    | none => .fault .notEnabled
    | some l =>
      let cs := s.ctxsOf block
      let ready := (b.placed || l.halted.isSome) && cs.all (fun c => c.state == .left) && s.childrenRetired b
      let s := s.blockRecord l b false
      let s : State := { s with blocks := s.blocks.filter fun x => x.id != block, ctxs := s.ctxs.filter fun c => c.block != block }
      let s := s.updLaunch l.seq fun l =>
        { l with retiredBlocks := l.retiredBlocks ++ [b.index], savedBlocks := l.savedBlocks.filter fun y => y.1 != block }
      let last := ((s.launch? l.seq).map fun l => s.allRetired l).getD false
      event ready ((if last then s.retireLaunch l.seq else s).preemptCheck l.seq)

/-! ### The end of a phase (R345, R364, R379) -/

/-- Where the target of a record lies. -/
def LogRec.places (r : LogRec) : List (Place × Nat) :=
  (splitPages r.addr (dredBytes r.ty)).map fun p =>
    (match r.trans.find? fun t => t.1 == p.1.toNat / 2 ^ 14 with
      | some t => placeOf t.2 p.1
      | none => .lost p.1.toNat, p.2)

/-- A record's target in another device's memory; with no live port there the element is dead (R402, R405). -/
def State.sendLog (s : State) (l : Launch) (r : LogRec) (phys len : Nat) : State :=
  match s.portOf (phys / 2 ^ 42) (Place.remote phys).page with
  | none => s.chargeStray r.ctx Outcomes.addDead
  | some port => s.sendReq l.tcid port (memReq r.ctx 0 l.seq phys len (.reduce r.op r.ty r.val))

/-- Bytes of a record's target, and the first damaged unit among them. -/
def State.logRead (s : State) : List (Place × Nat) → List Byte × Option (Nat × Nat)
  | [] => ([], none)
  | (.mem tier phys, n) :: ps =>
    let rest := State.logRead s ps
    let bad := ((touchedUnits phys n).find? fun u => s.badUnit tier u).map fun u => (6 + tier, max phys (64 * u))
    (s.readPhys tier phys n ++ rest.1, bad.or rest.2)
  | (_, n) :: ps =>
    let rest := State.logRead s ps
    (List.replicate n 0#8 ++ rest.1, rest.2)

def State.logWrite (s : State) (w : Writer) : List (Place × Nat) → List Byte → State
  | [], _ => s
  | (.mem tier phys, n) :: ps, bs =>
    State.logWrite (s.writeCells w tier ((bs.take n).zipIdx.map fun b => (phys + b.2, b.1))) w ps (bs.drop n)
  | (_, n) :: ps, bs => State.logWrite s w ps (bs.drop n)

/-- One record is applied; a damaged target is written as zero and counted. -/
def State.applyLog (l : Launch) (s : State) (r : LogRec) : State :=
  match r.places with
  | (.remote phys, n) :: _ => s.sendLog l r phys n
  | ps =>
    let x := s.logRead ps
    match x.2 with
    | none =>
      let old : W64 := BitVec.ofNat 64 (natOfBytes x.1)
      s.logWrite ⟨.frag r.ctx 0, false, []⟩ ps (bytesN (dredBytes r.ty) (dredApply r.op r.ty old r.val).toNat)
    | some bad =>
      let s := s.logError (errRec s.tick l.tcid (s.tcid l.tcid).tenant bad.1 0 0 bad.2 0)
      let s : State := { s with zeroed := SMap.set s.zeroed l.seq (SMap.getD s.zeroed l.seq 0 + 1) }
      s.logWrite ⟨.frag r.ctx 0, false, []⟩ ps (List.replicate (dredBytes r.ty) 0#8)

/-- The records of a phase in the order of R345. -/
def State.logOf (s : State) (seq : Nat) : List LogRec :=
  let key (r : LogRec) : Nat := ((r.vcore * 2 ^ 41 + r.block) * 2 ^ 41 + r.item) * 2 ^ 64 + r.count
  sortOn key ((s.log.filter fun x => x.1 == seq).map fun x => x.2)

/-- Requests of a phase's log that await their responses. -/
def State.logPending (s : State) (seq : Nat) : Bool := s.ual.requests.any fun q => q.cmd == 0 && q.elem == seq

def Launch.tag (l : Launch) : Nat :=
  match l.path with
  | .mailbox t => t.toNat
  | _ => 0

/-- The log has been applied: held entries are appended, firings made, and the notice posted. -/
def State.closePhase (s : State) (l : Launch) : State :=
  let s := s.updLaunch l.seq fun l => { l with state := .done }
  let out := s.appendHeld l.seq l.tcid
  let zero := SMap.getD out.1.zeroed l.seq 0
  let s := out.1.phaseFirings l.tcid
  let status := if l.halted.isSome then 1 else if zero = 0 then 0 else 2
  let s : State := { s with zeroed := SMap.erase s.zeroed l.seq }
  s.post { w0 := noticeW0 6 status l.tcid l.tag, w1 := BitVec.ofNat 64 l.seq, w2 := BitVec.ofNat 64 out.2, w3 := BitVec.ofNat 64 zero }

/-- A halted launch without blocks retires where it stands. -/
def State.settleHalted (s : State) (l : Launch) : State :=
  if l.state == .retired || l.state == .done then s else s.newHead (s.retireLaunch l.seq) l.queue

def State.over (s : State) (l : Launch) : Bool :=
  l.state == .retired || (l.state != .done && l.halted.isSome && s.allRetired l)

/-- `PHASE_END` (R364): the log is applied; once its remote records have been answered the phase ends. -/
def execPhaseEnd (tcid : Nat) (s : State) : Out :=
  match s.launches.find? fun l => l.tcid == tcid && l.det && s.over l with
  | none => .fault .notEnabled
  | some l =>
    if s.logPending l.seq then .fault .notEnabled
    else
      let s := s.settleHalted l
      let recs := if l.halted.isSome then [] else s.logOf l.seq
      let s : State := { s with log := s.log.filter fun x => x.1 != l.seq }
      let s := recs.foldl (State.applyLog l) s
      .next (if s.logPending l.seq then s else s.closePhase l)

/-! ### Completion (R262, R400) -/

def State.completionNotice (s : State) (l : Launch) : State :=
  let n := s.mbox.notices + BitVec.ofNat 32 s.mbox.queued.length
  let s : State := { s with pubs := s.pubs.map fun p => if p.seq = l.seq then { p with noted := some n } else p }
  match l.halted with
  | none => s.post { w0 := noticeW0 1 0 l.tcid l.tag, w1 := BitVec.ofNat 64 l.seq, w2 := 0, w3 := 0 }
  | some h =>
    s.post { w0 := noticeW0 1 1 l.tcid l.tag, w1 := BitVec.ofNat 64 l.seq
             w2 := BitVec.ofNat 64 (h.code + h.item % 2 ^ 40 * 2 ^ 24), w3 := h.pc.setWidth 64 }

/-- `LAUNCH_COMPLETION`: after its retirement, and for a phase after its end. -/
def execLaunchCompletion (seq : Nat) (s : State) : Out :=
  match s.launch? seq with
  | none => .fault .notEnabled
  | some l =>
    let ready := if l.det then l.state == .done else s.over l
    let s := s.settleHalted l
    let s := (s.digests l true).completionNotice l
    event ready { s with launches := s.launches.filter fun x => x.seq != seq }

end Sys2Proof.Machine
end

