-- ==== Sys2Proof/Machine/Save.lean ====
section
/-! DEFINITION. Pre-emption (R391-R394): the save record of a context, the save area of a block, and stopping and saving. -/

namespace Sys2Proof.Machine

open Sys2Proof

/-! ### The save record (R392) -/

/-- A context with its fragments back at their region entries (R390). -/
def Ctx.atEntries (kregs : Nat) (c : Ctx) : Ctx :=
  (c.leaves.map fun f => f.id).foldl (fun c i =>
    match c.frag? i with
    | none => c
    | some f =>
      if f.park.isNone && f.shadow.isNone then
        let y := restartFrag kregs c f
        y.1.setFrag y.2
      else c) c

/-- A fragment as the record's registers are taken from it. -/
def recordEnv (s : State) (c : Ctx) (f : Frag) (b : Block) (l : Launch) : Env :=
  { s := s, s0 := s, r := ⟨c.id, f.id⟩, c := c, f := f, b := b, l := l, i := .nop ⟨0, false⟩, len := 8 }

/-- The whole context as one fragment: its root's registers, or those of its fragments merged. -/
def Ctx.whole (c : Ctx) : Option (Ctx × Frag) :=
  c.root?.map fun root =>
    let kids := sortOn (fun f => (Lanes.lowest f.mask).getD 0) c.leaves
    let R : RegFile := match kids with
      | [] => ⟨root.regs, c.mat⟩
      | [f] => ⟨f.regs, c.mat⟩
      | lead :: _ => mergeRegs c root lead kids
    ({ c with mat := R.mat }, { root with regs := R.regs, mask := c.live, first := 0, last := c.strips - 1 })

/-- The record groups of a range in the strips of a fragment: 32 registers in each but the last. -/
def Env.rangeGroups (e : Env) (r : VRange) : List Byte :=
  match r with
  | none => []
  | some (lo, hi) =>
    e.f.strips'.flatMap fun t =>
      (List.range ((hi.val - lo.val) / 32 + 1)).flatMap fun g =>
        e.spillGroup (lo.val + 32 * g) (min hi.val (lo.val + 32 * g + 31)) t

/-- A tile instance: 1,024 words, the status word and 4 zero bytes. -/
def TileInst.image (t : TileInst) : List Byte :=
  ((List.range 1024).flatMap fun w => bytesN 4 (t.word w).toNat) ++ bytesN 4 t.status.toNat ++ bytesN 4 0

/-- Declared tiles of a set, ascending. -/
def tilesOf (t : BitVec 8) : List Nat := (List.range 8).filter fun i => t.getLsbD i

/-- The save record of a context. -/
def State.saveRecord (s : State) (b : Block) (l : Launch) (c : Ctx) : List Byte :=
  let c := c.atEntries l.hdr.kregs
  match c.whole, c.root? with
  | some (cw, f), some root =>
    let e := recordEnv s cw f b l
    let rc := rangeCodes root.region.range
    let n := l.hdr.kregs
    let head : List Nat :=
      [root.region.entry.toNat, f.regs.fmt.toNat * 2 ^ 32 + rc.2 * 2 ^ 16 + rc.1,
       f.regs.rstack.length * 2 ^ 48 + n * 2 ^ 40 + c.frags.length % 256 * 2 ^ 32 + c.firstStrip % 16 * 2 ^ 28 +
         (c.firstStrip + c.strips - 1) % 16 * 2 ^ 24 + c.slot * 2 ^ 16 + l.hdr.vregs,
       (c.outcomes.gather .pod).1.toNat]
    let rstack := (List.range 16).map fun i => ((f.regs.rstack.reverse[i]?).getD 0).toNat
    let ks := (List.range n).map fun i => (f.regs.k.getD i 0).toNat
    let V := e.view
    let preds := (List.finRange 16).flatMap fun p => (List.range c.strips).map fun t => Lanes.strip (V.plane (f.regs.pred p)) t
    let others := c.entries.filter fun g => !g.hasChildren && g.state != .exited && g.region.range != root.region.range
    let tiles := (tilesOf l.hdr.stripTiles).flatMap fun t => (List.range c.strips).flatMap fun k => (b.inst t (some (c.stripKey k))).image
    ((head ++ rstack ++ ks ++ preds).flatMap fun w => bytesN 8 w) ++ e.rangeGroups root.region.range ++
      (others.flatMap fun g => (recordEnv s c g b l).rangeGroups g.region.range) ++
      (c.entries.flatMap fun g => (g.entryWords c g.region.entry).flatMap fun w => bytesN 8 w.toNat) ++ tiles
  | _, _ => []

/-- The spill stack of a strip as it is saved: its record groups and the entries of the fragments parked there, to the allowance (R171,
R393). -/
def State.stackImage (s : State) (b : Block) (S t : Nat) : List Byte :=
  let parked := (s.ctxsOf b.id).flatMap fun c => if c.firstStrip ≤ t then c.parkedEntries (t - c.firstStrip) else []
  let st := List.take S (b.spill.getD t [] ++ parked)
  st ++ List.replicate (S - st.length) 0#8

/-- The spill stacks of a block: one for each strip, and those that `regroup` adds (log 74). -/
def Block.stacks (b : Block) : Nat := max b.strips b.spill.length

/-- What follows the context records of a block (R393). -/
def State.blockImage (s : State) (b : Block) (l : Launch) : List Byte :=
  b.shared.readBytes 0 b.shSize ++ ((List.range b.stacks).flatMap (s.stackImage b l.hdr.spill)) ++
    ((List.range 16).flatMap fun n => bytesN 128 (b.barriers.getD n 0).toNat) ++
    (tilesOf l.hdr.blockTiles).flatMap fun t => (b.inst t none).image

/-! ### Stopping and saving (R391) -/

/-- A pre-emption request reaches a launch; a context that `shmap` pairs with one of its is stopped with it (R258, R391). -/
def State.preempt (s : State) (seq area : Nat) (tag : W32) : State :=
  let s := s.updLaunch seq fun l => { l with preempting := true, preemptNoted := false, preemptTag := tag, saveArea := some area }
  let ids := (s.blocks.filter fun b => b.launch == seq && !b.saved).map fun b => b.id
  let mine := (s.ctxs.filter fun c => ids.contains c.block).map fun c => c.id
  let paired (c : Ctx) : Bool := (c.shmap.map fun m => mine.contains m.partner).getD false
  let s : State := { s with ctxs := s.ctxs.map fun c =>
    if (mine.contains c.id || paired c) && c.preempt.isNone then { c with preempt := some s.cycle } else c }
  s.preemptCheck seq

/-- `PREEMPTION_BOUND_EXPIRY`: after 4,096 ticks the context stops at its next instruction boundary. -/
def execPreemptionBoundExpiry (ctx : Nat) (s : State) : Out :=
  match s.ctx? ctx with
  | none => .fault .notEnabled
  | some c =>
    match c.preempt with
    | none => .fault .notEnabled
    | some t =>
      event (!c.stopping && s.mayStop c && c.state == .resident && decide (t + Config.preemptTicks ≤ s.cycle))
        (s.takePreempt ctx)

/-- An instruction that has begun and whose effect a repetition would change: it completes before its context is written (R247, R336, R391). -/
def Frag.midway (f : Frag) : Bool :=
  match f.wait.map Wait.what with
  | some .fence | some .seal | some .qdrain | some .qpush | some .childQueue => true
  | some (.tlbi _) => true
  | _ => false

/-- A context may be written: it has stopped, its counters read zero, and no instruction of its that has begun is still to complete; one that
it is paired with has stopped too. -/
def State.mayWrite (s : State) (c : Ctx) : Bool :=
  let paired := match c.shmap with
    | none => true
    | some m => match s.ctx? m.partner with
      | none => true
      | some p => p.stopping || p.state != .resident
  (c.stopping || c.state == .parked) && c.counters.toList.all (fun n => n == 0) && paired && !c.inHandler &&
    !(c.frags.any Frag.midway) && !(s.pushes.any fun q => q.ctx == c.id) && !s.toEnqueue.any fun x => x.1.ctx == c.id

/-- What a fragment has staged is discarded, and its wait and its latches are gone. -/
def State.stopFrags (s : State) (c : Ctx) : State :=
  let s := c.leaves.foldl (fun s f => if f.park.isNone then s.discardFrag c f else s) s
  s.updCtx c.id fun c =>
    { c with frags := c.frags.map fun f => { f.interrupted with regs := { f.regs with latches := noLatches } }
             state := if c.state = .resident then .saved else c.state }

/-- Where the next block of a launch is saved: at the start of the launch's save area, or after the blocks that lie in it (R392). DESIGN CHOICE
(log 122): their save areas follow one another in the order of saving. -/
def Launch.saveEnd (l : Launch) : Nat :=
  let area := l.saveArea.getD 0
  (l.savedBlocks.map fun x => if area ≤ x.2.1 then x.2.1 + x.2.2 else area).foldl max area

/-- `CONTEXT_SAVE` of a block whose contexts have all stopped: the records of its contexts, then the block's own state, follow what has
been saved of the launch before. -/
def execContextSave (block : Nat) (s : State) : Out :=
  match s.block? block with
  | none => .fault .notEnabled
  | some b =>
    match s.launch? b.launch with
    | none => .fault .notEnabled
    | some l =>
      let cs := sortOn (fun c => c.id) ((s.ctxsOf block).filter fun c => c.state != .left)
      let at_ := l.saveEnd
      let bytes := (cs.flatMap fun c => s.saveRecord b l c) ++ s.blockImage b l
      let s' := (s.blockRecord l b true).writeTier1 (Writer.of .mailbox) at_ bytes
      let s' := cs.foldl State.stopFrags s'
      let s' := s'.updBlock block fun b => { b with saved := true }
      let s' := s'.updLaunch l.seq fun l => { l with savedBlocks := l.savedBlocks ++ [(block, at_, bytes.length)] }
      event (l.preempting && l.halted.isNone && !b.saved && !cs.isEmpty && cs.all s.mayWrite) (s'.preemptCheck l.seq)

/-- The resume command: the blocks are placed again (R394). -/
def State.resumeLaunch (s : State) (seq : Nat) : State :=
  s.updLaunch seq fun l => { l with preempting := false, preemptNoted := false, resuming := !l.savedBlocks.isEmpty }

end Sys2Proof.Machine
end

