-- ==== Sys2Proof/Machine/Restore.lean ====
section
/-! DEFINITION. Resuming a pre-empted launch (R394): the save area as it is read back, the placement of a saved block, and the placement
decision (R357, R358). -/

namespace Sys2Proof.Machine

open Sys2Proof

/-! ### Split-table entries in the layout of R170 -/

def fstateOf (n : Nat) : FState :=
  match n with
  | 0 => .running
  | 1 => .arrived
  | 2 => .parked
  | _ => .exited

/-- Bits 64·t to 64·t + 63 of a mask replaced. -/
def setStrip (m : Lanes) (t : Nat) (x : W64) : Lanes := (m &&& ~~~ Lanes.strips t t) ||| (x.setWidth _ <<< (64 * t))

/-- Word n of a fragment's entry is written. Where the word holds what it shows now nothing changes. -/
def Ctx.setEntryWord (c : Ctx) (f : Frag) (n : Nat) (x : W64) : Frag :=
  if (f.entryWords c f.pc)[n]? = some x then f
  else
    let v (off w : Nat) : Nat := bitsN x.toNat off w
    let strip (k : Nat) : Nat := (k + 16 - c.firstStrip % 16) % 16
    match n with
    | 0 =>
      let parent := if v 51 1 = 1 then none else (c.frags.find? fun g => g.entry == v 52 6).map fun g => g.id
      let st := if f.entryParked.isSome ∧ v 49 2 = 2 then f.state else fstateOf (v 49 2)
      { f with entry := v 58 6, parent := parent, state := st, first := strip (v 45 4), last := strip (v 41 4), depth := v 35 6
               capacity := v 34 1 == 1 }
    | 1 => { f with pc := BitVec.ofNat 58 (v 0 58), region := { f.region with entry := BitVec.ofNat 58 (v 0 58) } }
    | 2 => { f with reconv := BitVec.ofNat 58 (v 0 58) }
    | 3 =>
      let fmt := BitVec.ofNat 32 (v 32 32)
      if f.parent.isNone then
        { f with regs := { f.regs with fmt := fmt }, region := { f.region with snap := { f.region.snap with fmt := fmt } } }
      else { f with fmtCut := fmt }
    | n + 4 => if f.first + n ≤ f.last then { f with mask := setStrip f.mask (f.first + n) x } else f

/-! ### Reading a save record back (R392, R394) -/

def wordAt (bs : List Byte) (off : Nat) : Nat := natOfBytes ((bs.drop off).take 8)

/-- The record groups of a range, strip by strip, 32 registers in each but the last: what the bytes hold, and the rest of them. -/
def recordGroups : List Nat → List Byte → List (Nat × Nat × List SpillRec) × List Byte
  | [], bs => ([], bs)
  | t :: ts, bs =>
    let len := natOfBytes (bs.take 4) / 2 ^ 16
    let rest := recordGroups ts (bs.drop len)
    match topGroup (bs.take len) with
    | some g => ((t, g.1, g.2.1) :: rest.1, rest.2)
    | none => rest

/-- The strip of each group of a range. -/
def groupStrips (r : VRange) (ts : List Nat) : List Nat :=
  match r with
  | none => []
  | some (lo, hi) => ts.flatMap fun t => List.replicate ((hi.val - lo.val) / 32 + 1) t

/-- A fragment's inputs from their groups. -/
def Env.loadGroups (e : Env) (gs : List (Nat × Nat × List SpillRec)) : RegionSnap :=
  let one (x : Nat × (VTag × List W32)) : Nat × (VTag × List W32) :=
    let mine := gs.filter fun g => decide (g.2.1 ≤ x.1) && decide (x.1 < g.2.1 + g.2.2.length)
    let R := e.restoreReg mine e.view.file x.1
    let t := SMap.getD R.regs.vtags x.1 (.uni 0)
    (x.1, t, if t = .mat then SMap.getD R.mat x.1 [] else [])
  { e.f.region.snap with vregs := e.f.region.snap.vregs.map one }

/-- What a record gives all fragments of its context at their region entries: words that differ from the record as it was written. -/
def RegionSnap.load (old new : List Byte) (n T : Nat) (x : RegionSnap) : RegionSnap :=
  let same (off len : Nat) : Bool := (old.drop off).take len == (new.drop off).take len
  let k := Vector.ofFn fun i : Fin 64 =>
    if i.val < n ∧ !same (160 + 8 * i.val) 8 then BitVec.ofNat 64 (wordAt new (160 + 8 * i.val)) else x.k[i]
  let preds := Vector.ofFn fun i : Fin 16 =>
    let at_ := 160 + 8 * n + 8 * T * i.val
    if same at_ (8 * T) then x.preds[i]
    else .mat ((List.range T).foldl (fun m t => setStrip m t (BitVec.ofNat 64 (wordAt new (at_ + 8 * t)))) 0)
  let depth := bitsN (wordAt new 16) 48 5
  { x with
    k := k
    preds := preds
    fmt := if same 12 4 then x.fmt else BitVec.ofNat 32 (bitsN (wordAt new 8) 32 32)
    rstack := if same 22 1 && same 32 128 then x.rstack
      else (((List.range depth).map fun i => BitVec.ofNat 58 (wordAt new (32 + 8 * i))).reverse) }

/-- The fence outcomes of a record; it does not tell a dead pod link's from a dead host link's (R128). -/
def outcomesOf (w : Nat) : Outcomes := ⟨bitsN w 0 16, bitsN w 16 16, bitsN w 32 16, 0⟩

/-- A tile instance from its image (R392). -/
def TileInst.load (i : TileInst) (bs : List Byte) : TileInst :=
  let ws := (List.range 1024).foldl (fun (i : TileInst) w => i.setWord w (BitVec.ofNat 32 (natOfBytes ((bs.drop (4 * w)).take 4)))) i
  { ws with overflow := bitN (natOfBytes ((bs.drop 4096).take 4)) 0 }

def imageLen : Nat := 4104

/-- Tile instances from their images in order. -/
def Block.loadTiles (b : Block) : List (Nat × Option Nat) → List Byte → Block
  | [], _ => b
  | x :: xs, bs =>
    Block.loadTiles (b.setInst ((b.inst x.1 x.2).load (bs.take imageLen))) xs (bs.drop imageLen)

/-- Fragments in the order of their entries with the words that a record holds of them. -/
def Ctx.loadEntries (c : Ctx) : List Nat → List Byte → Ctx × List Byte
  | [], bs => (c, bs)
  | i :: is, bs =>
    match c.frag? i with
    | none => Ctx.loadEntries c is bs
    | some f =>
      let n := 4 + (f.last + 1 - f.first)
      let seen := f.entryWords c f.region.entry
      let put (g : Frag) (k : Nat) : Frag :=
        let x := BitVec.ofNat 64 (wordAt bs (8 * k))
        if seen[k]? = some x then g else c.setEntryWord g k x
      Ctx.loadEntries (c.setFrag ((List.range n).foldl put f)) is (bs.drop (8 * n))

/-- A context from its record: what the record holds is taken where it differs from what was written there, since a record holds no more of a
context than R392 says. Registers of a context that is cut come back with the tags of its record, which merges its fragments (R390). -/
def State.loadRecord (s : State) (l : Launch) (b : Block) (c : Ctx) (old new : List Byte) : Ctx × Block :=
  if old = new ∧ c.leaves.length ≤ 1 then (c, b)
  else
    match c.whole, c.root? with
    | some (cw, wf), some root =>
      let n := l.hdr.kregs
      let c0 := c
      let ts (f : Frag) : List Nat := f.strips'
      let others := c.entries.filter fun g => !g.hasChildren && g.state != .exited && g.region.range != root.region.range
      let bs := new.drop (160 + 8 * n + 128 * c.strips)
      let rootGs := recordGroups (groupStrips root.region.range (ts wf)) bs
      let otherGs := others.foldl (fun (x : List (Nat × List (Nat × Nat × List SpillRec)) × List Byte) g =>
        let y := recordGroups (groupStrips g.region.range (ts g)) x.2
        (x.1 ++ [(g.id, y.1)], y.2)) ([], rootGs.2)
      let at_ := bs.length - otherGs.2.length
      let touched := decide (1 < c.leaves.length) || (bs.take at_) != ((old.drop (160 + 8 * n + 128 * c.strips)).take at_)
      let load (f : Frag) : Frag :=
        if f.hasChildren || f.park.isSome then f
        else
          let gs := ((otherGs.1.find? fun x => x.1 == f.id).map fun x => x.2).getD rootGs.1
          let snap := if touched then (recordEnv s cw { f with regs := wf.regs } b l).loadGroups gs else f.region.snap
          { f with region := { f.region with snap := snap.load old new n c0.strips } }
      let c := { c with frags := c.frags.map load
                        outcomes := if (old.drop 24).take 8 = (new.drop 24).take 8 then c.outcomes else outcomesOf (wordAt new 24) }
      let out := c.loadEntries (c.entries.map fun f => f.id) otherGs.2
      let insts : List (Nat × Option Nat) :=
        (tilesOf l.hdr.stripTiles).flatMap fun t => (List.range c.strips).map fun k => (t, some (c.stripKey k))
      (out.1, b.loadTiles insts out.2)
    | _, _ => (c, b)

/-- Contexts of a block from its save area, one after another: the state and the bytes that follow their records. -/
def State.loadCtxs (l : Launch) (block : Nat) : List Ctx → List Byte → State → State × List Byte
  | [], bs, s => (s, bs)
  | c :: cs, bs, s =>
    match s.block? block with
    | none => (s, bs)
    | some b =>
      let old := s.saveRecord b l c
      let out := s.loadRecord l b c old (bs.take old.length)
      State.loadCtxs l block cs (bs.drop old.length) ((s.setCtx out.1).updBlock block fun _ => out.2)

/-- The spill stack of a strip from its S bytes: its record groups as far as they reach (R393). -/
def Block.loadStacks (b : Block) (S : Nat) (bs : List Byte) : Block :=
  { b with spill := b.spill.zipIdx.map fun x => ((bs.drop (S * x.2)).take S).take x.1.length }

/-- The block's own state from what follows its context records (R393). -/
def Block.load (b : Block) (h : KHeader) (bs : List Byte) : Block :=
  let shared := if b.shared.readBytes 0 b.shSize = bs.take b.shSize then b.shared else b.shared.writeBytes 0 (bs.take b.shSize)
  let bs := bs.drop b.shSize
  let b := { b with shared := shared }.loadStacks h.spill bs
  let bs := bs.drop (h.spill * b.stacks)
  let b := { b with barriers := (List.range 16).map fun n => BitVec.ofNat 1024 (natOfBytes ((bs.drop (128 * n)).take 128)) }
  b.loadTiles ((tilesOf h.blockTiles).map fun t => (t, none)) (bs.drop 2048)

/-- A saved block and its contexts are restored from the block's save area (R394). -/
def State.loadBlock (s : State) (l : Launch) (b : Block) : State :=
  match l.savedBlocks.find? fun x => x.1 == b.id with
  | none => s
  | some x =>
    let cs := sortOn (fun c => c.id) ((s.ctxsOf b.id).filter fun c => c.state != .left)
    let out := State.loadCtxs l b.id cs (s.tier1.readBytes x.2.1 x.2.2) s
    out.1.updBlock b.id fun b => b.load l.hdr out.2

/-! ### Placement of a saved block (R394) -/

/-- The contexts of a saved block that were resident. -/
def State.savedCtxs (s : State) (block : Nat) : List Ctx := (s.ctxsOf block).filter fun c => c.state == .saved

/-- The relative partition of a context. -/
def Ctx.relPart (c : Ctx) (b : Block) : Nat := (c.part + 16 - b.part0) % 16

def State.savedNeeds (s : State) (h : KHeader) (b : Block) : List PartNeed :=
  let cs := s.savedCtxs b.id
  (List.range 16).filterMap fun off =>
    let mine := cs.filter fun c => c.relPart b == off
    let blk := if off = 0 then tileCount h.blockTiles else 0
    if mine.isEmpty && blk == 0 then none
    else
      some { off := off, ctxs := mine.length
             entries := (mine.map fun c => (c.frags.filter fun f => f.entryParked.isNone).length).foldl (· + ·) 0
             regs := mine.length * h.vregs, tiles := mine.length * tileCount h.stripTiles + blk }

/-- Predicates as MAT, but for p0 (R392). -/
def Ctx.matPreds (c : Ctx) (ps : Vector PTag 16) : Vector PTag 16 :=
  Vector.ofFn fun i : Fin 16 => if i = 0 then ps[i] else .mat ((ps[i]).lanes c.places c.width)

/-- Every predicate that a fragment holds as MAT. -/
def Ctx.matFrag (c : Ctx) (f : Frag) : Frag :=
  { f with regs := { f.regs with preds := c.matPreds f.regs.preds }
           region := { f.region with snap := { f.region.snap with preds := c.matPreds f.region.snap.preds } } }

/-- A fragment restarts as R390 says after a pre-emption: k registers at or above `.kregs` zero, other vector registers UNI zero. One that
had arrived runs to its join again; one that a fault has parked keeps its state until its answer. -/
def resumeFrag (kregs : Nat) (c : Ctx) (f : Frag) : Ctx × Frag :=
  let f := c.matFrag f
  let keep := f.region.snap.vregs.map fun x => x.1
  let k := Vector.ofFn fun i : Fin 64 => if i.val < kregs then f.regs.k[i] else 0
  let f := { f with regs := { f.regs with k := k, vtags := f.regs.vtags.filter fun t => keep.contains t.1 } }
  let shadow := f.shadow.map fun x => { x with k := x.k.zipIdx.map fun y => if 56 + y.2 < kregs then y.1 else 0 }
  let f := { f with shadow := shadow }
  if f.hasChildren || f.park.isSome || f.state == .exited then (c, f)
  else restartFrag kregs c { f with state := if f.state = .arrived then .running else f.state }

/-- One context of the block becomes resident again and starts its pass (R70); the partner of another launch that stopped with it goes on
(R258). -/
def State.resumeCtx (h : KHeader) (b : Block) (x : Spot) (s : State) (id : Nat) : State :=
  match s.ctx? id with
  | none => s
  | some c =>
    let p := (x.part0 + c.relPart b) % 16
    let slot := if c.shmap.isSome then c.slot else (s.freeSlots x.core p).headD 0
    let c := (c.frags.map fun f => f.id).foldl (fun c i =>
      match c.frag? i with
      | none => c
      | some f => let y := resumeFrag h.kregs c f; y.1.setFrag { y.2 with reserved := none }) c
    let c := c.renumber (s.freshEntries x.core p c.frags.length)
    let c : Ctx := { c with core := x.core, part := p, slot := slot, state := .resident, counters := Vector.replicate 6 0
                            stalls := Vector.replicate 16 0, preempt := none, stopping := false }
    let go (p : Ctx) : Ctx :=
      if ((s.launchOfCtx? p).map fun l => l.preempting).getD false then p else { p with preempt := none, stopping := false }
    let s := match c.shmap with
      | some m => s.updCtx m.partner go
      | none => s
    (s.setCtx (c.fromNow s.cycle)).startCtx id

/-- Contexts that `regroup` had parked stay parked, at the block's new core; their ticks until now are in the record of the save (R412). -/
def State.moveParked (s : State) (b : Block) (x : Spot) : State :=
  { s with ctxs := s.ctxs.map fun c =>
      if c.block == b.id && c.state == .parked then
        { c with core := x.core, part := (x.part0 + c.relPart b) % 16, stalls := Vector.replicate 16 0 }
      else c }

/-- Parks that the host has answered while their block was saved (R391). -/
def State.answerParks (s : State) (block : Nat) : State :=
  let refs : List (FragRef × Bool) := (s.ctxsOf block).flatMap fun c => c.frags.filterMap fun f =>
    (f.park.bind fun p => p.answer).map fun a => ((⟨c.id, f.id⟩ : FragRef), a)
  refs.foldl (fun s x => if x.2 then s.resumePark x.1 else s.failPark x.1) s

/-- A saved block is placed: it is restored from its save area, and its contexts start again. -/
def State.placeSaved (s : State) (l : Launch) (b : Block) (x : Spot) : State :=
  let s := ((s.loadBlock l b).staleLines x.core l).moveParked b x
  let s := ((sortOn (fun c => c.shmap.isNone.toNat) (s.savedCtxs b.id)).map fun c => c.id).foldl (State.resumeCtx l.hdr b x) s
  let s := s.updBlock b.id fun b =>
    { b with core := x.core, part0 := x.part0, shBase := x.shBase, spBase := x.spBase, saved := false, placed := true, toClear := 0
             startTick := s.tick, stallSum := List.replicate 16 0, faultRetired := 0 }
  let s := s.answerParks b.id
  (s.placedOn l.seq x.core).updLaunch l.seq fun l =>
    let rest := l.savedBlocks.filter fun y => y.1 != b.id
    { l with savedBlocks := rest, resuming := l.resuming && !rest.isEmpty }

/-! ### The placement decision (R357) -/

/-- Launches with a block to place, in the order in which they are tried. -/
def State.placing (s : State) : List Launch :=
  let l := s.launches.filter fun l =>
    l.halted.isNone && !l.preempting &&
      ((l.state == .active && l.lctx.stopped && !l.resuming) || (l.resuming && !l.savedBlocks.isEmpty))
  let order := sortOn (fun l => (7 - l.kept) * 2 ^ 80 + l.activeOrder) l
  match sortOn (fun l => l.activeOrder) (l.filter fun l => l.starved) with
  | x :: _ => [x]
  | [] => order

/-- The next block of a launch has waited too long. -/
def State.starvedDue (s : State) (l : Launch) : Bool :=
  l.state == .active && l.halted.isNone && !l.preempting && !l.starved && decide (l.lastPlaced + Config.ageTicks ≤ s.cycle)

/-- `PLACEMENT_STARVATION` (R357). -/
def execPlacementStarvation (s : State) : Out :=
  match (sortOn (fun l => l.activeOrder) s.launches).find? s.starvedDue with
  | none => .fault .notEnabled
  | some l => .next (s.updLaunch l.seq fun l => { l with starved := true })

/-- The slots of a block's mapped contexts are free: they are restored to the same partition and slots (R258). -/
def State.sameSlots (s : State) (b : Block) : Bool :=
  (s.savedCtxs b.id).all fun c => c.shmap.isNone || (s.slotCtx? c.core c.part c.slot).isNone

/-- The state after a launch's next block has been placed on a die; none where it does not fit. -/
def State.tryPlace (s : State) (die : Nat) (l : Launch) : Option State :=
  if l.resuming then
    l.savedBlocks.findSome? fun y =>
      (s.block? y.1).bind fun b =>
        let pinned := (s.savedCtxs b.id).any fun c => c.shmap.isSome
        let cores := (s.coresFor die l b.index).filter fun c => !pinned || c == b.core
        let spot := (cores.findSome? (s.spotOn l.hdr (s.savedNeeds l.hdr b))).bind fun x =>
          if pinned then
            if s.sameSlots b && (s.savedNeeds l.hdr b).all (s.partFits b.core b.part0) then some { x with part0 := b.part0 } else none
          else some x
        spot.map fun x => s.placeSaved l b x
  else ((s.coresFor die l l.nextBlock).findSome? (s.spotOn l.hdr (newNeeds l.hdr))).map fun x => s.placeNew l x

/-- `BLOCK_PLACEMENT`: at most one block for each die and tick. -/
def execBlockPlacement (die : Nat) (s : State) : Out :=
  if 4 ≤ die ∨ s.cycle < (s.die die).placedAt ∨ (s.launches.any s.starvedDue) then .fault .notEnabled
  else
    match s.placing.findSome? (s.tryPlace die) with
    | some s => .next s
    | none => .fault .notEnabled

end Sys2Proof.Machine
end

