-- ==== Sys2Proof/Machine/Regroup.lean ====
section
/-! DEFINITION. `regroup`'s completion (R179, R180), and what parks and returns in a partition: contexts in the overflow area, strips of a
capacity cut (R70), and fragments without a split-table entry (R171). -/

namespace Sys2Proof.Machine

open Sys2Proof

/-! ### The overflow area (R180) -/

/-- The TCID of a context's launch. -/
def State.ctxTcid (s : State) (c : Ctx) : Nat := ((s.launchOfCtx? c).map fun l => l.tcid).getD 0

/-- A context's record, in the layout of R392. -/
def State.recordOf (s : State) (c : Ctx) : List Byte :=
  match s.block? c.block with
  | none => []
  | some b =>
    match s.launch? b.launch with
    | none => []
    | some l => s.saveRecord b l c

/-- Contexts of a TCID that lie in its overflow area. -/
def State.inOverflow (s : State) (tcid : Nat) : List Ctx :=
  s.ctxs.filter fun c => c.state == .parked && s.ctxTcid c == tcid && ((s.block? c.block).map fun b => !b.saved).getD false

def State.overflowUsed (s : State) (tcid : Nat) : Nat :=
  ((s.inOverflow tcid).map fun c => (s.recordOf c).length).foldl (· + ·) 0

/-- A context's fragments leave residency: their latches are undefined (R185). -/
def Ctx.latchless (c : Ctx) : Ctx :=
  { c with frags := c.frags.map fun f => { f with regs := { f.regs with latches := noLatches } } }

/-- A context is parked in the overflow area; none where the area is absent or has no room. -/
def State.parkCtx (s : State) (id : Nat) : Option State :=
  match s.ctx? id with
  | none => none
  | some c =>
    let tcid := s.ctxTcid c
    let a := s.area tcid 3
    let used := s.overflowUsed tcid
    let rec_ := s.recordOf c
    if a.configured ∧ used + rec_.length ≤ 2 ^ a.log then
      some ((s.writeTier1 (Writer.of .mailbox) (a.base + used) rec_).setCtx { c.latchless with state := .parked })
    else none

/-! ### Completion (R179) -/

/-- A context's `regroup`, where its root waits at one: fragment, key, range and length. -/
def Ctx.regrouping (c : Ctx) : Option (Frag × Src × VRange × Nat) :=
  c.root?.bind fun f => f.wait.bind fun w =>
    match w.instr with
    | .regroup key r => some (f, key, r, w.len)
    | _ => none

/-- An item of the block as `regroup` moves it: its iidx, its key, its values of the moved registers, and its child launches. -/
structure Moved where
  iidx : Nat
  key : Nat
  words : List W32
  kids : List Nat

def State.movedOf (s : State) (b : Block) (range : VRange) (c : Ctx) : List Moved :=
  match c.regrouping with
  | none => []
  | some (f, key, _, _) =>
    let V := viewOf c b f s.freeCtr
    let k := V.src false key
    (Lanes.list f.mask V.n).map fun i =>
      { iidx := c.iidx i, key := bitsN (k.at i).toNat 0 6, words := (rangeRegs range).map fun r => V.word r i
        kids := (c.children.filter fun x => x.1 == i).map fun x => x.2 }

/-- The groups in ascending key, each in ascending item index. -/
def groupsOf (l : List Moved) : List (List Moved) :=
  let l := sortOn (fun m => m.iidx) l
  ((List.range 64).map fun k => l.filter fun m => m.key == k).filter fun g => !g.isEmpty

/-- What has been laid out so far: the state, positions, strips and contexts before the next group, and whether all that did not fit has
been parked. -/
structure Layout where
  s : State
  pos : Nat
  strips : Nat
  n : Nat
  ok : Bool

/-- Registers of a new context: the lead's k registers, `fmt` and return stack; predicates false; the moved registers MAT. -/
def groupRegs (lead : Regs) (range : VRange) : Regs :=
  { k := lead.k, fmt := lead.fmt, preds := Vector.replicate 16 (.uni false), vtags := (rangeRegs range).map fun r => (r, .mat)
    latches := noLatches, shifts := 0, kw := 0, rstack := lead.rstack }

/-- One group becomes a context, resident where its partition has room, else parked. -/
def Layout.add (b : Block) (l : Launch) (lead : Regs) (range : VRange) (pc : VAddr) (hold : Nat) (x : Layout) (g : List Moved) : Layout :=
  let s := x.s
  let p := (b.part0 + x.n) % 16
  let strips := (g.length + 63) / 64
  let need : PartNeed := { off := 0, ctxs := 1, entries := 1, regs := l.hdr.vregs, tiles := tileCount l.hdr.stripTiles }
  let fits := s.partFits b.core p need
  let live := Lanes.below g.length
  let root := { rootFrag ((s.freshEntries b.core p 1).headD 0) (strips - 1) pc live (groupRegs lead range) s.cycle with hold := hold, view := Horizon.upTo s.lastWrite }
  let c := freshCtx s.nextId b.id b.core p ((s.freeSlots b.core p).headD 0) strips x.strips (b.index * b.size) (some (Lanes.ofList (g.map fun m => m.iidx))) x.pos live root
  let mat := (rangeRegs range).zipIdx.map fun r => (r.1, g.map fun m => m.words.getD r.2 0)
  let kids := g.zipIdx.flatMap fun m => m.1.kids.map fun k => (m.2, k)
  let r : FragRef := ⟨s.nextId, 0⟩
  let s : State := { s with nextId := s.nextId + 1, ctxs := s.ctxs ++ [{ c with mat := mat, children := kids, preempt := if l.preempting then some s.cycle else none }] }
  let s := s.openRegion r pc (some (0, 0))
  let out := if fits then (s.startCtx r.ctx, true)
    else
      match (s.updCtx r.ctx fun c => { c with state := .left }).parkCtx r.ctx with
      | some s => (s, true)
      | none => (s, false)
  { s := out.1, pos := x.pos + g.length, strips := x.strips + strips, n := x.n + 1, ok := x.ok && out.2 }

/-- A source context leaves: what it has staged is committed, its counters and outcomes join the block's. -/
def State.leaveSource (s : State) (c : Ctx) : State :=
  let s := match c.regrouping with
    | some x => s.commitFrag c x.1
    | none => s
  let s := s.departCtx c
  { s with ctxs := s.ctxs.filter fun x => x.id != c.id }

/-- The sources of a `regroup`: every context of the block that still has items. -/
def State.sourcesOf (s : State) (block : Nat) : List Ctx :=
  (s.ctxsOf block).filter fun c => c.state != .left && c.live != 0

/-- The nesting-overflow fault of every item of the block, with address 1 (R180, R382). -/
def State.regroupFault (s : State) (c : Ctx) : State :=
  match c.regrouping with
  | none => s
  | some x =>
    let r : FragRef := ⟨c.id, x.1.id⟩
    (s.updFrag r fun f => { f with wait := none }).faultItems r 7 x.1.mask 0 fun _ => 1

/-- `REGROUP_COMPLETION`: every item of the block has executed it and the counters of its contexts read zero. The strips of the sources are gone
with their tile instances, and those of the new contexts read zero (R180, R313). -/
def execRegroupCompletion (block : Nat) (s : State) : Out :=
  match s.block? block with
  | none => .fault .notEnabled
  | some b =>
    let src := s.sourcesOf block
    match s.launch? b.launch, sortOn (fun c => c.iidx ((Lanes.lowest c.live).getD 0)) src with
    | some l, lead :: _ =>
      match lead.regrouping with
      | none => .fault .notEnabled
      | some (f, _, range, len) =>
        let ready := src.all fun c =>
          c.regrouping.isSome && c.state == .resident && !c.stopping && !c.halted && c.counters.toList.all fun n => n == 0
        let moved := src.flatMap (s.movedOf b range)
        let hold := s.cycle + 2 * (rangeRegs range).length * b.strips
        let s1 := src.foldl State.leaveSource s
        let s1 := s1.updBlock block fun b =>
          { b with spill := b.spill ++ List.replicate (80 - b.spill.length) [], tiles := b.tiles.filter fun t => t.strip.isNone }
        let x := (groupsOf moved).foldl (Layout.add b l f.regs range (f.pc + BitVec.ofNat 58 len) hold)
          { s := s1, pos := 0, strips := 0, n := 0, ok := true }
        event (ready && l.halted.isNone) (if x.ok then x.s else src.foldl State.regroupFault s)
    | _, _ => .fault .notEnabled

/-! ### Residency (R180) -/

/-- The context waits only at `bar`, `await`, `wchild`, `fwr` or `frd`. -/
def Ctx.waitsForOthers (c : Ctx) : Bool :=
  let here (f : Frag) : Bool :=
    f.waitsFor .await || f.waitsFor .wchild || f.waitsFor .fullEmpty || (List.range 16).any fun n => f.waitsFor (.bar n)
  (c.leaves.any here) && c.leaves.all fun f => here f || f.state == .arrived

/-- Parked contexts of a partition in ascending key, those that only wait for other items last. -/
def State.parkedAt (s : State) (core part : Nat) : List Ctx :=
  let l := sortOn (fun c => c.id) (s.ctxs.filter fun c =>
    c.core == core && c.part == part && c.state == .parked && ((s.block? c.block).map fun b => !b.saved).getD false)
  (l.filter fun c => !c.waitsForOthers) ++ l.filter fun c => c.waitsForOthers

/-- A parked context of the block that waits for no other item. -/
def State.parkedIn (s : State) (block : Nat) : Bool := (s.ctxsOf block).any fun c => c.state == .parked && !c.waitsForOthers

def State.ctxFits (s : State) (c : Ctx) : Bool :=
  let h := (s.launchOfCtx? c).map fun l => l.hdr
  s.partFits c.core 0
    { off := c.part, ctxs := 1, entries := (c.frags.filter fun f => f.entryParked.isNone).length
      regs := (h.map fun h => h.vregs).getD 0, tiles := (h.map fun h => tileCount h.stripTiles).getD 0 }

/-- A parked context takes a slot and entries of its partition, and starts its pass (R70, R180). -/
def State.makeResident (s : State) (c : Ctx) : State :=
  let y := c.renumber (s.freshEntries c.core c.part c.frags.length)
  let unreserved (f : Frag) : Frag := { f with reserved := none }
  let c : Ctx := { y with state := .resident, slot := (s.freeSlots c.core c.part).headD 0, frags := y.frags.map unreserved }
  (s.setCtx (c.fromNow s.cycle)).startCtx c.id

/-- `REGROUP_CONTEXT_RESIDENT` of a parked context (R180): it becomes resident where it is the first of its partition and has room; one that
waits for other items does so only when no other of its block is parked. While it is parked and does not wait, the resident contexts of its
block that wait are parked too, in ascending key. -/
def execRegroupContextResident (ctx : Nat) (s : State) : Out :=
  match s.ctx? ctx with
  | none => .fault .notEnabled
  | some c =>
    let first := ((s.parkedAt c.core c.part).head?.map fun x => x.id) == some ctx
    if first && s.ctxFits c && !(c.waitsForOthers && s.parkedIn c.block) then .next (s.makeResident c)
    else if c.state != .parked || c.waitsForOthers then .fault .notEnabled
    else
      let here := sortOn (fun x => x.id) ((s.ctxsOf c.block).filter fun x => x.state == .resident && x.waitsForOthers)
      match here.findSome? fun x => s.parkCtx x.id with
      | none => .fault .notEnabled
      | some s => .next s

/-! ### Fragments without an entry (R171) -/

/-- Fragments of a partition's resident contexts. -/
def State.fragsAt (s : State) (core part : Nat) : List (Ctx × Frag) :=
  (s.ctxs.filter fun c => c.core == core && c.part == part && c.state == .resident).flatMap fun c => c.frags.map fun f => (c, f)

/-- An arrived fragment's entry fits on the spill stack of its first strip. -/
def State.entryFits (s : State) (c : Ctx) (f : Frag) : Bool :=
  match s.block? c.block with
  | none => false
  | some b =>
    let S := ((s.launch? b.launch).map fun l => l.hdr.spill).getD 0
    decide (b.spillUsed (c.firstStrip + f.first) + c.parkedBytes f.first + 32 + 8 * (f.last + 1 - f.first) ≤ S)

/-- The fragment could issue if it had an entry. -/
def Frag.entryReady (f : Frag) : Bool := f.state == .running && !f.hasChildren && f.wait.isNone

/-- Fragments that give up their entry for a ready one, the one to be taken first: the oldest arrived, then the oldest of those that wait for
their children or for other items and are no root. -/
def State.entryGivers (s : State) (all : List (Ctx × Frag)) : List (Ctx × Frag) :=
  let held := sortOn (fun x => x.2.lastIssue) (all.filter fun x => x.2.entryParked.isNone && s.entryFits x.1 x.2)
  (held.filter fun x => x.2.state == .arrived) ++
    held.filter fun x => x.2.state == .running && x.2.parent.isSome && (x.2.hasChildren || !x.2.stands)

/-- `FRAGMENT_UNPARK`: in parking order, into a free entry, or into that of a fragment that waits (R171, R187). -/
def execFragmentUnpark (r : FragRef) (s : State) : Out :=
  match s.ctx? r.ctx, s.frag? r with
  | some c, some f =>
    let all := s.fragsAt c.core c.part
    let order (x : Frag) : Nat := x.entryParked.getD (2 ^ 80)
    let take (n : Nat) (s : State) : State := s.updFrag r fun f => { f with entryParked := none, entry := n, lastIssue := s.cycle }
    if f.entryParked.isNone || c.state != .resident then .fault .notEnabled
    else if 0 < s.freeEntries c.core c.part then event (all.all fun x => decide (order f ≤ order x.2)) (take ((s.freshEntries c.core c.part 1).headD 0) s)
    else
      match s.entryGivers all with
      | [] => .fault .notEnabled
      | x :: _ =>
        event (f.entryReady && all.all fun y => decide (order f ≤ order y.2) || !y.2.entryReady)
          (take x.2.entry ({ s with nextId := s.nextId + 1 }.updFrag ⟨x.1.id, x.2.id⟩ fun g =>
            { g with entryParked := some s.nextId, regs := { g.regs with latches := noLatches } }))
  | _, _ => .fault .notEnabled

/-! ### Strips that a capacity cut parked (R70) -/

/-- Strips of a parked fragment that have room: a reservation for its first strip as R69 and R71 ask it, which is that of the context where
nothing else of the context runs, and the storage and slots of the others (R70). -/
def State.stripRoom (s : State) (c : Ctx) (f : Frag) : Nat :=
  let vregs := ((s.launchOfCtx? c).map fun l => l.hdr.vregs).getD 0
  let tiles := ((s.launchOfCtx? c).map fun l => tileCount l.hdr.stripTiles).getD 0
  let alone := !c.leaves.any fun g => g.stands
  let regs := s.regsTaken c.core c.part + if alone then 0 else vregs
  let slots := s.tilesTaken c.core c.part + if alone then 0 else tiles
  if !alone && (decide (384 < regs) || decide (8 < slots)) then 0
  else 1 + min (if f.mats = 0 then 15 else (384 - regs) / f.mats) (if tiles = 0 then 15 else (8 - slots) / tiles)

/-- `CONTEXT_RESUMPTION`: as many leading strips of the parked fragment as fit are in the pass again, with a reservation of their own where
something else of the context runs (R69, R70). -/
def execContextResumption (r : FragRef) (s : State) : Out :=
  match s.ctx? r.ctx, s.frag? r with
  | some c, some f =>
    let n := s.stripRoom c f
    let reserved := if c.leaves.any fun g => g.stands then some f.id else none
    let s' := s.updFrag r fun f => { f with state := .running, reserved := reserved, lastIssue := s.cycle }
    event (f.state == .parked && f.park.isNone && !f.hasChildren && f.entryParked.isNone && c.state == .resident && decide (0 < n))
      (if f.last + 1 ≤ f.first + n then s' else s'.cutAt r (f.first + n))
  | _, _ => .fault .notEnabled

end Sys2Proof.Machine
end

