-- ==== Sys2Proof/Machine/Issue.lean ====
section
/-! DEFINITION. Time and issue: instruction fetch (R34, R134), the choice of a fragment for each slot (R360, R361), the stall counters (R408),
the tick (R2, R407), samples (R413), and the completion of waits at `fwr`, `frd`, `shmap`, `wchild`, `launch`, `tlbi` and `pmap`. -/

namespace Sys2Proof.Machine

open Sys2Proof

/-! ### Code at a pc (R210, R360) -/

/-- Words of code from an address, n of them, or the first line that is not in the cache. -/
def State.codeWords (s : State) (core tcid : Nat) : Nat → VAddr → Except VAddr (List W32)
  | 0, _ => .ok []
  | n + 1, a =>
    match s.codeWord core tcid a with
    | none => .error (lineOf a)
    | some w =>
      match State.codeWords s core tcid n (a + 4) with
      | .ok ws => .ok (w :: ws)
      | .error l => .error l

/-- The words of the instruction at a pc: two, or three with a leading word. DESIGN CHOICE (log 124): a line that the cache holds is fetched as it
is held, until `cinv`, a launch's start or replacement; without the sequence of R134 each fetch might give old or new (R135). -/
def State.fetchCode (s : State) (core tcid : Nat) (pc : VAddr) : Except VAddr (List W32) :=
  match s.codeWords core tcid 2 pc with
  | .error l => .error l
  | .ok ws => if isLead (ws.headD 0) && !isLead (ws.getD 1 0) then s.codeWords core tcid 3 pc else .ok ws

/-- Opcode of the base word. -/
def opcodeOf (ws : List W32) : Nat :=
  let w := if isLead (ws.headD 0) then ws.getD 1 0 else ws.headD 0
  w.toNat % 256

/-- The instruction issues from slot L (R360). -/
def slotLOf (ws : List W32) : Bool :=
  let o := opcodeOf ws
  (decide (0x30 ≤ o) && decide (o ≤ 0x67)) || (decide (0x70 ≤ o) && decide (o ≤ 0x9A))

/-! ### Candidates (R360, R361) -/

/-- A fragment that could issue in this cycle, with its code or the line that it lacks. -/
structure Cand where
  r : FragRef
  slot : Nat
  entry : Nat
  last : Nat
  late : Bool
  code : Except VAddr (List W32)

def Frag.canIssue (cycle : Nat) (f : Frag) : Bool :=
  f.state == .running && !f.hasChildren && f.wait.isNone && f.entryParked.isNone && decide (f.hold ≤ cycle) &&
    decide (f.busy ≤ cycle) && f.mask != 0

/-- Within the ticks after its `yield`, or demoted: considered after every other (R361). -/
def Frag.late (cycle : Nat) (f : Frag) : Bool := (f.yieldUntil != 0 && decide (cycle ≤ f.yieldUntil)) || f.spin.demoted

/-- A demoted fragment issues at most once in 256 ticks (R188). -/
def Frag.spun (cycle : Nat) (f : Frag) : Bool := f.spin.demoted && decide (cycle < f.lastIssue + Config.demotedTicks)

/-- A context whose fragments may issue. -/
def State.mayIssue (s : State) (c : Ctx) : Bool :=
  c.state == .resident && !c.halted && !c.stopping &&
    match s.block? c.block with
    | none => false
    | some b => b.placed && !b.saved && ((s.launch? b.launch).map fun l => !s.stoppedByHalt l).getD false

def State.ready (s : State) (p : PartRef) : List Cand :=
  (s.ctxs.filter fun c => c.core == p.core && c.part == p.part && s.mayIssue c).flatMap fun c =>
    let tcid := s.ctxTcid c
    (c.frags.filter fun f => f.canIssue s.cycle && decide (f.lastIssue < s.cycle) && !f.spun s.cycle).map fun f =>
      { r := ⟨c.id, f.id⟩, slot := c.slot, entry := f.entry, last := f.lastIssue, late := f.late s.cycle, code := s.fetchCode c.core tcid f.pc }

def Cand.missing (x : Cand) : Option VAddr :=
  match x.code with
  | .error l => some l
  | .ok _ => none

def Cand.inSlot (x : Cand) (L : Bool) : Bool :=
  match x.code with
  | .error _ => false
  | .ok ws => slotLOf ws == L

/-- The longest waiting of a list: by last issue, context slot and entry number. -/
def pickOf (l : List Cand) : Option Cand :=
  (sortOn (fun x => (x.last * 16 + x.slot) * 64 + x.entry) l).head?

/-- The choice for a slot. -/
def choose (l : List Cand) (L : Bool) : Option FragRef :=
  let mine := l.filter fun x => x.inSlot L
  ((pickOf (mine.filter fun x => !x.late)).or (pickOf mine)).map fun x => x.r

/-- A slot is free: nothing has been issued from it in this cycle, and no multi-tick instruction holds it. -/
def Part.openSlot (p : Part) (cycle : Nat) (L : Bool) : Bool := decide ((if L then p.busyL else p.busyC) ≤ cycle)

/-- An instruction was issued from a slot in this cycle. -/
def Part.issuedNow (p : Part) (cycle : Nat) (L : Bool) : Bool := (if L then p.sinceL else p.sinceC) == cycle + 1

/-- A fragment whose code is not in the instruction cache waits for the line. -/
def State.waitLine (s : State) (r : FragRef) (l : VAddr) : State :=
  { s with nextId := s.nextId + 1 }.updFrag r fun f =>
    { f with wait := some { reason := 0, what := .fetch l, instr := .nop ⟨0, false⟩, len := 0, stamp := s.nextId } }

/-- Arbitration of a partition, where there is anything to choose. A fragment chosen that proves not ready waits, and its slot chooses again. -/
def State.arbitrate (s : State) (p : PartRef) : Option State :=
  let q := s.part p.core p.part
  let l := s.ready p
  let missing := l.filterMap fun x => x.missing.map fun a => (x.r, a)
  let gC := if q.openSlot s.cycle false then choose l false else none
  let gL := if q.openSlot s.cycle true then choose l true else none
  if missing.isEmpty && gC.isNone && gL.isNone then none
  else some { missing.foldl (fun s x => s.waitLine x.1 x.2) s with picks := gC.toList ++ gL.toList }

/-- `ISSUE_ARBITRATION`. -/
def execIssueArbitration (p : PartRef) (s : State) : Out :=
  match s.picks, s.arbitrate p with
  | [], some s => .next s
  | _, _ => .fault .notEnabled

/-- A fragment whose next instruction may wait for a load's data, and whose slot has not been looked at in this cycle: whether it waits is found
before the tick is counted (R408). -/
def State.toLook (s : State) : Option FragRef :=
  (s.ctxs.filter s.mayIssue).findSome? fun c =>
    (c.frags.find? fun f => !f.loads.isEmpty && f.canIssue s.cycle && decide (f.looked ≤ s.cycle)).map fun f => ⟨c.id, f.id⟩

/-- `YIELD_EXPIRY` (R248). -/
def execYieldExpiry (r : FragRef) (s : State) : Out :=
  match s.frag? r with
  | none => .fault .notEnabled
  | some f => event (f.yieldUntil != 0 && decide (f.yieldUntil < s.cycle)) (s.updFrag r fun f => { f with yieldUntil := 0 })

/-- Partitions with a resident context. -/
def State.busyParts (s : State) : List PartRef :=
  ((s.ctxs.filter fun c => c.state == .resident).map fun c => (⟨c.core, c.part⟩ : PartRef)).eraseDups

/-! ### Instruction fetch (R34) -/

/-- Fragments that wait for a line. -/
def State.fetching (s : State) (core tcid : Nat) (line : VAddr) : List FragRef :=
  (s.ctxs.filter fun c => c.core == core && s.ctxTcid c == tcid).flatMap fun c =>
    (c.frags.filter fun f => f.waitsFor (.fetch line)).map fun f => ⟨c.id, f.id⟩

def icacheLines : Nat := 2048

def State.stopFetch (s : State) (r : FragRef) : State := s.updFrag r fun f => { f with wait := none }

/-- The words of a fetch line with the last write that its fetch saw to each. -/
def lineWords (tier phys : Nat) (seen : List (MemSpace × Nat × Nat)) : List (MemSpace × Nat × Nat) :=
  match tierSpace tier with
  | some m => (wordsAt phys 64).map fun x => (m, x, ((seen.find? fun y => y.2.1 == x).map fun y => y.2.2).getD 0)
  | none => []

/-- The line is in the cache. -/
def State.takeCode (s : State) (core tcid : Nat) (line : VAddr) (bs : List Byte) (words : List (MemSpace × Nat × Nat)) (rs : List FragRef) : State :=
  let x : ILine := { tcid := tcid, line := line, bytes := bs, gen := s.codeGen, words := words }
  let s := s.updCore core fun c =>
    { c with icache := List.take icacheLines (x :: c.icache.filter fun y => !(y.tcid == tcid && y.line == line)) }
  rs.foldl State.stopFetch s

/-- The fetch fails on every active item of a fragment. -/
def State.fetchFault (tcid : Nat) (va : W64) (t : TFault) (s : State) (r : FragRef) : State :=
  match s.ctx? r.ctx, (s.stopFetch r).frag? r with
  | some c, some f =>
    let items := f.items c
    let faults := items.map fun p => ({ pos := p, va := va.toNat, fault := t, tcid := tcid, own := true, handle := 0 } : ItemFault)
    ((s.stopFetch r).routeFaults r 2 false 0 (items.map fun p => (p, va.toNat)) faults).1
  | _, _ => s

/-- Uncorrectable data in a line that is fetched. -/
def State.fetchDamage (tier u : Nat) (s : State) (r : FragRef) : State :=
  match s.frag? r with
  | none => s
  | some f => (s.stopFetch r).machineCheck r f.mask (6 + tier) (64 * u)

/-- `INSTRUCTION_FETCH`: the line is read at once, as it was at some moment that the core's fetches may still see (R106, R135). -/
def execInstructionFetch (core tcid : Nat) (line : VAddr) (s : State) : Out :=
  let rs := s.fetching core tcid line
  let va : W64 := line.setWidth 64
  if rs.isEmpty then .fault .notEnabled
  else
    match s.translate core tcid va (.fetch line) with
    | .miss s' => event (s'.walks != s.walks) s'
    | .fault s t => .next (rs.foldl (State.fetchFault tcid va t) s)
    | .ok leaf phys =>
      if !fetchable leaf then .next (rs.foldl (State.fetchFault tcid va .protection) s)
      else if s.badRead (leafTier leaf) phys 64 then .next (rs.foldl (State.fetchDamage (leafTier leaf) (phys / 64)) s)
      else
        let v := (s.core core).code.join (s.tlbView core tcid va)
        let x := s.readPhysAt v (leafTier leaf) phys 64 0
        .next ({ s with freeCtr := s.freeCtr + 1 }.takeCode core tcid line x.1 (lineWords (leafTier leaf) phys x.2.seen) rs)

/-! ### Walks and first touches (R48, R58) -/

/-- An `rfill` meets a fault at a line that it has to touch again, since it was discarded after the issue: it ends there. DEDUCED (log 138): as a
command does at a fault in a later chunk (R60). -/
def State.lateFill (va : Nat) (s : State) (c : Cmd) : State :=
  (s.updCmd c.id fun c => { c with fault := true, waiting := [] }).retireItems c (2 ^ 62 + va % 2 ^ 62)

/-- The `rfill` commands that wait for a line end with a fault. -/
def State.lateFills (s : State) (l : LineRef) (e : RegionEnt) : State :=
  (s.cmds.filter fun c => c.fills l.die l.slot l.line).foldl (State.lateFill (e.lineVa l.line).toNat) s

/-- A first touch has failed: the accesses that asked for it take its fault. -/
def State.touchFault (s : State) (l : LineRef) (e : RegionEnt) (f : TFault) : State :=
  (s.lateFills l e).lineAnswer l.die l.slot l.line (some f)

/-- `LINE_FIRST_TOUCH` (R58): the line is translated under the TCID that owns its region. -/
def execLineFirstTouch (l : LineRef) (s : State) : Out :=
  let d := s.die l.die
  match d.lineReqs.find? fun q => q.slot == l.slot && q.line == l.line, s.regionAt? l.die l.slot with
  | some q, some e =>
    if (d.line? l.slot l.line).isSome || decide (Config.lineTranslations ≤ d.lines.length) || !e.backed then .fault .notEnabled
    else
      match s.translate q.core e.tcid (e.lineVa l.line) (.line l) with
      | .miss s' => event (s'.walks != s.walks) s'
      | .fault s f => .next (s.touchFault l e f)
      | .ok leaf phys =>
        if 1 < leafTier leaf then .next (s.touchFault l e .protection)
        else
          let x : Line := { slot := l.slot, line := l.line, leaf := leaf, phys := phys, view := s.tlbView q.core e.tcid (e.lineVa l.line)
                            v := 0, d := 0, poison := 0, used := s.cycle }
          let s := s.updDie l.die fun d => d.setLine x
          if q.fill && leafRd leaf then .next s.wakeRetry
          else .next ((s.lateFills l e).lineAnswer l.die l.slot l.line none)
  | _, _ => .fault .notEnabled

/-- A walk that failed, for one that waits for it: a fetch and a first touch take the fault at once, a `launch` when it is issued again. -/
def State.walkAnswer (w : Walk) (f : TFault) (s : State) : Asker → State
  | .fetch line => (s.fetching w.core w.tcid line).foldl (State.fetchFault w.tcid (line.setWidth 64) f) s
  | .line l =>
    match s.regionAt? l.die l.slot with
    | some e =>
      if e.tcid == w.tcid && (e.lineVa l.line).toNat / 2 ^ 14 == w.va.toNat / 2 ^ 14 && ((s.die l.die).line? l.slot l.line).isNone &&
          (s.die l.die).lineReqs.any fun q => q.slot == l.slot && q.line == l.line then
        s.touchFault l e f
      else s
    | none => s
  | .frag r =>
    if ((s.frag? r).map fun x => x.asks.contains (pageAsk w.va)).getD false then
      { s with walkFaults := s.walkFaults ++ [⟨r, w.va.toNat / 2 ^ 14, f⟩] }
    else s

/-- A walk reaches its outcome: an entry in the TLB, or a fault for those that wait for it; none is kept for another (R51). -/
def State.walkDone (s : State) (w : Walk) : State :=
  let s := { s with walks := s.walks.filter fun x => x.id != w.id }
  let out := s.walk (dieOfCore w.core) w.tcid w.va
  match out.2 with
  | .ok leaf => (out.1.tlbInstall w.core w.tcid w.va leaf).wakeRetry
  | .error f => (w.askers.foldl (State.walkAnswer w f) out.1).wakeRetry

/-- `TABLE_WALK_COMPLETE` (R48). -/
def execTableWalkComplete (n : Nat) (s : State) : Out :=
  match s.walks.find? fun w => w.id == n with
  | some w => .next (s.walkDone w)
  | none => .fault .notEnabled

/-! ### Stall reasons (R408) -/

/-- Reasons that hold for a fragment in this cycle. The last ticks of a held slot may be waits for a bank (R76). -/
def State.reasons (s : State) (c : Ctx) (f : Frag) : List Nat :=
  let also := (if f.spin.demoted then [12] else []) ++ (if f.trapWait then [11] else []) ++ (if s.cycle < f.hold then [14] else [])
  if f.hasChildren || f.state == .arrived || f.state == .exited then []
  else if f.park.isSome then [11]
  else if f.entryParked.isSome || f.state == .parked then [15]
  else
    match f.wait with
    | some w => w.reason :: also
    | none =>
      if s.cycle < f.hold then also
      else if s.cycle < f.busy then (if f.busy ≤ s.cycle + f.bank then 2 else 3) :: also
      else
        match s.fetchCode c.core (s.ctxTcid c) f.pc with
        | .error _ => 0 :: also
        | .ok ws =>
          let p := s.part c.core c.part
          let L := slotLOf ws
          let busy := decide (s.cycle < if L then p.busyL else p.busyC)
          (if busy && !p.issuedNow s.cycle L then 3 else 13) :: also

/-- The counter that a context's tick counts under: the lowest reason of its fragments. -/
def State.stallOf (s : State) (c : Ctx) : Nat :=
  if c.state != .resident || c.stopping || c.halted then 15
  else (c.frags.flatMap (s.reasons c)).foldl min 15

/-- A context's tick is counted: it holds a slot, or `regroup` has parked it (R180). -/
def State.counts (s : State) (c : Ctx) : Bool :=
  (c.state == .resident || c.state == .parked) && ((s.block? c.block).map fun b => b.placed && !b.saved).getD false

def State.countStall (s : State) (c : Ctx) : Ctx :=
  let c' := { c with issued := false }
  if !s.counts c || c.issued then c'
  else
    let n : Fin 16 := Fin.ofNat 16 (s.stallOf c)
    { c' with stalls := c.stalls.set n ((c.stalls[n] + 1) % 2 ^ 64) }

/-! ### The tick (R2, R407) -/

/-- The clearing engine of a core makes progress (R12). -/
def State.clearTick (s : State) (core : Nat) : State :=
  match s.clearing core with
  | none => s
  | some b => s.updBlock b.id fun b => { b with toClear := b.toClear - Config.clearBytes }

/-- The end of a core cycle: the stalls are counted, the clearing engines go on, and the operand collectors whose sources have arrived
release them (R184). -/
def State.coreTick (s : State) : State :=
  let s : State := { s with ctxs := s.ctxs.map s.countStall }
  let s := ((s.blocks.filter fun b => !b.placed).map fun b => b.core).eraseDups.foldl State.clearTick s
  { s with cycle := s.cycle + 1 }.release

/-- Sixteenths of a core cycle in one Equinox tick: 16 at 850 MHz, 8 in the Thaw service, one less for each step of 53.125 MHz (R420,
R424). -/
def State.rate (s : State) : Nat := (if s.mgmt.thaw then 8 else 16) - s.mgmt.powerSteps

/-- An Equinox tick passes; what a launch halted in it has still done is discarded first (R262). -/
def State.tickOn (s : State) : State :=
  let n := s.frac + s.rate
  let s := s.haltAgain
  let s := if 16 ≤ n then s.coreTick else s
  { s with tick := s.tick + 1, frac := if 16 ≤ n then n - 16 else n }

/-! ### Samples (R413) -/

/-- Contexts of a partition to be sampled in this tick. -/
def State.samples (s : State) (p : PartRef) : List Ctx :=
  s.ctxs.filter fun c =>
    let n := (s.area (s.ctxTcid c) 2).sampleShift
    c.core == p.core && c.part == p.part && c.state == .resident && n != 0 && s.tick % 2 ^ n == 0 && c.slot == s.tick / 2 ^ n % 16

def State.sampleDue (s : State) (p : PartRef) : Bool :=
  decide ((s.part p.core p.part).sampled ≤ s.tick) && !(s.samples p).isEmpty

/-- The fragment sampled: the one that issued, slot C before L, else that of the lowest entry. -/
def State.sampled (s : State) (p : PartRef) (c : Ctx) : Option Frag :=
  let q := s.part p.core p.part
  let mine (L : Bool) : Option Frag := (if L then q.issL else q.issC).bind fun r =>
    if q.issuedNow s.cycle L && r.ctx == c.id then c.frag? r.frag else none
  ((mine false).or (mine true)).or c.entries.head?

def State.sample (p : PartRef) (s : State) (c : Ctx) : State :=
  match s.block? c.block, s.sampled p c with
  | some b, some f =>
    let tcid := s.ctxTcid c
    let what := if c.issued then 16 else s.stallOf c
    s.trace tcid [traceHead 4 1 0 tcid 0, BitVec.ofNat 64 s.tick, BitVec.ofNat 64 b.launch, f.pc.setWidth 64, BitVec.ofNat 64 b.index,
      BitVec.ofNat 64 (c.core * 2 ^ 24 + c.part * 2 ^ 20 + c.slot * 2 ^ 16 + Lanes.count f.mask % 256 * 2 ^ 8 + what)]
  | _, _ => s

/-- `PC_SAMPLE`. -/
def execPcSample (p : PartRef) (s : State) : Out :=
  event (s.sampleDue p && s.picks.isEmpty)
    (((s.samples p).foldl (State.sample p) s).updPart p.core p.part fun q => { q with sampled := s.tick + 1 })

/-- The Solstice latch or Equinox stop is due at this boundary (R414, R415). -/
def State.boundaryDue (s : State) : Bool :=
  (s.mgmt.solstice.map fun t => decide (t ≤ s.tick)).getD false || (s.mgmt.stopAt.map fun t => decide (t ≤ s.tick)).getD false

/-- A die's firing decision is due in this cycle (R375). -/
def State.firingDue (s : State) : Bool := s.dies.toList.any fun d => decide (d.nextFiring ≤ s.cycle)

/-- `EQUINOX_TICK`: everything of this tick has been chosen, executed and sampled. -/
def execEquinoxTick (s : State) : Out :=
  event (s.picks.isEmpty && !s.boundaryDue && s.toLook.isNone && !s.firingDue && !s.busyParts.any fun p => (s.arbitrate p).isSome || s.sampleDue p) s.tickOn

/-! ### `fwr`, `frd`, `wchild`, `launch` (R255, R256, R259) -/

/-- `FULL_EMPTY_RELEASE`: the bit is as the instruction needs it, or the mapping has gone. -/
def execFullEmptyRelease (r : FragRef) (s : State) : Out :=
  match s.ctx? r.ctx, s.frag? r with
  | some c, some f =>
    let go := match f.wait.map fun w => w.instr with
      | some (.fwr d _ _) => !c.mapped d.reg.val || !c.fullBit d.reg.val
      | some (.frd _ a _) => !c.mapped a.val || c.fullBit a.val
      | _ => false
    event (f.waitsFor .fullEmpty && go) (s.updFrag r fun f => { f with wait := none })
  | _, _ => .fault .notEnabled

/-- `WCHILD_COMPLETION`. -/
def execWchildCompletion (r : FragRef) (s : State) : Out :=
  match s.ctx? r.ctx, s.frag? r with
  | some c, some f => event (f.waitsFor .wchild && (s.childrenOf c f).isEmpty) ((s.knowAll r).complete r false)
  | _, _ => .fault .notEnabled

/-- `CHILD_QUEUE_ROOM`: children of a waiting `launch` are enqueued; with the last of them it completes. -/
def execChildQueueRoom (r : FragRef) (s : State) : Out :=
  match s.frag? r with
  | none => .fault .notEnabled
  | some f =>
    let n := s.toEnqueue.length
    let s' := State.enqueueChildren n s r
    event (f.waitsFor .childQueue && (s'.toEnqueue.length != n || s.childrenDone r))
      (if s'.childrenDone r then (s'.markCommit r).complete r true else s')

/-! ### `shmap` (R186, R258) -/

/-- The fragment of a context that waits at `shmap`. -/
def Ctx.mapping (c : Ctx) : Option Frag := c.frags.find? fun f => f.waitsFor .shmap

/-- Registers of the range become MAT zero in a context. -/
def Ctx.zeroRange (c : Ctx) (regs : List Nat) : Ctx :=
  { c with
    mat := regs.foldl (fun m r => SMap.set m r (List.replicate c.width 0)) c.mat
    frags := c.frags.map fun f => { f with regs := { f.regs with vtags := regs.foldl (fun t r => SMap.set t r .mat) f.regs.vtags } } }

/-- One side of a new mapping: its own slot in kD, and the region ends. -/
def State.mapDone (s : State) (r : FragRef) : State :=
  match s.waitEnv r with
  | none => s
  | some e =>
    match e.i with
    | .shmap ⟨d, nw⟩ _ _ => e.doneEnd (e.putOpt e.s d nw (BitVec.ofNat 64 e.c.slot))
    | _ => e.doneEnd e.s

def State.mapIllegal (s : State) (r : FragRef) : State :=
  match s.waitEnv r with
  | none => s
  | some e => e.illegal

/-- The mapping of two contexts, each of which waits for the other; a pre-emption that one of them has met is that of both (R258). -/
def State.pair (s : State) (c d : Ctx) (f g : Frag) (lo hi : Nat) : State :=
  let regs := (List.range (hi + 1 - lo)).map fun i => lo + i
  let full := regs.map fun _ => false
  let both := c.preempt.or d.preempt
  let s := (s.endShMap c.id).endShMap d.id
  let map (partner : Nat) (c : Ctx) : Ctx :=
    { c.zeroRange regs with shmap := some { partner := partner, lo := lo, hi := hi, full := full, olds := [] }, shWish := none,
                             preempt := c.preempt.or both }
  let s := (s.updCtx c.id (map d.id)).updCtx d.id (map c.id)
  (s.mapDone ⟨c.id, f.id⟩).mapDone ⟨d.id, g.id⟩

/-- `SHMAP_PAIRING`. -/
def execShmapPairing (r : FragRef) (s : State) : Out :=
  match s.ctx? r.ctx, s.frag? r with
  | some c, some f =>
    match c.shWish with
    | none => .fault .notEnabled
    | some (slot, lo, hi) =>
      match s.slotCtx? c.core c.part slot with
      | none => .fault .notEnabled
      | some d =>
        match d.shWish, d.mapping with
        | some (back, lo', hi'), some g =>
          let none_ (c : Ctx) : Ctx := { c with shWish := none }
          event (f.waitsFor .shmap && back == c.slot)
            (if lo = lo' ∧ hi = hi' then s.pair c d f g lo hi
             else ((((s.mapIllegal r).mapIllegal ⟨d.id, g.id⟩).updCtx c.id none_).updCtx d.id none_))
        | _, _ => .fault .notEnabled
  | _, _ => .fault .notEnabled

/-! ### `tlbi` (R57) -/

/-- A line's translation is covered by the invalidation. -/
def TlbiReq.line (q : TlbiReq) (e : RegionEnt) (x : Line) : Bool :=
  let n := 2 ^ leafRun x.leaf
  coversPages q.form q.tcid q.va q.run e.tcid ((e.lineVa x.line).toNat / 2 ^ 14 / n * n) n

/-- A covered line reaches memory through its old translation and is discarded. -/
def State.flushLine (q : TlbiReq) (die : Nat) (s : State) (x : Line) : State :=
  match s.regionAt? die x.slot with
  | none => s
  | some e =>
    if q.line e x then
      let s := s.performAll (s.storesTo die x.slot (some x.line))
      let s := match (s.die die).line? x.slot x.line with
        | some y => s.takeLine die e y .none
        | none => s
      let s := (s.writeBacks.filter fun w => w.die == die && w.slot == x.slot && w.line == x.line).foldl State.landWriteBack s
      s.discardLine die x.slot x.line
    else s

def State.flushDie (q : TlbiReq) (s : State) (die : Nat) : State := (s.die die).lines.foldl (State.flushLine q die) s

/-- A write-back in flight through a covered translation. -/
def TlbiReq.back (q : TlbiReq) (s : State) (w : WriteBack) : Bool :=
  match s.regionAt? w.die w.slot with
  | none => true
  | some e =>
    let n := 2 ^ leafRun w.leaf
    coversPages q.form q.tcid q.va q.run e.tcid ((e.lineVa w.line).toNat / 2 ^ 14 / n * n) n

/-- A record of a deferred log was translated with a covered entry. -/
def TlbiReq.log (q : TlbiReq) (s : State) (x : Nat × LogRec) : Bool :=
  let tcid := ((s.launch? x.1).map fun l => l.tcid).getD 0
  x.2.trans.any fun t =>
    let n := 2 ^ leafRun t.2
    coversPages q.form q.tcid q.va q.run tcid (t.1 / n * n) n

/-- The commands that were committed before the invalidation have been carried out. -/
def State.beatsDone (s : State) (q : TlbiReq) : Bool :=
  !(q.cmds.any fun n => s.cmds.any fun c => c.id == n && !c.complete) && !s.log.any (q.log s)

/-- Who waits for the invalidation learns that it is complete. -/
def State.tlbiAnswer (s : State) (q : TlbiReq) : State :=
  match q.waiter with
  | some r =>
    match s.frag? r with
    | some f => if f.waitsFor (.tlbi q.id) then s.complete r false else s
    | none => s
  | none =>
    match s.mbox.busy with
    | .invalidate n tcid tag =>
      if n = q.id then
        { s with mbox := { s.mbox.next with busy := .none } }.post
          { w0 := noticeW0 2 0 tcid tag.toNat, w1 := 0, w2 := 0, w3 := 0 }
      else s
    | .none => s

/-- `TLBI_COMPLETION`. -/
def execTlbiCompletion (n : Nat) (s : State) : Out :=
  match s.tlbis.find? fun q => q.id == n with
  | none => .fault .notEnabled
  | some q =>
    let s' := (List.range 4).foldl (State.flushDie q) s
    let s' := (s'.writeBacks.filter (q.back s)).foldl State.landWriteBack s'
    let s' := s'.dropTranslations q.form q.tcid q.va q.run
    let s' : State := { s' with tlbis := s'.tlbis.filter fun x => x.id != n }
    event (s.beatsDone q) ((s'.tlbiAnswer q).wakeRetry)

/-! ### `pmap` (R65, R67) -/

/-- What a `pmap` answers, that the pool is empty, or that it has taken a frame and its leaf is to be replaced. -/
inductive Pmap where
  | word (x : Nat)
  | empty
  | taken (s : State)

/-- Levels 0 to 2 of the walk: the level-3 table, or the refusal. -/
def State.pmapTable (s : State) (va : W64) : Nat → Nat → Except Nat Nat
  | 0, base => .ok base
  | n + 1, base =>
    let e := s.tier1.readW64 (base + 8 * bitsN va.toNat (levelShift (2 - n)) 11)
    if !leafValid e then .error (3 * 2)
    else if ptrReserved e || leafKind e || decide (s.tier1Limit ≤ ptrNext e) then .error (4 * 2)
    else State.pmapTable s va n (ptrNext e)

/-- 16 KiB of zeros at a frame. -/
def State.zeroFrame (s : State) (a : Nat) : State :=
  { s.anew .tier1 a (2 ^ 14) with tier1 := s.tier1.zero a (2 ^ 14), poison1 := s.poison1.filter fun u => !(decide (a ≤ 64 * u) && decide (64 * u < a + 2 ^ 14)) }

/-- A page of the pool is taken and zeroed for a leaf. -/
def State.takeFrame (s : State) (who : FragRef) (seq tcid at_ : Nat) (leaf : W64) : Pmap :=
  let tc := s.tcid tcid
  let head := s.tier1.readW64 tc.poolAddr
  let ring := (s.tier1.readW64 (tc.poolAddr + 16)).toNat
  let order := bitsN (s.tier1.readW64 (tc.poolAddr + 24)).toNat 0 5
  let reached := decide (tc.poolAddr + 64 ≤ s.tier1Limit) && decide (ring + 8 * 2 ^ order ≤ s.tier1Limit)
  if !tc.poolOn || !reached || head == s.tier1.readW64 (tc.poolAddr + 8) then .empty
  else
    let pfn := bitsN (s.tier1.readW64 (ring + 8 * (head.toNat % 2 ^ order))).toNat 0 38
    let new := BitVec.ofNat 64 (3 + bitsN leaf.toNat 2 8 * 4 + pfn * 2 ^ 10 + tc.tenant * 2 ^ 50)
    let q : PmapReq := { who := who, seq := seq, tcid := tcid, leafAt := at_, old := leaf, new := new }
    let s := s.writeTier1W64 tc.poolAddr (head + 1)
    let s := if decide (pfn * 2 ^ 14 + 2 ^ 14 ≤ s.tier1Limit) then s.zeroFrame (pfn * 2 ^ 14) else s
    .taken { s with pmapping := some q }

def State.pmap (s : State) (who : FragRef) (seq tcid : Nat) (va : W64) : Pmap :=
  let tc := s.tcid tcid
  if !tc.valid then .word (5 * 2)
  else if bitsN va.toNat 58 6 ≠ 0 ∨ s.tier1Limit ≤ tc.root then .word (4 * 2)
  else
    match s.pmapTable va 3 tc.root with
    | .error x => .word x
    | .ok base =>
      let at_ := base + 8 * bitsN va.toNat 14 11
      let leaf := s.tier1.readW64 at_
      if leafValid leaf then .word leaf.toNat
      else if leafReserved leaf || !leafKind leaf then .word (4 * 2)
      else if !leafFp leaf then .word (2 * 2)
      else s.takeFrame who seq tcid at_ leaf

/-- The final step of a `pmap` (R67): the leaf is replaced where it still holds its old value; else the frame goes back to the pool, and the
answer is the leaf now, or that it is malformed. The low-water notice follows where it is due. -/
def State.pmapEnd (s : State) (q : PmapReq) : State × W64 :=
  let pool := (s.tcid q.tcid).poolAddr
  let leaf := s.tier1.readW64 q.leafAt
  let out : State × W64 :=
    if leaf = q.old then (s.writeTier1W64 q.leafAt q.new, q.new)
    else (s.writeTier1W64 pool (s.tier1.readW64 pool - 1), if leafValid leaf then leaf else 4 * 2)
  let s : State := { out.1 with pmapping := none }
  let low := (s.tier1.readW64 (pool + 8) - s.tier1.readW64 pool).toNat < (s.tier1.readW64 (pool + 32)).toNat
  (if low then s.post { w0 := noticeW0 4 0 q.tcid 0, w1 := BitVec.ofNat 64 q.seq, w2 := 0, w3 := 0 } else s, out.2)

/-- The `pmap` that arrived first. -/
def State.firstPmap (s : State) : Option FragRef :=
  let l := s.ctxs.flatMap fun c => (c.frags.filter fun f => f.waitsFor .pmap).map fun f => ((⟨c.id, f.id⟩ : FragRef), (f.wait.map fun w => w.stamp).getD 0)
  (sortOn (fun x => x.2) l).head?.map fun x => x.1

/-- The word of a `pmap` in the register of the fragment that still waits for it. -/
def State.pmapAnswer (s : State) (r : FragRef) (x : W64) : State :=
  match s.waitEnv r with
  | none => s
  | some e =>
    match e.i with
    | .pmap d _ _ => e.done (e.put e.s (e.view.file.putK d false x))
    | _ => s

/-- `PMAP_COMPLETION`: a request is carried out up to the taking of a frame; its final step is a step of its own, before which a mailbox command
may change the leaf (R67). Where the pool is empty the fragment parks. DESIGN CHOICE (log 118): outside handler mode the fault mask
of that park is the fragment's whole mask, where R386 gives one for handler mode only. -/
def execPmapCompletion (r : FragRef) (s : State) : Out :=
  match s.pmapping with
  | some q =>
    let out := s.pmapEnd q
    event (q.who == r) (if ((s.frag? r).map fun f => f.waitsFor .pmap).getD false then out.1.pmapAnswer r out.2 else out.1)
  | none =>
    match s.waitEnv r with
    | none => .fault .notEnabled
    | some e =>
      match e.i with
      | .pmap _ a _ =>
        let va := e.k a
        let s' := match s.pmap r e.l.seq e.l.tcid va with
          | .word x => s.pmapAnswer r (BitVec.ofNat 64 x)
          | .taken s => s
          | .empty =>
            let m := if e.inHandler then e.f.p14 e.c else e.f.mask
            e.s.park r 3 1 m { addr := faultAddr false va.toNat, source := 0, tcid := e.l.tcid }
        event (s.firstPmap == some r) s'
      | _ => .fault .notEnabled

end Sys2Proof.Machine
end

