-- ==== Sys2Proof/Machine/Mailbox.lean ====
section
/-! DEFINITION. The mailbox (R396-R400): its ring and counts, the row of the table that the command at its head belongs to, and the commands
on memory, launches, translation contexts, invalidations, pools, parks, areas and counters. -/

namespace Sys2Proof.Machine

open Sys2Proof

/-! ### The command ring (R397) -/

/-- 64-bit words of a slot. -/
def slotWords : Nat := 32

def Mailbox.slot (m : Mailbox) (n : Nat) : List W64 := SMap.getD m.ring (n % 4096) (List.replicate slotWords 0)

/-- The slot lies below the tail and is not yet applied: its count, if so. -/
def Mailbox.covered (m : Mailbox) (n : Nat) : Option Nat :=
  let ahead := (n + 4096 - m.applied.toNat % 4096) % 4096
  if ahead < (m.tail - m.applied).toNat then some (m.applied.toNat + ahead) else none

/-- Write a word of a slot; of one that the tail covers, what it held is kept until the slot is applied. -/
def Mailbox.put (m : Mailbox) (n w : Nat) (x : W64) : Mailbox :=
  let late := match m.covered n with
    | none => m.late
    | some count => if m.late.any fun y => y.1 == count && y.2.1 == w then m.late else m.late ++ [(count, w, (m.slot n).getD w 0)]
  { m with ring := SMap.set m.ring (n % 4096) ((m.slot n).set w x), late := late }

/-- The slot at the head as the engine reads it at its application: each 16-byte unit that was written after the tail came to cover the slot is
read old or new. -/
def Mailbox.head (m : Mailbox) : List W64 :=
  let count := m.applied.toNat
  (m.late.filter fun y => y.1 == count && !Config.lateUnit count (y.2.1 / 2)).foldl (fun ws y => ws.set y.2.1 y.2.2) (m.slot count)

/-- What an aligned read of 8 bytes of BAR0 gives the host (R396, R397). -/
def Mailbox.bar0 (m : Mailbox) (offset : Nat) : W64 :=
  if offset < 0x100000 then (m.slot (offset / 256)).getD (offset % 256 / 8) 0
  else if offset = 0x100000 then m.tail.setWidth 64
  else if offset = 0x100008 then m.applied.setWidth 64
  else if offset = 0x100010 then m.ignored.setWidth 64
  else if offset = 0x100020 then m.notices.setWidth 64
  else if offset = 0x100028 then m.consumed.setWidth 64
  else 0

def Mailbox.putAll (m : Mailbox) (n : Nat) (ws : List W64) : Mailbox :=
  (ws.take slotWords).zipIdx.foldl (fun m x => m.put n x.2 x.1) m

/-- The host link is up, and the part is clocked. -/
def State.hostLink (s : State) : Bool := s.mgmt.hostUp && !s.mgmt.stopped

/-- `TAIL_WRITE`: the slots written before it, and the tail; one that lowers the tail or passes 4,096 is ignored and counted. -/
def execTailWrite (tail : W32) (slots : List (Nat × List W64)) (s : State) : Out :=
  let m := slots.foldl (fun m x => Mailbox.putAll m x.1 x.2) s.mbox
  let have_ := (m.tail - m.applied).toNat
  let want := (tail - m.applied).toNat
  let m := if want < have_ ∨ 4096 < want then { m with ignored := m.ignored + 1 } else { m with tail := tail }
  event s.hostLink { s with mbox := m }

/-- `NOTICES_CONSUMED_WRITE` (R400): notices that waited for room are written. -/
def execNoticesConsumedWrite (n : W32) (s : State) : Out :=
  let s' : State := { s with mbox := { s.mbox with consumed := n } }
  event s.hostLink (s'.flush s.mbox.queued.length)

/-- A write elsewhere in BAR0 (R396): the command ring takes it; every other offset discards it. -/
def execBar0OtherWrite (offset : Nat) (val : W64) (s : State) : Out :=
  let m := if offset < 0x100000 then s.mbox.put (offset / 256) (offset % 256 / 8) val else s.mbox
  event s.hostLink { s with mbox := m }

/-! ### A command (R398) -/

structure Command where
  code : Nat
  tcid : Nat
  tag : Nat
  reserved : Bool
  ws : List W64

def Command.w (c : Command) (n : Nat) : Nat := (c.ws.getD n 0).toNat

def parseCommand (ws : List W64) : Command :=
  let w0 := (ws.headD 0).toNat
  { code := bitsN w0 56 8, tcid := bitsN w0 44 12, tag := bitsN w0 0 32, reserved := bitsN w0 32 12 != 0, ws := ws }

/-- The row of the table for a command: one whose payload selects no form is an unknown one. -/
def Command.row (c : Command) : Instr :=
  match c.code with
  | 0x01 => .writeMemory
  | 0x02 => .readMemory
  | 0x03 => .launchCommand
  | 0x04 => .preEmpt
  | 0x05 => .resume
  | 0x06 => if c.w 3 = 0 then .debuggerHalt else .debuggerRead
  | 0x07 => .translationContextEntry
  | 0x08 => .invalidate
  | 0x09 => .poolTail
  | 0x0A => if c.w 2 = 0 then .parkAnswerResume else if c.w 2 = 1 then .parkAnswerFail else .unknownCommand
  | 0x0B => .queueEntry
  | 0x0C => .classEntry
  | 0x0D => .slotSetEntry
  | 0x0E => .windowEntry
  | 0x0F => .linkTables
  | 0x10 => .collectiveGroup
  | 0x11 => if bitN (c.w 1) 7 then .areaConsumedCount else .areas
  | 0x12 => if bitN (c.w 1) 0 then .regionFree else .regionCreate
  | 0x13 => .stashQuotas
  | 0x14 =>
    match c.w 1 with
    | 0 => .invalidHandleCounterRead
    | 1 => .dropCountRead
    | 2 => .refusedCounterRead
    | 3 => .lostCountRead
    | 4 => if c.w 2 = 0 then .errorLogRead else if c.w 2 = 1 then .errorLogRemove else .unknownCommand
    | _ => .unknownCommand
  | 0x15 => .recoveryImage
  | 0x16 => .attestation
  | 0x17 => .writePhysical
  | 0x18 => .readPhysical
  | _ => .unknownCommand

/-- The command that the engine may apply now. -/
def State.command? (s : State) : Option Command :=
  if s.hostLink && s.mbox.busy == .none && s.mbox.applied != s.mbox.tail && s.mbox.queued.isEmpty && s.mbox.room then
    some (parseCommand s.mbox.head)
  else none

/-- What a command comes to. -/
inductive Reply where
  /-- status "refused" -/
  | refused
  /-- status "fault" -/
  | fault
  /-- status "done", with words 2 and 3 of the notice -/
  | done (s : State) (w2 w3 : W64)
  /-- applied, and another notice reports it -/
  | quiet (s : State)
  /-- taken from its slot and not yet applied (R57) -/
  | held (s : State)
  /-- it cannot be applied yet -/
  | notYet

def Reply.ok (s : State) : Reply := .done s 0 0

/-- A status notice. -/
def State.statusNotice (s : State) (c : Command) (status : Nat) (w2 w3 : W64) : State :=
  s.post { w0 := noticeW0 2 status c.tcid c.tag, w1 := 0, w2 := w2, w3 := w3 }

/-- Commands on objects that a TCID owns are refused while its entry is not valid. -/
def ownedCode (code : Nat) : Bool := code == 0x0B || code == 0x0D || code == 0x11 || code == 0x12 || code == 0x16

/-- The frame of a command: it is at the head of the ring and belongs to the row; in recovery only two are accepted (R421). -/
def State.command (s : State) (row : Instr) (body : Command → Reply) : Out :=
  match s.command? with
  | none => .fault .notEnabled
  | some c =>
    if c.row ≠ row then .fault .notEnabled
    else
      let no := c.reserved || (s.mgmt.recovery && c.code != 0x01 && c.code != 0x15) || (ownedCode c.code && !(s.tcid c.tcid).valid)
      let step (t : State) : State := { t.commandsSeen s.lastWrite with mbox := t.mbox.next }
      match (if no then .refused else body c) with
      | .refused => .next ((step s).statusNotice c 1 0 0)
      | .fault => .next ((step s).statusNotice c 2 0 0)
      | .done s' w2 w3 => .next ((step s').statusNotice c 0 w2 w3)
      | .quiet s' => .next (step s')
      | .held s' => .next (s'.commandsSeen s.lastWrite)
      | .notYet => .fault .notEnabled

/-- `UNKNOWN_COMMAND`. -/
def execUnknownCommand (s : State) : Out := s.command .unknownCommand fun _ => .refused

/-! ### Memory (R398, R399) -/

/-- Where a range lies: tier, address and length of each part; none where a page fails. -/
def State.rangeParts (tcid : Nat) (wr : Bool) : List (W64 × Nat) → State → State × Option (List (Nat × Nat × Nat))
  | [], s => (s, some [])
  | p :: ps, s =>
    match s.walk 0 tcid p.1 with
    | (s, .error _) => (s, none)
    | (s, .ok leaf) =>
      if 1 < leafTier leaf ∨ (wr && !leafWr leaf) ∨ (!wr && !leafRd leaf) then (s, none)
      else
        match State.rangeParts tcid wr ps s with
        | (s, some rest) => (s, some ((leafTier leaf, leafPhys leaf p.1, p.2) :: rest))
        | (s, none) => (s, none)

def State.rangeOf (s : State) (tcid : Nat) (wr : Bool) (va : W64) (n : Nat) : State × Option (List (Nat × Nat × Nat)) :=
  State.rangeParts tcid wr (pagesOf va (n / 2 ^ 14 + 2) n) s

/-- Units of 64 bytes that the mailbox writes behind a tier-2 port whose link is down: each an error record (R99, R101, R401). -/
def State.downParts (s : State) (tcid tier phys n : Nat) : State :=
  (s.downUnits tier phys n).foldl (fun s u => s.logError (errRec s.tick tcid (s.tcid tcid).tenant 7 0 0 (max phys (64 * u)) 0)) s

def State.writeParts (s : State) (tcid : Nat) : List (Nat × Nat × Nat) → List Byte → State
  | [], _ => s
  | p :: ps, bs =>
    State.writeParts ((s.downParts tcid p.1 p.2.1 p.2.2).writePhys (Writer.of .mailbox) p.1 p.2.1 (bs.take p.2.2)) tcid ps (bs.drop p.2.2)

def State.readParts (tcid : Nat) : List (Nat × Nat × Nat) → State → State × List Byte
  | [], s => (s, [])
  | p :: ps, s =>
    let x := s.readUnits tcid (s.tcid tcid).tenant p.1 p.2.1 p.2.2
    let y := State.readParts tcid ps x.1
    (y.1, x.2 ++ y.2)

/-- Bytes of a payload from word n. -/
def Command.bytes (c : Command) (n len : Nat) : List Byte :=
  ((c.ws.drop n).flatMap fun w => bytesN 8 w.toNat).take len

def word64 (bs : List Byte) (at_ : Nat) : W64 := BitVec.ofNat 64 (natOfBytes ((bs.drop at_).take 8))

/-- A payload length of a write (1 to 232 bytes) and of a read (1 to 16). -/
def writeLen (n : Nat) : Bool := decide (1 ≤ n) && decide (n ≤ 232)
def readLen (n : Nat) : Bool := decide (1 ≤ n) && decide (n ≤ 16)

/-- `WRITE_MEMORY`; in recovery into the staging buffer of 64 MiB (R421). -/
def execWriteMemory (s : State) : Out :=
  s.command .writeMemory fun c =>
    let n := c.w 2
    if !writeLen n then .refused
    else if s.mgmt.recovery then
      if 2 ^ 26 < c.w 1 + n then .refused
      else .ok { s with mgmt := { s.mgmt with staging := s.mgmt.staging.writeBytes (c.w 1) (c.bytes 3 n) } }
    else
      let x := s.rangeOf c.tcid true (c.ws.getD 1 0) n
      match x.2 with
      | none => .fault
      | some ps => .ok (x.1.writeParts c.tcid ps (c.bytes 3 n))

/-- `READ_MEMORY`. -/
def execReadMemory (s : State) : Out :=
  s.command .readMemory fun c =>
    let n := c.w 2
    if !readLen n then .refused
    else
      let x := s.rangeOf c.tcid false (c.ws.getD 1 0) n
      match x.2 with
      | none => .fault
      | some ps =>
        let y := State.readParts c.tcid ps x.1
        .done y.1 (word64 y.2 0) (word64 y.2 8)

/-- `WRITE_PHYSICAL`. -/
def execWritePhysical (s : State) : Out :=
  s.command .writePhysical fun c =>
    let n := c.w 2
    if !writeLen n || decide (s.tier1Limit < c.w 1 + n) then .refused
    else .ok (s.writeTier1 (Writer.of .mailbox) (c.w 1) (c.bytes 3 n))

/-- `READ_PHYSICAL`: it belongs to no TCID, so its error record names 0 (R399). -/
def execReadPhysical (s : State) : Out :=
  s.command .readPhysical fun c =>
    let n := c.w 2
    if !readLen n || decide (s.tier1Limit < c.w 1 + n) then .refused
    else
      let y := s.readUnits 0 0 0 (c.w 1) n
      .done y.1 (word64 y.2 0) (word64 y.2 8)

/-! ### Launches (R359, R383, R391, R394, R416) -/

/-- The recorded ranges of words 22 to 29, or none where a reserved bit is set or a valid length is 0. -/
def Command.pairs (c : Command) : Option (List RecRange) :=
  (List.range 4).foldr (fun k acc =>
    acc.bind fun l =>
      let va := c.w (22 + 2 * k)
      let x := c.w (23 + 2 * k)
      if bitsN va 58 6 ≠ 0 ∨ bitsN x 40 22 ≠ 0 ∨ (bitN x 63 ∧ bitsN x 0 40 = 0) then none
      else if bitN x 63 then some ({ pair := k, va := BitVec.ofNat 64 va, output := bitN x 62, length := bitsN x 0 40 } :: l)
      else some l) (some [])

/-- Word 21 names a mailbox queue and sets no reserved bit. -/
def word21Ok (w : Nat) : Bool := decide (bitsN w 0 6 < 48) && bitsN w 6 2 == 0 && bitsN w 13 51 == 0

/-- The check of a launch command: the state after the reads that it makes, and the launch, or the reason of R359. -/
def State.mailboxLaunch (s : State) (c : Command) (recs : List RecRange) : State × Except Nat Launch :=
  let w := c.w 21
  if !(s.tcid c.tcid).valid then (s, .error 5)
  else if !word21Ok w then (s, .error 7)
  else
    match parseDesc ((c.ws.drop 1).take 20) with
    | .error off => (s, .error (descReason off))
    | .ok d =>
      match s.checkLaunch c.tcid d with
      | (s, .error why) => (s, .error why)
      | (s, .ok h) =>
        let l := mkLaunch 0 c.tcid (.mailbox (BitVec.ofNat 32 c.tag)) d h (bitsN w 0 6) 0 s.tick
        (s, .ok { l with det := bitN w 8, sup := bitN w 9, dbg := bitN w 10, ordered := bitN w 11, recs := recs, code := s.launchCode s.hostKnows })

/-- `LAUNCH_COMMAND`: a sequence number, and the launch in its queue or the notice of its refusal; it waits for room (R354). -/
def execLaunchCommand (s : State) : Out :=
  s.command .launchCommand fun c =>
    let asked := bitN (c.w 21) 12
    match (if asked then c.pairs else some []) with
    | none => .refused
    | some recs =>
      match s.mailboxLaunch c recs with
      | (s, .error why) =>
        let s : State := { s with launchSeq := s.launchSeq + 1 }
        .quiet (s.post { w0 := noticeW0 1 2 c.tcid c.tag + BitVec.ofNat 64 (why * 2 ^ 44), w1 := BitVec.ofNat 64 s.launchSeq, w2 := 0, w3 := 0 })
      | (s, .ok l) => if s.queueFree l.queue then .quiet (s.enqueue l) else .notYet

/-- A launch of the command's TCID that has not retired. -/
def State.liveLaunch (s : State) (c : Command) : Option Launch :=
  (s.launch? (c.w 1)).filter fun l => l.tcid == c.tcid && l.state != .retired && l.state != .done

/-- `PRE_EMPT`. -/
def execPreEmpt (s : State) : Out :=
  s.command .preEmpt fun c =>
    match s.liveLaunch c with
    | none => .refused
    | some l =>
      if l.preempting || l.halted.isSome || decide (s.tier1Limit ≤ c.w 2) then .refused
      else .ok (s.preempt l.seq (c.w 2) (BitVec.ofNat 32 c.tag))

/-- `RESUME`: the launch is saved, in the area that the command names. -/
def execResume (s : State) : Out :=
  s.command .resume fun c =>
    match s.liveLaunch c with
    | none => .refused
    | some l => if l.preemptNoted && l.saveArea == some (c.w 2) then .ok (s.resumeLaunch l.seq) else .refused

/-! ### Translation contexts, invalidations and pools (R41, R57, R65) -/

/-- An entry that the table takes. -/
def State.tcidOk (s : State) (t : Tcid) : Bool :=
  bitsN t.w0.toNat 56 7 == 0 && bitsN t.w0.toNat 38 10 == 0 && bitsN t.w1.toNat 58 6 == 0 && bitsN t.w1.toNat 0 8 == 0 &&
    bitsN t.w2.toNat 52 12 == 0 && bitsN t.w2.toNat 1 5 == 0 && t.w3 == 0 &&
    (!t.valid || (decide (t.root < s.mgmt.tier1Cap) && (!t.poolOn || decide (t.poolAddr < s.mgmt.tier1Cap))))

/-- `TRANSLATION_CONTEXT_ENTRY`; a valid write clears `sr.clayer` (R263). -/
def execTranslationContextEntry (s : State) : Out :=
  s.command .translationContextEntry fun c =>
    let t : Tcid := ⟨c.ws.getD 2 0, c.ws.getD 3 0, c.ws.getD 4 0, c.ws.getD 5 0⟩
    let n := c.w 1
    if 4096 ≤ n ∨ !s.tcidOk t then .refused
    else .ok { s with tcids := SMap.set s.tcids n t, clayer := if t.valid then SMap.set s.clayer n 0 else s.clayer }

/-- `INVALIDATE`: word 1 the form, word 2 the address, word 3 the second operand of `tlbi`. -/
def execInvalidate (s : State) : Out :=
  s.command .invalidate fun c =>
    if 2 < c.w 1 then .refused
    else
      let id := s.nextId
      let va := c.ws.getD 2 0
      let tcid := bitsN (c.w 3) 0 12
      let run := bitsN (c.w 3) 16 4
      let q : TlbiReq := { id := id, form := c.w 1, va := va, tcid := tcid, run := run, cmds := s.cmds.map fun x => x.id, waiter := none }
      let s : State := { s with nextId := id + 1, tlbis := s.tlbis ++ [q],
                                mbox := { s.mbox with busy := .invalidate id c.tcid (BitVec.ofNat 32 c.tag) } }
      .held (s.dropTranslations (c.w 1) tcid va run)

/-- `POOL_TAIL`. -/
def execPoolTail (s : State) : Out :=
  s.command .poolTail fun c =>
    let t := s.tcid c.tcid
    if !t.valid || !t.poolOn then .refused else .ok (s.writeTier1W64 (t.poolAddr + 8) (c.ws.getD 1 0))

/-! ### Parks (R386) -/

/-- The fragment that bears a park. -/
def State.parked? (s : State) (id : Nat) : Option (Ctx × Frag) :=
  s.ctxs.findSome? fun c => (c.frags.find? fun f => (f.park.map fun p => p.id) == some id).map fun f => (c, f)

/-- The host's answer; for a saved block it applies after the restore (R391). -/
def State.answerPark (s : State) (id : Nat) (resume : Bool) : Option State :=
  (s.parked? id).map fun x =>
    let r : FragRef := ⟨x.1.id, x.2.id⟩
    if ((s.block? x.1.block).map fun b => b.saved).getD false then
      s.updFrag r fun f => { f with park := f.park.map fun p => { p with answer := some resume } }
    else if resume then s.resumePark r else s.failPark r

/-- `PARK_ANSWER_RESUME`. -/
def execParkAnswerResume (s : State) : Out :=
  s.command .parkAnswerResume fun c =>
    match s.answerPark (c.w 1) true with
    | none => .refused
    | some s => .ok s

/-- `PARK_ANSWER_FAIL`. -/
def execParkAnswerFail (s : State) : Out :=
  s.command .parkAnswerFail fun c =>
    match s.answerPark (c.w 1) false with
    | none => .refused
    | some s => .ok s

/-! ### Areas (R409, R384, R367, R180) -/

/-- The word 1 of a configuration, by selector. -/
def areaWordOk (w : Nat) : Bool :=
  let q := bitsN w 8 5
  let bare := bitsN w 2 6 == 0 && bitsN w 13 51 == 0
  let shift := bitsN w 16 5
  match bitsN w 0 2 with
  | 0 => bare && decide (8 ≤ q) && decide (q ≤ 24)
  | 1 => bare && decide (12 ≤ q) && decide (q ≤ 28)
  | 2 =>
    bitsN w 2 6 == 0 && bitsN w 13 3 == 0 && bitsN w 21 4 == 0 && bitsN w 27 37 == 0 && decide (8 ≤ q) && decide (q ≤ 24) &&
      (shift == 0 || (decide (10 ≤ shift) && decide (shift ≤ 24)))
  | _ => bare && decide (16 ≤ q) && decide (q ≤ 30)

/-- Bytes of an area. -/
def areaBytes (sel q : Nat) : Nat :=
  match sel with
  | 2 => 64 * 2 ^ q
  | 3 => 2 ^ q
  | _ => 32 * 2 ^ q

/-- `AREAS`: both counts become zero, the lost count is kept. -/
def execAreas (s : State) : Out :=
  s.command .areas fun c =>
    let w := c.w 1
    let sel := bitsN w 0 2
    let base := c.w 2
    let q := bitsN w 8 5
    if !areaWordOk w || base % 4096 != 0 || decide (s.tier1Limit < base + areaBytes sel q) then .refused
    else
      let old := s.area c.tcid sel
      .ok (s.setArea c.tcid sel { old with base := base, log := q, opts := w, written := 0, consumed := 0, configured := true })

/-- The consumed count, of 32 bits, on the written one. -/
def consumedOn (written n : Nat) : Nat := written - (written + 2 ^ 32 - n) % 2 ^ 32

/-- `AREA_CONSUMED_COUNT`. -/
def execAreaConsumedCount (s : State) : Out :=
  s.command .areaConsumedCount fun c =>
    let w := c.w 1
    let sel := bitsN w 0 2
    if w ≠ 128 + sel then .refused
    else
      let a := s.area c.tcid sel
      .ok (s.setArea c.tcid sel { a with consumed := consumedOn a.written (bitsN (c.w 2) 0 32) })

/-! ### Counters and the error log (R398) -/

/-- `INVALID_HANDLE_COUNTER_READ`. -/
def execInvalidHandleCounterRead (s : State) : Out :=
  s.command .invalidHandleCounterRead fun c =>
    if 256 ≤ c.w 2 then .refused else .done s (BitVec.ofNat 64 (SMap.getD s.mgmt.invalid (c.w 2) 0)) 0

/-- `DROP_COUNT_READ`. -/
def execDropCountRead (s : State) : Out :=
  s.command .dropCountRead fun c =>
    match s.queue? (c.w 2) with
    | none => .refused
    | some x => .done s (BitVec.ofNat 64 x.2.drops) 0

/-- `REFUSED_COUNTER_READ`. -/
def execRefusedCounterRead (s : State) : Out :=
  s.command .refusedCounterRead fun c =>
    if 1024 ≤ c.w 2 then .refused
    else .done s (BitVec.ofNat 64 (((SMap.get? s.ual.windows (c.w 2)).map fun x => x.refused).getD 0)) 0

/-- `LOST_COUNT_READ`. -/
def execLostCountRead (s : State) : Out :=
  s.command .lostCountRead fun c =>
    if 4 ≤ c.w 2 then .refused else .done s (BitVec.ofNat 64 (s.area c.tcid (c.w 2)).lost) 0

/-- `ERROR_LOG_READ`: words 0 and 1 of the oldest record. -/
def execErrorLogRead (s : State) : Out :=
  s.command .errorLogRead fun _ =>
    match s.mgmt.errors with
    | [] => .refused
    | x :: _ => .done s x.w0 x.w1

/-- `ERROR_LOG_REMOVE`: words 2 and 3, and the record goes. -/
def execErrorLogRemove (s : State) : Out :=
  s.command .errorLogRemove fun _ =>
    match s.mgmt.errors with
    | [] => .refused
    | x :: rest => .done { s with mgmt := { s.mgmt with errors := rest } } x.w2 x.w3

end Sys2Proof.Machine
end

