-- ==== Sys2Proof/Machine/Tables.lean ====
section
/-! DEFINITION. The mailbox commands that write the device's tables: queues (R370), classes (R371), slot sets (R381), windows (R35), links
(R402-R404), collective groups (R406), regions (R21, R26, R91, R398) and stash quotas. -/

namespace Sys2Proof.Machine

open Sys2Proof

/-! ### Queues and classes (R370, R371) -/

/-- The 16 words of a queue entry break no rule. -/
def queueWordsOk (w : Nat → Nat) : Bool :=
  bitsN (w 0) 56 7 == 0 && bitsN (w 0) 32 14 == 0 && bitsN (w 1) 58 6 == 0 && w 5 == 0 && w 6 == 0 && w 7 == 0 &&
    bitsN (w 4) 0 32 % 16 == 0 && decide (bitsN (w 4) 0 32 ≤ 65536) && bitsN (w 4) 32 32 % 16 == 0

/-- The fields of an entry over a queue's own counts. -/
def queueFrom (w : Nat → Nat) (tcid : Nat) (old : Option Queue) : Queue :=
  { key := BitVec.ofNat 32 (bitsN (w 0) 0 32), tcid := tcid, home := bitsN (w 0) 54 2, cls := bitsN (w 0) 50 4, nbuf := bitsN (w 0) 46 4 + 1
    header := BitVec.ofNat 58 (w 1), buffers := BitVec.ofNat 64 (w 2), spill := BitVec.ofNat 64 (w 3), spillCap := bitsN (w 4) 32 32
    quota := bitsN (w 4) 0 32, args := (List.range 8).map fun k => BitVec.ofNat 64 (w (8 + k)), chip := [], ring := [], ringHead := 0
    busy := [], fired := (old.map fun q => q.fired).getD 0, drops := (old.map fun q => q.drops).getD 0
    refusedNoted := (old.map fun q => q.refusedNoted).getD false }

def State.dropQueue (s : State) (key : W32) : State :=
  { s with dies := s.dies.map fun d => { d with queues := d.queues.filter fun q => q.key != key } }

/-- A slice has room for a queue beside its others: 1,024 queues, and quotas of 65,536 entries in all (R369). -/
def State.sliceFits (s : State) (q : Queue) : Bool :=
  let rest := (s.die q.home).queues.filter fun x => x.key != q.key
  decide (rest.length < 1024) && decide ((rest.map fun x => x.quota).foldl (· + ·) 0 + q.quota ≤ 65536)

/-- `QUEUE_ENTRY`: the entry names itself by its key. -/
def execQueueEntry (s : State) : Out :=
  s.command .queueEntry fun c =>
    let w (n : Nat) : Nat := c.w (1 + n)
    let valid := bitN (w 0) 63
    if !queueWordsOk w then .refused
    else
      let key := BitVec.ofNat 32 (bitsN (w 0) 0 32)
      let q := queueFrom w c.tcid ((s.queue? key.toNat).map fun x => x.2)
      let put (s : State) : State :=
        if valid then (s.dropQueue key).updDie q.home fun d => { d with queues := d.queues ++ [q] } else s.dropQueue key
      if valid && !s.sliceFits q then .refused
      else match s.queue? key.toNat with
      | none => .ok (put s)
      | some x => if x.2.tcid ≠ c.tcid ∨ x.2.depth ≠ 0 ∨ !x.2.busy.isEmpty then .refused else .ok (put s)

/-- `CLASS_ENTRY`: word 1 the class, words 2 and 3 its entry. -/
def execClassEntry (s : State) : Out :=
  s.command .classEntry fun c =>
    let a := c.w 2
    let b := c.w 3
    let x : QClass :=
      { valid := bitN a 63, det := bitN a 62, drop := bitN a 61, prio := bitsN a 56 3, age := bitsN a 32 24, cap := bitsN b 32 32
        threshold := bitsN b 0 32 }
    let bad := x.valid && (x.threshold == 0 || decide (x.cap < x.threshold) || decide (65536 < x.cap))
    if 16 ≤ c.w 1 ∨ bitsN a 59 2 ≠ 0 ∨ bitsN a 0 32 ≠ 0 ∨ bad then .refused
    else .ok { s with classes := SMap.set s.classes (c.w 1) x }

/-! ### Slot sets (R381) -/

/-- A die's slot set and its regions go. -/
def State.dropSlotSet (s : State) (die : Nat) : State :=
  match (s.die die).slotSet with
  | none => s
  | some x => (x.slots.foldl (fun s y => s.freeRegion die y.region) s).updDie die fun d => { d with slotSet := none }

/-- Regions of kind expert slot, n of them; none where the die has no room. -/
def State.slotRegions (die log tcid : Nat) : Nat → State → List ESlot → Option (State × List ESlot)
  | 0, s, got => some (s, got)
  | n + 1, s, got =>
    match s.createRegion die (mkRegion .eslot log tcid) with
    | none => none
    | some x => State.slotRegions die log tcid n x.1 (got ++ [{ region := x.2, key := 0, state := .empty, filler := none, pins := [] }])

/-- `SLOT_SET_ENTRY`: words 1 to 4 hold the die, the count, the bytes of a slot, and L. -/
def execSlotSetEntry (s : State) : Out :=
  s.command .slotSetEntry fun c =>
    let die := c.w 1
    let count := c.w 2
    let log := Nat.log2 (c.w 3)
    let layers := c.w 4
    if 4 ≤ die ∨ count = 0 ∨ 256 < count ∨ c.w 3 ≠ 2 ^ log ∨ log < 12 ∨ 26 < log ∨ layers = 0 ∨ 65536 < layers ∨ s.mgmt.thaw then .refused
    else
      match State.slotRegions die log c.tcid count (s.dropSlotSet die) [] with
      | none => .refused
      | some x =>
        .ok (x.1.updDie die fun d => { d with slotSet := some { logSize := log, layers := layers, tcid := c.tcid, slots := x.2 } })

/-! ### Windows and links (R35, R402-R404) -/

/-- `WINDOW_ENTRY`: word 1 the entry; word 2 [0] valid, [1] tier, [2] rd, [3] wr, [4] at, [11:8] class; words 3 to 5 base, length and key. -/
def execWindowEntry (s : State) : Out :=
  s.command .windowEntry fun c =>
    let n := c.w 1
    let f := c.w 2
    let base := c.w 3
    let len := c.w 4
    let old := ((SMap.get? s.ual.windows n).map fun x => x.refused).getD 0
    let x : Window :=
      { valid := bitN f 0, tier2 := bitN f 1, base := base, length := len, key := c.ws.getD 5 0, cls := bitsN f 8 4, rd := bitN f 2
        wr := bitN f 3, at_ := bitN f 4, refused := old }
    if 1024 ≤ n ∨ bitsN f 5 3 ≠ 0 ∨ bitsN f 12 52 ≠ 0 ∨ base % 2 ^ 14 ≠ 0 ∨ len % 2 ^ 14 ≠ 0 ∨ 2 ^ 32 < len then .refused
    else .ok { s with ual := { s.ual with windows := SMap.set s.ual.windows n x } }

/-- `LINK_TABLES`: word 1 selects: 0 the device number and the pod size, 1 a route, 2 a tenant's key, 3 a tenant's class, 4 a weight, by
port, direction and class; words 2 and 3 are the index and the value. -/
def execLinkTables (s : State) : Out :=
  s.command .linkTables fun c =>
    let i := c.w 2
    let v := c.w 3
    let put (u : UaLink) : Reply := .ok { s with ual := u }
    match c.w 1 with
    | 0 => if 1024 ≤ i ∨ 1024 < v then .refused else put { s.ual with device := i, podSize := v }
    | 1 => if 1024 ≤ i ∨ 2 ^ 16 ≤ v then .refused else put { s.ual with routes := SMap.set s.ual.routes i v }
    | 2 => if 256 ≤ i then .refused else put { s.ual with keys := SMap.set s.ual.keys i (c.ws.getD 3 0) }
    | 3 => if 256 ≤ i ∨ 16 ≤ v then .refused else put { s.ual with classes := SMap.set s.ual.classes i v }
    | 4 => if 512 ≤ i ∨ 256 ≤ v then .refused else put { s.ual with weights := SMap.set s.ual.weights i v }
    | _ => .refused

/-! ### Collective groups (R406) -/

/-- A range of slots meets none of a group's. -/
def CollGroup.disjoint (x : CollGroup) (first last : Nat) : Bool :=
  x.members.all fun m => decide (last < m.2.1) || decide (m.2.2 < first)

/-- Slots that a word of the populated mask marks. -/
def maskSlots (n w : Nat) : List Nat := ((List.range 64).filter fun b => bitN w b).map fun b => 64 * n + b

/-- `COLLECTIVE_GROUP`: word 1 [7:0] the group and [9:8] the part: 0 begins an entry with the generation of word 2, 1 adds the member of
words 2 to 4 (device, first and last slot), 2 sets word w2 of the populated mask to w3. -/
def execCollectiveGroup (s : State) : Out :=
  s.command .collectiveGroup fun c =>
    let g := bitsN (c.w 1) 0 8
    let put (x : CollGroup) : Reply := .ok { s with ual := { s.ual with groups := SMap.set s.ual.groups g x } }
    if bitsN (c.w 1) 10 54 ≠ 0 then .refused
    else
      match bitsN (c.w 1) 8 2, SMap.get? s.ual.groups g with
      | 0, _ =>
        if 2 ^ 32 ≤ c.w 2 then .refused
        else
          let gen := BitVec.ofNat 32 (c.w 2)
          let s := s.recheckGroup g gen
          .ok { s with ual := { s.ual with groups := SMap.set s.ual.groups g { generation := gen, members := [], populated := [] } } }
      | 1, some x =>
        if 1024 ≤ c.w 2 ∨ 4096 ≤ c.w 4 ∨ c.w 4 < c.w 3 ∨ 1024 ≤ x.members.length ∨ !x.disjoint (c.w 3) (c.w 4) then .refused
        else put { x with members := x.members ++ [(c.w 2, c.w 3, c.w 4)] }
      | 2, some x =>
        if 64 ≤ c.w 2 then .refused
        else
          let rest := x.populated.filter fun n => n / 64 != c.w 2
          put { x with populated := sortOn (fun n => n) (rest ++ maskSlots (c.w 2) (c.w 3)) }
      | _, _ => .refused

/-! ### Regions (R21, R26, R91, R373) -/

/-- The region that command 0x12 asks for; none where a field breaks its rule. -/
def Command.region (c : Command) : Option RegionEnt :=
  let f := c.w 1
  let log := bitsN f 8 5
  let x := { mkRegion .plain log c.tcid with shared := bitN f 13 }
  if bitsN f 14 50 ≠ 0 ∨ bitsN f 3 1 ≠ 0 ∨ bitsN f 6 2 ≠ 0 ∨ log < 12 ∨ 26 < log then none
  else
    match bitsN f 1 2 with
    | 0 => some x
    | 1 =>
      if c.w 2 % 256 ≠ 0 ∨ c.w 3 % 2 ^ 14 ≠ 0 ∨ c.w 5 % 2 ^ 14 ≠ 0 then none
      else some { x with kind := .stash, globalBase := c.ws.getD 2 0, base1 := c.w 3, quota1 := c.w 4, base2 := c.w 5, quota2 := c.w 6 }
    | 2 => if c.w 2 % 256 ≠ 0 ∨ bitsN (c.w 2) 58 6 ≠ 0 then none else some { x with kind := .spill, globalBase := c.ws.getD 2 0 }
    | _ => none

/-- `REGION_CREATE`: the notice returns the handle. -/
def execRegionCreate (s : State) : Out :=
  s.command .regionCreate fun c =>
    let die := bitsN (c.w 1) 4 2
    match c.region with
    | none => .refused
    | some e =>
      if s.mgmt.thaw then .refused
      else
        match s.createRegion die e with
        | none => .refused
        | some x => .done x.1 (x.1.handleOf die x.2) 0

/-- The slot that a handle of a TCID names, where a command of its may free or change it. -/
def State.ownRegion (s : State) (tcid : Nat) (h : W64) : Option (Nat × Nat × RegionEnt) :=
  let x := parseHandle h
  if !x.clean ∨ x.slot = 0 then none
  else
    match s.regionAt? x.die x.slot with
    | none => none
    | some e =>
      let mine := e.tcid == tcid && SMap.getD (s.die x.die).gens x.slot 0 == x.gen
      let launches := s.launches.any fun l => l.scratch.contains (x.die, x.slot)
      if mine && e.kind != .eslot && !launches then some (x.die, x.slot, e) else none

/-- `REGION_FREE`. -/
def execRegionFree (s : State) : Out :=
  s.command .regionFree fun c =>
    match s.ownRegion c.tcid (c.ws.getD 2 0) with
    | none => .refused
    | some x => if c.w 1 = 1 then .ok (s.freeRegion x.1 x.2.1) else .refused

/-- `STASH_QUOTAS`: neither quota becomes less. -/
def execStashQuotas (s : State) : Out :=
  s.command .stashQuotas fun c =>
    match s.ownRegion c.tcid (c.ws.getD 1 0) with
    | none => .refused
    | some (die, slot, e) =>
      if e.kind ≠ .stash ∨ c.w 2 < e.quota1 ∨ c.w 3 < e.quota2 then .refused
      else .ok (s.setRegion die slot { e with quota1 := c.w 2, quota2 := c.w 3 })

end Sys2Proof.Machine
end

