-- ==== Sys2Proof/Machine/Debug.lean ====
section
/-! DEFINITION. The debugger (R395), the debug port (R423), the Solstice latch (R414) and Equinox stop (R415). -/

namespace Sys2Proof.Machine

open Sys2Proof

/-! ### The debugger (R395) -/

/-- The context that words 1 and 2 of command 0x06 name: its launch, and core [31:24], partition [23:20] and slot [19:16]. -/
def State.debugCtx (s : State) (c : Command) : Option Ctx :=
  let w := c.w 2
  if bitsN w 32 32 ≠ 0 ∨ bitsN w 0 16 ≠ 0 then none
  else
    (s.slotCtx? (bitsN w 24 8) (bitsN w 20 4) (bitsN w 16 4)).filter fun x =>
      ((s.launchOfCtx? x).map fun l => l.seq == c.w 1 && l.tcid == c.tcid).getD false

/-- `DEBUGGER_HALT`: the context stops where it stands; its region goes on. -/
def execDebuggerHalt (s : State) : Out :=
  s.command .debuggerHalt fun c =>
    match s.debugCtx c with
    | none => .refused
    | some x => .ok (s.updCtx x.id fun x => { x with halted := true })

/-- Base and stride of a tag, as a pair of numbers. -/
def tagParts : VTag → Nat × Nat
  | .uni v => (v.toNat, 0)
  | .aff b st => (b.toNat, st.toNat)
  | .affLo b st => (b.toNat, st.toNat)
  | .affHi b st => (b.toNat, st.toNat)
  | .mat => (0, 0)

/-- Groups of 16 positions among the terms of staged passes. -/
def Contraction.stagedGroups (x : Contraction) : Nat :=
  ((x.staged.flatMap fun g => g.terms.map fun t => t.pos / 16).eraseDups).length

/-- The state of a fragment that selectors 1 to 6 read: `n` the low bits of the index, `t` a strip or position. -/
def State.debugFrag (s : State) (c : Ctx) (b : Block) (f : Frag) (sel n t : Nat) : Option (Nat × Nat) :=
  let V := viewOf c b f s.freeCtr
  match sel with
  | 1 => if n < 64 then some ((f.regs.k.getD n 0).toNat, 0) else none
  | 2 => if n < 384 ∧ t < c.width then some ((V.word n t).toNat, 0) else none
  | 3 =>
    if n < 384 then
      let g := SMap.getD f.regs.vtags n (.uni 0)
      some (tagWord g + (tagParts g).1 % 2 ^ 32 * 2 ^ 32, (tagParts g).2)
    else none
  | 4 => if n < 16 ∧ t < c.strips then some (Lanes.strip (V.plane (f.regs.pred (Fin.ofNat 16 n))) t, predWord (f.regs.pred (Fin.ofNat 16 n))) else none
  | 5 => some (f.regs.fmt.toNat, f.pc.toNat)
  | 6 => if n < 16 then some (((f.regs.rstack[n]?).getD 0).toNat, f.regs.rstack.length) else none
  | _ => none

/-- What a selector reads. The index holds a number in [15:0], a strip, position or word in [31:16], a site in [35:32], and a split-table
entry in [63:48]. Latches read as lost: zero with 1 beside it. -/
def State.debugRead (s : State) (c : Ctx) (b : Block) (tcid sel idx : Nat) : Option (Nat × Nat) :=
  let n := bitsN idx 0 16
  let t := bitsN idx 16 16
  let site := bitsN idx 32 4
  let tile := b.inst n (if t = 0xFFFF then none else some (c.stripKey t))
  match sel with
  | 7 => (c.entries[n]?).map fun f => (((f.entryWords c f.pc).getD t 0).toNat, c.frags.length)
  | 8 => some (0, 1)
  | 9 => if n < 6 then some (c.counters.toList.getD n 0, 0) else none
  | 10 => if n < 8 then some ((tile.word (bitsN idx 32 10)).toNat, tile.status.toNat) else none
  | 11 =>
    if n < 8 then
      some (match tile.open? site with
        | some x => (x.stagedGroups, Lanes.count x.passed)
        | none => (0, 0))
    else none
  | 12 => if n < 16 then some (Lanes.count (b.barriers.getD n 0), 0) else none
  | 13 => (s.queueFor tcid (bitsN idx 0 32)).map fun x => ((s.qstatWord x.2).toNat, 0)
  | _ => ((c.frag? (bitsN idx 48 16)).filter fun f => !f.hasChildren).bind fun f => s.debugFrag c b f sel n t

/-- `DEBUGGER_READ`: word 3 the selector, word 4 the index; only of a halted context. -/
def execDebuggerRead (s : State) : Out :=
  s.command .debuggerRead fun c =>
    match s.debugCtx c with
    | none => .refused
    | some x =>
      match s.block? x.block with
      | none => .refused
      | some b =>
        if !x.halted then .refused
        else
          match s.debugRead x b c.tcid (c.w 3) (c.w 4) with
          | none => .refused
          | some y => .done s (BitVec.ofNat 64 y.1) (BitVec.ofNat 64 y.2)

/-- A register's input in the region's snapshot, where the region's range holds it. -/
def RegionSnap.setV (x : RegionSnap) (r : Nat) (t : VTag) (ys : List W32) : RegionSnap :=
  if x.vregs.any fun y => y.1 == r then { x with vregs := SMap.set x.vregs r (t, ys) } else x

def Frag.setSnap (f : Frag) (g : RegionSnap → RegionSnap) : Frag := { f with region := { f.region with snap := g f.region.snap } }

/-- A vector register of a fragment and its input at the region entry, both with a tag, and with words where it is MAT. -/
def Ctx.putTag (c : Ctx) (f : Frag) (R : RegFile) (r : Nat) (t : VTag) : Ctx :=
  let ys := if t = .mat then SMap.getD R.mat r [] else []
  let R := if t = .mat then R else R.setTag r t
  { c with mat := R.mat }.setFrag ({ f with regs := R.regs }.setSnap fun x => x.setV r t ys)

/-- A predicate of a fragment and its value at the region entry. -/
def Ctx.putPred (c : Ctx) (f : Frag) (p : Fin 16) (t : PTag) : Ctx :=
  if p = 0 then c
  else c.setFrag ({ f with regs := { f.regs with preds := f.regs.preds.set p t } }.setSnap fun x => { x with preds := x.preds.set p t })

/-- What a debugger writes; it stands also at the region entry where the context goes on (R390). -/
def Ctx.debugWrite (c : Ctx) (b : Block) (f : Frag) : DebugTarget → Ctx
  | .vreg r lane val =>
    let V := viewOf c b f 0
    c.putTag f (V.setMat V.file r.val ((List.range V.n).map fun i => if i = lane then val else V.word r.val i)) r.val .mat
  | .kreg r val =>
    c.setFrag ({ f with regs := { f.regs with k := f.regs.k.set r val } }.setSnap fun x => { x with k := x.k.set r val })
  | .pred p m => c.putPred f p (.mat m)
  | .predUni p v => c.putPred f p (.uni v)
  | .predThr p t below => c.putPred f p (.thr t below)
  | .fmt val => c.setFrag ({ f with regs := { f.regs with fmt := val } }.setSnap fun x => { x with fmt := val })
  | .tag r t =>
    let V := viewOf c b f 0
    match t with
    | .uni v => c.putTag f V.file r.val (.uni v)
    | .aff x st => c.putTag f V.file r.val (.aff x st)
    | .affLo x st => c.putTag f V.file r.val (.affLo x st)
    | .affHi x st => c.putTag f V.file r.val (.affHi x st)
    | .mat => c.putTag f (V.setMat V.file r.val ((List.range V.n).map fun i => V.word r.val i)) r.val .mat
  | .entry word val => c.setFrag (c.setEntryWord f word val)

/-- One write of a debugger takes effect. -/
def State.applyDebug (ctx : Nat) (s : State) (x : Nat × DebugTarget) : State :=
  match s.ctx? ctx with
  | none => s
  | some c =>
    match c.frag? x.1, s.block? c.block with
    | some f, some b => s.setCtx (c.debugWrite b f x.2)
    | _, _ => s

/-- A fragment that a debugger's resume restarts: one that stands for items of its own, is not parked, and waits in no instruction that has
begun and whose effect a repetition would change. -/
def Frag.resumes (f : Frag) : Bool := f.state == .running && !f.hasChildren && !f.midway

/-- A fragment restarts at its region entry (R390). One in handler mode restarts in the handler where the handler has opened a region of its own;
else its region is the one that the fault has interrupted, and it leaves handler mode as by `eret`. DESIGN CHOICE (log 123): one that a cut in the
handler has made goes on where it stands. -/
def State.resumeAt (s : State) (r : FragRef) : State :=
  match s.frag? r with
  | none => s
  | some f =>
    match f.shadow with
    | none => s.restart r
    | some sh =>
      if sh.region.serial ≠ f.region.serial then s.restart r
      else if sh.owner = f.id then s.leaveHandler r
      else s

/-- `DEBUGGER_RESUME`: what the debugger has written takes effect, and the context's fragments restart at their region entries (R390, R395). -/
def execDebuggerResume (ctx : Nat) (s : State) : Out :=
  match s.ctx? ctx with
  | none => .fault .notEnabled
  | some c =>
    let s' := c.debugWrites.foldl (State.applyDebug ctx) (s.updCtx ctx fun c => { c with halted := false, debugWrites := [] })
    let refs : List FragRef := (((s'.ctx? ctx).map fun c => c.frags.filter Frag.resumes).getD []).map fun f => ⟨ctx, f.id⟩
    event c.halted (refs.foldl State.resumeAt s')

/-- `DEBUGGER_WRITE`: it takes effect at the resume. -/
def execDebuggerWrite (r : FragRef) (x : DebugTarget) (s : State) : Out :=
  match s.ctx? r.ctx, s.frag? r with
  | some c, some _ => event c.halted (s.updCtx r.ctx fun c => { c with debugWrites := c.debugWrites ++ [(r.frag, x)] })
  | _, _ => .fault .notEnabled

/-! ### The debug port (R423) -/

/-- `DEBUG_PORT_UNLOCK`: a signature over the port's nonce and the serial number. -/
def execDebugPortUnlock (sig : List Byte) (s : State) : Out :=
  let good := Config.sm2Verify sig (Config.sm3 (Config.portNonce s.mgmt.resets ++ bytesN 8 s.mgmt.serial))
  event (!s.mgmt.stopped) { s with mgmt := { s.mgmt with portOpen := s.mgmt.portOpen || good } }

/-- An arming through the port is accepted: the port is open, and the tick is far enough ahead. -/
def State.armOk (s : State) (at_ : Nat) : Bool := s.mgmt.portOpen && decide (s.tick + 4096 ≤ at_)

/-- `SOLSTICE_ARM`: refused while shadows are unreleased. -/
def execSolsticeArm (at_ : Nat) (s : State) : Out :=
  event (!s.mgmt.stopped)
    (if s.armOk at_ && s.mgmt.shadows.isNone then { s with mgmt := { s.mgmt with solstice := some at_ } } else s)

/-- `EQUINOX_STOP_ARM`. -/
def execEquinoxStopArm (at_ : Nat) (s : State) : Out :=
  event (!s.mgmt.stopped) (if s.armOk at_ then { s with mgmt := { s.mgmt with stopAt := some at_ } } else s)

/-- The counters of R414 as they stand. -/
def State.shadowsNow (s : State) : Shadows :=
  let cs := s.ctxs.filter fun c => c.state == .resident
  let qs := s.dies.toList.flatMap fun d => d.queues
  { stalls := cs.map fun c => (c.id, c.stalls.toList), counters := cs.map fun c => (c.id, c.counters.toList)
    queues := qs.map fun q => (q.key, q.depth, bitsN (s.qstatWord q).toNat 32 24), served := s.ual.served, invalid := s.mgmt.invalid
    corrected := s.mgmt.corrected, refused := s.ual.windows.map fun w => (w.1, w.2.refused) }

/-- The Solstice record of a context. -/
def State.solsticeRecord (s : State) (c : Ctx) : State :=
  match s.block? c.block with
  | none => s
  | some b =>
    let tcid := s.ctxTcid c
    s.trace tcid ([traceHead 5 3 0 tcid 0, BitVec.ofNat 64 s.tick, BitVec.ofNat 64 b.launch, BitVec.ofNat 64 b.index,
      BitVec.ofNat 64 (c.core * 2 ^ 24 + c.part * 2 ^ 20 + c.slot * 2 ^ 16), 0, 0, 0] ++ c.stalls.toList.map fun n => BitVec.ofNat 64 n)

def State.solsticeDue (s : State) : Bool := (s.mgmt.solstice.map fun t => decide (t ≤ s.tick)).getD false

/-- `SOLSTICE_LATCH`. -/
def execSolsticeLatch (s : State) : Out :=
  let s' : State := { s with mgmt := { s.mgmt with solstice := none, shadows := some s.shadowsNow } }
  event (s.solsticeDue && s.picks.isEmpty) ((s.ctxs.filter fun c => c.state == .resident).foldl State.solsticeRecord s')

/-- `SHADOW_RELEASE`: through an open port. -/
def execShadowRelease (s : State) : Out :=
  event (!s.mgmt.stopped) (if s.mgmt.portOpen then { s with mgmt := { s.mgmt with shadows := none } } else s)

/-- `EQUINOX_STOP`: every clock is gated, and the links go down. -/
def execEquinoxStop (s : State) : Out :=
  let due := (s.mgmt.stopAt.map fun t => decide (t ≤ s.tick)).getD false
  event (due && !s.solsticeDue && s.picks.isEmpty && !s.mgmt.stopped)
    { s with mgmt := { s.mgmt with stopped := true, hostUp := false, tier2Up := Vector.replicate 8 false }
             ual := { s.ual with portsUp := Vector.replicate 16 false } }

/-- `DEBUG_SCAN_OUT`: the state is read through the port. -/
def execDebugScanOut (s : State) : Out :=
  event (s.mgmt.stopped && s.mgmt.portOpen) { s with mgmt := { s.mgmt with scanned := true } }

end Sys2Proof.Machine
end

