-- ==== Sys2Proof/Machine/Platform.lean ====
section
/-! DEFINITION. Bring-up, recovery and attestation (R418-R422), power (R424), links (R38, R401-R405), accesses of other devices (R35-R37, R403),
and bit errors (R97-R101). -/

namespace Sys2Proof.Machine

open Sys2Proof

/-! ### Reset and the Thaw service (R418-R420) -/

/-- The bytes of the configuration record. -/
def Mgmt.record (m : Mgmt) : List Byte := Config.recordBytes m.coreMask m.tier1Cap m.serial m.trims

/-- The configuration record verifies, and its mask enables a core (R418 step 2, R419). -/
def Mgmt.recordOk (m : Mgmt) : Bool := Config.sm2Verify m.recordSig (Config.sm3 m.record) && m.coreMask != 0

/-- An image verifies: its signature, its last 64 bytes, over the rest (R418 step 3, R421). -/
def imageOk (img : List Byte) : Bool :=
  decide (64 ≤ img.length) && Config.sm2Verify (img.drop (img.length - 64)) (Config.sm3 (img.take (img.length - 64)))

/-- Release of package reset: memories and flash stay, but for tier 1 after Equinox stop (R415); the boot ROM verifies the configuration
record and the image, and starts Thaw or enters recovery. The inputs still to come, the driver's images and the count of free values are
the model's own and stay. -/
def State.packageReset (s : State) : State :=
  let ok := s.mgmt.recordOk && imageOk s.mgmt.flash
  let m : Mgmt :=
    { Mgmt.reset with
      resets := s.mgmt.resets + 1, thaw := ok, recovery := !ok, flash := s.mgmt.flash, coreMask := s.mgmt.coreMask
      tier1Cap := s.mgmt.tier1Cap, decoders := s.mgmt.decoders, serial := s.mgmt.serial, trims := s.mgmt.trims, recordSig := s.mgmt.recordSig }
  { State.reset with
    tier1 := if s.mgmt.stopped then { cells := [], epoch := s.tier1.epoch + 1 } else s.tier1
    poison1 := if s.mgmt.stopped then [] else s.poison1
    tier2 := s.tier2, poison2 := s.poison2, poison3 := s.poison3, host := s.host, mgmt := m, images := s.images, script := s.script, freeCtr := s.freeCtr }

/-- `PACKAGE_RESET`. -/
def execPackageReset (s : State) : Out := .next s.packageReset

/-- What a die's scratchpad holds when Thaw ends: its 64 MiB slice of the 256 MiB (R420). DEDUCED (log 140): while Thaw runs the slices are kept where
the end of Thaw copies them to, since no scratchpad region exists through which anything could tell the difference. -/
def State.slice (s : State) (die : Nat) : Mem :=
  (s.tier1.cells.filter fun c => c.1 / 2 ^ 26 == die).foldl (fun m c => m.write (c.1 % 2 ^ 26) c.2) Mem.empty

/-- `THAW_END`: only while no launch is active. The training of step 4 has completed, its errors logged and retried (R418); the slices are copied to
the same tier-1 addresses. -/
def execThawEnd (s : State) : Out :=
  let s' := [0, 1, 2, 3].foldl (fun t n => t.updDie n fun d => { d with scratch := s.slice n }) s
  event (s.mgmt.thaw && !s.mgmt.stopped && !s.launches.any fun l => l.state.activated)
    { s' with mgmt := { s.mgmt with thaw := false, trainErrors := s.mgmt.trainErrors + Config.trainingErrors s.mgmt.resets } }

/-! ### Recovery and attestation (R421, R422) -/

/-- `RECOVERY_IMAGE`: an image whose signature, its last 64 bytes, verifies over the rest goes to the flash, and the package is reset. -/
def execRecoveryImage (s : State) : Out :=
  s.command .recoveryImage fun c =>
    let n := c.w 1
    let img := s.mgmt.staging.readBytes 0 n
    if !s.mgmt.recovery || decide (2 ^ 26 < n) || !imageOk img then .refused
    else .held ({ s with mgmt := { s.mgmt with flash := img } }.packageReset)

/-- The digest of the firmware image that runs: the image in the flash but for its signature (R422). -/
def Mgmt.firmwareDigest (m : Mgmt) : Nat := Config.sm3 (m.flash.take (m.flash.length - 64))

/-- `ATTESTATION`: the signature goes to the buffer of word 5. -/
def execAttestation (s : State) : Out :=
  s.command .attestation fun c =>
    let x := s.rangeOf c.tcid true (c.ws.getD 5 0) 64
    match x.2 with
    | none => .fault
    | some ps =>
      let data := c.bytes 1 32 ++ bytesN 32 s.mgmt.firmwareDigest ++ s.mgmt.record ++ bytesN 8 s.mgmt.serial
      .ok (x.1.writeParts c.tcid ps (bytesN 64 (Config.sm2Sign (Config.sm3 data))))

/-! ### Power (R424) -/

/-- `POWER_LIMIT_REACHED`: one step of 53.125 MHz less, where there is one (log 102). -/
def execPowerLimitReached (s : State) : Out :=
  event (!s.mgmt.stopped) (if 2 ≤ s.rate then { s with mgmt := { s.mgmt with powerSteps := s.mgmt.powerSteps + 1 } } else s)

/-- `POWER_LIMIT_CLEARED`. -/
def execPowerLimitCleared (s : State) : Out :=
  event (!s.mgmt.stopped) { s with mgmt := { s.mgmt with powerSteps := 0 } }

/-! ### Links (R38, R401, R402, R405) -/

/-- A request is lost with its port, and charged to the context that issued it (R402, R405). -/
def State.loseRequest (s : State) (q : RemoteReq) : State :=
  match s.cmd? q.cmd, q.kind with
  | none, _ => if q.cmd = 0 then s.chargeStray q.ctx Outcomes.addDead else s
  | some c, .contribute _ _ _ _ _ =>
    (s.updCmd c.id fun c => { c with deadPod := c.deadPod + 1, pending := c.pending - 1 }).collAfter c
  | some c, _ => (((s.moveDead q.cmd q.elem false).collSent c q.elem).collAfter c).writeReady c.id

/-- `UALINK_PORT_DEATH`: what is in flight on the port fails as DEAD. -/
def execUalinkPortDeath (port : Fin 16) (s : State) : Out :=
  let mine := s.ual.requests.filter fun q => q.port == port.val
  let s' : State := { s with ual := { s.ual with portsUp := s.ual.portsUp.set port false
                                                 requests := s.ual.requests.filter fun q => q.port != port.val } }
  event (s.ual.portsUp[port] && !s.mgmt.stopped) (mine.foldl State.loseRequest s')

/-- `LINK_CRC_RETRY` is not visible. -/
def execLinkCrcRetry (port : Fin 16) (s : State) : Out := event s.ual.portsUp[port] s

/-- `TIER2_LINK_DOWN`: accesses behind the port complete with the uncorrectable-error status from now on (R99, R401). -/
def execTier2LinkDown (port : Fin 8) (s : State) : Out :=
  event s.mgmt.tier2Up[port] { s with mgmt := { s.mgmt with tier2Up := s.mgmt.tier2Up.set port false } }

/-- `HOST_RANGE_REPORT`: the host physical addresses that exist (R30). -/
def execHostRangeReport (base size : Nat) (s : State) : Out :=
  event s.hostLink { s with mgmt := { s.mgmt with hostRange := some (base, size) } }

/-- `HOST_LINK_DEATH`. -/
def execHostLinkDeath (s : State) : Out := event s.hostLink { s with mgmt := { s.mgmt with hostUp := false } }

/-! ### Accesses of other devices (R35-R37, R403) -/

/-- Bytes that an access concerns. -/
def accessBytes (x : RemoteAccess) : Nat :=
  match x.kind with
  | .read => x.length
  | .write _ => x.length
  | .atomic op _ => atomBytes op
  | .contribute _ _ _ _ d => d.length
  | .reduce _ ty _ => dredBytes ty

/-- The window entry, where it admits the access. -/
def State.window? (s : State) (x : RemoteAccess) : Option Window :=
  (SMap.get? s.ual.windows x.entry.val).filter fun w =>
    let may := match x.kind with
      | .read => w.rd
      | .write _ => w.wr
      | .contribute _ _ _ _ _ => false
      | _ => w.at_
    w.valid && decide (x.offset.toNat + (accessBytes x) ≤ w.length) && w.key == x.key && may &&
      s.tierOk w.tier2.toNat (w.base + x.offset.toNat + (accessBytes x) - 1)

/-- Uncorrectable data met in serving another device: an error record, with the TCID, core and pc of no context (R101). -/
def State.serveError (s : State) (tier phys n : Nat) : State :=
  match (touchedUnits phys n).find? fun u => s.badUnit tier u with
  | some u => s.logError (errRec s.tick 0 0 (tierSource tier) 0 0 (max phys (64 * u)) 0)
  | none => s

/-- The agent of another device as the writer of its access, with a release head at `.pod` where the access bears one (R102, R136). -/
def State.remoteWriter (s : State) (x : RemoteAccess) : Writer :=
  let a : Agent := .device x.device
  ⟨a, false, if x.rel then [⟨.pod, a, Horizon.of a s.lastWrite⟩] else []⟩

/-- A read and write of n bytes at a place, with the old ones; damaged data gives zeros. The write joins the release chain of what it reads (R113). -/
def State.remoteRmw (s : State) (w : Writer) (tier phys n : Nat) (f : W64 → W64) : State × RemoteStatus × List Byte :=
  let w : Writer := { w with heads := w.heads ++ ((tierSpace tier).map fun m => s.chain m phys n).getD [] }
  if s.badRead tier phys n then
    ((s.serveError tier phys n).writeCells w tier ((List.range n).map fun k => (phys + k, 0#8)), .poisoned, List.replicate n 0#8)
  else
    let old := s.readPhys tier phys n
    let new := bytesN n (f (BitVec.ofNat 64 (natOfBytes old))).toNat
    (s.writeCells w tier (new.zipIdx.map fun b => (phys + b.2, b.1)), .ok, old)

/-- An accepted access at `base + offset`; one behind a port whose link is down gives the error status (R401). -/
def State.serveAccess (s : State) (w : Window) (x : RemoteAccess) : State × RemoteStatus × List Byte :=
  let tier := w.tier2.toNat
  let phys := w.base + x.offset.toNat
  let n := (accessBytes x)
  match x.kind with
  | .read => if s.badRead tier phys n then (s.serveError tier phys n, .poisoned, List.replicate n 0#8) else (s, .ok, s.readPhys tier phys n)
  | .write d =>
    if (s.downUnits tier phys n).isEmpty then (s.writePhys (s.remoteWriter x) tier phys (d.take n), .ok, [])
    else ((s.serveError tier phys n).writePhys (s.remoteWriter x) tier phys (d.take n), .poisoned, [])
  | .atomic op b => s.remoteRmw (s.remoteWriter x) tier phys n fun old => atomApply op old b
  | .reduce op ty b =>
    let y := s.remoteRmw (s.remoteWriter x) tier phys n fun old => dredApply op ty old b
    (y.1, y.2.1, [])
  | .contribute _ _ _ _ _ => (s, .refused, [])

/-- An entry that was never programmed. -/
def Window.off : Window :=
  { valid := false, tier2 := false, base := 0, length := 0, key := 0, cls := 0, rd := false, wr := false, at_ := false, refused := 0 }

/-- A refused access reads and writes nothing, and is counted in its entry. -/
def State.refuseAccess (s : State) (x : RemoteAccess) : State × RemoteStatus × List Byte :=
  let n := x.entry.val
  let w := SMap.getD s.ual.windows n Window.off
  let s : State := { s with ual := { s.ual with windows := SMap.set s.ual.windows n { w with refused := w.refused + 1 } } }
  match x.kind with
  | .read => (s, .refused, List.replicate (accessBytes x) 0#8)
  | .atomic _ _ => (s, .refused, List.replicate (accessBytes x) 0#8)
  | _ => (s, .refused, [])

/-- `REMOTE_ACCESS_ARRIVAL`: the response leaves on the port that the request came by, in the request's class (R404). A collective contribution
comes as `COLLECTIVE_CONTRIBUTION`. -/
def execRemoteAccessArrival (x : RemoteAccess) (s : State) : Out :=
  let y := match s.window? x with
    | some w => s.serveAccess w x
    | none => s.refuseAccess x
  let n := accessBytes x
  let moved (s : State) : State := match x.kind with
    | .read => s.serve x.port.val x.cls.val 0 n
    | .atomic _ _ => (s.serve x.port.val x.cls.val 1 n).serve x.port.val x.cls.val 0 n
    | _ => s.serve x.port.val x.cls.val 1 n
  let r : RemoteRsp := { port := x.port.val, cls := x.cls.val, request := x.request, status := y.2.1, data := y.2.2 }
  let s' := moved y.1
  event (s.ual.portsUp[x.port] && !(x.kind matches .contribute _ _ _ _ _)) { s' with ual := { s'.ual with responses := s'.ual.responses ++ [r] } }

/-! ### Bit errors (R97, R98, R100) -/

def State.corrected (s : State) : State := { s with mgmt := { s.mgmt with corrected := s.mgmt.corrected + 1 } }

/-- A damaged word: nothing is raised until it is read. -/
def State.damage (s : State) : ErrPlace → State
  | .vreg ctx r pos => s.updCtx ctx fun c => { c with damage := c.damage ++ [(r.val, pos)] }
  | .pred ctx p strip => s.updCtx ctx fun c => { c with damage := c.damage ++ [(384 + p.val, strip)] }
  | .tile block t strip w =>
    s.updBlock block fun b =>
      let i := b.inst t.val (if strip = 0xFFFF then none else some strip)
      b.setInst { i with damage := i.damage ++ [w] }
  | .shared block w => s.updBlock block fun b => { b with damage := b.damage ++ [w] }
  | .spill block t w => s.updBlock block fun b => { b with spillDamage := b.spillDamage ++ [(t, w)] }
  | .scratch die w => s.updDie die fun d => { d with damage := d.damage ++ [w] }
  | .icache core n => (s.updCore core fun c => { c with icache := c.icache.eraseIdx n }).corrected
  | .tier1 u => s.poisonUnit 0 u
  | .tier2 u => s.poisonUnit 1 u
  | .host u => s.poisonUnit 3 u

/-- `BIT_ERROR`: a single one is corrected and counted. -/
def execBitError (x : ErrPlace) (double : Bool) (s : State) : Out :=
  event (!s.mgmt.stopped) (if double then s.damage x else s.corrected)

end Sys2Proof.Machine
end

