-- ==== Sys2Proof/Machine/Dispatch.lean ====
section
/-! DEFINITION. The one dispatch: each constructor of Instr to its meaning. -/

namespace Sys2Proof.Machine

open Sys2Proof

def exec (i : Instr) (s : State) : Host.Outcome State Fault Refusal :=
  match i with
  | .nop g => Sys2Proof.Machine.execNop g s
  | .bra x => Sys2Proof.Machine.execBra x s
  | .jmpDirect target => Sys2Proof.Machine.execJmpDirect target s
  | .jmpIndirect k => Sys2Proof.Machine.execJmpIndirect k s
  | .callDirect target => Sys2Proof.Machine.execCallDirect target s
  | .callIndirect k => Sys2Proof.Machine.execCallIndirect k s
  | .ret => Sys2Proof.Machine.execRet s
  | .loop k target => Sys2Proof.Machine.execLoop k target s
  | .join => Sys2Proof.Machine.execJoin s
  | .exit g => Sys2Proof.Machine.execExit g s
  | .region r => Sys2Proof.Machine.execRegion r s
  | .yield => Sys2Proof.Machine.execYield s
  | .brk code g => Sys2Proof.Machine.execBrk code g s
  | .trap code g => Sys2Proof.Machine.execTrap code g s
  | .eret => Sys2Proof.Machine.execEret s
  | .elect pd g => Sys2Proof.Machine.execElect pd g s
  | .matchKeys ty d a g => Sys2Proof.Machine.execMatchKeys ty d a g s
  | .regroup key r => Sys2Proof.Machine.execRegroup key r s
  | .launch a g => Sys2Proof.Machine.execLaunch a g s
  | .wchild => Sys2Proof.Machine.execWchild s
  | .bar n => Sys2Proof.Machine.execBar n s
  | .shmap d a r => Sys2Proof.Machine.execShmap d a r s
  | .fwr d a g => Sys2Proof.Machine.execFwr d a g s
  | .frd d a g => Sys2Proof.Machine.execFrd d a g s
  | .mat d wide => Sys2Proof.Machine.execMat d wide s
  | .rep d ofPred n => Sys2Proof.Machine.execRep d ofPred n s
  | .halt code g => Sys2Proof.Machine.execHalt code g s
  | .getsr d sr g => Sys2Proof.Machine.execGetsr d sr g s
  | .setsr sr a g => Sys2Proof.Machine.execSetsr sr a g s
  | .tick d g => Sys2Proof.Machine.execTick d g s
  | .tickS d g => Sys2Proof.Machine.execTickS d g s
  | .cpub d g => Sys2Proof.Machine.execCpub d g s
  | .cinv g => Sys2Proof.Machine.execCinv g s
  | .tlbiVa a b g => Sys2Proof.Machine.execTlbiVa a b g s
  | .tlbiTcid b g => Sys2Proof.Machine.execTlbiTcid b g s
  | .tlbiAll g => Sys2Proof.Machine.execTlbiAll g s
  | .pmap d a g => Sys2Proof.Machine.execPmap d a g s
  | .ctr d n g => Sys2Proof.Machine.execCtr d n g s
  | .ctrClr d n g => Sys2Proof.Machine.execCtrClr d n g s
  | .add x => Sys2Proof.Machine.execAdd x s
  | .sub x => Sys2Proof.Machine.execSub x s
  | .addc x => Sys2Proof.Machine.execAddc x s
  | .subb x => Sys2Proof.Machine.execSubb x s
  | .mul x => Sys2Proof.Machine.execMul x s
  | .mulh x => Sys2Proof.Machine.execMulh x s
  | .mad x => Sys2Proof.Machine.execMad x s
  | .div x => Sys2Proof.Machine.execDiv x s
  | .rem x => Sys2Proof.Machine.execRem x s
  | .min x => Sys2Proof.Machine.execMin x s
  | .max x => Sys2Proof.Machine.execMax x s
  | .abs x => Sys2Proof.Machine.execAbs x s
  | .neg x => Sys2Proof.Machine.execNeg x s
  | .sadd x => Sys2Proof.Machine.execSadd x s
  | .ssub x => Sys2Proof.Machine.execSsub x s
  | .lea x => Sys2Proof.Machine.execLea x s
  | .and x => Sys2Proof.Machine.execAnd x s
  | .or x => Sys2Proof.Machine.execOr x s
  | .xor x => Sys2Proof.Machine.execXor x s
  | .not x => Sys2Proof.Machine.execNot x s
  | .andn x => Sys2Proof.Machine.execAndn x s
  | .shl x => Sys2Proof.Machine.execShl x s
  | .shr x => Sys2Proof.Machine.execShr x s
  | .sar x => Sys2Proof.Machine.execSar x s
  | .rol x => Sys2Proof.Machine.execRol x s
  | .ror x => Sys2Proof.Machine.execRor x s
  | .clz x => Sys2Proof.Machine.execClz x s
  | .ctz x => Sys2Proof.Machine.execCtz x s
  | .ffs x => Sys2Proof.Machine.execFfs x s
  | .popc x => Sys2Proof.Machine.execPopc x s
  | .brev x => Sys2Proof.Machine.execBrev x s
  | .bfx x => Sys2Proof.Machine.execBfx x s
  | .bfi x => Sys2Proof.Machine.execBfi x s
  | .sel x => Sys2Proof.Machine.execSel x s
  | .cmp x => Sys2Proof.Machine.execCmp x s
  | .mov x => Sys2Proof.Machine.execMov x s
  | .movi x => Sys2Proof.Machine.execMovi x s
  | .movk x => Sys2Proof.Machine.execMovk x s
  | .cvt x => Sys2Proof.Machine.execCvt x s
  | .pack x => Sys2Proof.Machine.execPack x s
  | .unpk x => Sys2Proof.Machine.execUnpk x s
  | .prm x => Sys2Proof.Machine.execPrm x s
  | .dp4 x => Sys2Proof.Machine.execDp4 x s
  | .pand x => Sys2Proof.Machine.execPand x s
  | .por x => Sys2Proof.Machine.execPor x s
  | .pxor x => Sys2Proof.Machine.execPxor x s
  | .pnot x => Sys2Proof.Machine.execPnot x s
  | .pmov x => Sys2Proof.Machine.execPmov x s
  | .pset x => Sys2Proof.Machine.execPset x s
  | .pcnt x => Sys2Proof.Machine.execPcnt x s
  | .pfirst x => Sys2Proof.Machine.execPfirst x s
  | .fadd x => Sys2Proof.Machine.execFadd x s
  | .fsub x => Sys2Proof.Machine.execFsub x s
  | .fmul x => Sys2Proof.Machine.execFmul x s
  | .fma x => Sys2Proof.Machine.execFma x s
  | .fmin x => Sys2Proof.Machine.execFmin x s
  | .fmax x => Sys2Proof.Machine.execFmax x s
  | .fabs x => Sys2Proof.Machine.execFabs x s
  | .fneg x => Sys2Proof.Machine.execFneg x s
  | .fcmp x => Sys2Proof.Machine.execFcmp x s
  | .fcvt x => Sys2Proof.Machine.execFcvt x s
  | .frnd x => Sys2Proof.Machine.execFrnd x s
  | .fclass x => Sys2Proof.Machine.execFclass x s
  | .frcp x => Sys2Proof.Machine.execFrcp x s
  | .frsq x => Sys2Proof.Machine.execFrsq x s
  | .fsqrt x => Sys2Proof.Machine.execFsqrt x s
  | .fex2 x => Sys2Proof.Machine.execFex2 x s
  | .flg2 x => Sys2Proof.Machine.execFlg2 x s
  | .fsin x => Sys2Proof.Machine.execFsin x s
  | .fcos x => Sys2Proof.Machine.execFcos x s
  | .ftanh x => Sys2Proof.Machine.execFtanh x s
  | .fdiv x => Sys2Proof.Machine.execFdiv x s
  | .fscale x => Sys2Proof.Machine.execFscale x s
  | .shfl x => Sys2Proof.Machine.execShfl x s
  | .bcast x => Sys2Proof.Machine.execBcast x s
  | .slup x => Sys2Proof.Machine.execSlup x s
  | .sldn x => Sys2Proof.Machine.execSldn x s
  | .cmpr x => Sys2Proof.Machine.execCmpr x s
  | .expd x => Sys2Proof.Machine.execExpd x s
  | .red x => Sys2Proof.Machine.execRed x s
  | .scan x => Sys2Proof.Machine.execScan x s
  | .ballot x => Sys2Proof.Machine.execBallot x s
  | .vote x => Sys2Proof.Machine.execVote x s
  | .topk x => Sys2Proof.Machine.execTopk x s
  | .fmt x g => Sys2Proof.Machine.execFmt x g s
  | .opa x => Sys2Proof.Machine.execOpa x s
  | .opc x => Sys2Proof.Machine.execOpc x s
  | .azero x => Sys2Proof.Machine.execAzero x s
  | .areadRow x => Sys2Proof.Machine.execAreadRow x s
  | .areadStatus x => Sys2Proof.Machine.execAreadStatus x s
  | .awrtRow x => Sys2Proof.Machine.execAwrtRow x s
  | .awrtStatus x => Sys2Proof.Machine.execAwrtStatus x s
  | .ald x => Sys2Proof.Machine.execAld x s
  | .ast x => Sys2Proof.Machine.execAst x s
  | .afence => Sys2Proof.Machine.execAfence s
  | .await x => Sys2Proof.Machine.execAwait x s
  | .apromCvt x => Sys2Proof.Machine.execApromCvt x s
  | .apromScl x => Sys2Proof.Machine.execApromScl x s
  | .lds x => Sys2Proof.Machine.execLds x s
  | .sts x => Sys2Proof.Machine.execSts x s
  | .ldw x => Sys2Proof.Machine.execLdw x s
  | .stw x => Sys2Proof.Machine.execStw x s
  | .atom x => Sys2Proof.Machine.execAtom x s
  | .cas x => Sys2Proof.Machine.execCas x s
  | .fence x => Sys2Proof.Machine.execFence x s
  | .wait x => Sys2Proof.Machine.execWait x s
  | .push lo hi => Sys2Proof.Machine.execPush lo hi s
  | .pop lo hi => Sys2Proof.Machine.execPop lo hi s
  | .rmap h g gd => Sys2Proof.Machine.execRmap h g gd s
  | .runmap h g => Sys2Proof.Machine.execRunmap h g s
  | .rwb x => Sys2Proof.Machine.execRwb x s
  | .rinv x => Sys2Proof.Machine.execRinv x s
  | .rfill x => Sys2Proof.Machine.execRfill x s
  | .copy x => Sys2Proof.Machine.execCopy x s
  | .gather x => Sys2Proof.Machine.execGather x s
  | .scatter x => Sys2Proof.Machine.execScatter x s
  | .xatom x => Sys2Proof.Machine.execXatom x s
  | .coll x => Sys2Proof.Machine.execColl x s
  | .dred x => Sys2Proof.Machine.execDred x s
  | .stash x => Sys2Proof.Machine.execStash x s
  | .seal h => Sys2Proof.Machine.execSeal h s
  | .qpush x => Sys2Proof.Machine.execQpush x s
  | .qfire d a g => Sys2Proof.Machine.execQfire d a g s
  | .qstat d a g => Sys2Proof.Machine.execQstat d a g s
  | .eslotGet d a => Sys2Proof.Machine.execEslotGet d a s
  | .eslotReady a => Sys2Proof.Machine.execEslotReady a s
  | .eslotPut a => Sys2Proof.Machine.execEslotPut a s
  | .qcomb x => Sys2Proof.Machine.execQcomb x s
  | .qdrain x => Sys2Proof.Machine.execQdrain x s
  | .equinoxTick => Sys2Proof.Machine.execEquinoxTick s
  | .issueArbitration p => Sys2Proof.Machine.execIssueArbitration p s
  | .yieldExpiry f => Sys2Proof.Machine.execYieldExpiry f s
  | .instructionFetch core tcid line => Sys2Proof.Machine.execInstructionFetch core tcid line s
  | .loadDataReturn f => Sys2Proof.Machine.execLoadDataReturn f s
  | .stwPerformed n => Sys2Proof.Machine.execStwPerformed n s
  | .tableWalkComplete n => Sys2Proof.Machine.execTableWalkComplete n s
  | .lineFirstTouch l => Sys2Proof.Machine.execLineFirstTouch l s
  | .lineFillComplete l => Sys2Proof.Machine.execLineFillComplete l s
  | .lineReplacement die => Sys2Proof.Machine.execLineReplacement die s
  | .writeBackComplete l => Sys2Proof.Machine.execWriteBackComplete l s
  | .engineElementComplete cmd n => Sys2Proof.Machine.execEngineElementComplete cmd n s
  | .copyRowArrival cmd row => Sys2Proof.Machine.execCopyRowArrival cmd row s
  | .commandDecrement ctx p => Sys2Proof.Machine.execCommandDecrement ctx p s
  | .remoteAccessArrival x => Sys2Proof.Machine.execRemoteAccessArrival x s
  | .remoteResponseArrival request st data => Sys2Proof.Machine.execRemoteResponseArrival request st data s
  | .collectiveContribution x => Sys2Proof.Machine.execCollectiveContribution x s
  | .fenceCompletion f => Sys2Proof.Machine.execFenceCompletion f s
  | .waitCompletion f => Sys2Proof.Machine.execWaitCompletion f s
  | .wchildCompletion f => Sys2Proof.Machine.execWchildCompletion f s
  | .fullEmptyRelease f => Sys2Proof.Machine.execFullEmptyRelease f s
  | .shmapPairing f => Sys2Proof.Machine.execShmapPairing f s
  | .regroupCompletion block => Sys2Proof.Machine.execRegroupCompletion block s
  | .regroupContextResident ctx => Sys2Proof.Machine.execRegroupContextResident ctx s
  | .fragmentUnpark f => Sys2Proof.Machine.execFragmentUnpark f s
  | .contextResumption f => Sys2Proof.Machine.execContextResumption f s
  | .geyserRequestStart p => Sys2Proof.Machine.execGeyserRequestStart p s
  | .geyserGroupComplete p => Sys2Proof.Machine.execGeyserGroupComplete p s
  | .geyserRequestAgeing p => Sys2Proof.Machine.execGeyserRequestAgeing p s
  | .contractionClosure block tile strip site => Sys2Proof.Machine.execContractionClosure block tile strip site s
  | .awaitCompletion f => Sys2Proof.Machine.execAwaitCompletion f s
  | .tlbiCompletion n => Sys2Proof.Machine.execTlbiCompletion n s
  | .pmapCompletion f => Sys2Proof.Machine.execPmapCompletion f s
  | .sealCompletion f => Sys2Proof.Machine.execSealCompletion f s
  | .childQueueRoom f => Sys2Proof.Machine.execChildQueueRoom f s
  | .eslotWaitRetry f => Sys2Proof.Machine.execEslotWaitRetry f s
  | .qdrainEnqueue f => Sys2Proof.Machine.execQdrainEnqueue f s
  | .launchActivation => Sys2Proof.Machine.execLaunchActivation s
  | .launchQueueAgeing q => Sys2Proof.Machine.execLaunchQueueAgeing q s
  | .blockPlacement die => Sys2Proof.Machine.execBlockPlacement die s
  | .placementStarvation => Sys2Proof.Machine.execPlacementStarvation s
  | .allocationCleared core => Sys2Proof.Machine.execAllocationCleared core s
  | .contextDeparture ctx => Sys2Proof.Machine.execContextDeparture ctx s
  | .blockRetire block => Sys2Proof.Machine.execBlockRetire block s
  | .launchCompletion seq => Sys2Proof.Machine.execLaunchCompletion seq s
  | .phaseEnd tcid => Sys2Proof.Machine.execPhaseEnd tcid s
  | .queueAppend n => Sys2Proof.Machine.execQueueAppend n s
  | .firingDecision die => Sys2Proof.Machine.execFiringDecision die s
  | .preemptionBoundExpiry ctx => Sys2Proof.Machine.execPreemptionBoundExpiry ctx s
  | .contextSave block => Sys2Proof.Machine.execContextSave block s
  | .pcSample p => Sys2Proof.Machine.execPcSample p s
  | .tailWrite tail slots => Sys2Proof.Machine.execTailWrite tail slots s
  | .noticesConsumedWrite n => Sys2Proof.Machine.execNoticesConsumedWrite n s
  | .bar0OtherWrite offset val => Sys2Proof.Machine.execBar0OtherWrite offset val s
  | .writeMemory => Sys2Proof.Machine.execWriteMemory s
  | .readMemory => Sys2Proof.Machine.execReadMemory s
  | .launchCommand => Sys2Proof.Machine.execLaunchCommand s
  | .preEmpt => Sys2Proof.Machine.execPreEmpt s
  | .resume => Sys2Proof.Machine.execResume s
  | .debuggerHalt => Sys2Proof.Machine.execDebuggerHalt s
  | .debuggerRead => Sys2Proof.Machine.execDebuggerRead s
  | .translationContextEntry => Sys2Proof.Machine.execTranslationContextEntry s
  | .invalidate => Sys2Proof.Machine.execInvalidate s
  | .poolTail => Sys2Proof.Machine.execPoolTail s
  | .parkAnswerResume => Sys2Proof.Machine.execParkAnswerResume s
  | .parkAnswerFail => Sys2Proof.Machine.execParkAnswerFail s
  | .queueEntry => Sys2Proof.Machine.execQueueEntry s
  | .classEntry => Sys2Proof.Machine.execClassEntry s
  | .slotSetEntry => Sys2Proof.Machine.execSlotSetEntry s
  | .windowEntry => Sys2Proof.Machine.execWindowEntry s
  | .linkTables => Sys2Proof.Machine.execLinkTables s
  | .collectiveGroup => Sys2Proof.Machine.execCollectiveGroup s
  | .areas => Sys2Proof.Machine.execAreas s
  | .areaConsumedCount => Sys2Proof.Machine.execAreaConsumedCount s
  | .regionCreate => Sys2Proof.Machine.execRegionCreate s
  | .regionFree => Sys2Proof.Machine.execRegionFree s
  | .stashQuotas => Sys2Proof.Machine.execStashQuotas s
  | .invalidHandleCounterRead => Sys2Proof.Machine.execInvalidHandleCounterRead s
  | .dropCountRead => Sys2Proof.Machine.execDropCountRead s
  | .refusedCounterRead => Sys2Proof.Machine.execRefusedCounterRead s
  | .lostCountRead => Sys2Proof.Machine.execLostCountRead s
  | .errorLogRead => Sys2Proof.Machine.execErrorLogRead s
  | .errorLogRemove => Sys2Proof.Machine.execErrorLogRemove s
  | .recoveryImage => Sys2Proof.Machine.execRecoveryImage s
  | .attestation => Sys2Proof.Machine.execAttestation s
  | .writePhysical => Sys2Proof.Machine.execWritePhysical s
  | .readPhysical => Sys2Proof.Machine.execReadPhysical s
  | .unknownCommand => Sys2Proof.Machine.execUnknownCommand s
  | .packageReset => Sys2Proof.Machine.execPackageReset s
  | .thawEnd => Sys2Proof.Machine.execThawEnd s
  | .powerLimitReached => Sys2Proof.Machine.execPowerLimitReached s
  | .powerLimitCleared => Sys2Proof.Machine.execPowerLimitCleared s
  | .debugPortUnlock sig => Sys2Proof.Machine.execDebugPortUnlock sig s
  | .solsticeArm at_ => Sys2Proof.Machine.execSolsticeArm at_ s
  | .solsticeLatch => Sys2Proof.Machine.execSolsticeLatch s
  | .shadowRelease => Sys2Proof.Machine.execShadowRelease s
  | .equinoxStopArm at_ => Sys2Proof.Machine.execEquinoxStopArm at_ s
  | .equinoxStop => Sys2Proof.Machine.execEquinoxStop s
  | .debugScanOut => Sys2Proof.Machine.execDebugScanOut s
  | .ualinkPortDeath port => Sys2Proof.Machine.execUalinkPortDeath port s
  | .linkCrcRetry port => Sys2Proof.Machine.execLinkCrcRetry port s
  | .tier2LinkDown port => Sys2Proof.Machine.execTier2LinkDown port s
  | .hostRangeReport base size => Sys2Proof.Machine.execHostRangeReport base size s
  | .ill => Sys2Proof.Machine.execIll s
  | .hostLinkDeath => Sys2Proof.Machine.execHostLinkDeath s
  | .debuggerResume ctx => Sys2Proof.Machine.execDebuggerResume ctx s
  | .debuggerWrite f x => Sys2Proof.Machine.execDebuggerWrite f x s
  | .bitError x double => Sys2Proof.Machine.execBitError x double s

end Sys2Proof.Machine
end

