-- ==== Sys2Proof/Machine/Auto.lean ====
section
/-! DEFINITION. What the machine does next where nothing comes from outside: the order in which its own events are tried, and the execution of
a chosen fragment's instruction. -/

namespace Sys2Proof.Machine

open Sys2Proof

/-! ### The machine's own events -/

/-- The event that a wait ends with. -/
def State.waitEvent (s : State) (c : Ctx) (f : Frag) (w : Wait) : List Instr :=
  let r : FragRef := ⟨c.id, f.id⟩
  match w.what with
  | .fetch l => [.instructionFetch c.core (s.ctxTcid c) l]
  | .retry => []
  | .collector _ => []
  | .bar _ => []
  | .fence => [.fenceCompletion r]
  | .counter => [.waitCompletion r]
  | .wchild => [.wchildCompletion r]
  | .fullEmpty => [.fullEmptyRelease r]
  | .shmap => [.shmapPairing r]
  | .regroup => [.regroupCompletion c.block]
  | .await => [.awaitCompletion r]
  | .queueRoom => []
  | .tlbi _ => []
  | .pmap => [.pmapCompletion r]
  | .seal => [.sealCompletion r]
  | .qpush => []
  | .childQueue => [.childQueueRoom r]
  | .eslot _ => [.eslotWaitRetry r]
  | .qdrain => [.qdrainEnqueue r]

/-- Events of a fragment. -/
def State.fragEvents (s : State) (c : Ctx) (f : Frag) : List Instr :=
  let r : FragRef := ⟨c.id, f.id⟩
  (if f.loads.isEmpty then [] else [.loadDataReturn r]) ++
    (match f.wait with
      | some w => s.waitEvent c f w
      | none => []) ++
    (if f.entryParked.isSome then [.fragmentUnpark r] else []) ++
    (if f.state == .parked && f.park.isNone then [.contextResumption r] else []) ++
    (if f.yieldUntil = 0 then [] else [.yieldExpiry r])

/-- Events of a context. -/
def State.ctxEvents (s : State) (c : Ctx) : List Instr :=
  c.frags.flatMap (s.fragEvents c) ++ (if c.state == .parked then [.regroupContextResident c.id] else []) ++
    (if c.preempt.isSome then [.preemptionBoundExpiry c.id] else []) ++ [.contextDeparture c.id]

def allPaths : List Path := [.sh, .sp, .cp, .ga, .xa, .co]

/-- The next element of a command that has not been started. -/
def Cmd.nextElement (c : Cmd) : Option Nat :=
  ((List.range 64).map fun k => c.doneCount + k).find? fun n => decide (n < c.total) && !c.started n

/-- Events of a command. -/
def Cmd.events (c : Cmd) : List Instr :=
  (match c.nextElement with
    | some n => [.engineElementComplete c.id n]
    | none => []) ++
    (c.rows.map fun r => .copyRowArrival c.id r) ++ [.commandDecrement c.ctx c.path]

/-- Events of a die's lines. -/
def State.lineEvents (s : State) (die : Nat) : List Instr :=
  let d := s.die die
  (d.lineReqs.flatMap fun q => [.lineFillComplete ⟨die, q.slot, q.line⟩, .lineFirstTouch ⟨die, q.slot, q.line⟩]) ++
    (if d.wantsLine then [.lineReplacement die] else [])

/-- Events of a partition's array. -/
def partEvents (p : PartRef) : List Instr := [.geyserRequestAgeing p, .geyserGroupComplete p, .geyserRequestStart p]

/-- Events of a block. -/
def Block.events (b : Block) : List Instr :=
  (b.tiles.flatMap fun t => t.opens.map fun x => .contractionClosure b.id (Fin.ofNat 8 t.tile) (t.strip.getD 0) (Fin.ofNat 16 x.site)) ++
    [.blockRetire b.id, .contextSave b.id]

def fourDies : List Nat := [0, 1, 2, 3]

/-- Events of the launch engine: ageing and starvation before the choices that they bear on. -/
def State.launchEvents (s : State) : List Instr :=
  ((List.finRange 64).filter fun q => !(s.queued q.val).isEmpty).map (fun q => .launchQueueAgeing q) ++ [.placementStarvation, .launchActivation] ++
    (((s.blocks.filter fun b => !b.placed).map fun b => b.core).eraseDups.map fun n => .allocationCleared n) ++
    fourDies.map (fun d => .blockPlacement d) ++
    (s.launches.filter fun l => l.det).map (fun l => .phaseEnd l.tcid) ++ s.launches.map fun l => .launchCompletion l.seq

/-- Every event that may be due, in the order in which they are tried; the tick comes after all of them. -/
def State.moves (s : State) : List Instr :=
  [.solsticeLatch, .equinoxStop] ++
    (match s.command? with
      | some c => [c.row]
      | none => []) ++
    (match s.pmapping with
      | some q => [.pmapCompletion q.who]
      | none => []) ++
    (s.walks.map fun w => .tableWalkComplete w.id) ++ fourDies.flatMap s.lineEvents ++
    (s.writeBacks.map fun w => .writeBackComplete ⟨w.die, w.slot, w.line⟩) ++ (s.stores.map fun p => .stwPerformed p.id) ++
    s.cmds.flatMap Cmd.events ++ (s.tlbis.map fun q => .tlbiCompletion q.id) ++
    (((s.pushes.filter fun q => q.status.isNone).map fun q => .queueAppend q.id)) ++ fourDies.map (fun d => .firingDecision d) ++
    s.blocks.flatMap Block.events ++ s.ctxs.flatMap s.ctxEvents ++ s.busyParts.flatMap partEvents ++ s.launchEvents ++
    (s.busyParts.map fun p => .issueArbitration p) ++ s.busyParts.map fun p => .pcSample p

/-- The first of a list that is due; the tick where none is. -/
def State.firstOf (s : State) : List Instr → Out
  | [] => exec .equinoxTick s
  | i :: is =>
    match exec i s with
    | .next s' => .next s'
    | _ => State.firstOf s is

/-- The machine's own next event. -/
def State.auto (s : State) : Out := s.firstOf s.moves

/-! ### A chosen fragment -/

/-- The fragment can still execute an instruction. -/
def State.canRun (s : State) (r : FragRef) : Bool :=
  match s.ctx? r.ctx with
  | none => false
  | some c => s.mayIssue c && ({ s with cur := some r }.env? (.nop ⟨0, false⟩)).isSome

/-- Fetch, decode and execute the instruction at a fragment's pc (R210, R213); a line that is not there is waited for. -/
def State.runFrag (s : State) (r : FragRef) : Out :=
  match s.ctx? r.ctx, s.frag? r with
  | some c, some f =>
    match s.fetchCode c.core (s.ctxTcid c) f.pc with
    | .error l => .next (s.waitLine r l)
    | .ok ws => exec (decodeOrIll ws).1 { s with cur := some r }
  | _, _ => .fault .noFragment

/-- A fragment is looked at: where its next instruction finds a load's data missing it waits for it; nothing else of the instruction is done. -/
def State.look (s : State) (r : FragRef) : State :=
  let s := s.updFrag r fun f => { f with looked := s.cycle + 1 }
  match s.ctx? r.ctx, s.frag? r with
  | some c, some f =>
    match s.fetchCode c.core (s.ctxTcid c) f.pc with
    | .error _ => s
    | .ok ws =>
      match exec (decodeOrIll ws).1 { s with cur := some r } with
      | .next t => if ((t.frag? r).bind fun f => f.wait).any fun w => w.reason == 1 then t else s
      | _ => s
  | _, _ => s

/-- The chosen fragments that can still execute. -/
def State.livePicks (s : State) : List FragRef := s.picks.dropWhile fun r => !s.canRun r

/-! ### A program for the host's check -/

/-- The launch of one block of 64 items whose code the check places. -/
def probeLaunch (seq tick : Nat) : Launch :=
  let d : LDesc := { header := 0x1000, n := 64, n0 := 1, n1 := 1, prio := 0, args := [] }
  let h : KHeader :=
    { blocksize := 64, vregs := 384, kregs := 64, stripTiles := 0x0F, blockTiles := 0xF0, spill := 16384, shared := 256, scratch := 0 }
  { mkLaunch seq 0 (.mailbox 0) d h 0 0 tick with state := .placed, nextBlock := 1, lctx := { pc := 0x1040, regs := launchRegs d, stopped := true } }

/-- The 64 bytes of the line at the pc. -/
def probeLine (nbits w : Nat) : List Byte := (bytesOfNat (nbits / 8) w ++ List.replicate 64 0#8).take 64

/-- One context of one fragment, resident and chosen, with the bytes in the instruction cache at its pc. -/
def State.probe (s : State) (nbits w : Nat) : State :=
  let l := probeLaunch (s.launchSeq + 1) s.tick
  let id := s.nextId
  let b := { newBlock id l ⟨0, 0, 0, 0⟩ id with index := 0, exists_ := Lanes.below 64, placed := true, toClear := 0 }
  let entry := (s.freshEntries 0 0 1).headD 0
  let slot := (s.freeSlots 0 0).headD 0
  let root := rootFrag entry 0 0x1040 (Lanes.below 64) (launchRegs l.desc) s.cycle
  let c := freshCtx (id + 1) id 0 0 slot 1 0 0 none 0 (Lanes.below 64) root
  let x : ILine := { tcid := 0, line := 0x1040, bytes := probeLine nbits w, gen := s.codeGen, words := [] }
  let s : State := { s with launchSeq := s.launchSeq + 1, nextId := id + 2, launches := s.launches ++ [l], blocks := s.blocks ++ [b]
                            ctxs := s.ctxs ++ [c], script := [], picks := [⟨id + 1, 0⟩], mgmt := { s.mgmt with stopped := false } }
  s.updCore 0 fun k => { k with icache := x :: k.icache.filter fun y => !(y.tcid == 0 && y.line == 0x1040) }

end Sys2Proof.Machine
end

