-- ==== Sys2Proof/Machine/Step.lean ====
section
/-! DEFINITION. One step of the machine, and the placing of an instruction for the host's check. -/

namespace Sys2Proof.Machine

open Sys2Proof

/-- One step. While every clock is gated only a package reset and the debug port's scan-out happen (R415). A Solstice latch or an Equinox stop that
is due comes before everything of its tick (R414, R415). Else an input that is due comes first, then the fragments chosen by issue arbitration,
then a look at the fragments that may wait for a load, then the machine's own next event. -/
def step (s : State) : Host.Outcome State Fault Refusal :=
  if s.boundaryDue && s.picks.isEmpty && !s.mgmt.stopped then s.auto
  else
    match s.script with
    | m :: rest =>
      if s.mgmt.stopped ∧ m ≠ .packageReset ∧ m ≠ .debugScanOut then .fault .clocksGated else exec m { s with script := rest }
    | [] =>
      if s.mgmt.stopped then .fault .clocksGated
      else
        match s.livePicks with
        | r :: rest => State.runFrag { s with picks := rest } r
        | [] =>
          let s := { s with picks := [] }
          match s.toLook with
          | some r => .next (s.look r)
          | none => s.auto

/-- The state with an instruction where the next step fetches it. -/
def State.withFetchWord (s : State) (nbits w : Nat) : State := s.probe nbits w

end Sys2Proof.Machine
end

