-- ==== Sys2Proof/Safety.lean ====
section
/-! DEFINITION. What claims about the machine are stated in: when an instruction issues with nothing in its way, the state that it then
leaves, what has stayed as it was, and the forms of a well-kept state. -/

namespace Sys2Proof.Machine

open Sys2Proof

/-! ### Safe runs -/

/-- A run of n steps that meets neither a fault nor a refusal of the model. -/
def SafeRun (s : State) : Nat → Prop
  | 0 => True
  | n + 1 => ∃ t, step s = .next t ∧ SafeRun t n

/-- Every memory of the state is in its canonical form. -/
def State.memOk (s : State) : Bool :=
  s.tier1.wf && s.tier2.wf && s.host.wf && s.mgmt.staging.wf && s.blocks.all (fun b => b.shared.wf) &&
    s.dies.toList.all fun d => d.scratch.wf

/-! ### An undisturbed issue -/

/-- An instruction issues with nothing in its way: a fragment executes it, the registers that it uses are within `.vregs` and
even where they must be (R9, R183), none awaits a load (R360), no operand collector holds it (R184), the spin detector follows no register of a
mapped range (R188), and no word of the context is damaged (R98). -/
structure Issues (i : Instr) (s : State) (e : Env) (uses : List VUse) : Prop where
  env : s.env? i = some e
  regs : (uses.all fun u => u.ok e.l.hdr.vregs) = true
  data : e.blocked uses = false
  gathered : e.collect uses = none
  watch : e.c.shmap = none ∨ e.f.spin.regs = none
  sound : e.c.damage = []

/-- An address at which the fragment does not arrive at its reconvergence point (R173). -/
abbrev Env.straight (e : Env) (pc : VAddr) : Prop := e.f.parent = none ∨ pc ≠ e.f.reconv

/-- The fragment of `e` once its instruction counts as issued. -/
def Env.issued (e : Env) (k : Cost) : Frag :=
  { e.f with lastIssue := e.s.cycle, trapWait := false, busy := e.s.cycle + k.ticks, bank := k.bank, collector := none }

/-- The state once the instruction has issued, with `f` for its fragment and `mat` for the MAT storage of its context. -/
def Env.left (e : Env) (k : Cost) (f : Frag) (mat : SMap (List W32)) : State :=
  (e.mark k).s.setCtx { ((e.mark k).c.setFrag f) with mat := mat }

/-- The same, with the fragment past its instruction and its registers as `R`. -/
def Env.passed (e : Env) (k : Cost) (R : RegFile) : State :=
  e.left k { e.issued k with regs := R.regs, pc := e.next } R.mat

/-- The same, with the fragment at `pc` and its registers as they were. -/
def Env.jumped (e : Env) (k : Cost) (pc : VAddr) : State := e.left k { e.issued k with pc := pc } e.c.mat

/-- The fragment moves to `pc`, and arrives where that is its reconvergence address (R173). -/
def Env.moved (e : Env) (k : Cost) (pc : VAddr) : State := (e.left k (e.issued k) e.c.mat).goto e.r pc

/-- An instruction that no item passes is gone past (R238). -/
def Env.skipped (e : Env) (k : Cost) : State := e.moved k e.next

/-- The registers become `R`, a mapped range of the partner with them (R186), and the fragment is past its instruction. -/
def Env.settled (e : Env) (k : Cost) (R : RegFile) : State :=
  (shSync (e.left k { e.issued k with regs := R.regs } R.mat) e.r.ctx).goto e.r e.next

/-- The instruction was ready when it left `t` (R360), and no capacity cut comes first: the context has one strip, or the machine has room for
what `t` holds beyond the first strip of a pass (R70, R71) and the fragment has not fused away in it. -/
abbrev Env.fits (e : Env) (t : State) : Prop :=
  (maybeUnready e.i && t.unready e.r) = false ∧ (e.c.strips ≤ 1 ∨ (e.overfull t = false ∧ (t.frag? e.r).isSome = true))

/-- The state in which the effect of an instruction is carried out: it counts as issued, and its fragment is not yet past it. -/
def Env.during (e : Env) (k : Cost) : State := e.left k (e.issued k) e.c.mat

/-! ### What stays as it was -/

/-- Every byte that can be read reads as before. -/
structure SameMemory (s t : State) : Prop where
  tier1 : ∀ a, t.tier1.read a = s.tier1.read a
  tier2 : ∀ a, t.tier2.read a = s.tier2.read a
  host : ∀ a, t.host.read a = s.host.read a
  shared : ∀ b a, ((t.block? b).map fun x => x.shared.read a) = (s.block? b).map fun x => x.shared.read a
  spill : ∀ b, ((t.block? b).map fun x => x.spill) = (s.block? b).map fun x => x.spill
  scratch : ∀ d a, (t.die d).scratch.read a = (s.die d).scratch.read a

/-- The state but for its contexts and fragments, the issue state of its cores and the model's own counter of free values. -/
def State.apart (s : State) : State := { s with ctxs := [], cores := [], freeCtr := 0 }

/-- A context but for its fragments, its MAT storage and whether it has issued in this cycle. -/
def Ctx.apart (c : Ctx) : Ctx := { c with frags := [], mat := [], issued := false }

/-- A partition but for its slots: who issued last, when, and until when they are held. -/
def Part.apart (p : Part) : Part := { p with busyL := 0, busyC := 0, issL := none, issC := none, sinceL := 0, sinceC := 0 }

/-- Nothing but fragment `r` and the words that it holds has changed. -/
structure SameElse (s t : State) (r : FragRef) : Prop where
  apart : t.apart = s.apart
  ctxs : ∀ c, (t.ctx? c).map Ctx.apart = (s.ctx? c).map Ctx.apart
  frags : ∀ q, q ≠ r → t.frag? q = s.frag? q
  icache : ∀ n, (t.core n).icache = (s.core n).icache
  tlb : ∀ n, (t.core n).tlb = (s.core n).tlb
  parts : ∀ n p, (t.part n p).apart = (s.part n p).apart

/-- MAT storage of a context of n positions is as before at the positions outside a mask. -/
def SameMat (n : Nat) (own : Lanes) (old new : SMap (List W32)) : Prop :=
  ∀ r i, i < n → own.getLsbD i = false → (SMap.getD new r []).getD i 0 = (SMap.getD old r []).getD i 0

/-- The registers that an instruction may write: vector registers, k registers and predicates, and whether it shifts the bypass
latches. -/
structure Written where
  v : List Nat
  k : List (Fin 64)
  p : List (Fin 16)
  latches : Bool

/-- The registers of a fragment but for the written ones. -/
structure SameRegs (w : Written) (old new : Regs) : Prop where
  kregs : ∀ n, n ∉ w.k → new.k[n] = old.k[n] ∧ new.kw.getLsbD n = old.kw.getLsbD n
  vregs : ∀ r, r ∉ w.v → SMap.getD new.vtags r (.uni 0) = SMap.getD old.vtags r (.uni 0)
  preds : ∀ n, n ∉ w.p → new.preds[n] = old.preds[n]
  latches : w.latches = false → new.latches = old.latches ∧ new.shifts = old.shifts
  fmt : new.fmt = old.fmt
  rstack : new.rstack = old.rstack

/-- The inputs of a region but for the written registers. -/
structure SameSnap (w : Written) (old new : RegionSnap) : Prop where
  k : new.k = old.k
  vregs : ∀ r, r ∉ w.v → SMap.get? new.vregs r = SMap.get? old.vregs r
  preds : ∀ n, n ∉ w.p → new.preds[n] = old.preds[n]
  fmt : new.fmt = old.fmt
  rstack : new.rstack = old.rstack

/-- A trap shadow but for what a handler's instruction writes of the interrupted region's inputs (R63). -/
structure SameShadow (w : Written) (old new : Option Shadow) : Prop where
  none : old = none → new = none
  some : ∀ a, old = some a → ∃ b, new = some b ∧
    { b with region := { b.region with snap := a.region.snap }, held := a.held } = a ∧
    SameSnap w a.region.snap b.region.snap ∧ SameSnap w a.held b.held

/-- Nothing but the written registers of the issuing fragment has changed, at its own items; its pc may have moved. -/
structure Touches (s t : State) (e : Env) (w : Written) : Prop where
  elsewhere : SameElse s t e.r
  memory : SameMemory s t
  frag : ∃ c f, t.ctx? e.r.ctx = some c ∧ c.frag? e.r.frag = some f ∧
    { f with regs := e.f.regs, pc := e.f.pc, lastIssue := e.f.lastIssue, trapWait := e.f.trapWait, busy := e.f.busy, bank := e.f.bank,
             collector := e.f.collector, shadow := e.f.shadow } = e.f ∧
    SameRegs w e.f.regs f.regs ∧ SameShadow w e.f.shadow f.shadow ∧ (∀ r, r ∉ w.v → SMap.getD c.mat r [] = SMap.getD e.c.mat r []) ∧
    SameMat e.c.width e.f.mask e.c.mat c.mat

/-! ### Mailbox commands -/

/-- The state once a command is applied with a status (R397, R400). -/
def State.replied (s : State) (c : Command) (status : Nat) (w2 w3 : W64) : State :=
  { s with mbox := s.mbox.next }.statusNotice c status w2 w3

/-- A command that the engine may apply now: it is at the head of the ring, it belongs to the row, and none of the general grounds
for refusing it holds (R398, R421). -/
structure Applies (row : Instr) (s : State) (c : Command) : Prop where
  head : s.command? = some c
  row : c.row = row
  reserved : c.reserved = false
  recovery : s.mgmt.recovery = true → c.code = 0x01 ∨ c.code = 0x15
  owned : ownedCode c.code = true → (s.tcid c.tcid).valid = true

end Sys2Proof.Machine
end

