-- ==== Sys2Proof/Certificates/Slice0/Obligations.lean ====
section
/-! DEFINITION. The statements for the provers. `Sys2Proof.Claims` holds what they are said with. -/

namespace Sys2Proof.Claims

open Sys2Proof Sys2Proof.Machine

/-! ### Words printed in the spec -/

/-- Words that the spec prints for an instruction, with what they stand for. -/
def printed : List (List W32 × Instr) :=
  let g : Guard := ⟨0, false⟩
  let o : LOpt := ⟨g, false, none⟩
  [([0x27138801, 0x00001C4E], .nop g),
   ([0x00010102, 0x00000100], .bra ⟨1, false, false, 4, 4⟩),
   ([0x00030003, 0x40000000], .jmpIndirect 12),
   ([0xFFFF8906, 0x0000003F], .loop 9 0xFFFFFE),
   ([0x27138808, 0x0000BC4E], .exit ⟨5, false⟩),
   ([0x20000430, 0x00001C4C], .add ⟨.i32, .v 2, .v 0, .reg (.k 4), o⟩),
   ([0x171C0645, 0x80001C40], .shl ⟨.i32, .v 3, .iidx, .imm 2, o⟩),
   ([0x07100854, 0x00000002], .movi ⟨.v 4, 2, g, false⟩),
   ([0x01C420F0, 0x38180A70, 0x00001C40], .fadd ⟨.f32, .v 5, .v 6, .v 7, ⟨g, false, some ⟨0, false, some .rz⟩⟩⟩),
   ([0x60C100A1, 0x46038830], .opa ⟨2, 3, false, false, 0, false, 0, .zero, 3, 12, 3, 8, g⟩),
   ([0x0FC4E0F0, 0x138802B0, 0x80014007], .lds ⟨2, .i32, true, .blk, ⟨.zero, 960, true⟩, g⟩),
   ([0x138802B2, 0x400A4007], .ldw ⟨1, ⟨2, .i32, true, .dev, ⟨.zero, 32, false⟩, g⟩⟩)]

/-- The base opcodes of R229. -/
def assigned (op : Nat) : Bool :=
  (decide (0x01 ≤ op) && decide (op ≤ 0x21)) || (decide (0x30 ≤ op) && decide (op ≤ 0x5A)) || (decide (0x60 ≤ op) && decide (op ≤ 0x67)) ||
    (decide (0x70 ≤ op) && decide (op ≤ 0x85)) || (decide (0x90 ≤ op) && decide (op ≤ 0x9A)) || (decide (0xA0 ≤ op) && decide (op ≤ 0xAA)) ||
    (decide (0xB0 ≤ op) && decide (op ≤ 0xBE)) || (decide (0xC0 ≤ op) && decide (op ≤ 0xC7)) || (decide (0xD0 ≤ op) && decide (op ≤ 0xD5))

end Sys2Proof.Claims

open Sys2Proof Sys2Proof.Machine Sys2Proof.Claims

/-! ### Encoding -/

/-- Twelve instructions of the printed examples, one or more of each format, decode to what the spec says they are (R230, R240-R246). -/
def Obligations.PrintedWordsDecode : Prop :=
  ∀ x ∈ printed, decode x.1 = .ok (x.2, 4 * x.1.length)

/-- Every instruction, with every operand at every value that its encoding admits, is read back from its words: no bit of an encoding is
dropped. -/
def Obligations.EncodeThenDecode : Prop :=
  ∀ i : Instr, i.wellFormed = true → i.isEvent = false → decode (encodeWords i) = .ok (i, 4 * (encodeWords i).length)

/-- What decodes is a well-formed instruction, of 8 or 12 bytes, and the words are its one encoding. -/
def Obligations.DecodingIsCanonical : Prop :=
  ∀ ws i n, decode ws = .ok (i, n) →
    i.wellFormed = true ∧ i.isEvent = false ∧ (n = 8 ∨ n = 12) ∧ encodeWords i = ws.take (n / 4)

/-- No word sequence with a base opcode outside the opcode map, and none that begins with two leading words, is an instruction: the core
executes the illegal-instruction row for it (R229, R230). -/
def Obligations.UnassignedOpcodesAreIllegal : Prop :=
  ∀ (w0 w1 : W32) (rest : List W32),
    (w0.toNat % 256 ≠ 0xF0 → assigned (w0.toNat % 256) = false → (decodeOrIll (w0 :: w1 :: rest)).1 = .ill) ∧
    (w0.toNat % 256 = 0xF0 → w1.toNat % 256 = 0xF0 ∨ assigned (w1.toNat % 256) = false → (decodeOrIll (w0 :: w1 :: rest)).1 = .ill)

/-! ### The step -/

/-- A step executes what the words at the chosen fragment's pc decode to, and only that (R210, R211); words that are no instruction
execute the illegal-instruction row (R213). An input that is due is taken first. Once every chosen fragment has run, a Solstice latch or an Equinox
stop that is due comes before everything else of its tick, an input too (R414, R415). -/
def Obligations.StepRunsDecodedInstruction : Prop :=
  (∀ (s : State) (r : FragRef) (rest : List FragRef) (c : Ctx) (f : Frag) (ws : List W32),
    s.script = [] → s.mgmt.stopped = false → s.livePicks = r :: rest → s.ctx? r.ctx = some c → s.frag? r = some f →
    s.fetchCode c.core (s.ctxTcid c) f.pc = .ok ws →
    (∀ i n, decode ws = .ok (i, n) → step s = exec i { s with picks := rest, cur := some r }) ∧
    (∀ why, decode ws = .error why → step s = exec .ill { s with picks := rest, cur := some r })) ∧
  (∀ s : State, s.picks = [] → s.boundaryDue = true → s.mgmt.stopped = false →
    step s = if s.solsticeDue then exec .solsticeLatch s else exec .equinoxStop s)

/-- No step is refused, since every row of the opcode table has its meaning; and a clocked machine never comes to a stop: with no input due, one of
its own events or the tick is always possible, so that every step answers a next state. -/
def Obligations.ClockedMachineMoves : Prop :=
  (∀ (s : State) (why : Refusal), step s ≠ .refused why) ∧
  (∀ s : State, s.script = [] → s.mgmt.stopped = false → ∃ t, step s = .next t)

/-- While Equinox stop gates every clock nothing happens but a package reset and the debug port's scan-out, and the package reset is
the way out (R415). -/
def Obligations.StoppedMachineWaitsForReset : Prop :=
  (∀ s : State, s.mgmt.stopped = true → s.script = [] → step s = .fault .clocksGated) ∧
  (∀ (s : State) (i : Instr) (rest : List Instr), s.mgmt.stopped = true → s.script = i :: rest → i ≠ .packageReset → i ≠ .debugScanOut →
    step s = .fault .clocksGated) ∧
  (∀ (s : State) (rest : List Instr), s.mgmt.stopped = true → s.script = .packageReset :: rest →
    ∃ t, step s = .next t ∧ t.mgmt.stopped = false ∧ t.tick = 0) ∧
  (∀ (s : State) (rest : List Instr), s.mgmt.stopped = true → s.mgmt.portOpen = true → s.script = .debugScanOut :: rest →
    ∃ t, step s = .next t ∧ t.mgmt.stopped = true ∧ t.tick = s.tick)

/-! ### Reset -/

/-- At reset every memory is in its canonical form. -/
def Obligations.ResetMemoryIsCanonical : Prop := State.reset.memOk = true

/-- What reset leaves: the tick reads 0, nothing runs, every translation context is invalid, the Thaw service runs on a good configuration record and
image and recovery does not, the debug port is closed, and no clock is gated. A package reset from any state leaves the same, keeps tier-2
memory and the flash, keeps tier-1 memory too but for a reset out of Equinox stop, and goes into recovery where record, image or core mask
fails (R407, R415, R418, R420, R421, R423). The fields that the spec gives no value for are the model's choice (log entry 20), and so is what a
package reset keeps (log entries 3 and 100). -/
def Obligations.ResetLeavesAnIdleMachine : Prop :=
  (State.reset.tick = 0 ∧ State.reset.launches = [] ∧ State.reset.blocks = [] ∧ State.reset.ctxs = [] ∧ State.reset.cmds = [] ∧
   (∀ d, (State.reset.die d).regions = []) ∧ (∀ n, (State.reset.tcid n).valid = false) ∧ State.reset.mgmt.thaw = true ∧
   State.reset.mgmt.recovery = false ∧ State.reset.mgmt.portOpen = false ∧ State.reset.mgmt.stopped = false ∧
   (∀ n p, (State.reset.part n p).arr = [])) ∧
  (∀ s : State, (s.mgmt.coreMask = 0 → s.mgmt.recordOk = false) ∧ ∃ t, exec .packageReset s = .next t ∧ t.tick = 0 ∧ t.launches = [] ∧ t.blocks = [] ∧ t.ctxs = [] ∧ t.cmds = [] ∧
     t.tcids = [] ∧ t.tier2 = s.tier2 ∧ t.mgmt.flash = s.mgmt.flash ∧ t.mgmt.stopped = false ∧ t.mgmt.portOpen = false ∧
     (s.mgmt.stopped = false → t.tier1 = s.tier1) ∧
     (t.mgmt.thaw = true ↔ s.mgmt.recordOk = true ∧ imageOk s.mgmt.flash = true) ∧
     (t.mgmt.recovery = true ↔ t.mgmt.thaw = false))

/-! ### Rows that compute on registers and predicates -/

namespace Sys2Proof.Claims

open Sys2Proof Sys2Proof.Machine

/-- The rows that compute on registers and predicates alone: opcodes 0x30 to 0x5A, 0x60 to 0x65, 0x70 to 0x85 and 0x90 to 0x99. -/
def computes : Instr → Option Alu
  | .shfl x => some (aluShfl x)
  | .bcast x => some (aluBcast x)
  | .slup x => some (aluSlup x)
  | .sldn x => some (aluSldn x)
  | .cmpr x => some (aluCmpr x)
  | .expd x => some (aluExpd x)
  | .red x => some (aluRed x)
  | .scan x => some (aluScan x)
  | .ballot x => some (aluBallot x)
  | .vote x => some (aluVote x)
  | i => foldAlu i

/-- A view as a context of the machine gives it: 64 positions a strip, and in a regrouped context as many items as its set names (R161, R179). -/
structure Placed (V : View) : Prop where
  lanes : V.n = 64 * V.strips
  items : ∀ m, V.items = some m → V.exist = Lanes.count m

/-- The view from which an instruction reads its operands. -/
def during (e : Env) (k : Cost) : View := (e.mark k).view

/-- The registers that such a row may write. -/
def aluWritten (a : Alu) : Written where
  v := match a.dst with
    | some (.v n, wide, _) => if a.o.nw then [] else if wide then [n.val, n.val + 1] else [n.val]
    | _ => []
  k := match a.dst with
    | some (.k n, _) => if a.o.nw then [] else [n]
    | _ => []
  p := match a.pdst with
    | some n => if n = 0 then [] else [n]
    | none => []
  latches := a.dst.isSome

/-- The word of a vector register at a position, by its tag. -/
def word (V : View) (R : RegFile) (r i : Nat) : W32 := View.word { V with regs := R.regs, mat := R.mat } r i

/-- Scalar operations on two sources, as functions of words of any width; the Bool says that the type is signed. -/
def scalar2 : Instr → Option (Alu2 × Alu × ((w : Nat) → Bool → BitVec w → BitVec w → BitVec w))
  | .add x => some (x, aluAdd x, fun _ _ a b => a + b)
  | .sub x => some (x, aluSub x, fun _ _ a b => a - b)
  | .mul x => some (x, aluMul x, fun _ _ a b => a * b)
  | .mulh x => some (x, aluMulh x, fun w s a b =>
      if s then ((a.signExtend (2 * w) * b.signExtend (2 * w)) >>> w).setWidth w
      else ((a.setWidth (2 * w) * b.setWidth (2 * w)) >>> w).setWidth w)
  | .div x => some (x, aluDiv x, fun w s a b => if b = 0 then BitVec.allOnes w else if s then a.sdiv b else a.udiv b)
  | .rem x => some (x, aluRem x, fun _ s a b => if b = 0 then a else if s then a.srem b else a.umod b)
  | .min x => some (x, aluMin x, fun _ s a b => if (if s then b.slt a else b.ult a) then b else a)
  | .max x => some (x, aluMax x, fun _ s a b => if (if s then a.slt b else a.ult b) then b else a)
  | .and x => some (x, aluAnd x, fun _ _ a b => a &&& b)
  | .or x => some (x, aluOr x, fun _ _ a b => a ||| b)
  | .xor x => some (x, aluXor x, fun _ _ a b => a ^^^ b)
  | .andn x => some (x, aluAndn x, fun _ _ a b => a &&& ~~~b)
  | .shl x => some (x, aluShl x, fun w _ a b => a <<< (b.toNat % w))
  | .shr x => some (x, aluShr x, fun w _ a b => a >>> (b.toNat % w))
  | .sar x => some (x, aluSar x, fun w _ a b => a.sshiftRight (b.toNat % w))
  | .rol x => some (x, aluRol x, fun w _ a b => a.rotateLeft (b.toNat % w))
  | .ror x => some (x, aluRor x, fun w _ a b => a.rotateRight (b.toNat % w))
  | .lea x => some (x.x, aluLea x, fun _ _ a b => a + (b <<< x.sh.val))
  | _ => none

/-- Scalar operations on one source. -/
def scalar1 : Instr → Option (Alu1 × Alu × ((w : Nat) → Bool → BitVec w → BitVec w))
  | .neg x => some (x, aluNeg x, fun _ _ a => -a)
  | .not x => some (x, aluNot x, fun _ _ a => ~~~a)
  | .mov x => some (x, aluMov x, fun _ _ a => a)
  | .abs x => some (x, aluAbs x, fun _ s a => if s && a.msb then -a else a)
  | .clz x => some (x, aluClz x, fun w _ a => BitVec.ofNat w (((List.range w).find? fun i => a.getMsbD i).getD w))
  | .ctz x => some (x, aluCtz x, fun w _ a => BitVec.ofNat w (((List.range w).find? fun i => a.getLsbD i).getD w))
  | .ffs x => some (x, aluFfs x, fun w _ a => BitVec.ofNat w ((((List.range w).find? fun i => a.getLsbD i).map fun i => i + 1).getD 0))
  | .popc x => some (x, aluPopc x, fun w _ a => BitVec.ofNat w ((List.range w).filter fun i => a.getLsbD i).length)
  | .brev x => some (x, aluBrev x, fun _ _ a => a.reverse)
  | _ => none

end Sys2Proof.Claims

/-- A computing row that issues with nothing in its way leaves its results in its destinations and the fragment past it, also where no item passes a
guard that is THR or MAT; under a UNI-false guard it leaves the registers as they were (R162, R238, R268, R291, R301). -/
def Obligations.ComputingRowsComplete : Prop :=
  ∀ (i : Instr) (a : Alu) (s : State) (e : Env), computes i = some a → Issues i s e a.uses →
    let k := a.cost e
    (e.view.guard a.o.g = .uni false → e.fits (e.skipped k) → exec i s = .next (e.landed a.uses (e.skipped k))) ∧
    (e.view.guard a.o.g ≠ .uni false → e.fits (e.settled k (a.file (during e k))) →
      exec i s = .next (e.landed a.uses (e.settled k (a.file (during e k)))))

/-- Integer results at every passing item, whatever tag the result keeps: the operation's own result on the item's source words, at 32 and at 64
bits, wrapping modulo 2^W (R160, R268, R271-R279); and `div` and `rem` on an element of any integer type: the quotient is rounded toward
zero and the remainder has the sign of the dividend, a zero divisor gives every bit set and the dividend, and the most negative value by −1
gives that value and 0 (R209). -/
def Obligations.IntegerResults : Prop :=
  (∀ (t : IntTy) (a b : Nat), a < 2 ^ t.bits → b < 2 ^ t.bits →
     (b = 0 → divE t a b = 2 ^ t.bits - 1 ∧ remE t a b = a) ∧
     (t.signed = true → a = 2 ^ (t.bits - 1) → b = 2 ^ t.bits - 1 → divE t a b = a ∧ remE t a b = 0) ∧
     (b ≠ 0 → ¬ (t.signed = true ∧ a = 2 ^ (t.bits - 1) ∧ b = 2 ^ t.bits - 1) →
       readN t (divE t a b) = (readN t a).tdiv (readN t b) ∧ readN t (remE t a b) = (readN t a).tmod (readN t b))) ∧
  ((∀ i x a f, scalar2 i = some (x, a, f) → x.ty.scalar = true →
     ∀ (V : View) (pass : Lanes) (keep : Bool) (p : Nat), p < V.n → pass.getLsbD p = true →
       let u := (V.src x.ty.wide x.a).at p
       let v := (V.bsrc x.ty x.b).at p
       (a.val V pass keep).at p =
         if x.ty.wide then f 64 x.ty.signed u v else (f 32 x.ty.signed (u.setWidth 32) (v.setWidth 32)).setWidth 64) ∧
   (∀ i x a f, scalar1 i = some (x, a, f) → x.ty.scalar = true →
     ∀ (V : View) (pass : Lanes) (keep : Bool) (p : Nat), p < V.n → pass.getLsbD p = true →
       let u := (V.src x.ty.wide x.a).at p
       (a.val V pass keep).at p = if x.ty.wide then f 64 x.ty.signed u else (f 32 x.ty.signed (u.setWidth 32)).setWidth 64))

/-- A tag never changes a result: at every passing item a computing row gives the value, and the truth, that it gives where its result may keep
no tag (R159-R161, R303). -/
def Obligations.TagsNeverChangeResults : Prop :=
  ∀ (i : Instr) (a : Alu), computes i = some a → ∀ (V : View) (pass : Lanes) (p : Nat), Placed V → p < V.n → p < V.exist →
    pass.getLsbD p = true →
    (a.dst.isSome = true → (a.val V pass true).at p = (a.val V pass false).at p) ∧
    (a.pdst.isSome = true → (V.plane (a.pval V pass true)).getLsbD p = (V.plane (a.pval V pass false)).getLsbD p)

/-- Comparison predicates hold at exactly the passing items at which the relation holds, whether the result is UNI, THR or MAT; `sel` takes its
first source there and its second elsewhere; the predicate instructions combine their operands item by item; p0 is always true and
discards what is written to it; and a THR predicate holds at the items below its threshold, or at or above it (R158, R161, R182, R280, R281,
R289). -/
def Obligations.PredicatesAndSelection : Prop :=
  ((∀ (x : CmpOp) (V : View) (pass : Lanes) (keep : Bool) (p : Nat), Placed V → x.ty.scalar = true → p < V.n → p < V.exist → pass.getLsbD p = true →
     ((V.plane ((aluCmp x).pval V pass keep)).getLsbD p = true ↔
       relInt x.rel (readN x.ty ((V.src x.ty.wide x.a).at p).toNat) (readN x.ty ((V.bsrc x.ty x.b).at p).toNat) = true)) ∧
   (∀ (x : SelOp) (V : View) (pass : Lanes) (keep : Bool) (p : Nat), p < V.n → pass.getLsbD p = true →
     ((aluSel x).val V pass keep).at p =
       if (V.plane (V.regs.predNot x.q x.qneg)).getLsbD p then (V.src x.x.ty.wide x.x.a).at p else (V.bsrc x.x.ty x.x.b).at p)) ∧
  (∀ (V : View) (a b : PTag), V.n ≤ 1024 →
     V.plane (V.pand a b) = V.plane a &&& V.plane b ∧ V.plane (V.por a b) = V.plane a ||| V.plane b ∧
     V.plane (V.pxor a b) = V.plane a ^^^ V.plane b ∧ V.plane a.not = Lanes.below V.n &&& ~~~ V.plane a ∧
     V.plane (V.regs.pred 0) = Lanes.below V.n ∧ ∀ R : RegFile, R.setPred 0 a = R) ∧
  (∀ (V : View) (t p : Nat) (below : Bool), Placed V → p < V.n → p < V.exist → ((V.plane (.thr t below)).getLsbD p = true ↔
     if below then V.places.at p < t else t ≤ V.places.at p))

/-- A result written to a vector register or pair reaches every passing item that the mask selects, a masked item is zeroed or keeps its bits, and
the items that do not pass keep theirs, whatever the register's tag was or becomes; a k destination takes the result of the lowest passing
item after the mask step, with a 32-bit result extended, and keeps its value where no item passes (R162, R217, R227, R268). -/
def Obligations.ResultsReachTheirDestinations : Prop :=
  (∀ (V : View) (o : LOpt) (n : Fin 384) (x : Val) (p : Nat), o.nw = false → p < V.n → V.own.getLsbD p = true →
     let pass := V.pass o.g
     let m := V.mask o.pfx
     let R := V.write V.file o pass (.v n) false false x
     let P := V.write V.file o pass (.v n) true false x
     word V R n.val p =
       (if pass.getLsbD p then (if m.1.getLsbD p then (x.at p).setWidth 32 else if m.2 then 0 else word V V.file n.val p)
         else word V V.file n.val p) ∧
     (word V P (n.val + 1) p ++ word V P n.val p =
       if pass.getLsbD p then (if m.1.getLsbD p then x.at p else if m.2 then 0 else word V V.file (n.val + 1) p ++ word V V.file n.val p)
         else word V V.file (n.val + 1) p ++ word V V.file n.val p)) ∧
  (∀ (V : View) (o : LOpt) (n : Fin 64) (x : Val) (wide sext : Bool), o.nw = false →
     let R := V.write V.file o (V.pass o.g) (.k n) wide sext x
     let m := V.mask o.pfx
     ((∀ p, p < V.n → (V.pass o.g).getLsbD p = false) → R.regs.k[n] = V.regs.k[n]) ∧
     (∀ p, p < V.n → (V.pass o.g).getLsbD p = true → (∀ q, q < p → (V.pass o.g).getLsbD q = false) →
       R.regs.k[n] =
         if m.1.getLsbD p then
           (if wide then x.at p else if sext then ((x.at p).setWidth 32).signExtend 64 else ((x.at p).setWidth 32).setWidth 64)
         else if m.2 then 0 else V.regs.k[n]) ∧
     ∀ q, q ≠ n → R.regs.k[q] = V.regs.k[q])

/-- Every write of a vector or k register, also one suppressed by nw and one to the discard code, shifts the latches once: b3 takes b2, b2
takes b1, b1 takes b0, and b0 takes the value; nw and the discard code leave the registers as they were. The value is the one after the mask step: at
a passing item the result where the mask selects it, else 0 or what the destination held (the discard code holds 0), and at another item what the
destination held; of a k register the one value of the lowest passing item. A 64-bit result is taken whole and a 32-bit one zero-extended (R185,
R218, R227). -/
def Obligations.LatchesShift : Prop :=
  ∀ (V : View) (o : LOpt) (d : Dst) (wide sext : Bool) (x : Val),
    let pass := V.pass o.g
    let m := V.mask o.pfx
    let R := V.write V.file o pass d wide sext x
    R.regs.latches[1] = V.regs.latches[0] ∧ R.regs.latches[2] = V.regs.latches[1] ∧ R.regs.latches[3] = V.regs.latches[2] ∧
    (∃ y, R.regs.latches[0] = some y ∧
      (∀ p, p < V.n → V.own.getLsbD p = true →
        match d with
        | .v n =>
          let old := (V.vec wide n.val).at p
          y.at p = if pass.getLsbD p then (if m.1.getLsbD p then x.at p else if m.2 then 0 else old) else old
        | .zero => y.at p = if pass.getLsbD p && m.1.getLsbD p then x.at p else 0
        | .k n =>
          let old := if wide then V.regs.k[n] else (V.regs.k[n].setWidth 32).setWidth 64
          ((∀ q, q < V.n → pass.getLsbD q = false) → y.at p = old) ∧
          ∀ q, q < V.n → pass.getLsbD q = true → (∀ j, j < q → pass.getLsbD j = false) →
            y.at p = if m.1.getLsbD q then (if wide then x.at q else ((x.at q).setWidth 32).setWidth 64) else if m.2 then 0 else old) ∧
      (wide = false → (∀ p, x.at p = ((x.at p).setWidth 32).setWidth 64) →
        ∀ p, p < V.n → V.own.getLsbD p = true → y.at p = ((y.at p).setWidth 32).setWidth 64)) ∧
    (o.nw = true ∨ d = .zero → R.regs.k = V.regs.k ∧ R.regs.vtags = V.regs.vtags ∧ R.mat = V.mat) ∧
    (V.write V.file { o with nw := true } (V.pass o.g) d wide sext x).regs.latches = R.regs.latches

/-- A floating-point result that is a NaN is the canonical quiet NaN of its format: of the arithmetic, of `fscale`, `fmin`, `fmax`, `frnd` and `fdiv`, of
every special function, and of a conversion between any two formats; and a packed result is made of the results of its elements, each in
its place, so that the same holds of each of them (R191, R206, R300). -/
def Obligations.NanResultsAreCanonical : Prop :=
  (∀ (t : FTy) (rm : Rm) (a b c : Nat) (n : Int),
    ∀ x ∈ [addF (FTy.ff t) rm a b, subF (FTy.ff t) rm a b, mulF (FTy.ff t) rm a b, fmaF (FTy.ff t) rm a b c, divF (FTy.ff t) a b, fdivE t a b, scaleF (FTy.ff t) rm a n,
        minF (FTy.ff t) a b, maxF (FTy.ff t) a b, rndF (FTy.ff t) rm a, sqrtF (FTy.ff t) rm a, sqrtE t rm a, rcpF (FTy.ff t) a, viaF32 t (rcpF (FTy.sff t)) a, rsqF (FTy.ff t) a,
        viaF32 t (rsqF (FTy.sff t)) a] ++
        (if t = .f64 then [] else [viaF32 t ex2F a, viaF32 t lg2F a, viaF32 t sinF a, viaF32 t cosF a, viaF32 t tanhF a]) ++
        [convF fp64 (FTy.ff t) rm a, convF fp32 (FTy.ff t) rm a, convF bf16 (FTy.ff t) rm a, convF fp16 (FTy.ff t) rm a],
      isNaNBits (FTy.ff t) x = true → x = (FTy.ff t).nan) ∧
  ∀ (t : FTy) (a b c : W64) (j : Nat), j < t.elems →
    let el (x : W64) : Nat := elemN (FTy.ff t).width j x.toNat
    (∀ g : Nat → Nat, el (fl1 t g a) = g (el a) % 2 ^ (FTy.ff t).width) ∧
    (∀ g : Nat → Nat → Nat, el (fl2 t g a b) = g (el a) (el b) % 2 ^ (FTy.ff t).width) ∧
    ∀ g : Nat → Nat → Nat → Nat, el (fl3 t g a b c) = g (el a) (el b) (el c) % 2 ^ (FTy.ff t).width

/-- Within a strip `shfl` gives the named lane's value where that lane is active and zero elsewhere, `ballot` sets bit j where lane j passes and the
predicate holds, and `red.add` on 32-bit integers gives every passing lane the sum of the passing lanes modulo 2^32 (R301, R303, R307,
R309). -/
def Obligations.CrossLaneResults : Prop :=
  ∀ (V : View) (pass : Lanes) (t j : Nat), V.n = 64 * V.strips → t < V.strips → j < 64 → pass.getLsbD (64 * t + j) = true →
    (∀ (x : PermOp) (keep : Bool),
      let lane := ((V.bsrc x.ty x.b).at (64 * t + j)).toNat % 64
      ((aluShfl x).val V pass keep).at (64 * t + j) =
        if V.own.getLsbD (64 * t + lane) then (V.src x.ty.wide x.a).at (64 * t + lane) else 0) ∧
    (∀ (x : BallotOp) (keep : Bool) (l : Nat), l < 64 →
      (((aluBallot x).val V pass keep).at (64 * t + j)).getLsbD l =
        (pass.getLsbD (64 * t + l) && (V.plane (V.regs.pred x.pa)).getLsbD (64 * t + l))) ∧
    (∀ (x : RedInstr) (keep : Bool), x.op = .add → x.ty = .int .i32 →
      ((aluRed x).val V pass keep).at (64 * t + j) =
        BitVec.ofNat 64 ((((List.range 64).filter fun l => pass.getLsbD (64 * t + l)).map fun l =>
          ((V.src false x.a).at (64 * t + l)).toNat % 2 ^ 32).sum % 2 ^ 32))

/-! ### Traps and the handler -/

namespace Sys2Proof.Claims

open Sys2Proof Sys2Proof.Machine

/-- The vector registers that the rows of regions, contexts, memory, spill stacks, tiles, queues and engines name, with how many and whether the
first must be even (R9, R183); `opa` stands apart, since its format decides. -/
def namedRegs : Instr → List VUse
  | .region r => useRange r
  | .matchKeys ty d a _ => useD true d.reg :: useSrc ty.wide a
  | .topk x => useD false x.d :: useD false x.vi :: useSrc false x.a
  | .rep _ ofPred n => if ofPred then [] else [useV false n]
  | .mat d wide => [useV wide d.reg, useD wide d.reg]
  | .regroup key r => useSrc false key ++ useRange r
  | .launch a _ => useSrc false a
  | .shmap _ _ r => useRange r
  | .fwr d a _ => useD false d.reg :: useSrc false a
  | .frd d a _ => [useD false d.reg, useV false a]
  | .lds x => ldUses x
  | .ldw x => ldUses x.x
  | .sts x => stUses x
  | .stw x => stUses x.x
  | .atom x => useOpt x.op.wide x.d ++ useSrc x.op.wide x.b ++ useSrc false x.m.a
  | .cas x => useOpt x.ty.wide x.d ++ useSrc x.ty.wide x.b ++ useSrc x.ty.wide x.swap ++ useSrc false x.m.a
  | .push lo hi => spillUse lo hi false
  | .pop lo hi => spillUse lo hi true
  | .areadRow x => ⟨x.v.val, x.cm1.val + 1, false, true, none⟩ :: useSrc false x.row
  | .awrtRow x => ⟨x.v.val, x.cm1.val + 1, false, false, none⟩ :: useSrc false x.row
  | .copy x => useSrc false x.a
  | .stash x => useSrc false x.a
  | .coll x => useSrc false x.a
  | .gather x => useSrc x.ty.wide x.b
  | .scatter x => useSrc x.ty.wide x.b
  | .xatom x => useA x.a ++ useSrc x.op.wide x.b ++ useSrc false x.d
  | .dred x => useA x.a ++ useSrc (dredBytes x.ty == 8) x.b
  | .qpush x => useOpt false x.d ++ [⟨x.b.val, 4, false, false, none⟩] ++ useSrc false x.a
  | i => ((computes i).map fun a => a.uses).getD []

end Sys2Proof.Claims

/-- Words that are no instruction, and a vector register at or above `.vregs` or an odd one where a pair is named, of whatever row, raise the
illegal-instruction trap on every active item; `eret` outside a handler, `tlbi` and `pmap` outside supervisor mode, and `setsr` of a register other than
`sr.clayer` raise the privilege trap on them; and nothing else happens (R9, R43, R183, R213, R251, R263, R266). -/
def Obligations.TrapsOnEveryActiveItem : Prop :=
  ((∀ (s : State) (e : Env), s.env? .ill = some e → exec .ill s = .next (s.faultItems e.r 1 e.f.mask 0 fun _ => 0)) ∧
   (∀ (i : Instr) (s : State) (e : Env), s.env? i = some e →
     (∃ u ∈ namedRegs i, e.l.hdr.vregs < u.reg + u.count ∨ (u.even = true ∧ u.reg % 2 = 1)) →
     exec i s = .next (s.faultItems e.r 1 e.f.mask 0 fun _ => 0)) ∧
   (∀ (x : OpaOp) (s : State) (e : Env), Issues (.opa x) s e [] →
     (∃ u ∈ opaUses x e.f.regs.fmt, e.l.hdr.vregs < u.reg + u.count ∨ (u.even = true ∧ u.reg % 2 = 1)) →
     e.fits (s.faultItems e.r 1 e.f.mask 0 fun _ => 0) → exec (.opa x) s = .next (s.faultItems e.r 1 e.f.mask 0 fun _ => 0))) ∧
  (∀ (s : State) (e : Env) (i : Instr), Issues i s e [] →
     (i = .eret ∧ e.inHandler = false) ∨ (∃ sr a g, i = .setsr sr a g ∧ sr ≠ .clayer) ∨
       (e.sup = false ∧ ((∃ a b g, i = .tlbiVa a b g) ∨ (∃ b g, i = .tlbiTcid b g) ∨ (∃ g, i = .tlbiAll g) ∨ (∃ d a g, i = .pmap d a g))) →
     e.fits (s.faultItems e.r 2 e.f.mask 0 fun _ => 0) →
     exec i s = .next (s.faultItems e.r 2 e.f.mask 0 fun _ => 0))

/-- Outside a handler exactly the faulting items of the fragment retire (R385). In a handler a fault retires nothing: the fragment parks with the
fault's code, and the items of the handler's p14 are those that the host may fail (R61, R386). -/
def Obligations.FaultsRetireOrPark : Prop :=
  (∀ (s : State) (r : FragRef) (c : Ctx) (f : Frag) (code source : Nat) (m : Lanes) (addr : Nat → Nat),
     s.ctx? r.ctx = some c → c.frag? r.frag = some f → f.shadow = none →
     ∃ c', (s.faultItems r code m source addr).ctx? r.ctx = some c' ∧
       ∀ p, p < c.width →
         c'.live.getLsbD p = (c.live.getLsbD p && !(m.getLsbD p && f.mask.getLsbD p)) ∧
         c'.retired.getLsbD p = (c.retired.getLsbD p || (m.getLsbD p && f.mask.getLsbD p))) ∧
  (∀ (s : State) (r : FragRef) (c : Ctx) (f : Frag) (code source : Nat) (m : Lanes) (addr : Nat → Nat) (p : Nat),
     s.ctx? r.ctx = some c → c.frag? r.frag = some f → f.shadow.isSome = true → p < c.width → m.getLsbD p = true → f.mask.getLsbD p = true →
     ∃ c' f' k, (s.faultItems r code m source addr).ctx? r.ctx = some c' ∧ c'.frag? r.frag = some f' ∧ f'.park = some k ∧
       f'.state = .parked ∧ f'.mask = f.mask ∧ f'.regs = f.regs ∧ f'.pc = f.pc ∧ c'.live = c.live ∧ c'.retired = c.retired ∧
       k.code = code ∧ k.mask = f.p14 c ∧ k.inHandler = true)

namespace Sys2Proof.Claims

open Sys2Proof Sys2Proof.Machine

/-- The state of a trap: the region has ended, so that the interrupted one begins at the next instruction, and the fragment is at the
vector. -/
def vectored (e : Env) (k : Cost) (code : Byte) (g : Guard) : State :=
  ((((e.during k).updFrag e.r fun f => { f with pc := e.next }).nextRegion e.r).updFrag e.r fun f => { f with pc := e.f.pc }).vector e.r
    (e.pass g) { k56 := code.setWidth 64, k57 := 4, k58 := 0, k59 := 0 }

end Sys2Proof.Claims

/-- `trap` takes the trap: k56 to k63, p14, p15 and `fmt` go to the trap shadow, k56 holds the code, k57 the cause, k60 the pc, k61 the resume
address after the trap, k63 the count of entries with tenant and TCID, p14 the passing items, and the fragment goes on at the vector with
its other registers and its items as they were (R62, R250). In a handler the fragment parks. -/
def Obligations.TrapEntersHandler : Prop :=
  ∀ (code : Byte) (g : Guard) (s : State) (e : Env), Issues (.trap code g) s e [] → e.pass g ≠ 0 →
    (e.inHandler = false → e.fits (vectored e (costC 1) code g) →
      exec (.trap code g) s = .next (vectored e (costC 1) code g) ∧
      ∃ f sh, (vectored e (costC 1) code g).frag? e.r = some f ∧ f.shadow = some sh ∧ f.pc = e.tc.tvec ∧ f.mask = e.f.mask ∧
        f.regs.k[56] = code.setWidth 64 ∧ f.regs.k[57] = 4 ∧ f.regs.k[60] = e.f.pc.setWidth 64 ∧ f.regs.k[61] = e.next.setWidth 64 ∧
        f.regs.k[63] = BitVec.ofNat 64 ((e.c.handlerEntries + 1) % 2 ^ 32 * 2 ^ 32 + e.tc.tenant * 2 ^ 16 + e.l.tcid % 4096) ∧
        f.regs.preds[14] = .mat (e.pass g) ∧ f.regs.vtags = e.f.regs.vtags ∧ (∀ n : Fin 64, n.val < 56 → f.regs.k[n] = e.f.regs.k[n]) ∧
        (∀ n : Fin 64, 56 ≤ n.val → sh.k.getD (n.val - 56) 0 = e.f.regs.k[n]) ∧ sh.p14 = e.f.regs.preds[14] ∧
        sh.p15 = e.f.regs.preds[15] ∧ sh.fmt = e.f.regs.fmt ∧ sh.region.entry = e.next) ∧
    (e.inHandler = true →
      let t := (e.during (costC 1)).park e.r 10 2 (e.f.p14 e.c) { addr := code.toNat, source := 4, tcid := e.l.tcid }
      e.fits t → exec (.trap code g) s = .next t)

/-- `eret` of the fragment that vectored restores k56 to k63, p14, p15 and `fmt` from the trap shadow and restarts the fragment at the region
entry recorded at vectoring, with that region's inputs and what the handler has written to them; a fragment that was cut within the handler
arrives at the `eret` (R63, R64, R251, R390). How the model knows what the handler has written is its choice, log entry 57: each k register is
marked as it is written, and a write of a predicate or a vector register goes to the interrupted region's inputs at once. -/
def Obligations.EretLeavesHandler : Prop :=
  ∀ (s : State) (e : Env) (sh : Shadow), Issues .eret s e [] → e.f.shadow = some sh →
    (sh.owner = e.f.id →
      let t := (e.during (costC 1)).leaveHandler e.r
      e.fits t → exec .eret s = .next t ∧
        ∃ f, t.frag? e.r = some f ∧ f.shadow = none ∧ f.state = .running ∧ f.pc = sh.region.entry ∧ f.region = { sh.region with snap := f.region.snap } ∧
          f.mask = e.f.mask ∧ f.regs.fmt = sh.region.snap.fmt ∧
          (∀ n : Fin 64,
            f.regs.k[n] =
              if n.val < 56 ∧ e.f.regs.kw.getLsbD n.val = true then e.f.regs.k[n]
              else if n.val < e.l.hdr.kregs then sh.region.snap.k[n]
              else if n.val < 56 then e.f.regs.k[n] else sh.k.getD (n.val - 56) 0) ∧
          ∀ n : Fin 16,
            let x := if n = 14 then sh.p14 else if n = 15 then sh.p15 else e.f.regs.preds[n]
            f.regs.preds[n] = if x = sh.held.preds[n] then sh.region.snap.preds[n] else x) ∧
    (sh.owner ≠ e.f.id →
      let t := (e.during (costC 1)).arrive e.r e.f.pc
      e.fits t → exec .eret s = .next t)

/-! ### Rows that write registers beside the computing ones -/

namespace Sys2Proof.Claims

open Sys2Proof Sys2Proof.Machine

/-- Such a row: whether its guard leaves it nothing to do, what it reads, its cost, the registers that it leaves and which it may write. -/
structure RegRow where
  off : Bool
  uses : List VUse
  k : Cost
  file : RegFile
  w : Written

/-- A row that executes once and writes `x` to a k register. -/
def kRow (e : Env) (g : Option Guard) (uses : List VUse) (k : Cost) (d : Fin 64) (nw : Bool) (x : W64) : RegRow :=
  ⟨(g.map fun g => e.pass g == 0).getD false, uses, k, (during e k).file.putK d nw x, ⟨[], if nw then [] else [d], [], true⟩⟩

/-- A row with a vector result has nothing to do under a UNI-false guard alone (R162). -/
def never (e : Env) (g : Guard) : Bool := e.view.guard g == .uni false

/-- Tick (R264), status registers (R263), stall counters (R267), tags (R260, R261), predicate counts (R290), queue and tile status (R323, R350),
and the rows that give each item a MAT result of its own: `elect`, `match`, `topk` and `aread` (R252, R253, R311, R323). -/
def regRow (e : Env) : Instr → Option RegRow
  | .tick ⟨d, nw⟩ g => some (kRow e (some g) [] (costC 1) d nw (BitVec.ofNat 64 e.s.tick))
  | .tickS ⟨d, nw⟩ g => if e.f.loads.isEmpty then some (kRow e (some g) [] (costC 1) d nw (BitVec.ofNat 64 e.s.tick)) else none
  | .getsr ⟨d, nw⟩ sr g => some (kRow e (some g) [] (costC 1) d nw (e.status sr))
  | .ctr ⟨d, nw⟩ n g => some (kRow e (some g) [] (costC 1) d nw (BitVec.ofNat 64 e.c.stalls[n]))
  | .rep ⟨d, nw⟩ ofPred n =>
    some (kRow e none (if ofPred then [] else [useV false n]) (costC 1) d nw
      (BitVec.ofNat 64 (if ofPred then predWord (e.f.regs.pred (Fin.ofNat 16 n.val)) else tagWord (SMap.getD e.f.regs.vtags n.val (.uni 0)))))
  | .mat ⟨d, nw⟩ wide =>
    let k := costC (max 1 (e.f.strips * (e.toMake d wide).length))
    let V := during e k
    let R := (e.toMake d wide).foldl (fun R r => V.setMat R r ((List.range V.n).map fun i => V.word r i)) V.file
    some ⟨false, [useV wide d, useD wide d], k, (if nw then V.file else R).shift ((V.vec wide d.val).toMat V.n),
      ⟨if nw then [] else if wide then [d.val, d.val + 1] else [d.val], [], [], true⟩⟩
  | .pcnt x =>
    some (kRow e (some x.g) [] (costL e.f.strips) x.d x.nw
      (BitVec.ofNat 64 ((List.range e.c.width).filter fun i =>
        (e.pass x.g).getLsbD i && (e.view.plane (e.f.regs.pred x.pa)).getLsbD i).length))
  | .pfirst x =>
    some (kRow e (some x.g) [] (costL e.f.strips) x.d x.nw
      (match (List.range e.c.width).find? fun i => (e.pass x.g).getLsbD i && (e.view.plane (e.f.regs.pred x.pa)).getLsbD i with
        | some i => BitVec.ofNat 64 (e.c.idx e.b i)
        | none => BitVec.allOnes 64))
  | .qstat d a g => (e.s.queueFor e.l.tcid (e.k a).toNat).map fun x => kRow e (some g) [] (costC 1) d false (e.s.qstatWord x.2)
  | .areadStatus x =>
    match e.tileOk x.t, e.insts x.t (e.pass x.t.g) with
    | true, i :: _ => some (kRow e (some x.t.g) [] (costC 1) x.k false (i.status.setWidth 64))
    | _, _ => none
  | .elect pd g =>
    let V := during e (costC 1)
    let lead : Lanes := match (e.passing g).head? with
      | some i => Lanes.single i
      | none => 0
    some ⟨false, [], costC 1, V.file.setPred pd (.mat (lead ||| (V.plane (e.f.regs.pred pd) &&& ~~~ e.f.mask))),
      ⟨[], [], if pd = 0 then [] else [pd], false⟩⟩
  | .matchKeys ty ⟨d, nw⟩ a g =>
    let V := during e (costC 1)
    let key := V.src ty.wide a
    some ⟨never e g, useD true d :: useSrc ty.wide a, costC 1,
      V.write V.file ⟨g, nw, none⟩ (e.pass g) (.v d) true false
        (.mat ((List.range V.n).map fun i => if (e.pass g).getLsbD i then matchMask key (e.pass g) i else 0)),
      ⟨if nw then [] else [d.val, d.val + 1], [], [], true⟩⟩
  | .topk x =>
    let k := costL (21 * e.f.strips)
    let V := during e k
    let p := e.pass x.o.g
    let hit (t j : Nat) : Option Nat := if j ≤ x.km1.val then (rankLanes x.ty (V.src false x.a) p t)[j]? else none
    let vd := Val.mat ((List.range V.n).map fun i => if p.getLsbD i then
      (match hit (i / 64) (i % 64) with
        | some l => (V.src false x.a).at (64 * (i / 64) + l)
        | none => 0) else 0)
    let vi := Val.mat ((List.range V.n).map fun i => if p.getLsbD i then
      (match hit (i / 64) (i % 64) with
        | some l => BitVec.ofNat 64 l
        | none => 0xFFFFFFFF) else 0)
    let R := V.write V.file x.o p (.v x.d) false false vd
    some ⟨never e x.o.g, useD false x.d :: useD false x.vi :: useSrc false x.a, k,
      if x.o.nw then R else V.setVec R false x.vi.val (V.masked x.o p (V.v32 x.vi.val) vi),
      ⟨if x.o.nw then [] else [x.d.val, x.vi.val], [], [], true⟩⟩
  | .areadRow x =>
    let e' := e.mark (costC 1)
    let V := during e (costC 1)
    let p := e.pass x.t.g
    let inst (i : Nat) : TileInst := e.b.inst x.t.tile.val (e.c.instKey x.t.blk i)
    let whole (i : Nat) : Bool := (List.range (x.cm1.val + 1)).all fun k => !(inst i).damage.contains (32 * e'.rowOf x i + k)
    if e.tileOk x.t && (List.range e.c.width).all fun i => !p.getLsbD i || whole i then
      some ⟨never e x.t.g, ⟨x.v.val, x.cm1.val + 1, false, true, none⟩ :: useSrc false x.row, costC 1,
        V.writeMany V.file p x.v.val x.t.g ((List.range (x.cm1.val + 1)).map fun k =>
          .mat ((List.range V.n).map fun i =>
            if p.getLsbD i then ((inst i).readWord e'.s.freeCtr (e.c.instPos x.t.blk i) (32 * e'.rowOf x i + k)).setWidth 64 else 0)),
        ⟨(List.range (x.cm1.val + 1)).map fun k => x.v.val + k, [], [], true⟩⟩
    else none
  | _ => none

end Sys2Proof.Claims

/-- Every such row leaves its results in its destinations and the fragment past it; one whose guard leaves it nothing to do leaves the registers as
they were; that `elect` writes false under a UNI-false guard is the model's choice, log entry 111 (R162, R238, R252, R253, R260-R264, R267, R290, R311, R323, R350). -/
def Obligations.RegisterRowsComplete : Prop :=
  ∀ (i : Instr) (s : State) (e : Env) (x : RegRow), regRow e i = some x → Issues i s e x.uses →
    (x.off = true → e.fits (e.skipped x.k) → exec i s = .next (e.landed x.uses (e.skipped x.k))) ∧
    (x.off = false → e.fits (e.settled x.k x.file) → exec i s = .next (e.landed x.uses (e.settled x.k x.file)))

/-- The frame of the rows that write registers and predicates alone: in a context without a mapping, away from the reconvergence point, nothing
changes but the destination registers, the predicate destination, the bypass latches where a register is a destination, and the pc; in a handler
the interrupted region's inputs take what is written to them (R63), and nothing else of the trap shadow changes. -/
def Obligations.RegisterRowsFrame : Prop :=
  (∀ (i : Instr) (a : Alu) (s t : State) (e : Env), computes i = some a → Issues i s e a.uses → e.c.shmap = none → e.straight e.next →
     e.fits (e.skipped (a.cost e)) → e.fits (e.settled (a.cost e) (a.file (during e (a.cost e)))) → exec i s = .next t →
     Touches s t e (aluWritten a)) ∧
  (∀ (i : Instr) (s t : State) (e : Env) (x : RegRow), regRow e i = some x → Issues i s e x.uses → e.c.shmap = none → e.straight e.next →
     e.fits (e.skipped x.k) → e.fits (e.settled x.k x.file) → exec i s = .next t → Touches s t e x.w)

/-- `elect` marks the lowest passing item and no other active one; `match` gives each passing item the mask of the passing items of its strip with
its key; `mat` keeps every value; and `topk` ranks the passing lanes of a strip from the greatest value down, equal values by ascending lane
(R177, R178, R260, R311). -/
def Obligations.CollectivesOfTheSpan : Prop :=
  (∀ (e : Env) (x : RegRow) (p : Nat), p < e.c.width → e.f.mask.getLsbD p = true →
     (∀ pd g, pd ≠ 0 → regRow e (.elect pd g) = some x →
       ((e.view.plane (x.file.regs.pred pd)).getLsbD p = true ↔
         (e.pass g).getLsbD p = true ∧ ∀ q, q < p → (e.pass g).getLsbD q = false)) ∧
     (∀ ty d a g l, l < 64 → (e.pass g).getLsbD p = true → regRow e (.matchKeys ty ⟨d, false⟩ a g) = some x →
       let key := (during e (costC 1)).src ty.wide a
       (word e.view x.file (d.val + 1) p ++ word e.view x.file d.val p).getLsbD l =
         ((e.pass g).getLsbD (64 * (p / 64) + l) && key.at (64 * (p / 64) + l) == key.at p)) ∧
     (∀ ty d a g r, regRow e (.matchKeys ty ⟨d, true⟩ a g) = some x → word e.view x.file r p = e.view.word r p) ∧
     (∀ d wide nw r, regRow e (.mat ⟨d, nw⟩ wide) = some x → word e.view x.file r p = e.view.word r p)) ∧
  (∀ (ty : TopkTy) (a : Val) (pass : Lanes) (t : Nat),
     let l := rankLanes ty a pass t
     (∀ j, j ∈ l ↔ j < 64 ∧ pass.getLsbD (64 * t + j) = true) ∧
     l.Pairwise fun i j => topKey ty (a.at (64 * t + j)) < topKey ty (a.at (64 * t + i)) ∨
       (topKey ty (a.at (64 * t + j)) = topKey ty (a.at (64 * t + i)) ∧ i < j))
/-! ### Transfers, cuts and joins -/

namespace Sys2Proof.Claims

open Sys2Proof Sys2Proof.Machine

/-- Where control transfers and hints leave the machine, on the operands on which they raise no trap (R240-R245, R322). -/
def transfer (e : Env) : Instr → Option State
  | .nop _ => some (e.skipped (costC 1))
  | .afence =>
    some (e.done ((e.during (costC 1)).updCtx e.c.id fun c =>
      { c with shmap := c.shmap.map fun m => { m with olds := m.olds.filter fun o => !o.seen } }))
  | .jmpDirect t => some (e.moved (costC 1) (e.f.pc + t.signExtend 58 * 4))
  | .jmpIndirect n => if (e.k n).toNat % 4 = 0 ∧ (e.k n).toNat < 2 ^ 58 then some (e.moved (costC 1) ((e.k n).setWidth 58)) else none
  | .callDirect t => call (e.f.pc + t.signExtend 58 * 4)
  | .callIndirect n => if (e.k n).toNat % 4 = 0 ∧ (e.k n).toNat < 2 ^ 58 then call ((e.k n).setWidth 58) else none
  | .ret =>
    match e.f.regs.rstack with
    | [] => none
    | a :: rest => some ((e.left (costC 1) { e.issued (costC 1) with regs := { e.f.regs with rstack := rest } } e.c.mat).goto e.r a)
  | .loop n t =>
    let x := e.k n - 1
    some ((e.left (costC 1) { e.issued (costC 1) with regs := (RegFile.setK ⟨e.f.regs, []⟩ n x).regs } e.c.mat).goto e.r
      (if x = 0 then e.f.pc + 8 else e.f.pc + t.signExtend 58 * 4))
  | .join =>
    match e.f.parent with
    | none => some (e.skipped (costC 1))
    | some p =>
      if e.c.frags.all fun g => g.parent != some p || g.id == e.f.id || g.state == .exited then some (e.skipped (costC 1))
      else some ((e.during (costC 1)).arrive e.r (e.f.pc + 8))
  | _ => none
where
  /-- A `call` that finds room on the return stack. -/
  call (target : VAddr) : Option State :=
    if e.f.regs.rstack.length < 16 then
      some ((e.left (costC 1) { e.issued (costC 1) with regs := { e.f.regs with rstack := (e.f.pc + 8) :: e.f.regs.rstack } } e.c.mat).goto e.r target)
    else none

/-- The word that a fragment holds for a position in a vector register, by its tag (R157). -/
def held (c : Ctx) (f : Frag) (r x : Nat) : W32 :=
  match SMap.getD f.regs.vtags r (.uni 0) with
  | .uni v => v
  | .aff b st => b + st * BitVec.ofNat 32 x
  | .affLo b st => (b + st * BitVec.ofNat 64 x).setWidth 32
  | .affHi b st => ((b + st * BitVec.ofNat 64 x) >>> 32).setWidth 32
  | .mat => (SMap.getD c.mat r []).getD x 0

/-- The items that take a branch, and those that do not. -/
def taken (e : Env) (x : BraOp) : Lanes := e.f.mask &&& e.view.plane (e.f.regs.predNot x.pred x.neg)
def fallen (e : Env) (x : BraOp) : Lanes := e.f.mask &&& ~~~ e.view.plane (e.f.regs.predNot x.pred x.neg)

end Sys2Proof.Claims

/-- `nop`, `afence`, `jmp`, `call`, `ret`, `loop` and `join` go where the spec says; a return from an empty stack, a call
beyond 16 levels, an indirect target that is not an address of an instruction, raise their trap on every active item (R175, R240-R246, R322). -/
def Obligations.TransfersCompleteOrTrap : Prop :=
  (∀ (i : Instr) (s : State) (e : Env) (t : State), transfer e i = some t → Issues i s e [] → e.fits t →
     exec i s = .next (e.landed [] t)) ∧
  (∀ (i : Instr) (s : State) (e : Env), Issues i s e [] →
     ((i = .ret ∧ e.f.regs.rstack = []) ∨ (∃ n, (i = .jmpIndirect n ∨ i = .callIndirect n) ∧ (e.k n).toNat % 4 ≠ 0) →
       e.fits (s.faultItems e.r 1 e.f.mask 0 fun _ => 0) → exec i s = .next (s.faultItems e.r 1 e.f.mask 0 fun _ => 0)) ∧
     ((∃ t, i = .callDirect t) ∨ (∃ n, i = .callIndirect n ∧ (e.k n).toNat % 4 = 0 ∧ (e.k n).toNat < 2 ^ 58) → 16 ≤ e.f.regs.rstack.length →
       let t := (e.during (costC 1)).faultItems e.r 7 e.f.mask 0 fun _ => 0
       e.fits t → exec i s = .next t) ∧
     (∀ n, i = .jmpIndirect n ∨ i = .callIndirect n → (e.k n).toNat % 4 = 0 → 2 ^ 58 ≤ (e.k n).toNat →
       let t := (e.during (costC 1)).faultItems e.r 4 e.f.mask 2 fun _ => (e.k n).toNat
       e.fits t → exec i s = .next t))

/-- `bra` goes past where no item takes it and to its target where all do, without a cut; where some do it cuts the fragment, or raises the
nesting-overflow fault on every active item at depth 63 (R168, R169, R241). -/
def Obligations.BranchesComplete : Prop :=
  ∀ (x : BraOp) (s : State) (e : Env), Issues (.bra x) s e [] →
    let k := costC 1
    let target := e.f.pc + x.target.signExtend 58 * 4
    (taken e x = 0 → e.fits (e.skipped k) → exec (.bra x) s = .next (e.landed [] (e.skipped k))) ∧
    (taken e x ≠ 0 → fallen e x = 0 → e.f.pc.toNat < target.toNat → e.fits (e.moved k target) →
      exec (.bra x) s = .next (e.landed [] (e.moved k target))) ∧
    (taken e x ≠ 0 → fallen e x = 0 → target.toNat ≤ e.f.pc.toNat →
      let t := (e.spin (e.during k) target).goto e.r target
      e.fits t → exec (.bra x) s = .next (e.landed [] t)) ∧
    (taken e x ≠ 0 → fallen e x ≠ 0 → 64 ≤ e.f.depth + 1 →
      let t := (e.during k).faultItems e.r 7 e.f.mask 0 fun _ => 0
      e.fits t → exec (.bra x) s = .next t) ∧
    (taken e x ≠ 0 → fallen e x ≠ 0 →
      let reconv := if x.reconv = 0 then e.f.reconv else e.f.pc + x.reconv.signExtend 58 * 4
      let t := (e.mark k).cut (cutFrags e.c.strips (taken e x) (fallen e x) target e.next) reconv
      e.fits t → exec (.bra x) s = .next (e.landed [] t))

/-- A cut parts the items: each item that takes the branch is in exactly one new fragment, whose pc is the target, each other one in exactly one at
the next instruction; a fragment covers consecutive strips, each with an item of its own, and no two that go the same way adjoin (R168). -/
def Obligations.CutsPartTheItems : Prop :=
  ∀ (strips : Nat) (t n : Lanes) (target next : VAddr), t &&& n = 0 → target ≠ next → strips ≤ 16 →
    let xs := cutFrags strips t n target next
    (∀ p, p < 64 * strips → (t.getLsbD p = true → ∃ x, xs.filter (fun x => x.mask.getLsbD p) = [x] ∧ x.pc = target) ∧
      (n.getLsbD p = true → ∃ x, xs.filter (fun x => x.mask.getLsbD p) = [x] ∧ x.pc = next)) ∧
    (∀ x ∈ xs, x.first ≤ x.last ∧ x.last < strips ∧ (∀ p, x.mask.getLsbD p = true → 64 * x.first ≤ p ∧ p < 64 * x.last + 64) ∧
      ∀ st, x.first ≤ st → st ≤ x.last → Lanes.strip x.mask st ≠ 0) ∧
    xs.Pairwise fun x y => x.pc = y.pc → x.last + 1 < y.first

/-- `exit` retires exactly the passing items, and a fragment with others goes on (R246). -/
def Obligations.ExitRetires : Prop :=
  ∀ (g : Guard) (s : State) (e : Env), Issues (.exit g) s e [] → e.pass g ≠ 0 →
    let t := if e.pass g = e.f.mask then (e.during (costC 1)).retire e.r (e.pass g)
      else ((e.during (costC 1)).retire e.r (e.pass g)).goto e.r e.next
    (e.fits t → exec (.exit g) s = .next (e.landed [] t)) ∧
    ∃ c, t.ctx? e.r.ctx = some c ∧ c.live = e.c.live &&& ~~~ e.pass g ∧ c.retired = e.c.retired ||| e.pass g

/-- The fuse: the parent runs with the items of all arrived siblings at the continuation of the one with the lowest item, whose k registers it
takes; `fmt` and the return stack are those of the cut, and every item keeps its value of every vector register (R174). -/
def Obligations.FuseKeepsEveryItem : Prop :=
  ∀ (s : State) (ctx parent : Nat) (c : Ctx) (p : Frag), s.ctx? ctx = some c → c.frag? parent = some p → p.parent ≠ some parent →
    let kids := c.frags.filter fun k => k.parent == some parent && k.state == .arrived && k.mask != 0
    kids ≠ [] → (kids.Pairwise fun a b => a.mask &&& b.mask = 0) →
    ∃ c' q lead, (s.fuse ctx parent).ctx? ctx = some c' ∧ c'.frag? parent = some q ∧ lead ∈ kids ∧
      (∀ k ∈ kids, (Lanes.lowest lead.mask).getD 0 ≤ (Lanes.lowest k.mask).getD 0) ∧
      q.state = .running ∧ q.hasChildren = false ∧ q.pc = lead.cont ∧ q.regs.k = lead.regs.k ∧ q.regs.fmt = p.regs.fmt ∧
      q.regs.rstack = p.regs.rstack ∧ (∀ x, q.mask.getLsbD x = true ↔ ∃ k ∈ kids, k.mask.getLsbD x = true) ∧
      ∀ k ∈ kids, ∀ (x : Nat) (r : Fin 384), x < c.width → k.mask.getLsbD x = true →
        held c' q r.val x = held c k r.val x

/-! ### Regions, system rows and waits -/

namespace Sys2Proof.Claims

open Sys2Proof Sys2Proof.Machine

/-- A row with the vector registers that it reads and the state that it leaves. -/
structure Row where
  uses : List VUse
  state : State

/-- A row under a guard that some item passes. -/
def passing (e : Env) (g : Guard) (uses : List VUse) (t : State) : Option Row := if e.pass g = 0 then none else some ⟨uses, t⟩

/-- A row with a vector result under a guard that is not UNI-false. -/
def unlessOff (e : Env) (g : Guard) (uses : List VUse) (t : State) : Option Row := if never e g then none else some ⟨uses, t⟩

/-- The state with `x` in the k register that the row names, and in latch b0. -/
def kOut (e : Env) (s : State) (d : Option (Fin 64)) (nw : Bool) (x : W64) : State :=
  let R := (during e (costC 1)).file
  e.put s (match d with
    | some k => R.putK k nw x
    | none => R.shift (.uni x))

/-- What a `halt` reports. -/
def haltInfo (e : Env) (code : Byte) (g : Guard) : HaltInfo := ⟨code.toNat, e.c.idx e.b ((e.passing g).headD 0), e.f.pc, e.s.tick⟩

/-- What the region and system rows leave where an item passes (R247-R249, R257, R262-R266, R267, R315). -/
def systemRow (e : Env) : Instr → Option Row
  | .region r => some ⟨useRange r, e.done (((e.during (costC 1)).endRegion e.r).openRegion e.r e.f.pc r)⟩
  | .yield => some ⟨[], e.doneEnd ((e.during (costC 1)).updFrag e.r fun f => { f with yieldUntil := e.s.cycle + 64 })⟩
  | .brk code g =>
    passing e g [] (e.doneEnd
      (if e.l.dbg then (e.brkRecord (e.during (costC 1)) code ((e.passing g).headD 0)).updCtx e.r.ctx fun c => { c with halted := true }
        else e.during (costC 1)))
  | .halt code g =>
    let h := haltInfo e code g
    let s := e.during (costC 1)
    passing e g [] ((s.below 12 e.l.seq).foldl (fun s k => s.haltLaunch k h) (s.haltLaunch e.l.seq h))
  | .setsr .clayer a g =>
    let s := e.during (costC 1)
    passing e g [] (e.done { s with clayer := s.clayer.set e.l.tcid (e.k a) })
  | .cpub ⟨d, nw⟩ g =>
    let s : State := { e.during (costC 1) with codeGen := e.s.codeGen + 1 }
    if e.s.stores.any fun p => p.ctx == e.c.id then none
    else passing e g [] (e.doneEnd (kOut e (s.publishCode e.r e.l.seq) d nw (BitVec.ofNat 64 (e.s.codeGen + 1))))
  | .cinv g =>
    let s := e.during (costC 1)
    passing e g [] (e.done (s.updCore e.c.core fun c => { c with icache := [], code := c.code.join (s.published e.f.view.knowsPub) }))
  | .ctrClr ⟨d, nw⟩ n g =>
    let s := kOut e (e.during (costC 1)) (some d) nw (BitVec.ofNat 64 e.c.stalls[n])
    passing e g [] (e.doneEnd (s.updCtx e.c.id fun c => { c with stalls := c.stalls.set n 0 }))
  | .fmt x g =>
    let v : W32 := match x with
      | .imm i => i
      | .k n => (e.k n).setWidth 32
    if fmtValid v then
      passing e g [] (e.done ((e.during (costC 1)).updFrag e.r fun f => { f with regs := { f.regs with fmt := v } }))
    else none
  | _ => none

end Sys2Proof.Claims

/-- `region`, `yield`, `brk`, `halt`, `setsr` of `sr.clayer`, `cpub` with no earlier store outstanding, `cinv`, `ctr.clr` and `fmt` with a valid value
complete where an item passes. The region entry is then the `region` itself with its range, `sr.clayer` and `fmt` hold what was written, the
instruction cache of the core is empty and no other core's is touched, and the launch of a `halt` stops with its code, item, pc and tick, of
two in one tick with those of the lower item (R247-R249, R262, R263, R265, R267, R315). -/
def Obligations.SystemRowsHaveTheirEffects : Prop :=
  (∀ (i : Instr) (s : State) (e : Env) (x : Row), systemRow e i = some x → Issues i s e x.uses → e.fits x.state →
     exec i s = .next (e.landed x.uses x.state)) ∧
  ((∀ r s e x, systemRow e (.region r) = some x → Issues (.region r) s e (useRange r) → e.straight e.next →
     ∃ f, x.state.frag? e.r = some f ∧ f.region.entry = e.f.pc ∧ f.region.range = r ∧ f.region.committed = false ∧
       f.region.snap.k = e.f.regs.k ∧ f.region.snap.fmt = e.f.regs.fmt ∧ f.region.snap.preds = e.f.regs.preds ∧ f.pc = e.next) ∧
   (∀ a g s e x, systemRow e (.setsr .clayer a g) = some x → Issues (.setsr .clayer a g) s e [] → e.straight e.next →
     SMap.getD x.state.clayer e.l.tcid 0 = e.k a ∧ ∀ n, n ≠ e.l.tcid → SMap.getD x.state.clayer n 0 = SMap.getD s.clayer n 0) ∧
   (∀ y g s e x, systemRow e (.fmt y g) = some x → Issues (.fmt y g) s e [] → e.straight e.next →
     ∃ f, x.state.frag? e.r = some f ∧ f.regs.k = e.f.regs.k ∧ f.regs.vtags = e.f.regs.vtags ∧ f.regs.preds = e.f.regs.preds ∧
       f.regs.latches = e.f.regs.latches ∧ f.regs.fmt = (match y with
         | .imm i => i
         | .k n => (e.k n).setWidth 32)) ∧
   (∀ g s e x, systemRow e (.cinv g) = some x → Issues (.cinv g) s e [] → e.straight e.next →
     (x.state.core e.c.core).icache = [] ∧ ∀ n, n ≠ e.c.core → (x.state.core n).icache = (s.core n).icache) ∧
   (∀ code g s e x, systemRow e (.halt code g) = some x → Issues (.halt code g) s e [] →
     ∃ l, x.state.launch? e.l.seq = some l ∧
       l.halted = some (match e.l.halted with
         | none => haltInfo e code g
         | some o => if o.tick = s.tick ∧ e.c.idx e.b ((e.passing g).headD 0) < o.item then haltInfo e code g else o)))

namespace Sys2Proof.Claims

open Sys2Proof Sys2Proof.Machine

/-- An invalidation begun by `tlbi`: the translations are dropped, and the fragment waits for its completion (R56, R57). -/
def tlbiBegun (e : Env) (form : Nat) (va : W64) (tcid run : Nat) : State :=
  let s := e.during (costC 1)
  let q : TlbiReq := ⟨s.nextId, form, va, tcid, run, s.cmds.map fun c => c.id, some e.r⟩
  e.wait ({ s with nextId := s.nextId + 1, tlbis := s.tlbis ++ [q] }.dropTranslations form tcid va run) 15 (.tlbi s.nextId)

/-- Rows that wait, and rows that find at once what they wait for (R56, R67, R179, R186, R256-R259, R319, R321, R329, R330). -/
def waitRow (e : Env) : Instr → Option Row
  | .wchild =>
    let s := e.during (costC 1)
    some ⟨[], if (s.childrenOf e.c e.f).isEmpty then e.done (s.knowAll e.r) else e.wait s 15 .wchild⟩
  | .regroup key r => if e.f.depth = 0 then some ⟨useSrc false key ++ useRange r, e.wait (e.during (costC 1)) 15 .regroup⟩ else none
  | .tlbiVa a b g =>
    if e.sup then passing e g [] (tlbiBegun e 0 (e.k a) ((e.k b).toNat % 2 ^ 12) ((e.k b).toNat / 2 ^ 16 % 16)) else none
  | .tlbiTcid b g => if e.sup then passing e g [] (tlbiBegun e 1 0 ((e.k b).toNat % 2 ^ 12) 0) else none
  | .tlbiAll g => if e.sup then passing e g [] (tlbiBegun e 2 0 0 0) else none
  | .pmap _ _ g => if e.sup then passing e g [] (e.wait (e.during (costC 1)) 15 .pmap) else none
  | .wait x =>
    let bound := match x.bound with
      | some n => (e.k n).toNat
      | none => 0
    passing e x.g [] (if e.c.counter x.path ≤ bound then e.done ((e.during (costC 1)).takeUp e.r x.path)
      else e.wait (e.during (costC 1)) (match x.path with
        | .sh => 6
        | .sp => 6
        | .cp => 7
        | .ga => 7
        | _ => 15) .counter)
  | .fence x =>
    if orderRel x.order && e.s.stores.any fun p => p.ctx == e.c.id then passing e x.g [] (e.wait (e.during (costC 1)) 15 .fence)
    else passing e x.g [] (e.doneCommit ((e.during (costC 1)).fenceDone e.r x))
  | .shmap ⟨d, nw⟩ a r =>
    let s := e.during (costC 1)
    let ended : State := e.doneEnd (kOut e (s.endShMap e.c.id) d nw (BitVec.ofNat 64 e.c.slot))
    if e.c.strips ≠ 1 then none
    else
      match a with
      | none => some ⟨useRange r, ended⟩
      | some n =>
        let partner := (e.k n).toNat % 16
        if partner = e.c.slot then none
        else
          match r with
          | none => some ⟨[], ended⟩
          | some x => some ⟨useRange r, (e.wait s 9 .shmap).updCtx e.c.id fun c => { c with shWish := some (partner, x.1.val, x.2.val) }⟩
  | .fwr ⟨d, nw⟩ a g =>
    let V := during e (costC 1)
    let s := e.during (costC 1)
    if e.c.mapped d.val && !e.c.fullBit d.val then
      unlessOff e g (useD false d :: useSrc false a)
        (let s := (e.put s (V.write V.file ⟨g, nw, none⟩ (e.pass g) (.v d) false false ((V.src false a).toMat V.n))).setFull e.c.id d.val true
         e.doneEnd (match e.c.shmap with
           | some m => (s.restoreSpin m.partner d.val).keepOld m.partner d.val ((List.range V.n).map fun i => V.word d.val i)
           | none => s))
    else none
  | .frd ⟨d, nw⟩ a g =>
    let V := during e (costC 1)
    let s := e.during (costC 1)
    if e.c.mapped a.val && e.c.fullBit a.val then
      unlessOff e g [useD false d, useV false a]
        (e.doneEnd (((e.put s (V.write V.file ⟨g, nw, none⟩ (e.pass g) (.v d) false false ((V.v32 a.val).toMat V.n))).seeFull e.c.id a.val).setFull
          e.c.id a.val false))
    else none
  | .bar n =>
    let back := (e.during (costC 1)).updFrag e.r fun f => { f with arrival := none }
    if e.f.arrival = some (n.val, true) then some ⟨[], e.doneEnd (back.knowAll e.r)⟩
    else
      let s := (e.wait (back.publish e.c.id) 8 (.bar n.val)).updBlock e.b.id fun b =>
        { b with barriers := b.barriers.set n.val (b.barriers.getD n.val 0 ||| e.c.toIidx e.f.mask) }
      some ⟨[], s.barrierEnd e.b.id n.val⟩
  | .await x =>
    let s := (e.during (costC 1)).nextRegion e.r
    if e.tileOk x.t then
      passing e x.t.g [] (if e.c.unapplied e.b x.t x.site.val e.f.mask then e.wait s 5 .await else e.done s)
    else none
  | _ => none

end Sys2Proof.Claims

/-- Rows that wait do so under their reason, or complete at once where what they wait for holds: `wchild`, `wait`, `fence`, `await`, `fwr`, `frd`, `bar`,
`shmap`, `regroup`, `tlbi` and `pmap` (R57, R67, R179, R186, R256-R259, R321, R329, R330). A `fwr` of a full register and an `frd` of an empty one
do not issue and wait under reason 9. -/
def Obligations.WaitingRowsComplete : Prop :=
  (∀ (i : Instr) (s : State) (e : Env) (x : Row), waitRow e i = some x → Issues i s e x.uses → e.fits x.state →
    exec i s = .next (e.landed x.uses x.state)) ∧
  (∀ s e d a g nw, Issues (.fwr ⟨d, nw⟩ a g) s e (useD false d :: useSrc false a) → e.c.strips = 1 → e.c.mapped d.val = true →
    e.c.fullBit d.val = true → never e g = false → exec (.fwr ⟨d, nw⟩ a g) s = .next (e.wait (s.seeFull e.c.id d.val) 9 .fullEmpty)) ∧
  (∀ s e d a g nw, Issues (.frd ⟨d, nw⟩ a g) s e [useD false d, useV false a] → e.c.strips = 1 → e.c.mapped a.val = true →
    e.c.fullBit a.val = false → never e g = false → exec (.frd ⟨d, nw⟩ a g) s = .next (e.wait s 9 .fullEmpty))

/-- A barrier generation: an item that arrives sets its bit and waits; when the last item that has not exited has arrived, the bits of those items are
clear again (R257). A `fence` gathers what its scope asks for and no more: the status word holds the saturated counts with a flag for each
that is not zero, and the counts that it has taken are zero afterwards (R128, R129). -/
def Obligations.BarriersAndFences : Prop :=
  (∀ (s : State) (b : Block) (n : Fin 16), s.block? b.id = some b → b.barriers.length = 16 →
     let need := b.exists_ &&& ~~~ b.retired
     let bits := b.barriers.getD n.val 0
     (bits &&& need ≠ need → s.barrierEnd b.id n.val = s) ∧
     (need ≠ 0 → bits &&& need = need → (s.ctxs.map fun c => c.id).Nodup → (∀ c ∈ s.ctxs, (c.frags.map fun f => f.id).Nodup) →
       let t := s.barrierEnd b.id n.val
       (∃ b', t.block? b.id = some b' ∧ b'.barriers.getD n.val 0 &&& need = 0 ∧
         ∀ m, m ≠ n.val → b'.barriers.getD m 0 = b.barriers.getD m 0))) ∧
  (∀ (o : Outcomes) (sc : Scope),
     let dead := min ((if sc = .pod then o.deadPod else 0) + if sc = .sys ∨ sc = .pod then o.deadHost else 0) 0xFFFF
     let w := (o.gather sc).1.toNat
     w % 2 ^ 16 = min o.uerr 0xFFFF ∧ w / 2 ^ 16 % 2 ^ 16 = min o.refused 0xFFFF ∧ w / 2 ^ 32 % 2 ^ 16 = dead ∧
     w / 2 ^ 48 % 2 ^ 13 = 0 ∧
     (w.testBit 63 = true ↔ dead ≠ 0) ∧ (w.testBit 62 = true ↔ o.refused ≠ 0) ∧ (w.testBit 61 = true ↔ o.uerr ≠ 0) ∧
     (o.gather sc).2.uerr = 0 ∧ (o.gather sc).2.refused = 0 ∧
     (sc = .pod → (o.gather sc).2.deadPod = 0) ∧ (sc ≠ .pod → (o.gather sc).2.deadPod = o.deadPod) ∧
     (sc = .sys ∨ sc = .pod → (o.gather sc).2.deadHost = 0) ∧
     (sc ≠ .sys → sc ≠ .pod → (o.gather sc).2.deadHost = o.deadHost)) ∧
  (∀ (s : State) (r : FragRef) (x : FenceOp) (c : Ctx) (f : Frag) (d : Fin 64), s.ctx? r.ctx = some c → c.frag? r.frag = some f → x.d = some d →
    ∃ c' f', (s.fenceDone r x).ctx? r.ctx = some c' ∧ c'.frag? r.frag = some f' ∧ f'.regs.k[d] = (if x.nw then f.regs.k[d] else (c.outcomes.gather x.scope).1) ∧
      c'.outcomes = (c.outcomes.gather x.scope).2)

/-- Control transfers, waits and the system rows but `brk` store nothing: every byte that can be read reads as before, and no command is
committed or completed. A `bar` follows the context's posted stores, which are performed with it; where there are none it stores nothing. -/
def Obligations.ControlRowsStoreNothing : Prop :=
  ∀ (i : Instr) (s : State) (e : Env),
    (∀ t, transfer e i = some t → Issues i s e [] → SameMemory s t ∧ t.cmds = s.cmds ∧ t.stores = s.stores ∧ t.tcids = s.tcids) ∧
    (∀ x, waitRow e i = some x ∨ ((∀ c g, i ≠ .brk c g) ∧ systemRow e i = some x) → Issues i s e x.uses →
      ((∃ n, i = .bar n) → ∀ p ∈ s.stores, p.ctx ≠ e.c.id) →
      SameMemory s x.state ∧ x.state.cmds = s.cmds ∧ x.state.stores = s.stores ∧ x.state.tcids = s.tcids)

/-! ### Local memory, spill stacks and tiles -/

namespace Sys2Proof.Claims

open Sys2Proof Sys2Proof.Machine

/-- A memory row: whether its guard leaves it nothing to do, what it reads and costs, the accesses that it makes and in which space, whether they
are made now and not when a store is performed, and what it does once they may be made, from the state that they leave and the items that are
left. -/
structure MemRow where
  off : Bool
  uses : List VUse
  k : Cost
  sp : Space
  h : W64
  rd : Bool
  wr : Bool
  direct : Bool
  accs : List Acc
  after : State → Lanes → State

/-- The end of a load: the latches shift, and the words that the accesses find, of a moment that the fragment's view allows, go to the registers
when the data returns; the view learns what the load has met, the fills that it waited for too (R77, R113, R125, R163, R185, R326). -/
def loadEnds (e : Env) (k : Cost) (x : LdsOp) (sp : Space) (accs : List Acc) (s : State) (p : Lanes) : State :=
  let V := during e k
  let s := (e.mark k).noteLoads s sp accs
  let accs := accs.filter fun a => a.items &&& p != 0
  let reads := accs.zipIdx.map fun a => (a.1, s.readLocalAt (s.knownBy e.r) e.b.id e.die sp a.1.off (szBytes x.sz) a.2)
  let got := reads.map fun a => (a.1, szWords x.sz a.2.1)
  let uni : Option (List W32) := match got with
    | [a] => if V.keeps x.g none && (V.src false x.m.a).isUni then some a.2 else none
    | _ => none
  let ws := (List.range (szRegs x.sz)).map fun k => loadWords got V.n k
  let dst := (List.range (szRegs x.sz)).map fun k =>
    match uni with
    | some l => (x.d.val + k, VTag.uni (l.getD k 0), [])
    | none => (x.d.val + k, VTag.mat, ws.getD k [])
  let R := V.file.shift (V.masked (optOf x.g) p (V.vec (szWide x.sz) x.d.val) (loadVal (szWide x.sz) uni ws))
  let s := e.put s R
  let s : State :=
    { s.updFrag e.r fun f => { f with loads := f.loads ++ [⟨dst, p, e.f.region.serial, e.inHandler, R.regs.shifts⟩] } with freeCtr := s.freeCtr + 1 }
  let met := reads.foldl (fun y a => y.append a.2.2) Sight.none
  e.done (s.saw e.r (if x.acq then some x.scope else none) { met with heads := (met.heads ++ e.f.filled).eraseDups })

/-- A read-modify-write of each item in ascending order, and its old values as the result (R327, R328). -/
def rmwEnds (e : Env) (k : Cost) (g : Guard) (o : RmwOrder) (d : Option (Fin 384)) (wide : Bool) (sp : Space) (accs : List Acc)
    (f : Nat → W64 → Option W64) (s : State) (p : Lanes) : State :=
  let V := during e k
  let out := ((e.mark k).noteLoads s sp accs).rmwAll e.r e.f.filled e.b.id e.die sp o (fun i old => match sp with
    | .void => none
    | _ => f i old) (accs.filter fun a => p.getLsbD a.pos)
  let x := Val.mat ((List.range V.n).map fun i => ((out.2.find? fun y => y.1 == i).map fun y => y.2).getD 0)
  e.doneCommit (e.put out.1 (V.write V.file (optOf g) p (match d with
    | some n => .v n
    | none => .zero) wide false x))

/-- An `stw` that is posted: a command on the counter sp, and its bytes for the region (R77, R82). -/
def stwEnds (e : Env) (k : Cost) (x : StwOp) (sp : Space) (accs : List Acc) (s : State) (p : Lanes) : State :=
  let cmd := Cmd.new s.nextId (e.mark k).c (e.mark k).f e.l.tcid 0 .sp (.sp p) e.f.pc 0
  match sp with
  | .region slot _ =>
    if p = 0 then e.done s
    else
      let bytes := (accs.filter fun a => p.getLsbD a.pos).flatMap fun a =>
        ((during e k).storeBytes x.x.sz x.x.b a.pos).zipIdx.map fun y => (a.off + y.2, y.1)
      let t := s.commitCmd { cmd with pending := 1 }
      e.done { t with
        nextId := t.nextId + 1
        stores := t.stores ++ [⟨s.nextId + 1, e.c.id, e.f.id, cmd.id, e.die, slot, SMap.getD (s.die e.die).gens slot 0, bytes,
          s.headsOf e.r (if x.x.rel then some x.x.scope else none)⟩] }
  | _ => e.done (s.commitCmd cmd)

/-- The accesses of a row, as the instruction's own cost and view give them. -/
def accsAt (e : Env) (k : Cost) (m : MemAddr) (size : Nat) (sp : Space) (once : Bool) (g : Guard) : List Acc :=
  (e.mark k).accs m size sp once (e.pass g)

def memRow (e : Env) : Instr → Option (Guard × MemRow)
  | .lds x =>
    let k := e.memCost x.m (szBytes x.sz) none true false x.g
    let accs := accsAt e k x.m (szBytes x.sz) .shared true x.g
    some (x.g, ⟨never e x.g, ldUses x, k, .shared, 0, true, false, true, accs, loadEnds e k x .shared accs⟩)
  | .ldw x =>
    let k := costC 1
    let sp := e.space (some x.h)
    let accs := accsAt e k x.x.m (szBytes x.x.sz) sp true x.x.g
    some (x.x.g, ⟨never e x.x.g, ldUses x.x, k, sp, e.k x.h, true, false, true, accs, loadEnds e k x.x sp accs⟩)
  | .stw x =>
    let k := costC 1
    let sp := e.space (some x.h)
    let accs := accsAt e k x.x.m (szBytes x.x.sz) sp false x.x.g
    if 4095 ≤ e.c.counter .sp ∨ (x.x.rel = true ∧ e.s.stores.any fun p => p.ctx == e.c.id) then none
    else some (x.x.g, ⟨e.pass x.x.g == 0, stUses x.x, k, sp, e.k x.h, false, true, false, accs, stwEnds e k x sp accs⟩)
  | .atom x =>
    let k := e.memCost x.m (atomBytes x.op) x.h false true x.g
    let sp := e.space x.h
    let accs := accsAt e k x.m (if x.op.wide then 8 else 4) sp false x.g
    if (e.l.det && atomFadd x.op) ∨ (orderRel x.order = true ∧ e.s.stores.any fun p => p.ctx == e.c.id) then none
    else
      some (x.g, ⟨never e x.g, useOpt x.op.wide x.d ++ useSrc x.op.wide x.b ++ useSrc false x.m.a, k, sp, e.kOpt x.h, true, true, true, accs,
        rmwEnds e k x.g (rmwOrder x.order false x.scope) x.d x.op.wide sp accs fun i old =>
          some (atomApply x.op old (((during e k).src x.op.wide x.b).at i))⟩)
  | .cas x =>
    let w := x.ty.wide
    let k := e.memCost x.m (if w then 8 else 4) x.h false true x.g
    let sp := e.space x.h
    let accs := accsAt e k x.m (if w then 8 else 4) sp false x.g
    if orderRel x.order = true ∧ e.s.stores.any fun p => p.ctx == e.c.id then none
    else
      some (x.g, ⟨never e x.g, useOpt w x.d ++ useSrc w x.b ++ useSrc w x.swap ++ useSrc false x.m.a, k, sp, e.kOpt x.h, true, true, true, accs,
        rmwEnds e k x.g (rmwOrder x.order x.failAcq x.scope) x.d w sp accs fun i old =>
          if old = ((during e k).src w x.b).at i then some (((during e k).src w x.swap).at i) else none⟩)
  | .ald x =>
    let k := costC 1
    let sp := e.space x.h
    let parts := e.tileParts x.blk (e.pass x.g)
    if e.tileOk ⟨x.tile, x.blk, x.g⟩ then
      some (x.g, ⟨e.pass x.g == 0, [], k, sp, e.kOpt x.h, true, false, true, parts.flatMap fun t => e.tileAccs x sp t, fun s p =>
        e.done (((e.tileParts x.blk p).foldl (fun s t =>
          let ws := (e.tileAccs x sp t).map fun a => natOfBytes (s.readLocal e.b.id e.die sp a.off 4)
          s.setInst e.b.id { ws.zipIdx.foldl (fun i y => i.setWord y.2 (BitVec.ofNat 32 y.1))
            (((s.block? e.b.id).getD e.b).inst x.tile.val t.1) with damage := [] }) s).knowAll e.r)⟩)
    else none
  | .ast x =>
    let k := costC 1
    let sp := e.space x.h
    let parts := e.tileParts x.blk (e.pass x.g)
    if e.tileOk ⟨x.tile, x.blk, x.g⟩ && parts.all fun t => (e.b.inst x.tile.val t.1).damage.isEmpty then
      some (x.g, ⟨e.pass x.g == 0, [], k, sp, e.kOpt x.h, false, true, true, parts.flatMap fun t => e.tileAccs x sp t, fun s p =>
        e.done (((e.tileParts x.blk p).foldl (fun s t =>
          (e.tileAccs x sp t).zipIdx.foldl (fun s a => s.writeLocal ⟨e.r.agent, true, e.f.rel⟩ e.b.id e.die sp a.1.off
            (bytesN 4 ((e.b.inst x.tile.val t.1).readWord (e.s.freeCtr + 1) (1024 * t.2.2) a.2).toNat)) s) s).mendLocal e.b.id e.die sp
              (accBytes ((e.tileParts x.blk p).flatMap fun t => e.tileAccs x sp t)))⟩)
    else none
  | _ => none

/-- The accesses of a row may all be made now, and leave the state `s'` (R58, R78, R96). -/
def Through (e : Env) (x : MemRow) (p : Lanes) (s' : State) : Prop :=
  ∀ (lane : Option (State → Lanes → State)) (next : State → Lanes → State),
    (e.mark x.k).access (e.during x.k) x.sp x.h x.rd x.wr x.direct lane p x.accs next = next s' p

end Sys2Proof.Claims

/-- A load, posted store, read-modify-write, `ald` or `ast` whose accesses may be made now, and whose items read no damaged word, has its effect; one
whose guard leaves it nothing to do leaves the registers and memory as they were; which of the bytes that a load may see it sees is left free, log
entry 121 (R77, R162, R163, R324, R326-R328). -/
def Obligations.MemoryRowsComplete : Prop :=
  ∀ (i : Instr) (s s' : State) (e : Env) (g : Guard) (x : MemRow), memRow e i = some (g, x) → Issues i s e x.uses →
    (x.off = true → e.fits (e.skipped x.k) → exec i s = .next (e.landed x.uses (e.skipped x.k))) ∧
    (x.off = false → Through e x (e.pass g) s' →
      (x.rd = true → x.accs.all (fun a => (s'.badLocal e.b.id e.die x.sp a.off a.size).isNone) = true) →
      e.fits (x.after s' (e.pass g)) → exec i s = .next (e.landed x.uses (x.after s' (e.pass g))))

/-- Which accesses may be made at once: those to shared memory; those through an invalid handle, which are counted; and those to a region whose lines
have no state, a load's or a read-modify-write's after the context's own posted stores to the same bytes have been performed (R13, R24, R58,
R117, R326). -/
def Obligations.AccessesGoThrough : Prop :=
  ∀ (e : Env) (x : MemRow) (p : Lanes), e.hurt = none →
    (x.sp = .shared → Through e x p (e.during x.k)) ∧
    (x.sp = .void → Through e x p ((e.during x.k).countInvalid e.l.tcid x.accs.length)) ∧
    (∀ slot r, x.sp = .region slot r → r.kind ≠ .mapped → r.kind ≠ .stash →
      Through e x p ((if x.direct then (e.during x.k).ownStores e.c.id e.die slot x.accs else e.during x.k).settled e.r))

/-- `sts` stores each passing item's bytes at its wrapped and aligned address in the block's shared memory, the higher item winning where two overlap;
every other byte of shared memory, and every byte of every other memory, reads as before (R15, R17, R326). -/
def Obligations.SharedStoresAndTheirFrame : Prop :=
  ∀ (x : StsOp) (s : State) (e : Env), Issues (.sts x) s e (stUses x) → e.pass x.g ≠ 0 → s.memOk = true →
    (x.rel = true → ∀ p ∈ s.stores, p.ctx ≠ e.c.id) →
    let k := e.memCost x.m (szBytes x.sz) none false false x.g
    let at_ (p : Nat) : Nat := effAddr e.b.shSize (szBytes x.sz) (((during e k).src false x.m.a).at p).toNat (x.m.disp.toInt * szBytes x.sz)
    let w : Writer := ⟨e.r.agent, true, (e.during k).headsOf e.r (if x.rel then some x.scope else none)⟩
    let t := e.done (((e.passing x.g).foldl (fun s p => s.writeSharedBy w e.b.id (at_ p) ((during e k).storeBytes x.sz x.b p))
      (e.during k)).mendLocal e.b.id e.die .shared ((e.passing x.g).flatMap fun p => (List.range (szBytes x.sz)).map fun j => at_ p + j))
    (e.fits t → exec (.sts x) s = .next (e.landed (stUses x) t)) ∧
    ∃ b, t.block? e.b.id = some b ∧
      (∀ a, (∀ p ∈ e.passing x.g, a < at_ p ∨ at_ p + szBytes x.sz ≤ a) → b.shared.read a = e.b.shared.read a) ∧
      (∀ p ∈ e.passing x.g, ∀ j, j < szBytes x.sz →
        (∀ q ∈ e.passing x.g, p < q → at_ p + j < at_ q ∨ at_ q + szBytes x.sz ≤ at_ p + j) →
        b.shared.read (at_ p + j) = ((during e k).storeBytes x.sz x.b p).getD j 0) ∧
      (∀ a, t.tier1.read a = s.tier1.read a) ∧ (∀ a, t.tier2.read a = s.tier2.read a) ∧ (∀ a, t.host.read a = s.host.read a) ∧
      (∀ d a, (t.die d).scratch.read a = (s.die d).scratch.read a) ∧
      ∀ n, n ≠ e.b.id → (t.block? n).map (fun b => b.shared) = (s.block? n).map fun b => b.shared

/-- No update is lost: after a read-modify-write `add.i32` of several items on one word of shared memory the word holds its old value and the sum of the
items' operands modulo 2^32, and each item's result is the word as the items below it left it (R327). -/
def Obligations.AtomicAddsAreNotLost : Prop :=
  ∀ (s : State) (b : Block) (r : FragRef) (filled : List Head) (die off : Nat) (o : RmwOrder) (items : List Nat) (v : Nat → W32),
    s.memOk = true → s.block? b.id = some b → items.Nodup → (∀ i ∈ items, i < 1024) →
    let out := s.rmwAll r filled b.id die .shared o (fun i old => some (atomApply (.add .i32) old ((v i).setWidth 64)))
      (items.map fun i => ⟨Lanes.single i, off, 4⟩)
    (∃ b', out.1.block? b.id = some b' ∧ b'.shared.readW32 off = b.shared.readW32 off + (items.map v).sum) ∧
    ∀ n, n < items.length → out.2[n]? = some (items.getD n 0, (b.shared.readW32 off + ((items.take n).map v).sum).setWidth 64)

/-- A load's data reaches every item that issued it and no other, register by register, whatever tags the registers had; after the event the load
is no longer pending (R77). -/
def Obligations.LoadDataReachesItems : Prop :=
  (∀ (c : Ctx) (f : Frag) (l : PendingLoad) (r p : Nat), p < c.width → f.mask.getLsbD p = true → (l.dst.map fun d => d.1).Nodup →
    (∀ d ∈ l.dst, (∃ v, d.2.1 = .uni v) ∨ d.2.1 = .mat) →
    let R := f.loadWrite c l
    held { c with mat := R.mat } { f with regs := R.regs } r p =
      match l.dst.find? fun d => d.1 == r with
      | none => held c f r p
      | some d => if l.lanes.getLsbD p then (match d.2.1 with
          | .uni v => v
          | _ => d.2.2.getD p 0) else held c f r p) ∧
  (∀ (s : State) (r : FragRef) (c : Ctx) (f : Frag) (l : PendingLoad) (rest : List PendingLoad), s.ctx? r.ctx = some c →
    c.frag? r.frag = some f → c.shmap = none → f.loads = l :: rest → f.wait = none → f.hasChildren = false →
    c.frags.filter (fun g => g.loads.contains l) = [f] →
    ∃ t f', exec (.loadDataReturn r) s = .next t ∧ t.frag? r = some f' ∧ f'.loads = rest ∧ f'.regs = (f.loadWrite c l).regs ∧ f'.pc = f.pc ∧
      t.tier1 = s.tier1 ∧ t.blocks = s.blocks)

namespace Sys2Proof.Claims

open Sys2Proof Sys2Proof.Machine

/-- The stacks after a `push`: each strip's stack with its group on top. -/
def pushed (e : Env) (k : Cost) (lo hi : Nat) : State :=
  e.doneEnd ((e.during k).updBlock e.b.id fun b =>
    e.f.strips'.foldl (fun b t =>
      let st := b.spill.getD (e.c.firstStrip + t) []
      (b.setStack (e.c.firstStrip + t) (st ++ e.spillGroup lo hi t)).mendStack (e.c.firstStrip + t) st.length (e.spillGroup lo hi t).length) b)

/-- The registers and stacks after a `pop`. -/
def popped (e : Env) (k : Cost) : State :=
  let tops := e.f.strips'.map fun t => (t, topGroup (e.stack t))
  let groups := tops.filterMap fun g => g.2.map fun x => (g.1, x.1, x.2.1)
  let regs := (List.range 384).filter fun r => groups.any fun g => decide (g.2.1 ≤ r) && decide (r < g.2.1 + g.2.2.length)
  let R := regs.foldl (e.splitPair regs) (regs.foldl (e.restoreReg groups) e.view.file)
  let s := e.put (e.during k) (R.shift (View.v32 { e.view with regs := R.regs, mat := R.mat } (regs.headD 0)))
  e.doneEnd (s.updBlock e.b.id fun b =>
    tops.foldl (fun b g =>
      let st := b.spill.getD (e.c.firstStrip + g.1) []
      b.setStack (e.c.firstStrip + g.1) (st.take (st.length - ((g.2.map fun x => x.2.2).getD 0)))) b)

end Sys2Proof.Claims

/-- `push` puts a record group on the stack of each strip that has room, and `pop` takes the group on top of each and restores its registers; a stack
that is full, or that holds fewer records than `pop` names, is a protection fault on every active item; and what `push` writes `pop` reads: the registers,
the records and exactly their bytes, with a MAT record's 64 values whichever format it was stored in (R72, R73, R74, R331, R332). -/
def Obligations.SpillStacksGiveBackWhatTheyTook : Prop :=
  (∀ (lo hi : Fin 384) (s : State) (e : Env),
     (Issues (.push lo hi) s e (spillUse lo hi false) →
       let k := costC (max 1 ((e.f.strips'.map fun t => ticks16 (e.spillGroup lo.val hi.val t).length).foldl (· + ·) 0))
       let room := ∀ t ∈ e.f.strips', (e.stack t).length + e.c.parkedBytes t + (e.spillGroup lo.val hi.val t).length ≤ e.l.hdr.spill
       let fault := (e.during k).faultItems e.r 4 e.f.mask 0 fun i => 2 ^ 63 + e.stackPos (i / 64)
       (room → e.fits (pushed e k lo.val hi.val) → exec (.push lo hi) s = .next (e.landed (spillUse lo hi false) (pushed e k lo.val hi.val))) ∧
       (¬ room → e.fits fault → exec (.push lo hi) s = .next fault)) ∧
     (Issues (.pop lo hi) s e (spillUse lo hi true) →
       let k := costC (max 1 ((e.f.strips'.map fun t => ticks16 (((topGroup (e.stack t)).map fun g => g.2.2).getD 0)).foldl (· + ·) 0))
       let deep := ∀ t ∈ e.f.strips', hi.val + 1 - lo.val ≤ recordsOn (e.stack t).length (e.stack t)
       let whole := ∀ t ∈ e.f.strips', ∀ d ∈ e.b.spillDamage, d.1 = e.c.firstStrip + t →
         d.2 ∉ stackWords ((e.stack t).length - ((topGroup (e.stack t)).map fun g => g.2.2).getD 0) (e.stack t).length
       let fault := (e.during k).faultItems e.r 4 e.f.mask 0 fun i => 2 ^ 63 + e.stackPos (i / 64)
       (deep → whole → e.fits (popped e k) → exec (.pop lo hi) s = .next (e.landed (spillUse lo hi true) (popped e k))) ∧
       (¬ deep → e.fits fault → exec (.pop lo hi) s = .next fault))) ∧
  ((∀ (e : Env) (lo hi t : Nat) (below : List Byte), lo ≤ hi → hi < lo + 32 → hi < 384 →
     topGroup (below ++ e.spillGroup lo hi t) =
       some (lo, (List.range (hi + 1 - lo)).map (fun k => e.spillRec lo hi t (lo + k)), (e.spillGroup lo hi t).length)) ∧
   (∀ vals : List W32, vals.length = 64 → recMat (matRec vals) = vals))

namespace Sys2Proof.Claims

open Sys2Proof Sys2Proof.Machine

/-- The tile rows where some item passes, a tile is declared with its scope, and no word that is read is damaged (R316-R323). -/
def tileRow (e : Env) : Instr → Option Row
  | .azero x =>
    if e.tileOk x then
      passing e x.g [] (e.done ((e.insts x (e.pass x.g)).foldl (fun s i => s.setInst e.b.id { i with words := [], overflow := false, damage := [] })
        (e.during (costC 1))))
    else none
  | .awrtStatus x =>
    if e.tileOk x.t then
      passing e x.t.g [] (e.done ((e.insts x.t (e.pass x.t.g)).foldl (fun s i => s.setInst e.b.id { i with overflow := (e.k x.k).getLsbD 0 })
        (e.during (costC 1))))
    else none
  | .awrtRow x =>
    let V := during e (costC 1)
    if e.tileOk x.t then
      passing e x.t.g (⟨x.v.val, x.cm1.val + 1, false, false, none⟩ :: useSrc false x.row)
        (e.done ((e.during (costC 1)).updBlock e.b.id fun b => (e.passing x.t.g).foldl (fun b i =>
          b.setInst ((List.range (x.cm1.val + 1)).foldl (fun t k => t.put (32 * (e.mark (costC 1)).rowOf x i + k) (V.word (x.v.val + k) i))
            (b.inst x.t.tile.val (e.c.instKey x.t.blk i)))) b))
    else none
  | .apromCvt x => prom x fun w => intFV (sgnN 32 w.toNat)
  | .apromScl x => prom x fun w => fvOf fp32 w.toNat
  | .opc x =>
    if e.tileOk x.t then
      let s := (e.c.instKeys x.t.blk e.f.mask).foldl (fun s k => passSite (e.mark (costC 1)) x.t x.site.val none [] k s) (e.during (costC 1))
      some ⟨[], e.done (e.named x.t x.site.val { s with nextId := s.nextId + 1 })⟩
    else none
  | .opa x =>
    let t : TileOp := ⟨x.tile, x.blk, x.g⟩
    let p := opaParams x e.f.regs.fmt
    let need := ((List.range e.c.strips).filter fun st => Lanes.strip (e.pass x.g) st != 0).length
    if e.tileOk t && e.opaOk x && !(e.s.mgmt.thaw && (fmtX e.f.regs.fmt != 0 || fmtY e.f.regs.fmt != 0)) &&
        !(e.blocked (opaUses x e.f.regs.fmt)) && !(e.passedOpen t x.site.val e.f.mask) &&
        decide ((e.s.part e.c.core e.c.part).arr.length + need ≤ 16) &&
        (e.c.instKeys t.blk e.f.mask).all fun k =>
          match ((e.b.inst t.tile.val k).open? x.site.val).bind fun y => y.params with
          | some q => q == p
          | none => true then
      some ⟨[], e.done ((e.mark (costC 1)).opaPass x t p e.f.mask (e.pass x.g))⟩
    else none
  | _ => none
where
  /-- The cells of `aprom`, each read once and written rounded. -/
  prom (x : PromOp) (f : W32 → FV) : Option Row :=
    let scale := fvOf fp32 (bitsN (e.k x.k).toNat 0 32)
    let words := (List.range (x.mm1.val + 1)).flatMap fun i => (List.range (x.nm1.val + 1)).map fun j => 32 * i + j
    let one (t : TileInst) : TileInst := words.foldl (fun u w =>
      u.setWord w (BitVec.ofNat 32 (roundFV fp32 .rne (mulFV (f (t.readWord (e.s.freeCtr + 1) 0 w)) scale)))) t
    if e.tileOk x.t && (e.insts x.t (e.pass x.t.g)).all fun t => !(t.damage.any fun d => words.contains d) then
      passing e x.t.g [] (e.doneEnd ((e.insts x.t (e.pass x.t.g)).foldl (fun s t => s.setInst e.b.id (one t)) (e.during (costC 1))))
    else none

end Sys2Proof.Claims

/-- `azero`, `awrt`, `aprom`, `opc` and `opa` have their effects on the tile instances of their items (R316-R320, R323). -/
def Obligations.TileRowsComplete : Prop :=
  ∀ (i : Instr) (s : State) (e : Env) (x : Row), tileRow e i = some x → Issues i s e x.uses → e.fits x.state →
    exec i s = .next (e.landed x.uses x.state)

/-- What a closed INT8 contraction adds: each of its cells becomes its old value, or 0 under `replace`, plus the sum over the contributing items of the
products of their elements, modulo 2^32, and no other word of the tile changes (R197, R201, R203). -/
def Obligations.IntegerContractionsAreExact : Prop :=
  ∀ (t : TileInst) (x : Contraction) (p : OpaParams), x.params = some p → fmtX p.fmt = 4 → fmtY p.fmt = 4 → p.m ≤ 32 → p.n ≤ 32 →
    x.terms ≠ [] → (∀ u ∈ x.terms, u.pos < 1024) →
    ∀ i j, i < 32 → j < 32 →
      (t.apply x).word (32 * i + j) =
        if i < p.m ∧ j < p.n then
          (if fmtReplace p.fmt then 0 else t.word (32 * i + j)) +
            BitVec.ofInt 32 ((x.terms.map fun u => sgnN 8 (mRaw 4 i u.xs) * sgnN 8 (mRaw 4 j u.ys)).sum)
        else t.word (32 * i + j)

/-! ### Regions, engines, queues and child launches -/

namespace Sys2Proof.Claims

open Sys2Proof Sys2Proof.Machine

/-- The handle of a region row is valid, and the region is of a kind that the row takes (R333, R347). -/
def named (e : Env) (h : Fin 64) (ok : RegionEnt → Bool) : Option (Nat × RegionEnt) :=
  (e.s.regionOf e.die e.l (e.k h)).filter fun x => ok x.2

/-- What the region rows leave where some item passes: a wait, an invalid handle that is only counted, or the row's own effect (R26, R27, R78,
R79, R333, R347). -/
def regionRow (e : Env) : Instr → Option Row
  | .rmap h g gd =>
    row h gd (fun x => x.kind == .plain && (e.kOpt g).toNat % 256 == 0) e.doneEnd fun slot x =>
      let s := (e.during (costC 1)).settleRegion e.die slot
      e.doneEnd (((s.setRegion e.die slot { x with kind := .mapped, globalBase := e.kOpt g }).dropLines e.die slot).anew (.scratch e.die)
        x.pos x.size)
  | .runmap h g =>
    row h g RegionEnt.mappedOrStash e.done fun slot x =>
      (e.mark (costC 1)).spRoom
        (e.done ((((e.mark (costC 1)).writeBack slot x (e.pass g) fun _ => true).setRegion e.die slot { x with kind := .plain }).dropLines e.die slot))
  | .rwb x =>
    row x.h x.g RegionEnt.mappedOrStash e.done fun slot r =>
      (e.mark (costC 1)).spRoom (e.done ((e.mark (costC 1)).writeBack slot r (e.pass x.g) (e.lineSetOf x r)))
  | .rinv x =>
    row x.h x.g (fun r => r.kind == .mapped) e.done fun slot r =>
      e.done ((((e.during (costC 1)).linesOf e.die slot).filter fun l => e.lineSetOf x r l.line).foldl
        (fun s l => s.discardLine e.die slot l.line) ((e.during (costC 1)).settleRegion e.die slot))
  | .seal h =>
    row h ⟨0, false⟩ (fun r => r.kind == .stash) e.doneEnd fun slot r =>
      if r.sealed then e.doneEnd (e.during (costC 1))
      else
        let s := ((e.during (costC 1)).settleRegion e.die slot).setRegion e.die slot { r with sealed := true }
        e.wait (s.cleanRegion e.die slot r) 15 .seal
  | _ => none
where
  row (h : Fin 64) (g : Guard) (ok : RegionEnt → Bool) (done : State → State) (k : Nat → RegionEnt → State) : Option Row :=
    match e.s.regionOf e.die e.l (e.k h) with
    | none => passing e g [] (done ((e.during (costC 1)).countInvalid e.l.tcid 1))
    | some x => if ok x.2 then passing e g [] (k x.1 x.2) else none

/-- An engine row: its commands, one for each passing item or strip, how each is committed, and the items whose descriptors hold a damaged word. -/
structure EngineRow where
  uses : List VUse
  jobs : List Job
  commit : State → Cmd → State
  hurt : Option (Lanes × Nat × Nat)

/-- The items whose descriptors hold a damaged word (R98). -/
def descHurt (e : Env) (p : Lanes) (a : Val) (disp : BitVec 7) : Option (Lanes × Nat × Nat) :=
  ((e.mark (costC 1)).withDescs p a disp 128 128).hurt

def engineRow (e : Env) : Instr → Option (Guard × EngineRow)
  | .copy x =>
    let a := (during e (costC 1)).src false x.a
    let jobs := (e.passing x.g).map fun i =>
      let bs := e.readShDesc (a.at i) x.disp 128 128
      let d := parseCopy bs
      (⟨{ (e.mark (costC 1)).newCmd i (e.copyPath d) (.copy d false) d.moves with rows := d.rows },
        refusal (copyRefused bs d (e.sideKind d.denseSpace d.dense) (e.sideKind d.stridedSpace d.strided))⟩ : Job)
    some (x.g, ⟨descUses x.a, jobs, State.commitCmd, descHurt e (e.pass x.g) a x.disp⟩)
  | .coll x =>
    let a := (during e (costC 1)).src false x.a
    let jobs := (e.passing x.g).map fun i =>
      let bs := e.readShDesc (a.at i) x.disp 128 128
      let d := parseColl bs
      (⟨(e.mark (costC 1)).newCmd i .co (.coll d 0)
        (collTotal d.params (((e.s.collGroup? d.group).map fun g => g.populated.length).getD 0) d.slot), refusal (e.s.collRefused bs)⟩ : Job)
    some (x.g, ⟨descUses x.a, jobs, State.commitColl, descHurt e (e.pass x.g) a x.disp⟩)
  | .gather x => some (x.g, gathered x false)
  | .scatter x => some (x.g, gathered x true)
  | .xatom x =>
    let V := during e (costC 1)
    let ret : Option (List (Nat × W32)) := match x.d with
      | .zero => none
      | d => some ((e.passing x.g).map fun i => (i, ((V.src false d).at i).setWidth 32))
    let jobs := (e.stripsOf (e.pass x.g)).map fun t =>
      let lanes := e.laneArgs (e.pass x.g) t (V.addr64 x.a) (V.src x.op.wide x.b)
      (⟨(e.mark (costC 1)).newCmd 0 .xa (.xatom x.op ret lanes) lanes.length, none⟩ : Job)
    if e.l.det && atomFadd x.op then none
    else
      some (x.g, ⟨useA x.a ++ useSrc x.op.wide x.b ++ useSrc false x.d, jobs,
        (fun s c => s.commitCmd { c with rel := s.headsOf e.r (if x.rel then some x.scope else none) }), none⟩)
  | .dred x =>
    let V := during e (costC 1)
    let wide := dredBytes x.ty == 8
    let held := (e.s.log.filter fun r => r.1 == e.l.seq).length
    let full := e.l.det && decide (e.s.logRoom e.l.tcid < held + Lanes.count (e.pass x.g))
    let jobs := (e.stripsOf (e.pass x.g)).map fun t =>
      let lanes := e.laneArgs (e.pass x.g) t (V.addr64 x.a) (V.src wide x.b)
      (⟨(e.mark (costC 1)).newCmd 0 .co (.dred x.op x.ty lanes) lanes.length, if full then some (2 ^ 57) else none⟩ : Job)
    some (x.g, ⟨useA x.a ++ useSrc wide x.b, jobs, (fun s c =>
      if e.l.det then (s.logDred e.l e.b c).commitCmd { c with total := 0 } else s.commitCmd c), none⟩)
  | _ => none
where
  gathered (x : GatherOp) (scatter : Bool) : EngineRow :=
    let bs := e.readShDesc (e.kOpt x.a) x.disp 128 128
    let d := parseCopy bs
    let ext (v : W64) : W64 := if x.ty.wide then v else if x.ty.signed then (v.setWidth 32).signExtend 64 else low32 v
    let jobs := (e.stripsOf (e.pass x.g)).map fun t =>
      let lanes := (e.laneArgs (e.pass x.g) t ((during e (costC 1)).src x.ty.wide x.b) (.uni 0)).map fun a => { a with addr := ext a.addr }
      (⟨(e.mark (costC 1)).newCmd 0 .ga (.gather d scatter t lanes) lanes.length,
        refusal (gatherRefused bs d scatter (e.sideKind d.denseSpace d.dense) (e.sideKind d.stridedSpace d.strided))⟩ : Job)
    ⟨useSrc x.ty.wide x.b, jobs, State.commitCmd, descHurt e (e.pass x.g) (.uni (e.kOpt x.a)) x.disp⟩

/-- What translation leaves of the jobs. -/
def translated (e : Env) (x : EngineRow) : State × List Cmd × List ItemFault × List (Nat × Nat) :=
  (e.mark (costC 1)).xlJobs (e.during (costC 1)) x.jobs

/-- The commands are committed after the context's posted stores, slot C is held one tick for each, and the region ends (R247, R336). -/
def committed (e : Env) (out : State × List Cmd × List ItemFault × List (Nat × Nat)) (commit : State → Cmd → State) : State :=
  e.doneCommit (out.2.1.foldl (fun s c => commit s { c with id := s.nextId })
    ((out.1.publish e.c.id).holdC (e.mark (costC 1)) out.2.1.length))

end Sys2Proof.Claims

/-- `rmap`, `runmap`, `rwb`, `rinv` and `seal` have their effects on the region that their handle names; through an invalid handle they only count the
access (R24, R27, R78, R79, R333, R347). -/
def Obligations.RegionRowsComplete : Prop :=
  ∀ (i : Instr) (s : State) (e : Env) (x : Row), regionRow e i = some x → Issues i s e x.uses → e.fits x.state →
    exec i s = .next (e.landed x.uses x.state)

/-- `rfill` fills the lines of its range, `stash` commits copies into a region, and `copy`, `gather`, `scatter`, `xatom`, `coll` and `dred` whose
counters have room and whose pages all translate commit one command for each passing item or strip (R82, R83, R94, R334-R336, R338-R340,
R342, R344-R346). -/
def Obligations.EngineRowsCommit : Prop :=
  ((∀ (x : LinesOp) (s : State) (e : Env) (slot : Nat) (r : RegionEnt), Issues (.rfill x) s e [] → e.pass x.g ≠ 0 → e.c.counter .sp < 4095 →
     named e x.h (fun r => r.kind == .mapped || (r.kind == .stash && r.sealed)) = some (slot, r) →
     let D := (e.during (costC 1)).settleRegion e.die slot
     let set := (List.range (r.size / 256)).filter (e.lineSetOf x r)
     (∀ n ∈ set, ∃ l, (D.linesOf e.die slot).find? (fun l => l.line == n) = some l ∧ leafRd l.leaf = true) →
     let todo := set.filter fun n => ((D.linesOf e.die slot).find? fun l => l.line == n).any fun l => l.v != BitVec.allOnes 256
     let t := e.done (todo.foldl (fun s n => s.askLine e.die slot n e.c.core r.tcid false true [])
       (D.commitCmd { (e.mark (costC 1)).spCommand D (e.pass x.g) with waiting := todo, writers := [(e.die, slot)] }))
     e.fits t → exec (.rfill x) s = .next (e.landed [] t)) ∧
   (∀ (x : DescOp) (s : State) (e : Env), Issues (.stash x) s e (descUses x.a) → e.pass x.g ≠ 0 →
     let k := costC 1
     let a := (during e k).src false x.a
     let jobs := (e.passing x.g).map fun i =>
       let bs := e.readShDesc (a.at i) x.disp 128 128
       let d := parseCopy bs
       (⟨{ (e.mark k).newCmd i .cp (.copy d true) d.moves with rows := d.rows }, refusal (stashRefused bs d (e.sideKind d.denseSpace d.dense))⟩ : Job)
     let ch := (e.mark k).charge (e.during k) jobs
     let out := (e.mark k).xlJobs ch.s jobs
     let t := committed e out State.commitCmd
     descHurt e (e.pass x.g) a x.disp = none → ch.over_ = none → (e.mark k).pathsFit jobs = true → out.2.2.1 = [] → e.fits t →
       exec (.stash x) s = .next (e.landed (descUses x.a) t))) ∧
  (∀ (i : Instr) (s : State) (e : Env) (g : Guard) (x : EngineRow), engineRow e i = some (g, x) → Issues i s e x.uses → e.pass g ≠ 0 →
     x.hurt = none → (e.mark (costC 1)).pathsFit x.jobs = true → (translated e x).2.2.1 = [] →
     e.fits (committed e (translated e x) x.commit) → exec i s = .next (e.landed x.uses (committed e (translated e x) x.commit)))

/-- A counter rises by one with each command that is committed, and the oldest command on it, once everything that it moves has been moved, lowers it by
one, leaves, and gives its outcomes to the context (R82, R83, R129). -/
def Obligations.CountersCountCommands : Prop :=
  (∀ (s : State) (cmd : Cmd) (c : Ctx), s.ctx? cmd.ctx = some c →
    ∃ c', (s.commitCmd cmd).ctx? cmd.ctx = some c' ∧ c'.counter cmd.path = c.counter cmd.path + 1 ∧
      (∀ p, p ≠ cmd.path → c'.counter p = c.counter p) ∧
      (s.commitCmd cmd).cmds = s.cmds ++ [{ cmd with view := cmd.view.join (s.knownBy ⟨cmd.ctx, cmd.frag⟩) }]) ∧
  (∀ (s : State) (ctx : Nat) (p : Path) (c : Ctx) (cmd : Cmd), s.ctx? ctx = some c →
    s.cmds.find? (fun x => x.ctx == ctx && x.path == p) = some cmd → cmd.complete = true →
    ∃ t c', exec (.commandDecrement ctx p) s = .next t ∧ t.ctx? ctx = some c' ∧ c'.counter p = c.counter p - 1 ∧
      (∀ q, q ≠ p → c'.counter q = c.counter q) ∧ t.cmds = s.cmds.filter (fun x => x.id != cmd.id) ∧
      c'.outcomes.refused = c.outcomes.refused + cmd.refused ∧ c'.outcomes.uerr = c.outcomes.uerr + (if cmd.error.isSome then 1 else 0))

namespace Sys2Proof.Claims

open Sys2Proof Sys2Proof.Machine

/-- The items whose queue descriptor holds a damaged word (R98). -/
def queueHurt (e : Env) (x : QdescOp) (n : Nat) : Option (Lanes × Nat × Nat) :=
  ((e.mark (costC 1)).withDescs e.f.mask (.uni (e.kOpt x.a)) x.disp 64 n).hurt

/-- Rows on queues and expert slots, on operands that raise no fault and with descriptors that are sound (R349-R354). -/
def queueRow (e : Env) : Instr → Option Row
  | .qpush x =>
    let e' := e.mark (costC 1)
    let items := e'.pushItems x (e.pass x.g)
    let s := ((e.during (costC 1)).publish e.c.id).holdC e' ((items.map fun y => y.pos / 64).eraseDups).length
    if items.any e.pushBad then none
    else
      passing e x.g (useOpt false x.d ++ [⟨x.b.val, 4, false, false, none⟩] ++ useSrc false x.a)
        (if e.l.det then e.doneCommit (e'.putStatus x (Lanes.ofList (items.map fun y => y.pos)) (fun _ => 0)
            (items.foldl (fun s y => s.hold e.l e.b e'.c y) s))
          else e.wait (items.foldl (fun s y => s.sendPush e.r y) s) 15 .qpush)
  | .qfire d a g =>
    match e.s.queueFor e.l.tcid (e.k a).toNat with
    | none => none
    | some q =>
      let out := ((e.during (costC 1)).publish e.c.id).fire q.1 q.2
      let n : W64 := BitVec.ofNat 64 (out.2.getD 0)
      let V := during e (costC 1)
      passing e g [] (e.doneEnd (e.put out.1 (match d with
        | some k => V.file.putK k false n
        | none => V.file.shift (.uni n))))
  | .qcomb x =>
    match parseComb (e.queueDesc x 64), queueHurt e x 64 with
    | .ok q, none =>
      let go := State.touchRanges e.l e.c.core
        [(q.st, 1, q.T * q.K, false), (q.w, 4, 4 * (q.T * q.K), false),
          (q.y, (if q.ybf then 2 else 4), (if q.ybf then 2 else 4) * (q.T * q.K) * q.H, false),
          (q.out, (if q.obf then 2 else 4), (if q.obf then 2 else 4) * q.T * q.H, true), (q.flag, 1, q.T, true)] (e.during (costC 1))
      let out := (List.range q.T).foldl (State.combToken e.l ⟨e.r.agent, true, e.f.rel⟩ e.c.core q) ⟨go.1.publish e.c.id, 0, none⟩
      if go.2.isSome || out.bad.isSome then none
      else some ⟨[], e.done (((e.mark (costC 1)).putCount x out.s out.flags).knowAll e.r)⟩
    | _, _ => none
  | .qdrain x =>
    match parseDrain (e.queueDesc x 192), queueHurt e x 192 with
    | .ok q, none => some ⟨[], if e.drainWaits q then e.wait (e.during (costC 1)) 15 .qdrain else (e.mark (costC 1)).drain x q⟩
    | _, _ => none
  | .eslotGet d a =>
    let e' := e.mark (costC 1)
    let wait := e.wait (e.during (costC 1)) 15 (.eslot e.clayer)
    some ⟨[], if e'.s.slotAhead e.die e'.s.nextId then wait else (e'.slotGet d a e.clayer).getD wait⟩
  | .eslotReady a =>
    some ⟨[], e.doneEnd (match e.slotOf (e.k a) with
      | some (n, y) =>
        if y.state = .filling ∧ y.filler = some e.c.id then
          (e.during (costC 1)).setSlot e.die n { y with state := .ready, filler := none }
        else e.during (costC 1)
      | none => e.during (costC 1))⟩
  | .eslotPut a =>
    some ⟨[], e.doneEnd (match e.slotOf (e.k a) with
      | some (n, y) => (e.during (costC 1)).setSlot e.die n { y with pins := y.pins.filter fun c => c != e.c.id }
      | none => e.during (costC 1))⟩
  | _ => none

end Sys2Proof.Claims

/-- `qpush` sends or holds an entry for each passing item, `qfire` asks for a firing and returns its entries, `qcomb` combines rows that it can touch, `qdrain`
drains or waits for room, and the `eslot` rows take, complete and release a slot (R349-R354). -/
def Obligations.QueueRowsComplete : Prop :=
  ∀ (i : Instr) (s : State) (e : Env) (x : Row), queueRow e i = some x → Issues i s e x.uses → e.fits x.state →
    exec i s = .next (e.landed x.uses x.state)

/-- Queues are first in, first out: an entry is appended at the tail with status 0 while the on-chip quota has room, entries leave from the head in
order, and an entry for a full queue of a drop class is dropped and counted with status 2 (R349, R372, R373). -/
def Obligations.QueuesAreFifo : Prop :=
  ∀ (s : State) (d : Nat) (q : Queue) (rest : List Queue) (w : List W32) (mute : Bool),
    d < 4 → (s.die d).queues = q :: rest → q.ring = [] →
    (q.chip.length < q.quota → (s.append d q w mute).2 = 0 ∧
      ∃ t, ((s.append d q w mute).1.die d).queues = { q with chip := q.chip ++ [⟨w, t⟩] } :: rest) ∧
    (q.quota ≤ q.chip.length → q.spillCap = 0 → (s.qclass q.cls).drop = true → (s.append d q w mute).2 = 2 ∧
      ((s.append d q w mute).1.die d).queues = { q with drops := q.drops + 1 } :: rest) ∧
    (∀ n, (State.takeEntries d q.key n s).2 = q.chip.take n ∧
      ((State.takeEntries d q.key n s).1.die d).queues = { q with chip := q.chip.drop n } :: rest)

/-- A `launch` whose descriptors, headers and depth are good submits one child for each passing item in ascending order, after the context's earlier
stores (R114), and is a commit instruction; with a queue that has no room it waits with the rest still to be submitted; in a deterministic launch it faults on its items (R181, R255, R368). -/
def Obligations.ChildLaunches : Prop :=
  ∀ (a : Src) (g : Guard) (s : State) (e : Env), Issues (.launch a g) s e (useSrc false a) → e.pass g ≠ 0 →
    let k := costC 1
    (e.l.det = false →
      let out := (e.mark k).childChecks ((e.during k).publish e.c.id) ((during e k).src false a) (e.passing g)
      ∀ ds : List (Nat × LDesc × KHeader), out.2 = ds.map (fun x => (x.1, ChildCheck.ok x.2.1 x.2.2)) →
        let kids := ds.map fun x =>
          (e.r, { mkLaunch 0 e.l.tcid (.child e.c.id e.b.id x.1) x.2.1 x.2.2 (48 + x.2.1.prio) (e.l.depth + 1) out.1.tick with
            code := (out.1.launchCode e.f.view.knowsPub).join e.l.code })
        let t := State.enqueueChildren kids.length { out.1 with toEnqueue := out.1.toEnqueue ++ kids } e.r
        let u := if t.childrenDone e.r then e.doneCommit t else e.wait t 15 .childQueue
        (∃ f, out.1.frag? e.r = some f ∧ f.state = .running ∧ f.mask ≠ 0 ∧ f.trapWait = false) → e.fits u →
          exec (.launch a g) s = .next (e.landed (useSrc false a) u)) ∧
    (e.l.det = true →
      let f := (e.during k).faultItems e.r 8 (e.pass g) 0 fun _ => 0
      (∀ h, f.frag? e.r = some h → h.mask = 0) → e.fits f → exec (.launch a g) s = .next f)

/-! ### Time, issue and the machine's own events -/

/-- One Equinox tick: where nothing of the tick is left to choose, to look at, to fire or to sample, the count rises by one, and the core cycle by one for each sixteen
sixteenths of the issue rate. Issue arbitration gives a free slot to the fragment that has waited longest, of the demoted and the yielding
ones only where no other is ready; a yield ends after its ticks; a line that is fetched enters the core's instruction cache and its waiters
go on; a sample is one record; and the array takes the request of highest level, gives up one whose last group is done, and raises one that
has waited; a contraction that closes is applied (R2, R34, R248, R361, R362, R407, R413). -/
def Obligations.TimeAndIssue : Prop :=
  (∀ s : State, s.picks = [] → s.boundaryDue = false → s.toLook = none → s.firingDue = false → (∀ p ∈ s.busyParts, s.arbitrate p = none ∧ s.sampleDue p = false) → s.frac < 16 →
     (∀ l ∈ s.launches, ∀ h, l.halted = some h → h.tick ≠ s.tick) →
     ∃ t, exec .equinoxTick s = .next t ∧ t.tick = s.tick + 1 ∧ t.cycle = s.cycle + (s.frac + s.rate) / 16 ∧
       t.frac = (s.frac + s.rate) % 16 ∧ (s.mgmt.thaw = false → s.mgmt.powerSteps = 0 → t.cycle = s.cycle + 1) ∧
       t.tier1 = s.tier1 ∧ t.cmds = s.cmds ∧ t.launches = s.launches) ∧
  ((∀ (s : State) (p : PartRef) (L : Bool) (r : FragRef), s.picks = [] → (s.part p.core p.part).openSlot s.cycle L = true →
     choose (s.ready p) L = some r → (∀ x ∈ s.ready p, x.slot < 16 ∧ x.entry < 64) →
     (∃ t, exec (.issueArbitration p) s = .next t ∧ r ∈ t.picks ∧ ∀ q ∈ t.picks, ∃ M, choose (s.ready p) M = some q) ∧
     ∃ y ∈ s.ready p, y.r = r ∧ y.inSlot L = true ∧
       ∀ x ∈ s.ready p, x.inSlot L = true → (x.late = false → y.late = false) ∧ (x.late = y.late → y.last ≤ x.last)) ∧
   (∀ (s : State) (r : FragRef) (f : Frag), s.frag? r = some f → f.yieldUntil ≠ 0 → f.yieldUntil < s.cycle →
     exec (.yieldExpiry r) s = .next (s.updFrag r fun f => { f with yieldUntil := 0 })) ∧
   (∀ (s : State) (core tcid : Nat) (line : VAddr) (leaf : W64) (phys : Nat),
     s.fetching core tcid line ≠ [] → s.translate core tcid (line.setWidth 64) (.fetch line) = .ok leaf phys → fetchable leaf = true →
     s.badRead (leafTier leaf) phys 64 = false →
     let got := ({ s with freeCtr := s.freeCtr + 1 } : State).readPhysAt ((s.core core).code.join (s.tlbView core tcid (line.setWidth 64)))
       (leafTier leaf) phys 64 0
     let bs := got.1
     ((∀ w ∈ s.past, ∀ m, tierSpace (leafTier leaf) = some m → w.meets m phys 64 = false) → bs = s.readPhys (leafTier leaf) phys 64) ∧
     ∃ t, exec (.instructionFetch core tcid line) s = .next t ∧
       (t.core core).icache.head? = some ⟨tcid, line, bs, s.codeGen, lineWords (leafTier leaf) phys got.2.seen⟩ ∧
       ∀ r ∈ s.fetching core tcid line, ∀ f, s.frag? r = some f → ∃ g, t.frag? r = some g ∧ g.wait = none ∧ g.pc = f.pc) ∧
   (∀ (s : State) (p : PartRef) (c : Ctx) (b : Block) (f : Frag), s.sampleDue p = true → s.picks = [] → s.samples p = [c] →
     s.block? c.block = some b → s.sampled p c = some f →
     exec (.pcSample p) s = .next ((s.trace (s.ctxTcid c)
       [traceHead 4 1 0 (s.ctxTcid c) 0, BitVec.ofNat 64 s.tick, BitVec.ofNat 64 b.launch, f.pc.setWidth 64, BitVec.ofNat 64 b.index,
         BitVec.ofNat 64 (c.core * 2 ^ 24 + c.part * 2 ^ 20 + c.slot * 2 ^ 16 + Lanes.count f.mask % 256 * 2 ^ 8 +
           if c.issued then 16 else s.stallOf c)]).updPart p.core p.part fun q => { q with sampled := s.tick + 1 })) ∧
   (∀ (s : State) (p : PartRef) (g : GReq), bestReq (s.part p.core p.part).arr = some g →
     (∀ x ∈ (s.part p.core p.part).arr, x.running = false ∧ x.ageDue s.cycle = false) →
     (∃ t, exec (.geyserRequestStart p) s = .next t ∧ ∃ x ∈ (t.part p.core p.part).arr, x.running = true ∧ x.entered = s.cycle ∧ x.op = g.op) ∧
     ∀ x ∈ (s.part p.core p.part).arr, x.level < g.level ∨ (x.level = g.level ∧ g.order ≤ x.order)) ∧
   (∀ (s : State) (p : PartRef) (g : GReq) (n : Nat), (s.part p.core p.part).arr.find? (fun x => x.running) = some g → g.groups = [n] →
     g.entered + n ≤ s.cycle → (∀ x ∈ (s.part p.core p.part).arr, x.ageDue s.cycle = false) →
     ∃ t, exec (.geyserGroupComplete p) s = .next t ∧
       (t.part p.core p.part).arr = dropFirst (fun x => x == g) (s.part p.core p.part).arr) ∧
   (∀ (s : State) (p : PartRef) (g : GReq), (s.part p.core p.part).arr = [g] → g.running = false → g.level < 7 →
     g.entered + Config.geyserAgeTicks ≤ s.cycle →
     ∃ t, exec (.geyserRequestAgeing p) s = .next t ∧
       (t.part p.core p.part).arr = [{ g with level := g.level + 1, entered := g.entered + Config.geyserAgeTicks }]) ∧
   (∀ (s : State) (b : Block) (l : Launch) (tile : Fin 8) (strip : Nat) (site : Fin 16) (x : Contraction),
     s.block? b.id = some b → s.launch? b.launch = some l →
     let key := if l.hdr.blockTiles.getLsbD tile.val then none else some strip
     (b.inst tile.val key).next? = some x → x.site = site.val → s.requestsOf b tile.val key x.id = false →
     exec (.contractionClosure b.id tile strip site) s =
       .next (s.setInst b.id { (b.inst tile.val key).apply x with opens := (b.inst tile.val key).opens.filter fun y => y.id != x.id })))

namespace Sys2Proof.Claims

open Sys2Proof Sys2Proof.Machine

/-- Fragment `f` of context `c` waits for `x` at the instruction of `w`, away from its reconvergence point. -/
structure Waiting (s : State) (r : FragRef) (x : WaitFor) (c : Ctx) (f : Frag) (w : Wait) : Prop where
  ctx : s.ctx? r.ctx = some c
  frag : c.frag? r.frag = some f
  state : f.state = .running
  leaf : f.hasChildren = false
  wait : f.wait = some w
  what : w.what = x
  away : f.parent = none ∨ f.pc + BitVec.ofNat 58 w.len ≠ f.reconv

/-- The fragment is past the instruction that it waited at, with registers `R` and the items that it had. -/
def Past (t : State) (r : FragRef) (f : Frag) (w : Wait) (R : Regs) : Prop :=
  ∃ g, t.frag? r = some g ∧ g.wait = none ∧ g.state = .running ∧ g.pc = f.pc + BitVec.ofNat 58 w.len ∧ g.mask = f.mask ∧ g.regs = R

/-- The fragment stands where it was, and executes the instruction again. -/
def Again (t : State) (r : FragRef) (f : Frag) : Prop :=
  ∃ g, t.frag? r = some g ∧ g.wait = none ∧ g.pc = f.pc ∧ g.mask = f.mask ∧ g.regs = f.regs

end Sys2Proof.Claims

/-- Waits end when what they wait for holds: a `fence` when the context's earlier stores are performed, a `wait` when the counter is at most the
bound, `wchild` when every child of its items has retired, `fwr` and `frd` when the full bit is as they need it, `await` when every contraction
that an active item has passed has been applied, `tlbi` when its conditions hold, `seal` when nothing stashes into the region and its lines are clean
and written back, and `shmap` when the two contexts name each other with one range (R57, R85, R127, R128, R256, R258, R259, R321, R347). -/
def Obligations.WaitsEnd : Prop :=
  (∀ s r c f w x, Waiting s r .fence c f w → w.instr = .fence x → (∀ p ∈ s.stores, p.ctx ≠ r.ctx) →
    let out := c.outcomes.gather x.scope
    ∃ t, exec (.fenceCompletion r) s = .next t ∧ (t.ctx? r.ctx).map (fun c => c.outcomes) = some out.2 ∧
      Past t r f w (match x.d with
        | some k => ((⟨f.regs, c.mat⟩ : RegFile).putK k x.nw out.1).regs
        | none => ((⟨f.regs, c.mat⟩ : RegFile).shift (.uni out.1)).regs)) ∧
  (∀ s r c f w x, Waiting s r .counter c f w → w.instr = .wait x →
    c.counter x.path ≤ (match x.bound with
      | some n => f.regs.k[n].toNat
      | none => 0) →
    ∃ t, exec (.waitCompletion r) s = .next t ∧ Past t r f w f.regs) ∧
  (∀ s r c f w, Waiting s r .wchild c f w →
    (∀ y ∈ c.children, f.mask.getLsbD y.1 = true → ∀ l ∈ s.launches, l.seq = y.2 → l.state = .retired ∨ l.state = .done) →
    ∃ t, exec (.wchildCompletion r) s = .next t ∧ Past t r f w f.regs) ∧
  (∀ s r c f w d a g nw, Waiting s r .fullEmpty c f w → w.instr = .fwr ⟨d, nw⟩ a g → c.fullBit d.val = false →
    ∃ t, exec (.fullEmptyRelease r) s = .next t ∧ Again t r f) ∧
  (∀ s r c f w d a g nw, Waiting s r .fullEmpty c f w → w.instr = .frd ⟨d, nw⟩ a g → c.fullBit a.val = true →
    ∃ t, exec (.fullEmptyRelease r) s = .next t ∧ Again t r f) ∧
  (∀ s r c f w b x, Waiting s r .await c f w → s.block? c.block = some b → w.instr = .await x →
    (∀ k ∈ c.instKeys x.t.blk f.mask, ∀ y ∈ (b.inst x.t.tile.val k).opens, y.site = x.site.val → y.allPassed &&& c.instMask k f.mask = 0) →
    ∃ t, exec (.awaitCompletion r) s = .next t ∧ Past t r f w f.regs) ∧
  (∀ s r c f w b o x, Waiting s r .await c f w → s.block? c.block = some b → w.instr = .opa o → siteOf w.instr = some x →
    (∀ k ∈ c.instKeys x.t.blk f.mask, ∀ y, (b.inst x.t.tile.val k).open? x.site.val = some y → y.allPassed &&& c.instMask k f.mask = 0) →
    ∃ t, exec (.awaitCompletion r) s = .next t ∧ Again t r f) ∧
  (∀ s n q, s.tlbis.find? (fun q => q.id == n) = some q → s.beatsDone q = true →
    ∃ t, exec (.tlbiCompletion n) s = .next t ∧ t.tlbis = s.tlbis.filter (fun x => x.id != n) ∧
      (q.form = 2 → (∀ core, (t.core core).tlb = []) ∧ ∀ d, d < 4 → (t.die d).walkCache = []) ∧
      ∀ r c f w, q.waiter = some r → Waiting s r (.tlbi q.id) c f w → Past t r f w f.regs) ∧
  (∀ s r c f w l h x, Waiting s r .seal c f w → s.launchOfCtx? c = some l → w.instr = .seal h →
    s.regionOf (dieOfCore c.core) l f.regs.k[h] = some x → s.stashing (dieOfCore c.core) x.1 = false →
    (∀ y ∈ s.linesOf (dieOfCore c.core) x.1, y.d = 0) → (∀ b ∈ s.writeBacks, b.die ≠ dieOfCore c.core ∨ b.slot ≠ x.1) →
    ∃ t, exec (.sealCompletion r) s = .next t ∧ t.linesOf (dieOfCore c.core) x.1 = [] ∧ Past t r f w f.regs) ∧
  (∀ s r c f w d g v lo hi, Waiting s r .shmap c f w → s.slotCtx? c.core c.part d.slot = some d → c.id ≠ d.id →
    Waiting s ⟨d.id, g.id⟩ .shmap d g v → d.mapping = some g → c.shWish = some (d.slot, lo, hi) → d.shWish = some (c.slot, lo, hi) →
    c.shmap = none → d.shmap = none →
    ∃ t c' d', exec (.shmapPairing r) s = .next t ∧ t.ctx? c.id = some c' ∧ t.ctx? d.id = some d' ∧
      (c'.shmap.map fun m => (m.partner, m.lo, m.hi)) = some (d.id, lo, hi) ∧
      (d'.shmap.map fun m => (m.partner, m.lo, m.hi)) = some (c.id, lo, hi))

/-- `pmap` answers in the order of arrival: a refusal where the context's entry is not valid, the leaf where it is valid, and in a request's final step
the new leaf, or what a mailbox command has put there meanwhile; children that a `launch`
waits to submit are submitted when their queue has room; `eslot.get` takes a slot that holds its key; `qdrain` drains when its queue has
room; and an entry is appended to its queue when no earlier one of its instruction is still on its way there (R67, R255, R349, R351, R354). -/
def Obligations.RequestsAreServed : Prop :=
  (∀ s r c f w d a g b l x, Waiting s r .pmap c f w → c.shmap = none → w.instr = .pmap d a g → s.pmapping = none → s.firstPmap = some r →
    s.block? c.block = some b → s.launch? b.launch = some l → s.pmap r l.seq l.tcid f.regs.k[a] = .word x →
    ∃ t, exec (.pmapCompletion r) s = .next t ∧ Past t r f w ((⟨f.regs, c.mat⟩ : RegFile).putK d false (BitVec.ofNat 64 x)).regs) ∧
  (∀ s r c f w d a g b l q, Waiting s r .pmap c f w → c.shmap = none → w.instr = .pmap d a g → s.pmapping = some q → q.who = r →
    s.block? c.block = some b → s.launch? b.launch = some l → s.memOk = true →
    ∃ t, exec (.pmapCompletion r) s = .next t ∧ t.pmapping = none ∧
      (s.tier1.readW64 q.leafAt = q.old →
        Past t r f w ((⟨f.regs, c.mat⟩ : RegFile).putK d false q.new).regs) ∧
      (s.tier1.readW64 q.leafAt ≠ q.old →
        Past t r f w ((⟨f.regs, c.mat⟩ : RegFile).putK d false
          (if leafValid (s.tier1.readW64 q.leafAt) then s.tier1.readW64 q.leafAt else 8)).regs)) ∧
  (∀ (s : State) (r : FragRef) (tcid seq : Nat) (va : W64), (s.tcid tcid).valid = false → s.pmap r seq tcid va = .word 10) ∧
  (∀ (s : State) (r : FragRef) (tcid seq : Nat) (va : W64) (base : Nat), (s.tcid tcid).valid = true → va.toNat < 2 ^ 58 →
    (s.tcid tcid).root < s.tier1Limit → s.pmapTable va 3 (s.tcid tcid).root = .ok base →
    let leaf := s.tier1.readW64 (base + 8 * bitsN va.toNat 14 11)
    leafValid leaf = true → s.pmap r seq tcid va = .word leaf.toNat) ∧
  (∀ s r c f w l p, Waiting s r .childQueue c f w → s.toEnqueue = [(r, l)] → s.queueFree l.queue = true → l.path = .child c.id c.block p →
    ∃ t, exec (.childQueueRoom r) s = .next t ∧ t.toEnqueue = [] ∧ Past t r f w f.regs ∧
      ∃ k ∈ t.launches, k.seq = s.launchSeq + 1 ∧ k.desc = l.desc ∧ k.queue = l.queue ∧ k.hdr = l.hdr) ∧
  (∀ s r c f w b l d a y n x layer, Waiting s r (.eslot layer) c f w → w.instr = .eslotGet d a → s.block? c.block = some b → s.launch? b.launch = some l →
    (s.die (dieOfCore c.core)).slotSet = some x → f.regs.k[a].toNat < 2 ^ 32 → slotLayer f.regs.k[a] < x.layers →
    x.slots.zipIdx.find? (fun z => z.1.state != .empty && z.1.key == f.regs.k[a]) = some (y, n) → y.state = .ready →
    s.slotAhead (dieOfCore c.core) w.stamp = false →
    ∃ t g, exec (.eslotWaitRetry r) s = .next t ∧ t.frag? r = some g ∧ g.wait = none ∧
      g.regs.k.getD d.val 0 = s.handleOf (dieOfCore c.core) y.region ∧ g.regs.k.getD (d.val + 1) 0 = 0) ∧
  (∀ s r c f w e x q, Waiting s r .qdrain c f w → s.waitEnv r = some e → w.instr = .qdrain x → parseDrain (e.queueDesc x 192) = .ok q →
    e.drainWaits q = false → exec (.qdrainEnqueue r) s = .next (e.drain x q)) ∧
  (∀ s p rest c l d q, s.pushes = p :: rest → p.status = none → s.ctx? p.ctx = some c → s.launchOfCtx? c = some l →
    s.queueFor l.tcid p.key.toNat = some (d, q) → d < 4 → (s.die d).queues = [q] → q.ring = [] → q.chip.length < q.quota →
    (∃ y ∈ rest, y.ctx = p.ctx ∧ y.frag = p.frag ∧ y.status = none) →
    ∃ t at_, exec (.queueAppend p.id) s = .next t ∧ (t.die d).queues = [{ q with chip := q.chip ++ [⟨p.entry, at_⟩] }] ∧
      t.pushes = { p with status := some 0 } :: rest)

/-- Memory's own events: a posted store reaches its region and lowers `sp`; a walk puts its leaf in the TLB, or gives its fault to the
access that asked and keeps it nowhere else; a first touch fixes a line's translation with V and D empty; a fill gives the bytes outside V from
memory and no others; replacement takes the line whose last access is oldest, writes it back and, staying with it, discards it; and a write-back
writes exactly the dirty bytes (R48, R51, R58, R77-R80). -/
def Obligations.LinesFollowMemory : Prop :=
  (∀ (s : State) (p : PStore) (c : Ctx) (cmd : Cmd) (x : RegionEnt), s.memOk = true → s.stores = [p] → s.regionAt? p.die p.slot = some x →
    x.kind = .plain → SMap.getD (s.die p.die).gens p.slot 0 = p.gen → (p.bytes.map fun y => y.1).Nodup →
    s.ctx? p.ctx = some c → s.cmds = [cmd] → cmd.id = p.cmd → cmd.ctx = p.ctx → cmd.path = .sp → ({ cmd with pending := 0 } : Cmd).complete = true →
    ∃ t c', exec (.stwPerformed p.id) s = .next t ∧ t.stores = [] ∧ t.cmds = [] ∧ t.ctx? p.ctx = some c' ∧ c'.counter .sp = c.counter .sp - 1 ∧
      (∀ y ∈ p.bytes, (t.die p.die).scratch.read (x.pos + y.1) = y.2) ∧
      ∀ a, (∀ y ∈ p.bytes, a ≠ x.pos + y.1) → (t.die p.die).scratch.read a = (s.die p.die).scratch.read a) ∧
  (∀ (s : State) (w : Walk) (leaf : W64), s.walks.find? (fun x => x.id == w.id) = some w →
    (s.walk (dieOfCore w.core) w.tcid w.va).2 = .ok leaf →
    ∃ t, exec (.tableWalkComplete w.id) s = .next t ∧ t.walks = s.walks.filter (fun x => x.id != w.id) ∧
      ∀ who, t.translate w.core w.tcid w.va who = .ok leaf (leafPhys leaf w.va)) ∧
  (∀ (s : State) (w : Walk) (f : TFault), s.walks.find? (fun x => x.id == w.id) = some w →
    (s.walk (dieOfCore w.core) w.tcid w.va).2 = .error f →
    (∀ (r : FragRef) (g : Frag), w.askers = [.frag r] → s.frag? r = some g → g.asks.contains (pageAsk w.va) = true →
      (∀ x ∈ s.walkFaults, x.who ≠ r ∨ x.vpn ≠ w.va.toNat / 2 ^ 14) →
      ∃ t, exec (.tableWalkComplete w.id) s = .next t ∧ t.walks = s.walks.filter (fun x => x.id != w.id) ∧ t.pageFault? r w.va = some f) ∧
    (w.askers = [] → ∃ t, exec (.tableWalkComplete w.id) s = .next t ∧ t.walks = s.walks.filter (fun x => x.id != w.id) ∧
      t.walkFaults = s.walkFaults ∧ ∀ n, (t.core n).tlb = (s.core n).tlb)) ∧
  (∀ (s : State) (l : LineRef) (q : LineReq) (x : RegionEnt) (leaf : W64) (phys : Nat),
    (s.die l.die).lineReqs.find? (fun q => q.slot == l.slot && q.line == l.line) = some q → s.regionAt? l.die l.slot = some x → x.lined = true →
    (s.die l.die).line? l.slot l.line = none → (s.die l.die).lines.length < Config.lineTranslations →
    s.translate q.core x.tcid (x.lineVa l.line) (.line l) = .ok leaf phys → leafTier leaf ≤ 1 →
    ∃ t, exec (.lineFirstTouch l) s = .next t ∧
      (t.die l.die).line? l.slot l.line = some ⟨l.slot, l.line, leaf, phys, s.tlbView q.core x.tcid (x.lineVa l.line), 0, 0, 0, s.cycle⟩) ∧
  (∀ (s : State) (l : LineRef) (x : Line) (e : RegionEnt), s.memOk = true → (s.die l.die).line? l.slot l.line = some x →
    s.regionAt? l.die l.slot = some e → ((s.die l.die).lineReqs.any fun q => q.slot == l.slot && q.line == l.line && q.fill) = true →
    ∃ t y, exec (.lineFillComplete l) s = .next t ∧ (t.die l.die).line? l.slot l.line = some y ∧ y.v = BitVec.allOnes 256 ∧ y.d = x.d ∧
      y.leaf = x.leaf ∧ y.phys = x.phys ∧ (∀ a, t.tier1.read a = s.tier1.read a) ∧ (∀ a, t.tier2.read a = s.tier2.read a) ∧
      ((∀ w ∈ s.past, ∀ m, tierSpace (leafTier x.leaf) = some m → w.meets m x.phys 256 = false) →
       ∀ j, j < 256 → (t.die l.die).scratch.read (e.pos + 256 * l.line + j) =
        if x.v.getLsbD j then (s.die l.die).scratch.read (e.pos + 256 * l.line + j) else (s.readPhys (leafTier x.leaf) x.phys 256).getD j 0)) ∧
  (∀ (s : State) (die : Nat) (x : Line) (e : RegionEnt), die < 4 → (s.die die).toReplace = some x → s.regionAt? die x.slot = some e →
    (s.die die).wantsLine = true → (∀ p ∈ s.stores, p.die ≠ die ∨ p.slot ≠ x.slot) →
    (x.d ≠ 0 → ∃ t, exec (.lineReplacement die) s = .next t ∧ (t.die die).victim = some (x.slot, x.line) ∧ ∃ w, t.writeBacks = s.writeBacks ++ [w] ∧ w.die = die ∧ w.slot = x.slot ∧
      w.line = x.line ∧ w.leaf = x.leaf ∧ w.phys = x.phys ∧ ∀ j b, (j, b) ∈ w.bytes ↔
        j < 256 ∧ x.d.getLsbD j = true ∧ (s.readScratch die (e.pos + 256 * x.line) 256).getD j 0 = b) ∧
    (x.d = 0 → (∀ w ∈ s.writeBacks, w.die ≠ die ∨ w.slot ≠ x.slot ∨ w.line ≠ x.line) →
      ∃ t, exec (.lineReplacement die) s = .next t ∧ (t.die die).line? x.slot x.line = none ∧ (t.die die).victim = none) ∧
    ((s.die die).victim = none → ∀ y ∈ (s.die die).lines, x.used ≤ y.used) ∧
    ∀ v, (s.die die).victim = some v → (s.die die).line? v.1 v.2 = some x ∨ (s.die die).line? v.1 v.2 = none) ∧
  (∀ (s : State) (w : WriteBack), s.memOk = true → s.writeBacks.find? (fun x => x.die == w.die && x.slot == w.slot && x.line == w.line) = some w →
    (w.bytes.map fun y => y.1).Nodup →
    ∃ t, exec (.writeBackComplete ⟨w.die, w.slot, w.line⟩) s = .next t ∧
      (leafTier w.leaf = 0 → (∀ y ∈ w.bytes, t.tier1.read (w.phys + y.1) = y.2) ∧
        ∀ a, (∀ y ∈ w.bytes, a ≠ w.phys + y.1) → t.tier1.read a = s.tier1.read a) ∧
      (leafTier w.leaf = 1 → s.mgmt.tier2Up.all id = true → (∀ y ∈ w.bytes, t.tier2.read (w.phys + y.1) = y.2) ∧
        ∀ a, (∀ y ∈ w.bytes, a ≠ w.phys + y.1) → t.tier2.read a = s.tier2.read a))

/-- The engine, the ports and the collectives: an element that may run is moved, a row that has been moved adds 1 to its arrival word, an
access that a window admits is served and one that none admits reads zero, writes nothing and is counted, a response completes its element
and counts a refusal, and a contribution is taken, refused with another generation, or lost (R35, R36, R83, R86, R403, R406). -/
def Obligations.EngineAndPortsMoveData : Prop :=
  (∀ (s : State) (c : Cmd) (n : Nat), s.cmd? c.id = some c → s.mayRun c n = true → s.collReady c n = true → s.leads c n = true →
    exec (.engineElementComplete c.id n) s = .next (s.element c n) ∧
    ∀ a b len, c.covered n = true → s.beatRun c n 63 = [n] → c.parts = [] → c.beat = none →
      s.steps c n = [.rd (.mem 0 a) len, .make (fun x => x) len, .ready, .wr (.mem 0 b) len] → s.badRead 0 a len = false → s.memOk = true →
      (∀ w ∈ s.past, w.meets .tier1 (a / 64 * 64) (len + 64) = false) →
      (∀ j, j < len → (s.element c n).tier1.read (b + j) = s.tier1.read (a + j)) ∧
      ∀ x, x < b ∨ b + len ≤ x → (s.element c n).tier1.read x = s.tier1.read x) ∧
  (∀ (s : State) (c : Cmd) (d : CopyDesc) (st : Bool) (b : Block) (row : Nat), s.memOk = true → s.cmd? c.id = some c → c.kind = .copy d st →
    c.rows.contains row = true → c.rowDone row = true → s.block? c.block = some b →
    let off := effAddr b.shSize 4 d.arriveOff.toNat 0
    s.badLocal c.block 0 .shared off 4 = none →
    ∃ t b' c', exec (.copyRowArrival c.id row) s = .next t ∧ t.block? c.block = some b' ∧ b'.shared.readW32 off = b.shared.readW32 off + 1 ∧
      t.cmd? c.id = some c' ∧ c'.rows = c.rows.filter fun r => r != row) ∧
  (∀ (s : State) (x : RemoteAccess), s.ual.portsUp[x.port] = true → (x.kind matches .contribute _ _ _ _ _) = false → s.window? x = none →
    ∃ t r, exec (.remoteAccessArrival x) s = .next t ∧ t.tier1 = s.tier1 ∧ t.tier2 = s.tier2 ∧ t.ual.responses = s.ual.responses ++ [r] ∧
      r.port = x.port.val ∧ r.request = x.request ∧ r.status = .refused ∧ (∀ b ∈ r.data, b = 0) ∧
      let w := SMap.getD s.ual.windows x.entry.val Window.off
      SMap.get? t.ual.windows x.entry.val = some { w with refused := w.refused + 1 }) ∧
  (∀ (s : State) (x : RemoteAccess) (w : Window), s.ual.portsUp[x.port] = true → (x.kind matches .contribute _ _ _ _ _) = false → s.window? x = some w →
    ∃ t r, exec (.remoteAccessArrival x) s = .next t ∧ t.ual.responses = s.ual.responses ++ [r] ∧ r.port = x.port.val ∧ r.request = x.request ∧
      (x.kind = .read → s.badRead w.tier2.toNat (w.base + x.offset.toNat) x.length = false →
        r.status = .ok ∧ r.data = s.readPhys w.tier2.toNat (w.base + x.offset.toNat) x.length ∧ t.tier1 = s.tier1 ∧ t.tier2 = s.tier2) ∧
      ∀ d, x.kind = .write d → d.length = x.length → s.downUnits w.tier2.toNat (w.base + x.offset.toNat) x.length = [] → r.status = .ok ∧
        t.tier1 = (s.writePhys (s.remoteWriter x) w.tier2.toNat (w.base + x.offset.toNat) d).tier1 ∧
        t.tier2 = (s.writePhys (s.remoteWriter x) w.tier2.toNat (w.base + x.offset.toNat) d).tier2) ∧
  (∀ (s : State) (q : RemoteReq) (st : RemoteStatus) (data : List Byte) (c : Cmd) (p : ElemPart),
    s.ual.requests.find? (fun x => x.id == q.id) = some q → (q.kind matches .contribute _ _ _ _ _) = false → s.cmd? q.cmd = some c →
    c.parts = [p] → p.elem = q.elem →
    let u := ({ s with ual := { s.ual with requests := s.ual.requests.filter fun x => x.id != q.id } } : State).serveReq q true
    ((u.answer c q st data).1.steps c p.elem).drop (p.step + 1) = [] →
    ∃ t c', exec (.remoteResponseArrival q.id st data) s = .next t ∧ t.ual.requests = s.ual.requests.filter (fun x => x.id != q.id) ∧
      t.cmd? q.cmd = some c' ∧ c'.isDone p.elem = true ∧ c'.refused = c.refused + if st = .refused then 1 else 0) ∧
  (∀ (s : State) (m : CollMsg) (x : CollGroup), s.collGroup? m.group.val = some x → x.populated.contains m.slot.val = true →
    s.ownsSlot m.group.val m.slot.val = false → s.inst? m.group.val m.inst = none →
    (m.lost = true ∨ s.ual.portsUp[m.port] = true) →
    ∃ t y, exec (.collectiveContribution m) s = .next t ∧ t.inst? m.group.val m.inst = some y ∧
      (m.generation ≠ x.generation → y.refusedSlots = [m.slot.val] ∧ y.parts = []) ∧
      (m.generation = x.generation → m.lost = true → y.lost = [m.slot.val] ∧ y.parts = []) ∧
      (m.generation = x.generation → m.lost = false → y.lost = [] ∧ y.refusedSlots = [] ∧ ∀ e ∈ y.parts, e.1 = m.slot.val)) ∧
  (∀ (s : State) (m : CollMsg), s.collGroup? m.group.val = none → m.lost = true ∨ s.ual.portsUp[m.port] = true →
    exec (.collectiveContribution m) s = .next (s.answerColl m true)) ∧
  (∀ (s : State) (m : CollMsg) (x : CollGroup), s.collGroup? m.group.val = some x → m.generation ≠ x.generation →
    x.populated.contains m.slot.val = false ∨ s.ownsSlot m.group.val m.slot.val = true → m.lost = true ∨ s.ual.portsUp[m.port] = true →
    ∃ t, exec (.collectiveContribution m) s = .next t ∧ (m.lost = false → ∃ r, t.ual.responses = s.ual.responses ++ [r] ∧ r.status = .refused))

/-! ### Launches, blocks and contexts -/

/-- A launch from its queue to the retirement of its blocks: a head ages by a level, the head of highest effective priority becomes active, its
next block is placed, may issue once its allocation is clear, and leaves with its contexts; a launch whose next block has waited too long
is placed first (R12, R355-R358). -/
def Obligations.LaunchesRunTheirBlocks : Prop :=
  (∀ (s : State) (q : Fin 64) (l : Launch) (rest : List Launch), s.queued q.val = l :: rest → s.ageDue l = true → s.launch? l.seq = some l →
    ∃ t k, exec (.launchQueueAgeing q) s = .next t ∧ t.launch? l.seq = some k ∧ k.effPrio = l.effPrio + 1 ∧ k.desc = l.desc) ∧
  (∀ (s : State) (l : Launch), (∀ x ∈ s.actives, x.lctx.stopped = true ∨ x.halted.isSome = true) → s.actives.length < 16 →
    (∀ h ∈ s.heads, s.ageDue h = false) → s.nextHead = some l → l.hdr.scratchSize = 0 → s.launch? l.seq = some l →
    (∃ t k, exec .launchActivation s = .next t ∧ t.launch? l.seq = some k ∧ k.state = .active ∧ k.activated = s.tick ∧ k.kept = l.effPrio ∧
      k.hdr = l.hdr ∧ (l.det = true → k.phase = SMap.getD s.phases l.tcid 0 + 1)) ∧
    ∀ h ∈ s.heads, s.passedOver h = false → h.effPrio < l.effPrio ∨ (h.effPrio = l.effPrio ∧ l.enqueued ≤ h.enqueued)) ∧
  (∀ (s : State) (die : Nat) (l : Launch) (rest : List Launch) (x : Spot), die < 4 → (s.die die).placedAt ≤ s.cycle →
    (∀ k ∈ s.launches, s.starvedDue k = false) → s.placing = l :: rest → l.resuming = false →
    (s.coresFor die l l.nextBlock).findSome? (s.spotOn l.hdr (newNeeds l.hdr)) = some x → s.launch? l.seq = some l →
    ∃ t k b, exec (.blockPlacement die) s = .next t ∧ t.blocks = s.blocks ++ [b] ∧ b.launch = l.seq ∧ b.index = l.nextBlock ∧
      b.core = x.core ∧ b.exists_ = l.existing l.nextBlock ∧ b.placed = false ∧ t.ctxs.length = s.ctxs.length + l.hdr.strips ∧
      t.launch? l.seq = some k ∧ k.nextBlock = l.nextBlock + 1) ∧
  (∀ (s : State) (l : Launch), (sortOn (fun l => l.activeOrder) s.launches).find? s.starvedDue = some l → s.launch? l.seq = some l →
    ∃ t k, exec .placementStarvation s = .next t ∧ t.launch? l.seq = some k ∧ k.starved = true ∧
      ∀ m ∈ s.launches, s.starvedDue m = true → l.activeOrder ≤ m.activeOrder) ∧
  (∀ (s : State) (core : Nat) (b : Block), s.clearing core = some b → b.toClear = 0 → s.block? b.id = some b →
    ∃ t k, exec (.allocationCleared core) s = .next t ∧ t.block? b.id = some k ∧ k.placed = true ∧ k.startTick = s.tick ∧
      ∀ a, k.shared.read a = 0) ∧
  (∀ (s : State) (c : Ctx), s.ctx? c.id = some c → c.state = .resident → c.live = 0 → s.haltedCtx c = false → s.drained c false = true →
    ∃ t k, exec (.contextDeparture c.id) s = .next t ∧ t.ctx? c.id = some k ∧ k.state = .left ∧ k.frags = [] ∧ k.retired = c.retired) ∧
  (∀ (s : State) (b : Block) (l : Launch), s.block? b.id = some b → s.launch? b.launch = some l → b.placed = true →
    (∀ c ∈ s.ctxs, c.block = b.id → c.state = .left) → s.childrenRetired b = true →
    ∃ t k, exec (.blockRetire b.id) s = .next t ∧ t.block? b.id = none ∧ (∀ c ∈ t.ctxs, c.block ≠ b.id) ∧ t.launch? l.seq = some k ∧
      k.retiredBlocks = l.retiredBlocks ++ [b.index] ∧
      (l.halted = none → l.blocks ≤ l.retiredBlocks.length + 1 → (∀ x ∈ s.blocks, x.launch = l.seq → x.id = b.id) → k.state = .retired))

/-- A launch's end: its completion notice carries its number, tag and status, after its blocks have retired and, for a phase, after the phase has
ended; a phase ends once its log is applied; and a slice makes one firing decision each 16 ticks, taking the first candidate whose firing
is taken (R364, R375, R383, R400). -/
def Obligations.LaunchesEnd : Prop :=
  (∀ (s : State) (l : Launch), s.launch? l.seq = some l → l.recs = [] → l.halted = none → l.state = (if l.det then .done else .retired) →
    exec (.launchCompletion l.seq) s =
      .next (({ s with launches := s.launches.filter fun x => x.seq != l.seq } : State).post
        { w0 := noticeW0 1 0 l.tcid l.tag, w1 := BitVec.ofNat 64 l.seq, w2 := 0, w3 := 0 })) ∧
  (∀ (s : State) (l : Launch), s.launches.find? (fun x => x.tcid == l.tcid && x.det && s.over x) = some l → s.launch? l.seq = some l →
    s.logPending l.seq = false → s.log = [] → l.state = .retired →
    ∃ t k, exec (.phaseEnd l.tcid) s = .next t ∧ t.launch? l.seq = some k ∧ k.state = .done) ∧
  (∀ (s : State) (die : Nat), die < 4 → (s.die die).nextFiring ≤ s.cycle →
    (∃ t, exec (.firingDecision die) s = .next t ∧ (t.die die).nextFiring = (s.cycle / 16 + 1) * 16 ∧
      (s.candidates die false none = [] → t.launches = s.launches ∧ t.tier1 = s.tier1)) ∧
    ∀ q qs u n, s.candidates die false none = q :: qs → s.fire die q = (u, some n) →
      exec (.firingDecision die) s = .next (u.updDie die fun d => { d with nextFiring := (s.cycle / 16 + 1) * 16 }))

/-- Contexts that leave and return: `regroup` makes one context of each group of the items, when every item has come to it and the counters read
zero; a parked context becomes resident where its partition has room, and where there is none a context of its block that waits for others makes it; a
fragment without an entry takes one that is free, or where none is one of a fragment that waits; a parked fragment
goes on with the strips that have room; a pre-empted context stops after its ticks, one that `shmap` pairs with it at the same moment; and a block whose contexts have all stopped is written to the save area, record by
record. That a fragment which waits gives up its entry where none has arrived is the model's choice, log entry 108, and so is the place of a block in the
save area, log entry 122 (R70, R171, R179, R180, R391-R393). -/
def Obligations.ContextsLeaveAndReturn : Prop :=
  (∀ (s : State) (b : Block) (l : Launch) (lead : Ctx) (f : Frag) (key : Src) (range : VRange) (len : Nat), s.block? b.id = some b →
    s.launch? b.launch = some l → l.halted = none →
    let src := s.sourcesOf b.id
    (sortOn (fun c => c.iidx ((Lanes.lowest c.live).getD 0)) src).head? = some lead → lead.regrouping = some (f, key, range, len) →
    (∀ c ∈ src, c.regrouping.isSome = true ∧ c.state = .resident ∧ c.stopping = false ∧ c.halted = false ∧ ∀ n ∈ c.counters.toList, n = 0) →
    (s.ctxs.map fun c => c.id).Nodup →
    ∃ t, exec (.regroupCompletion b.id) s = .next t ∧
      (t = src.foldl State.regroupFault s ∨
        t.ctxs.length + src.length = s.ctxs.length + (groupsOf (src.flatMap (s.movedOf b range))).length)) ∧
  (∀ (s : State) (c : Ctx), s.ctx? c.id = some c → (s.parkedAt c.core c.part).head? = some c → s.ctxFits c = true →
    (c.waitsForOthers && s.parkedIn c.block) = false →
    ∃ t k, exec (.regroupContextResident c.id) s = .next t ∧ t.ctx? c.id = some k ∧ k.state = .resident ∧
      (c.strips ≤ 1 → k.mat = c.mat ∧ k.live = c.live)) ∧
  (∀ (s : State) (c x : Ctx) (u : State), s.ctx? c.id = some c → c.state = .parked → c.waitsForOthers = false → s.ctxFits c = false →
    (sortOn (fun y => y.id) ((s.ctxsOf c.block).filter fun y => y.state == .resident && y.waitsForOthers)).head? = some x →
    s.parkCtx x.id = some u → exec (.regroupContextResident c.id) s = .next u) ∧
  (∀ (s : State) (r : FragRef) (c : Ctx) (f : Frag) (n : Nat), s.ctx? r.ctx = some c → c.frag? r.frag = some f → c.state = .resident →
    f.entryParked = some n → 0 < s.freeEntries c.core c.part →
    (∀ x ∈ s.fragsAt c.core c.part, n ≤ x.2.entryParked.getD (2 ^ 80)) →
    exec (.fragmentUnpark r) s = .next (s.updFrag r fun f =>
      { f with entryParked := none, entry := (s.freshEntries c.core c.part 1).headD 0, lastIssue := s.cycle })) ∧
  (∀ (s : State) (r : FragRef) (c : Ctx) (f : Frag) (n : Nat) (y : Ctx × Frag) (ys : List (Ctx × Frag)), s.ctx? r.ctx = some c →
    c.frag? r.frag = some f → c.state = .resident → f.entryParked = some n → f.entryReady = true → s.freeEntries c.core c.part = 0 →
    s.entryGivers (s.fragsAt c.core c.part) = y :: ys →
    (∀ x ∈ s.fragsAt c.core c.part, x.2.entryReady = true → n ≤ x.2.entryParked.getD (2 ^ 80)) →
    exec (.fragmentUnpark r) s = .next ((({ s with nextId := s.nextId + 1 } : State).updFrag ⟨y.1.id, y.2.id⟩ fun g =>
      { g with entryParked := some s.nextId, regs := { g.regs with latches := noLatches } }).updFrag r fun f =>
        { f with entryParked := none, entry := y.2.entry, lastIssue := s.cycle })) ∧
  (∀ (s : State) (r : FragRef) (c : Ctx) (f : Frag), s.ctx? r.ctx = some c → c.frag? r.frag = some f → f.state = .parked → f.park = none →
    f.hasChildren = false → f.entryParked = none → c.state = .resident → 0 < s.stripRoom c f →
    let u := s.updFrag r fun f =>
      { f with state := .running, reserved := if c.leaves.any fun g => g.stands then some f.id else none, lastIssue := s.cycle }
    exec (.contextResumption r) s = .next (if f.last + 1 ≤ f.first + s.stripRoom c f then u else u.cutAt r (f.first + s.stripRoom c f))) ∧
  (∀ (s : State) (c : Ctx) (n : Nat), s.ctx? c.id = some c → c.preempt = some n → c.stopping = false → c.inHandler = false →
    (∀ p, s.partnerOf c = some p → p.inHandler = false) → c.state = .resident → n + Config.preemptTicks ≤ s.cycle →
    ∃ t k, exec (.preemptionBoundExpiry c.id) s = .next t ∧ t.ctx? c.id = some k ∧ k = { c with stopping := true } ∧
      ∀ p, s.partnerOf c = some p → p.preempt.isSome = true → ∃ q, t.ctx? p.id = some q ∧ q.stopping = true) ∧
  (∀ (s : State) (b : Block) (l : Launch), s.memOk = true → s.block? b.id = some b → s.launch? b.launch = some l → l.preempting = true →
    l.halted = none → b.saved = false →
    let cs := sortOn (fun c => c.id) ((s.ctxsOf b.id).filter fun c => c.state != .left)
    cs ≠ [] → (∀ c ∈ cs, s.mayWrite c = true) →
    let at_ := l.saveEnd
    let bytes := (cs.flatMap fun c => s.saveRecord b l c) ++ s.blockImage b l
    ∃ t k, exec (.contextSave b.id) s = .next t ∧ t.block? b.id = some k ∧ k.saved = true ∧
      (∀ i, i < bytes.length → t.tier1.read (at_ + i) = bytes.getD i 0) ∧
      ∃ m, t.launch? l.seq = some m ∧ m.savedBlocks = l.savedBlocks ++ [(b.id, at_, bytes.length)])

/-! ### The host, the links and the management controller -/

/-- The host's writes: a tail write that would lower the tail, or set it more than 4,096 above the applied count, is ignored and counted, any other
is taken with the slots written before it; a write to a slot that the tail does not cover is what the slot then holds; every offset beyond
the ring discards a write; the consumed count is taken; a host range report is kept. Each of these happens whatever else the machine holds while the
link is up, and none of them once it is dead (R30, R396, R397). -/
def Obligations.HostWritesReachTheMailbox : Prop :=
  ((∀ (s : State) (tail : W32) (late : List (Nat × List W64)), s.hostLink = true → ∃ t, exec (.tailWrite tail late) s = .next t ∧
      t.mbox.applied = s.mbox.applied ∧ t.mbox.consumed = s.mbox.consumed ∧ t.mgmt = s.mgmt ∧ t.ctxs = s.ctxs) ∧
   (∀ (s : State) (n : W32), s.hostLink = true → ∃ t, exec (.noticesConsumedWrite n) s = .next t ∧ t.mbox.consumed = n ∧ t.mbox.tail = s.mbox.tail ∧
      t.ctxs = s.ctxs ∧ t.tier1 = s.tier1) ∧
   (∀ (s : State) (offset : Nat) (x : W64), s.hostLink = true → ∃ t, exec (.bar0OtherWrite offset x) s = .next t ∧ t.mbox.tail = s.mbox.tail ∧
      t.mbox.applied = s.mbox.applied ∧ t.mgmt = s.mgmt ∧ t.ctxs = s.ctxs) ∧
   (∀ (s : State) (base size : Nat), s.hostLink = true →
      exec (.hostRangeReport base size) s = .next { s with mgmt := { s.mgmt with hostRange := some (base, size) } }) ∧
   (∀ s : State, s.hostLink = true → exec .hostLinkDeath s = .next { s with mgmt := { s.mgmt with hostUp := false } } ∧
      ({ s with mgmt := { s.mgmt with hostUp := false } } : State).hostLink = false)) ∧
  (∀ s : State, s.hostLink = false →
    (∀ tail late, exec (.tailWrite tail late) s = .fault .notEnabled) ∧ (∀ n, exec (.noticesConsumedWrite n) s = .fault .notEnabled) ∧
    (∀ offset x, exec (.bar0OtherWrite offset x) s = .fault .notEnabled) ∧ (∀ base size, exec (.hostRangeReport base size) s = .fault .notEnabled) ∧
    exec .hostLinkDeath s = .fault .notEnabled ∧ s.command? = none) ∧
  (∀ (s : State) (tail : W32), s.hostLink = true →
    ∃ t, exec (.tailWrite tail []) s = .next t ∧
      ((tail - s.mbox.applied).toNat < (s.mbox.tail - s.mbox.applied).toNat ∨ 4096 < (tail - s.mbox.applied).toNat →
        t.mbox.tail = s.mbox.tail ∧ t.mbox.ignored = s.mbox.ignored + 1) ∧
      ((s.mbox.tail - s.mbox.applied).toNat ≤ (tail - s.mbox.applied).toNat → (tail - s.mbox.applied).toNat ≤ 4096 →
        t.mbox.tail = tail ∧ t.mbox.ignored = s.mbox.ignored) ∧ t.mbox.ring = s.mbox.ring) ∧
  (∀ (s : State) (tail : W32) (n : Nat) (ws : List W64), s.hostLink = true → s.mbox.covered n = none → n < 4096 → ws.length = 32 →
    (s.mbox.slot n).length = 32 →
    ∃ t, exec (.tailWrite tail [(n, ws)]) s = .next t ∧ t.mbox.slot n = ws) ∧
  (∀ (s : State) (n : W32), s.hostLink = true → s.mbox.queued = [] →
    ∃ t, exec (.noticesConsumedWrite n) s = .next t ∧ t.mbox.consumed = n ∧ t.host = s.host ∧ t.mbox.notices = s.mbox.notices) ∧
  (∀ (s : State) (offset : Nat) (x : W64), s.hostLink = true →
    (0x100000 ≤ offset → exec (.bar0OtherWrite offset x) s = .next s) ∧
    (offset < 0x100000 → s.mbox.covered (offset / 256) = none → (s.mbox.slot (offset / 256)).length = 32 →
      ∃ t, exec (.bar0OtherWrite offset x) s = .next t ∧ (t.mbox.slot (offset / 256)).getD (offset % 256 / 8) 0 = x)) ∧
  (∀ (s : State) (c : Command), s.command? = some c → s.hostLink = true ∧ s.mbox.applied ≠ s.mbox.tail ∧ s.mbox.queued = [])

/-- The management controller and the links: the Thaw service ends only while no launch is active, and the issue rate is then the full one; a
power limit takes one step of the rate, and gives all back; a signature over nonce and serial opens the debug port, through which alone the
Solstice latch and Equinox stop are armed, 4,096 ticks ahead; the latch copies the counters at one tick, and is refused while shadows are
unreleased; Equinox stop gates every clock; a dead port loses what was in flight on it, and a retry is not seen; a debugger's writes to a
halted context are kept, and its resume carries them out; and a single bit error is corrected and counted. That a debugger's write survives the
restart at the resume is the model's reading, log entry 97, and so is the arming of a pending latch again, log entry 100 (R97, R390, R395, R402, R414, R415, R420, R423, R424). -/
def Obligations.ManagementEvents : Prop :=
  (∀ s : State, s.mgmt.thaw = true → s.mgmt.stopped = false → (∀ l ∈ s.launches, l.state.activated = false) →
    ∃ t, exec .thawEnd s = .next t ∧ t.mgmt.thaw = false ∧ t.rate = 16 - s.mgmt.powerSteps) ∧
  (∀ s : State, s.mgmt.stopped = false → ∃ t, exec .powerLimitReached s = .next t ∧ t.rate = if 2 ≤ s.rate then s.rate - 1 else s.rate) ∧
  (∀ s : State, s.mgmt.stopped = false → ∃ t, exec .powerLimitCleared s = .next t ∧ t.rate = if s.mgmt.thaw then 8 else 16) ∧
  (∀ (s : State) (sig : List Byte), s.mgmt.stopped = false →
    ∃ t, exec (.debugPortUnlock sig) s = .next t ∧ (t.mgmt.portOpen = true ↔ s.mgmt.portOpen = true ∨
      Config.sm2Verify sig (Config.sm3 (Config.portNonce s.mgmt.resets ++ bytesN 8 s.mgmt.serial)) = true)) ∧
  (∀ (s : State) (n : Nat), s.mgmt.stopped = false →
    (s.mgmt.portOpen = true → s.tick + 4096 ≤ n → s.mgmt.shadows = none →
      exec (.solsticeArm n) s = .next { s with mgmt := { s.mgmt with solstice := some n } }) ∧
    (s.mgmt.portOpen = false ∨ n < s.tick + 4096 ∨ s.mgmt.shadows ≠ none → exec (.solsticeArm n) s = .next s) ∧
    (s.mgmt.portOpen = true → s.tick + 4096 ≤ n → exec (.equinoxStopArm n) s = .next { s with mgmt := { s.mgmt with stopAt := some n } }) ∧
    (s.mgmt.portOpen = false ∨ n < s.tick + 4096 → exec (.equinoxStopArm n) s = .next s)) ∧
  (∀ (s : State) (n : Nat), s.mgmt.solstice = some n → n ≤ s.tick → s.picks = [] →
    ∃ t, exec .solsticeLatch s = .next t ∧ t.mgmt.solstice = none ∧ t.mgmt.shadows = some s.shadowsNow ∧ t.tick = s.tick ∧ t.ctxs = s.ctxs) ∧
  (∀ s : State, s.mgmt.stopped = false →
    exec .shadowRelease s = .next (if s.mgmt.portOpen = true then { s with mgmt := { s.mgmt with shadows := none } } else s)) ∧
  (∀ (s : State) (n : Nat), s.mgmt.stopAt = some n → n ≤ s.tick → s.mgmt.solstice = none → s.picks = [] → s.mgmt.stopped = false →
    ∃ t, exec .equinoxStop s = .next t ∧ t.mgmt.stopped = true ∧ t.tick = s.tick ∧ t.hostLink = false ∧ ∀ p : Fin 16, t.ual.portsUp[p] = false) ∧
  (∀ s : State, s.mgmt.stopped = true → s.mgmt.portOpen = true →
    exec .debugScanOut s = .next { s with mgmt := { s.mgmt with scanned := true } }) ∧
  (∀ (s : State) (p : Fin 16), s.ual.portsUp[p] = true → s.mgmt.stopped = false →
    ∃ t, exec (.ualinkPortDeath p) s = .next t ∧ t.ual.portsUp = s.ual.portsUp.set p false ∧
      ((∀ c ∈ s.cmds, (∀ d i, c.kind ≠ .coll d i) ∧ ∀ x ∈ c.parts, x.stage ≠ .ready) →
        t.ual.requests = s.ual.requests.filter (fun q => q.port != p.val)) ∧
      ∀ (q : RemoteReq) (c : Cmd), s.ual.requests = [q] → q.port = p.val → s.cmd? q.cmd = some c → (∀ d i, c.kind ≠ .coll d i) →
        (∀ c ∈ s.cmds, ∀ x ∈ c.parts, x.stage ≠ .ready) → ∃ c', t.cmd? q.cmd = some c' ∧ c'.deadPod = c.deadPod + 1) ∧
  (∀ (s : State) (p : Fin 16), s.ual.portsUp[p] = true → exec (.linkCrcRetry p) s = .next s) ∧
  (∀ (s : State) (p : Fin 8), s.mgmt.tier2Up[p] = true →
    exec (.tier2LinkDown p) s = .next { s with mgmt := { s.mgmt with tier2Up := s.mgmt.tier2Up.set p false } }) ∧
  (∀ (s : State) (c : Ctx), s.ctx? c.id = some c → c.halted = true →
    ∃ t c', exec (.debuggerResume c.id) s = .next t ∧ t.ctx? c.id = some c' ∧ c'.halted = false ∧ c'.debugWrites = [] ∧
      (c.debugWrites = [] → (∀ g ∈ c.frags, g.shadow = none) →
        ∀ n f, c.frag? n = some f → f.resumes = true → ∃ g, t.frag? ⟨c.id, n⟩ = some g ∧ g.pc = f.region.entry) ∧
      ∀ f b n x, c.frags = [f] → s.block? c.block = some b → f.shadow = none → f.resumes = true → c.debugWrites = [(f.id, .kreg n x)] →
        ∃ g, t.frag? ⟨c.id, f.id⟩ = some g ∧ g.pc = f.region.entry ∧ g.regs.k[n] = x) ∧
  (∀ (s : State) (r : FragRef) (c : Ctx) (f : Frag) (b : Block), s.ctx? r.ctx = some c → c.frag? r.frag = some f → c.halted = true →
    (∀ x, exec (.debuggerWrite r x) s = .next (s.updCtx r.ctx fun c => { c with debugWrites := c.debugWrites ++ [(r.frag, x)] })) ∧
    (∀ n x, ∃ g, (c.debugWrite b f (.kreg n x)).frag? r.frag = some g ∧ g.regs.k = f.regs.k.set n x) ∧
    (∀ n (lane : Nat) x, lane < c.width → f.mask.getLsbD lane = true →
      ∃ g, (c.debugWrite b f (.vreg n lane x)).frag? r.frag = some g ∧ (viewOf (c.debugWrite b f (.vreg n lane x)) b g 0).word n.val lane = x)) ∧
  (∀ (s : State) (x : ErrPlace), s.mgmt.stopped = false →
    exec (.bitError x false) s = .next { s with mgmt := { s.mgmt with corrected := s.mgmt.corrected + 1 } } ∧
    ∃ t, exec (.bitError x true) s = .next t ∧ t.tier1 = s.tier1 ∧ t.tier2 = s.tier2 ∧ ∀ d, (t.die d).scratch = (s.die d).scratch)

/-! ### Mailbox commands -/

namespace Sys2Proof.Claims

open Sys2Proof Sys2Proof.Machine

/-- A 64-bit word of a command's payload. -/
def wordOf (c : Command) (n : Nat) : W64 := c.ws.getD n 0

/-- Commands on memory, launches, invalidations, parks and counters that are carried out, with the state that they leave (R57, R101, R383, R386,
R391, R394, R395, R398, R399, R421, R422). -/
def carried (s : State) (c : Command) : Instr → Option State
  | .writeMemory =>
    if writeLen (c.w 2) then
      if s.mgmt.recovery then
        if 2 ^ 26 < c.w 1 + c.w 2 then none
        else some (({ s with mgmt := { s.mgmt with staging := s.mgmt.staging.writeBytes (c.w 1) (c.bytes 3 (c.w 2)) } } : State).replied c 0 0 0)
      else
        match s.rangeOf c.tcid true (wordOf c 1) (c.w 2) with
        | (u, some ps) => some ((u.writeParts c.tcid ps (c.bytes 3 (c.w 2))).replied c 0 0 0)
        | (_, none) => some (s.replied c 2 0 0)
    else none
  | .readMemory =>
    if readLen (c.w 2) then
      match s.rangeOf c.tcid false (wordOf c 1) (c.w 2) with
      | (u, some ps) =>
        let y := State.readParts c.tcid ps u
        some (y.1.replied c 0 (word64 y.2 0) (word64 y.2 8))
      | (_, none) => some (s.replied c 2 0 0)
    else none
  | .writePhysical =>
    if writeLen (c.w 2) ∧ c.w 1 + c.w 2 ≤ s.tier1Limit then some ((s.writeTier1 (Writer.of .mailbox) (c.w 1) (c.bytes 3 (c.w 2))).replied c 0 0 0)
    else none
  | .readPhysical =>
    if readLen (c.w 2) ∧ c.w 1 + c.w 2 ≤ s.tier1Limit then
      let y := s.readUnits 0 0 0 (c.w 1) (c.w 2)
      some (y.1.replied c 0 (word64 y.2 0) (word64 y.2 8))
    else none
  | .launchCommand =>
    (if bitN (c.w 21) 12 then c.pairs else some []).bind fun recs =>
      match s.mailboxLaunch c recs with
      | (u, .ok l) =>
        if u.queueFree l.queue then some { u.enqueue l with mbox := (u.enqueue l).mbox.next } else none
      | (_, .error _) => none
  | .preEmpt =>
    (s.liveLaunch c).bind fun l =>
      if l.preempting = false ∧ l.halted = none ∧ c.w 2 < s.tier1Limit then
        some ((s.preempt l.seq (c.w 2) (BitVec.ofNat 32 c.tag)).replied c 0 0 0)
      else none
  | .resume =>
    (s.liveLaunch c).bind fun l =>
      if l.preemptNoted = true ∧ l.saveArea = some (c.w 2) then some ((s.resumeLaunch l.seq).replied c 0 0 0) else none
  | .debuggerHalt => (s.debugCtx c).map fun x => (s.updCtx x.id fun x => { x with halted := true }).replied c 0 0 0
  | .debuggerRead =>
    (s.debugCtx c).bind fun x =>
      if x.halted then
        ((s.block? x.block).bind fun b => s.debugRead x b c.tcid (c.w 3) (c.w 4)).map fun y =>
          s.replied c 0 (BitVec.ofNat 64 y.1) (BitVec.ofNat 64 y.2)
      else none
  | .invalidate =>
    if c.w 1 ≤ 2 then
      let q : TlbiReq := ⟨s.nextId, c.w 1, wordOf c 2, bitsN (c.w 3) 0 12, bitsN (c.w 3) 16 4, s.cmds.map fun x => x.id, none⟩
      some ({ s with nextId := s.nextId + 1, tlbis := s.tlbis ++ [q],
                     mbox := { s.mbox with busy := .invalidate s.nextId c.tcid (BitVec.ofNat 32 c.tag) } }.dropTranslations (c.w 1) q.tcid q.va q.run)
    else none
  | .poolTail =>
    let t := s.tcid c.tcid
    if t.valid ∧ t.poolOn then some ((s.writeTier1W64 (t.poolAddr + 8) (wordOf c 1)).replied c 0 0 0) else none
  | .parkAnswerResume => (s.answerPark (c.w 1) true).map fun u => u.replied c 0 0 0
  | .parkAnswerFail => (s.answerPark (c.w 1) false).map fun u => u.replied c 0 0 0
  | .invalidHandleCounterRead => if c.w 2 < 256 then some (s.replied c 0 (BitVec.ofNat 64 (SMap.getD s.mgmt.invalid (c.w 2) 0)) 0) else none
  | .dropCountRead => (s.queue? (c.w 2)).map fun x => s.replied c 0 (BitVec.ofNat 64 x.2.drops) 0
  | .refusedCounterRead =>
    if c.w 2 < 1024 then
      some (s.replied c 0 (BitVec.ofNat 64 (match SMap.get? s.ual.windows (c.w 2) with
        | some w => w.refused
        | none => 0)) 0)
    else none
  | .lostCountRead => if c.w 2 < 4 then some (s.replied c 0 (BitVec.ofNat 64 (s.area c.tcid (c.w 2)).lost) 0) else none
  | .errorLogRead => s.mgmt.errors.head?.map fun x => s.replied c 0 x.w0 x.w1
  | .errorLogRemove =>
    s.mgmt.errors.head?.map fun x => ({ s with mgmt := { s.mgmt with errors := s.mgmt.errors.tail } } : State).replied c 0 x.w2 x.w3
  | .recoveryImage =>
    let img := s.mgmt.staging.readBytes 0 (c.w 1)
    if s.mgmt.recovery ∧ c.w 1 ≤ 2 ^ 26 ∧ imageOk img = true then some ({ s with mgmt := { s.mgmt with flash := img } }.packageReset) else none
  | .attestation =>
    match s.rangeOf c.tcid true (wordOf c 5) 64 with
    | (u, some ps) =>
      some ((u.writeParts c.tcid ps (bytesN 64 (Config.sm2Sign (Config.sm3
        (c.bytes 1 32 ++ bytesN 32 s.mgmt.firmwareDigest ++ s.mgmt.record ++ bytesN 8 s.mgmt.serial))))).replied c 0 0 0)
    | (_, none) => some (s.replied c 2 0 0)
  | .unknownCommand => some (s.replied c 1 0 0)
  | _ => none

/-- Commands that write a table or an area, as the object that they leave (R21, R26, R35, R41, R91, R369, R370, R371, R381, R398, R402-R404, R406,
R409). -/
def tabled (s : State) (c : Command) : Instr → Option State
  | .translationContextEntry =>
    let t : Tcid := ⟨wordOf c 2, wordOf c 3, wordOf c 4, wordOf c 5⟩
    if c.w 1 < 4096 ∧ s.tcidOk t then
      some { s with tcids := SMap.set s.tcids (c.w 1) t, clayer := if t.valid then SMap.set s.clayer (c.w 1) 0 else s.clayer }
    else none
  | .queueEntry =>
    let w (n : Nat) : Nat := c.w (1 + n)
    let key := BitVec.ofNat 32 (bitsN (w 0) 0 32)
    let old := (s.queue? key.toNat).map fun x => x.2
    let q := queueFrom w c.tcid old
    if queueWordsOk w ∧ (bitN (w 0) 63 = true → s.sliceFits q = true) ∧ ∀ x, old = some x → x.tcid = c.tcid ∧ x.depth = 0 ∧ x.busy = [] then
      some (if bitN (w 0) 63 then (s.dropQueue key).updDie q.home fun d => { d with queues := d.queues ++ [q] } else s.dropQueue key)
    else none
  | .classEntry =>
    let a := c.w 2
    let x : QClass := ⟨bitN a 63, bitN a 62, bitN a 61, bitsN a 56 3, bitsN a 32 24, bitsN (c.w 3) 32 32, bitsN (c.w 3) 0 32⟩
    if c.w 1 < 16 ∧ bitsN a 59 2 = 0 ∧ bitsN a 0 32 = 0 ∧ (x.valid = true → 0 < x.threshold ∧ x.threshold ≤ x.cap ∧ x.cap ≤ 65536) then
      some { s with classes := SMap.set s.classes (c.w 1) x }
    else none
  | .slotSetEntry =>
    let log := Nat.log2 (c.w 3)
    if c.w 1 < 4 ∧ 1 ≤ c.w 2 ∧ c.w 2 ≤ 256 ∧ c.w 3 = 2 ^ log ∧ 12 ≤ log ∧ log ≤ 26 ∧ 1 ≤ c.w 4 ∧ c.w 4 ≤ 65536 ∧ s.mgmt.thaw = false then
      (State.slotRegions (c.w 1) log c.tcid (c.w 2) (s.dropSlotSet (c.w 1)) []).map fun x =>
        x.1.updDie (c.w 1) fun d => { d with slotSet := some ⟨log, c.w 4, c.tcid, x.2⟩ }
    else none
  | .windowEntry =>
    let f := c.w 2
    let x : Window := ⟨bitN f 0, bitN f 1, c.w 3, c.w 4, wordOf c 5, bitsN f 8 4, bitN f 2, bitN f 3, bitN f 4,
      match SMap.get? s.ual.windows (c.w 1) with
      | some w => w.refused
      | none => 0⟩
    if c.w 1 < 1024 ∧ bitsN f 5 3 = 0 ∧ bitsN f 12 52 = 0 ∧ c.w 3 % 2 ^ 14 = 0 ∧ c.w 4 % 2 ^ 14 = 0 ∧ c.w 4 ≤ 2 ^ 32 then
      some { s with ual := { s.ual with windows := SMap.set s.ual.windows (c.w 1) x } }
    else none
  | .linkTables =>
    let i := c.w 2
    let v := c.w 3
    match c.w 1 with
    | 0 => if i < 1024 ∧ v ≤ 1024 then some { s with ual := { s.ual with device := i, podSize := v } } else none
    | 1 => if i < 1024 ∧ v < 2 ^ 16 then some { s with ual := { s.ual with routes := SMap.set s.ual.routes i v } } else none
    | 2 => if i < 256 then some { s with ual := { s.ual with keys := SMap.set s.ual.keys i (wordOf c 3) } } else none
    | 3 => if i < 256 ∧ v < 16 then some { s with ual := { s.ual with classes := SMap.set s.ual.classes i v } } else none
    | 4 => if i < 512 ∧ v < 256 then some { s with ual := { s.ual with weights := SMap.set s.ual.weights i v } } else none
    | _ => none
  | .collectiveGroup =>
    let g := c.w 1 % 256
    let put (x : CollGroup) : Option State := some { s with ual := { s.ual with groups := SMap.set s.ual.groups g x } }
    if 2 ^ 10 ≤ c.w 1 then none
    else
      match c.w 1 / 256, s.collGroup? g with
      | 0, _ =>
        let t := s.recheckGroup g (BitVec.ofNat 32 (c.w 2))
        if c.w 2 < 2 ^ 32 then some { t with ual := { t.ual with groups := SMap.set t.ual.groups g ⟨BitVec.ofNat 32 (c.w 2), [], []⟩ } } else none
      | 1, some x =>
        if c.w 2 < 1024 ∧ c.w 3 ≤ c.w 4 ∧ c.w 4 < 4096 ∧ x.members.length < 1024 ∧ ∀ m ∈ x.members, c.w 4 < m.2.1 ∨ m.2.2 < c.w 3 then
          put { x with members := x.members ++ [(c.w 2, c.w 3, c.w 4)] }
        else none
      | 2, some x =>
        if c.w 2 < 64 then
          put { x with populated := sortOn (fun n => n) ((x.populated.filter fun n => n / 64 != c.w 2) ++ maskSlots (c.w 2) (c.w 3)) }
        else none
      | _, _ => none
  | .areas =>
    let w := c.w 1
    if areaWordOk w ∧ c.w 2 % 4096 = 0 ∧ c.w 2 + areaBytes (w % 4) (bitsN w 8 5) ≤ s.tier1Limit then
      some (s.setArea c.tcid (w % 4) { s.area c.tcid (w % 4) with
        base := c.w 2, log := bitsN w 8 5, opts := w, written := 0, consumed := 0, configured := true })
    else none
  | .areaConsumedCount =>
    let sel := c.w 1 % 4
    if c.w 1 = 128 + sel then
      let a := s.area c.tcid sel
      some (s.setArea c.tcid sel { a with consumed := consumedOn a.written (c.w 2 % 2 ^ 32) })
    else none
  | .regionFree =>
    match s.ownRegion c.tcid (wordOf c 2) with
    | some x => if c.w 1 = 1 then some (s.freeRegion x.1 x.2.1) else none
    | none => none
  | .stashQuotas =>
    match s.ownRegion c.tcid (wordOf c 1) with
    | some (die, slot, e) =>
      if e.kind = .stash ∧ e.quota1 ≤ c.w 2 ∧ e.quota2 ≤ c.w 3 then
        some (s.setRegion die slot { e with quota1 := c.w 2, quota2 := c.w 3 })
      else none
    | none => none
  | _ => none

end Sys2Proof.Claims

/-- A mailbox command at the head of the ring is applied: its effect, the applied count, and the notice with its status and data; a translation or
protection failure gives the status "fault" and transfers nothing. One with a nonzero reserved bit, any but a write and the image in
recovery, one on an object of a TCID that is not valid, and an unknown code are refused, and leave the device unchanged but for the applied
count and the notice; the words of a payload stand where log entries 56, 96 (the
debugger) and 98 (slot sets, windows, link tables, groups) place them, and a launch that is taken has no notice of its own, log entry 93: the model's
choices (R57, R386, R391, R394, R395, R398, R399, R421, R422). -/
def Obligations.MailboxCommandsAreApplied : Prop :=
  (∀ (s : State) (c : Command), s.command? = some c →
     c.reserved = true ∨ (s.mgmt.recovery = true ∧ c.code ≠ 0x01 ∧ c.code ≠ 0x15) ∨
       (ownedCode c.code = true ∧ (s.tcid c.tcid).valid = false) ∨ c.code = 0 ∨ 0x18 < c.code →
     exec c.row s = .next (s.replied c 1 0 0) ∧ (s.replied c 1 0 0).mbox.applied = s.mbox.applied + 1 ∧
       (s.replied c 1 0 0).tier1 = s.tier1 ∧ (s.replied c 1 0 0).dies = s.dies ∧ (s.replied c 1 0 0).launches = s.launches ∧
       (s.replied c 1 0 0).tcids = s.tcids) ∧
  (∀ (s : State) (c : Command) (i : Instr), Applies i s c →
     (∀ t, carried s c i = some t → exec i s = .next t) ∧ (∀ u, tabled s c i = some u → exec i s = .next (u.replied c 0 0 0)) ∧
     ∀ e x, i = .regionCreate → c.region = some e → s.mgmt.thaw = false → s.createRegion (bitsN (c.w 1) 4 2) e = some x →
       exec i s = .next (x.1.replied c 0 (x.1.handleOf (bitsN (c.w 1) 4 2) x.2) 0))

/-- What a created region gives: the handle of the notice names the region for every context of the TCID, until the region is freed, after which
it names none (R21, R22, R24, R26). -/
def Obligations.HandlesNameTheirRegions : Prop :=
  ∀ (s t : State) (die slot log : Nat) (l : Launch) (e : RegionEnt), e = mkRegion .plain log l.tcid → die < 4 →
    s.createRegion die e = some (t, slot) → 0 < slot → slot < 2 ^ 14 → SMap.getD (s.die die).gens slot 0 < 2 ^ 12 - 1 →
    (∃ x, t.regionOf die l (t.handleOf die slot) = some (slot, x) ∧ x.kind = .plain ∧ x.logSize = log ∧ x.tcid = l.tcid) ∧
    (t.freeRegion die slot).regionOf die l (t.handleOf die slot) = none ∧
    SMap.getD ((t.freeRegion die slot).die die).gens slot 0 = SMap.getD (t.die die).gens slot 0 + 1

/-! ### An invariant of every step -/

/-- Every step keeps every memory of the machine in its canonical form, so that equal memories are equal data. -/
def Obligations.StepsKeepMemoryCanonical : Prop :=
  ∀ s t : State, s.memOk = true → step s = .next t → t.memOk = true
end

