-- ==== Sys2Proof/Laws/Lookup.lean ====
section
/-! SUPPORT. What finding a context, fragment, block or launch gives after one has been replaced. -/

namespace Sys2Proof.Machine

open Sys2Proof

/-! ### The first entry of a list -/

theorem find?_updFirst_same {α : Type} {p : α → Bool} {g : α → α} {l : List α} {x : α} (h : l.find? p = some x)
    (hp : p (g x) = true) : (updFirst p g l).find? p = some (g x) := by
  induction l with
  | nil => simp at h
  | cons y ys ih =>
    by_cases hy : p y = true
    · rw [List.find?_cons_of_pos hy] at h
      cases h
      simp [updFirst, hy, hp]
    · rw [List.find?_cons_of_neg hy] at h
      simp only [updFirst, hy, Bool.false_eq_true, if_false]
      rw [List.find?_cons_of_neg hy]
      exact ih h

theorem find?_updFirst_other {α : Type} {p q : α → Bool} {g : α → α} (h : ∀ x, p x = true → q x = false ∧ q (g x) = false)
    (l : List α) : (updFirst p g l).find? q = l.find? q := by
  induction l with
  | nil => rfl
  | cons y ys ih =>
    by_cases hy : p y = true
    · have := h y hy
      simp [updFirst, hy, List.find?_cons, this.1, this.2]
    · simp [updFirst, hy, List.find?_cons, ih]

theorem updFirst_updFirst {α : Type} {p : α → Bool} {g k : α → α} (h : ∀ x, p x = true → p (g x) = true) (l : List α) :
    updFirst p k (updFirst p g l) = updFirst p (fun x => k (g x)) l := by
  induction l with
  | nil => rfl
  | cons y ys ih =>
    by_cases hy : p y = true
    · simp [updFirst, hy, h y hy]
    · simp [updFirst, hy, ih]

/-- Only the first entry is looked at. -/
theorem updFirst_congr {α : Type} {p : α → Bool} {g k : α → α} {l : List α} {x : α} (h : l.find? p = some x)
    (e : g x = k x) : updFirst p g l = updFirst p k l := by
  induction l with
  | nil => rfl
  | cons y ys ih =>
    by_cases hy : p y = true
    · rw [List.find?_cons_of_pos hy] at h
      cases h
      simp [updFirst, hy, e]
    · rw [List.find?_cons_of_neg hy] at h
      simp [updFirst, hy, ih h]

/-! ### Fragments of a context -/

theorem Ctx.frag?_id {c : Ctx} {i : Nat} {f : Frag} (h : c.frag? i = some f) : f.id = i := by
  have := List.find?_some h
  simpa using this

theorem Ctx.frag?_setFrag {c : Ctx} {f g : Frag} (h : c.frag? g.id = some f) : (c.setFrag g).frag? g.id = some g :=
  find?_updFirst_same (g := fun _ => g) h (by simp)

theorem Ctx.frag?_setFrag_other (c : Ctx) (f : Frag) {i : Nat} (h : i ≠ f.id) : (c.setFrag f).frag? i = c.frag? i := by
  apply find?_updFirst_other
  intro x hx
  simp only [beq_iff_eq] at hx
  simp [hx, Ne.symm h]

theorem Ctx.setFrag_setFrag (c : Ctx) {f g : Frag} (h : f.id = g.id) : (c.setFrag f).setFrag g = c.setFrag g := by
  simp only [Ctx.setFrag, h]
  congr 1
  exact updFirst_updFirst (by intro x _; simp [h]) _

theorem Ctx.updFrag_eq {c : Ctx} {i : Nat} {f : Frag} (g : Frag → Frag) (h : c.frag? i = some f) (hi : (g f).id = i) :
    c.updFrag i g = c.setFrag (g f) := by
  simp only [Ctx.updFrag, Ctx.setFrag, hi]
  congr 1
  exact updFirst_congr h rfl

@[simp] theorem Ctx.setFrag_id (c : Ctx) (f : Frag) : (c.setFrag f).id = c.id := rfl
@[simp] theorem Ctx.updFrag_id (c : Ctx) (i : Nat) (g : Frag → Frag) : (c.updFrag i g).id = c.id := rfl
@[simp] theorem Ctx.setFrag_mat (c : Ctx) (f : Frag) : (c.setFrag f).mat = c.mat := rfl
@[simp] theorem Ctx.setFrag_shmap (c : Ctx) (f : Frag) : (c.setFrag f).shmap = c.shmap := rfl

/-! ### Contexts of the state -/

theorem State.ctx?_id {s : State} {i : Nat} {c : Ctx} (h : s.ctx? i = some c) : c.id = i := by
  have := List.find?_some h
  simpa using this

theorem State.ctx?_setCtx {s : State} {c d : Ctx} (h : s.ctx? d.id = some c) : (s.setCtx d).ctx? d.id = some d :=
  find?_updFirst_same (g := fun _ => d) h (by simp)

theorem State.ctx?_setCtx_other (s : State) (c : Ctx) {i : Nat} (h : i ≠ c.id) : (s.setCtx c).ctx? i = s.ctx? i := by
  apply find?_updFirst_other
  intro x hx
  simp only [beq_iff_eq] at hx
  simp [hx, Ne.symm h]

theorem State.setCtx_setCtx (s : State) {c d : Ctx} (h : c.id = d.id) : (s.setCtx c).setCtx d = s.setCtx d := by
  simp only [State.setCtx, h]
  congr 1
  exact updFirst_updFirst (by intro x _; simp [h]) _

theorem State.updCtx_eq {s : State} {i : Nat} {c : Ctx} (g : Ctx → Ctx) (h : s.ctx? i = some c) (hi : (g c).id = i) :
    s.updCtx i g = s.setCtx (g c) := by
  simp only [State.updCtx, State.setCtx, hi]
  congr 1
  exact updFirst_congr h rfl

theorem State.ctx?_updCtx {s : State} {i : Nat} {c : Ctx} (g : Ctx → Ctx) (h : s.ctx? i = some c) (hi : (g c).id = i) :
    (s.updCtx i g).ctx? i = some (g c) :=
  find?_updFirst_same h (by simp [hi])

theorem State.ctx?_updCtx_other (s : State) {i j : Nat} (g : Ctx → Ctx) (hg : ∀ c, (g c).id = c.id) (h : j ≠ i) :
    (s.updCtx i g).ctx? j = s.ctx? j := by
  apply find?_updFirst_other
  intro x hx
  simp only [beq_iff_eq] at hx
  simp [hg, hx, Ne.symm h]

theorem State.frag?_of {s : State} {r : FragRef} {c : Ctx} {f : Frag} (hc : s.ctx? r.ctx = some c) (hf : c.frag? r.frag = some f) :
    s.frag? r = some f := by
  simp [State.frag?, hc, hf]

theorem State.frag?_setCtx {s : State} {r : FragRef} {c d : Ctx} (hc : s.ctx? r.ctx = some c) (hd : d.id = r.ctx) :
    (s.setCtx d).frag? r = d.frag? r.frag := by
  have h : (s.setCtx d).ctx? r.ctx = some d := by
    rw [← hd] at hc ⊢
    exact State.ctx?_setCtx hc
  simp [State.frag?, h]

/-! ### Blocks and launches -/

theorem State.block?_updBlock {s : State} {i : Nat} {b : Block} (g : Block → Block) (h : s.block? i = some b) (hi : (g b).id = i) :
    (s.updBlock i g).block? i = some (g b) :=
  find?_updFirst_same h (by simp [hi])

theorem State.block?_updBlock_other (s : State) {i j : Nat} (g : Block → Block) (hg : ∀ b, (g b).id = b.id) (h : j ≠ i) :
    (s.updBlock i g).block? j = s.block? j := by
  apply find?_updFirst_other
  intro x hx
  simp only [beq_iff_eq] at hx
  simp [hg, hx, Ne.symm h]

theorem State.launch?_updLaunch {s : State} {i : Nat} {l : Launch} (g : Launch → Launch) (h : s.launch? i = some l)
    (hi : (g l).seq = i) : (s.updLaunch i g).launch? i = some (g l) :=
  find?_updFirst_same h (by simp [hi])

@[simp] theorem State.block?_setCtx (s : State) (c : Ctx) (i : Nat) : (s.setCtx c).block? i = s.block? i := rfl
@[simp] theorem State.block?_updCtx (s : State) (i : Nat) (g : Ctx → Ctx) (j : Nat) : (s.updCtx i g).block? j = s.block? j := rfl
@[simp] theorem State.launch?_setCtx (s : State) (c : Ctx) (i : Nat) : (s.setCtx c).launch? i = s.launch? i := rfl
@[simp] theorem State.launch?_updCtx (s : State) (i : Nat) (g : Ctx → Ctx) (j : Nat) : (s.updCtx i g).launch? j = s.launch? j := rfl
@[simp] theorem State.ctx?_updPart (s : State) (n p : Nat) (g : Part → Part) (i : Nat) : (s.updPart n p g).ctx? i = s.ctx? i := rfl
@[simp] theorem State.ctx?_updBlock (s : State) (j : Nat) (g : Block → Block) (i : Nat) : (s.updBlock j g).ctx? i = s.ctx? i := rfl
@[simp] theorem State.ctx?_updLaunch (s : State) (j : Nat) (g : Launch → Launch) (i : Nat) : (s.updLaunch j g).ctx? i = s.ctx? i := rfl

end Sys2Proof.Machine
end

