-- ==== Sys2Proof/Laws/State.lean ====
section
/-! SUPPORT. What each update of the state leaves as it was: one lemma for a field and an update. -/

namespace Sys2Proof.Machine

open Sys2Proof

/-! ### setCtx -/

@[simp] theorem State.setCtx_tick (s : State) (c : Ctx) : (s.setCtx c).tick = s.tick := rfl
@[simp] theorem State.setCtx_cycle (s : State) (c : Ctx) : (s.setCtx c).cycle = s.cycle := rfl
@[simp] theorem State.setCtx_frac (s : State) (c : Ctx) : (s.setCtx c).frac = s.frac := rfl
@[simp] theorem State.setCtx_tier1 (s : State) (c : Ctx) : (s.setCtx c).tier1 = s.tier1 := rfl
@[simp] theorem State.setCtx_tier2 (s : State) (c : Ctx) : (s.setCtx c).tier2 = s.tier2 := rfl
@[simp] theorem State.setCtx_host (s : State) (c : Ctx) : (s.setCtx c).host = s.host := rfl
@[simp] theorem State.setCtx_poison1 (s : State) (c : Ctx) : (s.setCtx c).poison1 = s.poison1 := rfl
@[simp] theorem State.setCtx_poison2 (s : State) (c : Ctx) : (s.setCtx c).poison2 = s.poison2 := rfl
@[simp] theorem State.setCtx_poison3 (s : State) (c : Ctx) : (s.setCtx c).poison3 = s.poison3 := rfl
@[simp] theorem State.setCtx_tcids (s : State) (c : Ctx) : (s.setCtx c).tcids = s.tcids := rfl
@[simp] theorem State.setCtx_clayer (s : State) (c : Ctx) : (s.setCtx c).clayer = s.clayer := rfl
@[simp] theorem State.setCtx_phases (s : State) (c : Ctx) : (s.setCtx c).phases = s.phases := rfl
@[simp] theorem State.setCtx_areas (s : State) (c : Ctx) : (s.setCtx c).areas = s.areas := rfl
@[simp] theorem State.setCtx_dies (s : State) (c : Ctx) : (s.setCtx c).dies = s.dies := rfl
@[simp] theorem State.setCtx_cores (s : State) (c : Ctx) : (s.setCtx c).cores = s.cores := rfl
@[simp] theorem State.setCtx_launches (s : State) (c : Ctx) : (s.setCtx c).launches = s.launches := rfl
@[simp] theorem State.setCtx_blocks (s : State) (c : Ctx) : (s.setCtx c).blocks = s.blocks := rfl
@[simp] theorem State.setCtx_walks (s : State) (c : Ctx) : (s.setCtx c).walks = s.walks := rfl
@[simp] theorem State.setCtx_walkFaults (s : State) (c : Ctx) : (s.setCtx c).walkFaults = s.walkFaults := rfl
@[simp] theorem State.setCtx_tlbis (s : State) (c : Ctx) : (s.setCtx c).tlbis = s.tlbis := rfl
@[simp] theorem State.setCtx_stores (s : State) (c : Ctx) : (s.setCtx c).stores = s.stores := rfl
@[simp] theorem State.setCtx_writeBacks (s : State) (c : Ctx) : (s.setCtx c).writeBacks = s.writeBacks := rfl
@[simp] theorem State.setCtx_cmds (s : State) (c : Ctx) : (s.setCtx c).cmds = s.cmds := rfl
@[simp] theorem State.setCtx_log (s : State) (c : Ctx) : (s.setCtx c).log = s.log := rfl
@[simp] theorem State.setCtx_held (s : State) (c : Ctx) : (s.setCtx c).held = s.held := rfl
@[simp] theorem State.setCtx_pushes (s : State) (c : Ctx) : (s.setCtx c).pushes = s.pushes := rfl
@[simp] theorem State.setCtx_classes (s : State) (c : Ctx) : (s.setCtx c).classes = s.classes := rfl
@[simp] theorem State.setCtx_ual (s : State) (c : Ctx) : (s.setCtx c).ual = s.ual := rfl
@[simp] theorem State.setCtx_mbox (s : State) (c : Ctx) : (s.setCtx c).mbox = s.mbox := rfl
@[simp] theorem State.setCtx_mgmt (s : State) (c : Ctx) : (s.setCtx c).mgmt = s.mgmt := rfl
@[simp] theorem State.setCtx_codeGen (s : State) (c : Ctx) : (s.setCtx c).codeGen = s.codeGen := rfl
@[simp] theorem State.setCtx_launchSeq (s : State) (c : Ctx) : (s.setCtx c).launchSeq = s.launchSeq := rfl
@[simp] theorem State.setCtx_parkSeq (s : State) (c : Ctx) : (s.setCtx c).parkSeq = s.parkSeq := rfl
@[simp] theorem State.setCtx_nextId (s : State) (c : Ctx) : (s.setCtx c).nextId = s.nextId := rfl
@[simp] theorem State.setCtx_toEnqueue (s : State) (c : Ctx) : (s.setCtx c).toEnqueue = s.toEnqueue := rfl
@[simp] theorem State.setCtx_pmapping (s : State) (c : Ctx) : (s.setCtx c).pmapping = s.pmapping := rfl
@[simp] theorem State.setCtx_zeroed (s : State) (c : Ctx) : (s.setCtx c).zeroed = s.zeroed := rfl
@[simp] theorem State.setCtx_strays (s : State) (c : Ctx) : (s.setCtx c).strays = s.strays := rfl
@[simp] theorem State.setCtx_past (s : State) (c : Ctx) : (s.setCtx c).past = s.past := rfl
@[simp] theorem State.setCtx_arFences (s : State) (c : Ctx) : (s.setCtx c).arFences = s.arFences := rfl
@[simp] theorem State.setCtx_relFences (s : State) (c : Ctx) : (s.setCtx c).relFences = s.relFences := rfl
@[simp] theorem State.setCtx_pubs (s : State) (c : Ctx) : (s.setCtx c).pubs = s.pubs := rfl
@[simp] theorem State.setCtx_images (s : State) (c : Ctx) : (s.setCtx c).images = s.images := rfl
@[simp] theorem State.setCtx_script (s : State) (c : Ctx) : (s.setCtx c).script = s.script := rfl
@[simp] theorem State.setCtx_picks (s : State) (c : Ctx) : (s.setCtx c).picks = s.picks := rfl
@[simp] theorem State.setCtx_cur (s : State) (c : Ctx) : (s.setCtx c).cur = s.cur := rfl
@[simp] theorem State.setCtx_freeCtr (s : State) (c : Ctx) : (s.setCtx c).freeCtr = s.freeCtr := rfl

/-! ### updCtx -/

@[simp] theorem State.updCtx_tick (s : State) (i : Nat) (g : Ctx → Ctx) : (s.updCtx i g).tick = s.tick := rfl
@[simp] theorem State.updCtx_cycle (s : State) (i : Nat) (g : Ctx → Ctx) : (s.updCtx i g).cycle = s.cycle := rfl
@[simp] theorem State.updCtx_frac (s : State) (i : Nat) (g : Ctx → Ctx) : (s.updCtx i g).frac = s.frac := rfl
@[simp] theorem State.updCtx_tier1 (s : State) (i : Nat) (g : Ctx → Ctx) : (s.updCtx i g).tier1 = s.tier1 := rfl
@[simp] theorem State.updCtx_tier2 (s : State) (i : Nat) (g : Ctx → Ctx) : (s.updCtx i g).tier2 = s.tier2 := rfl
@[simp] theorem State.updCtx_host (s : State) (i : Nat) (g : Ctx → Ctx) : (s.updCtx i g).host = s.host := rfl
@[simp] theorem State.updCtx_poison1 (s : State) (i : Nat) (g : Ctx → Ctx) : (s.updCtx i g).poison1 = s.poison1 := rfl
@[simp] theorem State.updCtx_poison2 (s : State) (i : Nat) (g : Ctx → Ctx) : (s.updCtx i g).poison2 = s.poison2 := rfl
@[simp] theorem State.updCtx_poison3 (s : State) (i : Nat) (g : Ctx → Ctx) : (s.updCtx i g).poison3 = s.poison3 := rfl
@[simp] theorem State.updCtx_tcids (s : State) (i : Nat) (g : Ctx → Ctx) : (s.updCtx i g).tcids = s.tcids := rfl
@[simp] theorem State.updCtx_clayer (s : State) (i : Nat) (g : Ctx → Ctx) : (s.updCtx i g).clayer = s.clayer := rfl
@[simp] theorem State.updCtx_phases (s : State) (i : Nat) (g : Ctx → Ctx) : (s.updCtx i g).phases = s.phases := rfl
@[simp] theorem State.updCtx_areas (s : State) (i : Nat) (g : Ctx → Ctx) : (s.updCtx i g).areas = s.areas := rfl
@[simp] theorem State.updCtx_dies (s : State) (i : Nat) (g : Ctx → Ctx) : (s.updCtx i g).dies = s.dies := rfl
@[simp] theorem State.updCtx_cores (s : State) (i : Nat) (g : Ctx → Ctx) : (s.updCtx i g).cores = s.cores := rfl
@[simp] theorem State.updCtx_launches (s : State) (i : Nat) (g : Ctx → Ctx) : (s.updCtx i g).launches = s.launches := rfl
@[simp] theorem State.updCtx_blocks (s : State) (i : Nat) (g : Ctx → Ctx) : (s.updCtx i g).blocks = s.blocks := rfl
@[simp] theorem State.updCtx_walks (s : State) (i : Nat) (g : Ctx → Ctx) : (s.updCtx i g).walks = s.walks := rfl
@[simp] theorem State.updCtx_walkFaults (s : State) (i : Nat) (g : Ctx → Ctx) : (s.updCtx i g).walkFaults = s.walkFaults := rfl
@[simp] theorem State.updCtx_tlbis (s : State) (i : Nat) (g : Ctx → Ctx) : (s.updCtx i g).tlbis = s.tlbis := rfl
@[simp] theorem State.updCtx_stores (s : State) (i : Nat) (g : Ctx → Ctx) : (s.updCtx i g).stores = s.stores := rfl
@[simp] theorem State.updCtx_writeBacks (s : State) (i : Nat) (g : Ctx → Ctx) : (s.updCtx i g).writeBacks = s.writeBacks := rfl
@[simp] theorem State.updCtx_cmds (s : State) (i : Nat) (g : Ctx → Ctx) : (s.updCtx i g).cmds = s.cmds := rfl
@[simp] theorem State.updCtx_log (s : State) (i : Nat) (g : Ctx → Ctx) : (s.updCtx i g).log = s.log := rfl
@[simp] theorem State.updCtx_held (s : State) (i : Nat) (g : Ctx → Ctx) : (s.updCtx i g).held = s.held := rfl
@[simp] theorem State.updCtx_pushes (s : State) (i : Nat) (g : Ctx → Ctx) : (s.updCtx i g).pushes = s.pushes := rfl
@[simp] theorem State.updCtx_classes (s : State) (i : Nat) (g : Ctx → Ctx) : (s.updCtx i g).classes = s.classes := rfl
@[simp] theorem State.updCtx_ual (s : State) (i : Nat) (g : Ctx → Ctx) : (s.updCtx i g).ual = s.ual := rfl
@[simp] theorem State.updCtx_mbox (s : State) (i : Nat) (g : Ctx → Ctx) : (s.updCtx i g).mbox = s.mbox := rfl
@[simp] theorem State.updCtx_mgmt (s : State) (i : Nat) (g : Ctx → Ctx) : (s.updCtx i g).mgmt = s.mgmt := rfl
@[simp] theorem State.updCtx_codeGen (s : State) (i : Nat) (g : Ctx → Ctx) : (s.updCtx i g).codeGen = s.codeGen := rfl
@[simp] theorem State.updCtx_launchSeq (s : State) (i : Nat) (g : Ctx → Ctx) : (s.updCtx i g).launchSeq = s.launchSeq := rfl
@[simp] theorem State.updCtx_parkSeq (s : State) (i : Nat) (g : Ctx → Ctx) : (s.updCtx i g).parkSeq = s.parkSeq := rfl
@[simp] theorem State.updCtx_nextId (s : State) (i : Nat) (g : Ctx → Ctx) : (s.updCtx i g).nextId = s.nextId := rfl
@[simp] theorem State.updCtx_toEnqueue (s : State) (i : Nat) (g : Ctx → Ctx) : (s.updCtx i g).toEnqueue = s.toEnqueue := rfl
@[simp] theorem State.updCtx_pmapping (s : State) (i : Nat) (g : Ctx → Ctx) : (s.updCtx i g).pmapping = s.pmapping := rfl
@[simp] theorem State.updCtx_zeroed (s : State) (i : Nat) (g : Ctx → Ctx) : (s.updCtx i g).zeroed = s.zeroed := rfl
@[simp] theorem State.updCtx_strays (s : State) (i : Nat) (g : Ctx → Ctx) : (s.updCtx i g).strays = s.strays := rfl
@[simp] theorem State.updCtx_past (s : State) (i : Nat) (g : Ctx → Ctx) : (s.updCtx i g).past = s.past := rfl
@[simp] theorem State.updCtx_arFences (s : State) (i : Nat) (g : Ctx → Ctx) : (s.updCtx i g).arFences = s.arFences := rfl
@[simp] theorem State.updCtx_relFences (s : State) (i : Nat) (g : Ctx → Ctx) : (s.updCtx i g).relFences = s.relFences := rfl
@[simp] theorem State.updCtx_pubs (s : State) (i : Nat) (g : Ctx → Ctx) : (s.updCtx i g).pubs = s.pubs := rfl
@[simp] theorem State.updCtx_images (s : State) (i : Nat) (g : Ctx → Ctx) : (s.updCtx i g).images = s.images := rfl
@[simp] theorem State.updCtx_script (s : State) (i : Nat) (g : Ctx → Ctx) : (s.updCtx i g).script = s.script := rfl
@[simp] theorem State.updCtx_picks (s : State) (i : Nat) (g : Ctx → Ctx) : (s.updCtx i g).picks = s.picks := rfl
@[simp] theorem State.updCtx_cur (s : State) (i : Nat) (g : Ctx → Ctx) : (s.updCtx i g).cur = s.cur := rfl
@[simp] theorem State.updCtx_freeCtr (s : State) (i : Nat) (g : Ctx → Ctx) : (s.updCtx i g).freeCtr = s.freeCtr := rfl

/-! ### updFrag -/

@[simp] theorem State.updFrag_tick (s : State) (r : FragRef) (g : Frag → Frag) : (s.updFrag r g).tick = s.tick := rfl
@[simp] theorem State.updFrag_cycle (s : State) (r : FragRef) (g : Frag → Frag) : (s.updFrag r g).cycle = s.cycle := rfl
@[simp] theorem State.updFrag_frac (s : State) (r : FragRef) (g : Frag → Frag) : (s.updFrag r g).frac = s.frac := rfl
@[simp] theorem State.updFrag_tier1 (s : State) (r : FragRef) (g : Frag → Frag) : (s.updFrag r g).tier1 = s.tier1 := rfl
@[simp] theorem State.updFrag_tier2 (s : State) (r : FragRef) (g : Frag → Frag) : (s.updFrag r g).tier2 = s.tier2 := rfl
@[simp] theorem State.updFrag_host (s : State) (r : FragRef) (g : Frag → Frag) : (s.updFrag r g).host = s.host := rfl
@[simp] theorem State.updFrag_poison1 (s : State) (r : FragRef) (g : Frag → Frag) : (s.updFrag r g).poison1 = s.poison1 := rfl
@[simp] theorem State.updFrag_poison2 (s : State) (r : FragRef) (g : Frag → Frag) : (s.updFrag r g).poison2 = s.poison2 := rfl
@[simp] theorem State.updFrag_poison3 (s : State) (r : FragRef) (g : Frag → Frag) : (s.updFrag r g).poison3 = s.poison3 := rfl
@[simp] theorem State.updFrag_tcids (s : State) (r : FragRef) (g : Frag → Frag) : (s.updFrag r g).tcids = s.tcids := rfl
@[simp] theorem State.updFrag_clayer (s : State) (r : FragRef) (g : Frag → Frag) : (s.updFrag r g).clayer = s.clayer := rfl
@[simp] theorem State.updFrag_phases (s : State) (r : FragRef) (g : Frag → Frag) : (s.updFrag r g).phases = s.phases := rfl
@[simp] theorem State.updFrag_areas (s : State) (r : FragRef) (g : Frag → Frag) : (s.updFrag r g).areas = s.areas := rfl
@[simp] theorem State.updFrag_dies (s : State) (r : FragRef) (g : Frag → Frag) : (s.updFrag r g).dies = s.dies := rfl
@[simp] theorem State.updFrag_cores (s : State) (r : FragRef) (g : Frag → Frag) : (s.updFrag r g).cores = s.cores := rfl
@[simp] theorem State.updFrag_launches (s : State) (r : FragRef) (g : Frag → Frag) : (s.updFrag r g).launches = s.launches := rfl
@[simp] theorem State.updFrag_blocks (s : State) (r : FragRef) (g : Frag → Frag) : (s.updFrag r g).blocks = s.blocks := rfl
@[simp] theorem State.updFrag_walks (s : State) (r : FragRef) (g : Frag → Frag) : (s.updFrag r g).walks = s.walks := rfl
@[simp] theorem State.updFrag_walkFaults (s : State) (r : FragRef) (g : Frag → Frag) : (s.updFrag r g).walkFaults = s.walkFaults := rfl
@[simp] theorem State.updFrag_tlbis (s : State) (r : FragRef) (g : Frag → Frag) : (s.updFrag r g).tlbis = s.tlbis := rfl
@[simp] theorem State.updFrag_stores (s : State) (r : FragRef) (g : Frag → Frag) : (s.updFrag r g).stores = s.stores := rfl
@[simp] theorem State.updFrag_writeBacks (s : State) (r : FragRef) (g : Frag → Frag) : (s.updFrag r g).writeBacks = s.writeBacks := rfl
@[simp] theorem State.updFrag_cmds (s : State) (r : FragRef) (g : Frag → Frag) : (s.updFrag r g).cmds = s.cmds := rfl
@[simp] theorem State.updFrag_log (s : State) (r : FragRef) (g : Frag → Frag) : (s.updFrag r g).log = s.log := rfl
@[simp] theorem State.updFrag_held (s : State) (r : FragRef) (g : Frag → Frag) : (s.updFrag r g).held = s.held := rfl
@[simp] theorem State.updFrag_pushes (s : State) (r : FragRef) (g : Frag → Frag) : (s.updFrag r g).pushes = s.pushes := rfl
@[simp] theorem State.updFrag_classes (s : State) (r : FragRef) (g : Frag → Frag) : (s.updFrag r g).classes = s.classes := rfl
@[simp] theorem State.updFrag_ual (s : State) (r : FragRef) (g : Frag → Frag) : (s.updFrag r g).ual = s.ual := rfl
@[simp] theorem State.updFrag_mbox (s : State) (r : FragRef) (g : Frag → Frag) : (s.updFrag r g).mbox = s.mbox := rfl
@[simp] theorem State.updFrag_mgmt (s : State) (r : FragRef) (g : Frag → Frag) : (s.updFrag r g).mgmt = s.mgmt := rfl
@[simp] theorem State.updFrag_codeGen (s : State) (r : FragRef) (g : Frag → Frag) : (s.updFrag r g).codeGen = s.codeGen := rfl
@[simp] theorem State.updFrag_launchSeq (s : State) (r : FragRef) (g : Frag → Frag) : (s.updFrag r g).launchSeq = s.launchSeq := rfl
@[simp] theorem State.updFrag_parkSeq (s : State) (r : FragRef) (g : Frag → Frag) : (s.updFrag r g).parkSeq = s.parkSeq := rfl
@[simp] theorem State.updFrag_nextId (s : State) (r : FragRef) (g : Frag → Frag) : (s.updFrag r g).nextId = s.nextId := rfl
@[simp] theorem State.updFrag_toEnqueue (s : State) (r : FragRef) (g : Frag → Frag) : (s.updFrag r g).toEnqueue = s.toEnqueue := rfl
@[simp] theorem State.updFrag_pmapping (s : State) (r : FragRef) (g : Frag → Frag) : (s.updFrag r g).pmapping = s.pmapping := rfl
@[simp] theorem State.updFrag_zeroed (s : State) (r : FragRef) (g : Frag → Frag) : (s.updFrag r g).zeroed = s.zeroed := rfl
@[simp] theorem State.updFrag_strays (s : State) (r : FragRef) (g : Frag → Frag) : (s.updFrag r g).strays = s.strays := rfl
@[simp] theorem State.updFrag_past (s : State) (r : FragRef) (g : Frag → Frag) : (s.updFrag r g).past = s.past := rfl
@[simp] theorem State.updFrag_arFences (s : State) (r : FragRef) (g : Frag → Frag) : (s.updFrag r g).arFences = s.arFences := rfl
@[simp] theorem State.updFrag_relFences (s : State) (r : FragRef) (g : Frag → Frag) : (s.updFrag r g).relFences = s.relFences := rfl
@[simp] theorem State.updFrag_pubs (s : State) (r : FragRef) (g : Frag → Frag) : (s.updFrag r g).pubs = s.pubs := rfl
@[simp] theorem State.updFrag_images (s : State) (r : FragRef) (g : Frag → Frag) : (s.updFrag r g).images = s.images := rfl
@[simp] theorem State.updFrag_script (s : State) (r : FragRef) (g : Frag → Frag) : (s.updFrag r g).script = s.script := rfl
@[simp] theorem State.updFrag_picks (s : State) (r : FragRef) (g : Frag → Frag) : (s.updFrag r g).picks = s.picks := rfl
@[simp] theorem State.updFrag_cur (s : State) (r : FragRef) (g : Frag → Frag) : (s.updFrag r g).cur = s.cur := rfl
@[simp] theorem State.updFrag_freeCtr (s : State) (r : FragRef) (g : Frag → Frag) : (s.updFrag r g).freeCtr = s.freeCtr := rfl

/-! ### updBlock -/

@[simp] theorem State.updBlock_tick (s : State) (i : Nat) (g : Block → Block) : (s.updBlock i g).tick = s.tick := rfl
@[simp] theorem State.updBlock_cycle (s : State) (i : Nat) (g : Block → Block) : (s.updBlock i g).cycle = s.cycle := rfl
@[simp] theorem State.updBlock_frac (s : State) (i : Nat) (g : Block → Block) : (s.updBlock i g).frac = s.frac := rfl
@[simp] theorem State.updBlock_tier1 (s : State) (i : Nat) (g : Block → Block) : (s.updBlock i g).tier1 = s.tier1 := rfl
@[simp] theorem State.updBlock_tier2 (s : State) (i : Nat) (g : Block → Block) : (s.updBlock i g).tier2 = s.tier2 := rfl
@[simp] theorem State.updBlock_host (s : State) (i : Nat) (g : Block → Block) : (s.updBlock i g).host = s.host := rfl
@[simp] theorem State.updBlock_poison1 (s : State) (i : Nat) (g : Block → Block) : (s.updBlock i g).poison1 = s.poison1 := rfl
@[simp] theorem State.updBlock_poison2 (s : State) (i : Nat) (g : Block → Block) : (s.updBlock i g).poison2 = s.poison2 := rfl
@[simp] theorem State.updBlock_poison3 (s : State) (i : Nat) (g : Block → Block) : (s.updBlock i g).poison3 = s.poison3 := rfl
@[simp] theorem State.updBlock_tcids (s : State) (i : Nat) (g : Block → Block) : (s.updBlock i g).tcids = s.tcids := rfl
@[simp] theorem State.updBlock_clayer (s : State) (i : Nat) (g : Block → Block) : (s.updBlock i g).clayer = s.clayer := rfl
@[simp] theorem State.updBlock_phases (s : State) (i : Nat) (g : Block → Block) : (s.updBlock i g).phases = s.phases := rfl
@[simp] theorem State.updBlock_areas (s : State) (i : Nat) (g : Block → Block) : (s.updBlock i g).areas = s.areas := rfl
@[simp] theorem State.updBlock_dies (s : State) (i : Nat) (g : Block → Block) : (s.updBlock i g).dies = s.dies := rfl
@[simp] theorem State.updBlock_cores (s : State) (i : Nat) (g : Block → Block) : (s.updBlock i g).cores = s.cores := rfl
@[simp] theorem State.updBlock_launches (s : State) (i : Nat) (g : Block → Block) : (s.updBlock i g).launches = s.launches := rfl
@[simp] theorem State.updBlock_ctxs (s : State) (i : Nat) (g : Block → Block) : (s.updBlock i g).ctxs = s.ctxs := rfl
@[simp] theorem State.updBlock_walks (s : State) (i : Nat) (g : Block → Block) : (s.updBlock i g).walks = s.walks := rfl
@[simp] theorem State.updBlock_walkFaults (s : State) (i : Nat) (g : Block → Block) : (s.updBlock i g).walkFaults = s.walkFaults := rfl
@[simp] theorem State.updBlock_tlbis (s : State) (i : Nat) (g : Block → Block) : (s.updBlock i g).tlbis = s.tlbis := rfl
@[simp] theorem State.updBlock_stores (s : State) (i : Nat) (g : Block → Block) : (s.updBlock i g).stores = s.stores := rfl
@[simp] theorem State.updBlock_writeBacks (s : State) (i : Nat) (g : Block → Block) : (s.updBlock i g).writeBacks = s.writeBacks := rfl
@[simp] theorem State.updBlock_cmds (s : State) (i : Nat) (g : Block → Block) : (s.updBlock i g).cmds = s.cmds := rfl
@[simp] theorem State.updBlock_log (s : State) (i : Nat) (g : Block → Block) : (s.updBlock i g).log = s.log := rfl
@[simp] theorem State.updBlock_held (s : State) (i : Nat) (g : Block → Block) : (s.updBlock i g).held = s.held := rfl
@[simp] theorem State.updBlock_pushes (s : State) (i : Nat) (g : Block → Block) : (s.updBlock i g).pushes = s.pushes := rfl
@[simp] theorem State.updBlock_classes (s : State) (i : Nat) (g : Block → Block) : (s.updBlock i g).classes = s.classes := rfl
@[simp] theorem State.updBlock_ual (s : State) (i : Nat) (g : Block → Block) : (s.updBlock i g).ual = s.ual := rfl
@[simp] theorem State.updBlock_mbox (s : State) (i : Nat) (g : Block → Block) : (s.updBlock i g).mbox = s.mbox := rfl
@[simp] theorem State.updBlock_mgmt (s : State) (i : Nat) (g : Block → Block) : (s.updBlock i g).mgmt = s.mgmt := rfl
@[simp] theorem State.updBlock_codeGen (s : State) (i : Nat) (g : Block → Block) : (s.updBlock i g).codeGen = s.codeGen := rfl
@[simp] theorem State.updBlock_launchSeq (s : State) (i : Nat) (g : Block → Block) : (s.updBlock i g).launchSeq = s.launchSeq := rfl
@[simp] theorem State.updBlock_parkSeq (s : State) (i : Nat) (g : Block → Block) : (s.updBlock i g).parkSeq = s.parkSeq := rfl
@[simp] theorem State.updBlock_nextId (s : State) (i : Nat) (g : Block → Block) : (s.updBlock i g).nextId = s.nextId := rfl
@[simp] theorem State.updBlock_toEnqueue (s : State) (i : Nat) (g : Block → Block) : (s.updBlock i g).toEnqueue = s.toEnqueue := rfl
@[simp] theorem State.updBlock_pmapping (s : State) (i : Nat) (g : Block → Block) : (s.updBlock i g).pmapping = s.pmapping := rfl
@[simp] theorem State.updBlock_zeroed (s : State) (i : Nat) (g : Block → Block) : (s.updBlock i g).zeroed = s.zeroed := rfl
@[simp] theorem State.updBlock_strays (s : State) (i : Nat) (g : Block → Block) : (s.updBlock i g).strays = s.strays := rfl
@[simp] theorem State.updBlock_past (s : State) (i : Nat) (g : Block → Block) : (s.updBlock i g).past = s.past := rfl
@[simp] theorem State.updBlock_arFences (s : State) (i : Nat) (g : Block → Block) : (s.updBlock i g).arFences = s.arFences := rfl
@[simp] theorem State.updBlock_relFences (s : State) (i : Nat) (g : Block → Block) : (s.updBlock i g).relFences = s.relFences := rfl
@[simp] theorem State.updBlock_pubs (s : State) (i : Nat) (g : Block → Block) : (s.updBlock i g).pubs = s.pubs := rfl
@[simp] theorem State.updBlock_images (s : State) (i : Nat) (g : Block → Block) : (s.updBlock i g).images = s.images := rfl
@[simp] theorem State.updBlock_script (s : State) (i : Nat) (g : Block → Block) : (s.updBlock i g).script = s.script := rfl
@[simp] theorem State.updBlock_picks (s : State) (i : Nat) (g : Block → Block) : (s.updBlock i g).picks = s.picks := rfl
@[simp] theorem State.updBlock_cur (s : State) (i : Nat) (g : Block → Block) : (s.updBlock i g).cur = s.cur := rfl
@[simp] theorem State.updBlock_freeCtr (s : State) (i : Nat) (g : Block → Block) : (s.updBlock i g).freeCtr = s.freeCtr := rfl

/-! ### updLaunch -/

@[simp] theorem State.updLaunch_tick (s : State) (i : Nat) (g : Launch → Launch) : (s.updLaunch i g).tick = s.tick := rfl
@[simp] theorem State.updLaunch_cycle (s : State) (i : Nat) (g : Launch → Launch) : (s.updLaunch i g).cycle = s.cycle := rfl
@[simp] theorem State.updLaunch_frac (s : State) (i : Nat) (g : Launch → Launch) : (s.updLaunch i g).frac = s.frac := rfl
@[simp] theorem State.updLaunch_tier1 (s : State) (i : Nat) (g : Launch → Launch) : (s.updLaunch i g).tier1 = s.tier1 := rfl
@[simp] theorem State.updLaunch_tier2 (s : State) (i : Nat) (g : Launch → Launch) : (s.updLaunch i g).tier2 = s.tier2 := rfl
@[simp] theorem State.updLaunch_host (s : State) (i : Nat) (g : Launch → Launch) : (s.updLaunch i g).host = s.host := rfl
@[simp] theorem State.updLaunch_poison1 (s : State) (i : Nat) (g : Launch → Launch) : (s.updLaunch i g).poison1 = s.poison1 := rfl
@[simp] theorem State.updLaunch_poison2 (s : State) (i : Nat) (g : Launch → Launch) : (s.updLaunch i g).poison2 = s.poison2 := rfl
@[simp] theorem State.updLaunch_poison3 (s : State) (i : Nat) (g : Launch → Launch) : (s.updLaunch i g).poison3 = s.poison3 := rfl
@[simp] theorem State.updLaunch_tcids (s : State) (i : Nat) (g : Launch → Launch) : (s.updLaunch i g).tcids = s.tcids := rfl
@[simp] theorem State.updLaunch_clayer (s : State) (i : Nat) (g : Launch → Launch) : (s.updLaunch i g).clayer = s.clayer := rfl
@[simp] theorem State.updLaunch_phases (s : State) (i : Nat) (g : Launch → Launch) : (s.updLaunch i g).phases = s.phases := rfl
@[simp] theorem State.updLaunch_areas (s : State) (i : Nat) (g : Launch → Launch) : (s.updLaunch i g).areas = s.areas := rfl
@[simp] theorem State.updLaunch_dies (s : State) (i : Nat) (g : Launch → Launch) : (s.updLaunch i g).dies = s.dies := rfl
@[simp] theorem State.updLaunch_cores (s : State) (i : Nat) (g : Launch → Launch) : (s.updLaunch i g).cores = s.cores := rfl
@[simp] theorem State.updLaunch_blocks (s : State) (i : Nat) (g : Launch → Launch) : (s.updLaunch i g).blocks = s.blocks := rfl
@[simp] theorem State.updLaunch_ctxs (s : State) (i : Nat) (g : Launch → Launch) : (s.updLaunch i g).ctxs = s.ctxs := rfl
@[simp] theorem State.updLaunch_walks (s : State) (i : Nat) (g : Launch → Launch) : (s.updLaunch i g).walks = s.walks := rfl
@[simp] theorem State.updLaunch_walkFaults (s : State) (i : Nat) (g : Launch → Launch) : (s.updLaunch i g).walkFaults = s.walkFaults := rfl
@[simp] theorem State.updLaunch_tlbis (s : State) (i : Nat) (g : Launch → Launch) : (s.updLaunch i g).tlbis = s.tlbis := rfl
@[simp] theorem State.updLaunch_stores (s : State) (i : Nat) (g : Launch → Launch) : (s.updLaunch i g).stores = s.stores := rfl
@[simp] theorem State.updLaunch_writeBacks (s : State) (i : Nat) (g : Launch → Launch) : (s.updLaunch i g).writeBacks = s.writeBacks := rfl
@[simp] theorem State.updLaunch_cmds (s : State) (i : Nat) (g : Launch → Launch) : (s.updLaunch i g).cmds = s.cmds := rfl
@[simp] theorem State.updLaunch_log (s : State) (i : Nat) (g : Launch → Launch) : (s.updLaunch i g).log = s.log := rfl
@[simp] theorem State.updLaunch_held (s : State) (i : Nat) (g : Launch → Launch) : (s.updLaunch i g).held = s.held := rfl
@[simp] theorem State.updLaunch_pushes (s : State) (i : Nat) (g : Launch → Launch) : (s.updLaunch i g).pushes = s.pushes := rfl
@[simp] theorem State.updLaunch_classes (s : State) (i : Nat) (g : Launch → Launch) : (s.updLaunch i g).classes = s.classes := rfl
@[simp] theorem State.updLaunch_ual (s : State) (i : Nat) (g : Launch → Launch) : (s.updLaunch i g).ual = s.ual := rfl
@[simp] theorem State.updLaunch_mbox (s : State) (i : Nat) (g : Launch → Launch) : (s.updLaunch i g).mbox = s.mbox := rfl
@[simp] theorem State.updLaunch_mgmt (s : State) (i : Nat) (g : Launch → Launch) : (s.updLaunch i g).mgmt = s.mgmt := rfl
@[simp] theorem State.updLaunch_codeGen (s : State) (i : Nat) (g : Launch → Launch) : (s.updLaunch i g).codeGen = s.codeGen := rfl
@[simp] theorem State.updLaunch_launchSeq (s : State) (i : Nat) (g : Launch → Launch) : (s.updLaunch i g).launchSeq = s.launchSeq := rfl
@[simp] theorem State.updLaunch_parkSeq (s : State) (i : Nat) (g : Launch → Launch) : (s.updLaunch i g).parkSeq = s.parkSeq := rfl
@[simp] theorem State.updLaunch_nextId (s : State) (i : Nat) (g : Launch → Launch) : (s.updLaunch i g).nextId = s.nextId := rfl
@[simp] theorem State.updLaunch_toEnqueue (s : State) (i : Nat) (g : Launch → Launch) : (s.updLaunch i g).toEnqueue = s.toEnqueue := rfl
@[simp] theorem State.updLaunch_pmapping (s : State) (i : Nat) (g : Launch → Launch) : (s.updLaunch i g).pmapping = s.pmapping := rfl
@[simp] theorem State.updLaunch_zeroed (s : State) (i : Nat) (g : Launch → Launch) : (s.updLaunch i g).zeroed = s.zeroed := rfl
@[simp] theorem State.updLaunch_strays (s : State) (i : Nat) (g : Launch → Launch) : (s.updLaunch i g).strays = s.strays := rfl
@[simp] theorem State.updLaunch_past (s : State) (i : Nat) (g : Launch → Launch) : (s.updLaunch i g).past = s.past := rfl
@[simp] theorem State.updLaunch_arFences (s : State) (i : Nat) (g : Launch → Launch) : (s.updLaunch i g).arFences = s.arFences := rfl
@[simp] theorem State.updLaunch_relFences (s : State) (i : Nat) (g : Launch → Launch) : (s.updLaunch i g).relFences = s.relFences := rfl
@[simp] theorem State.updLaunch_pubs (s : State) (i : Nat) (g : Launch → Launch) : (s.updLaunch i g).pubs = s.pubs := rfl
@[simp] theorem State.updLaunch_images (s : State) (i : Nat) (g : Launch → Launch) : (s.updLaunch i g).images = s.images := rfl
@[simp] theorem State.updLaunch_script (s : State) (i : Nat) (g : Launch → Launch) : (s.updLaunch i g).script = s.script := rfl
@[simp] theorem State.updLaunch_picks (s : State) (i : Nat) (g : Launch → Launch) : (s.updLaunch i g).picks = s.picks := rfl
@[simp] theorem State.updLaunch_cur (s : State) (i : Nat) (g : Launch → Launch) : (s.updLaunch i g).cur = s.cur := rfl
@[simp] theorem State.updLaunch_freeCtr (s : State) (i : Nat) (g : Launch → Launch) : (s.updLaunch i g).freeCtr = s.freeCtr := rfl

/-! ### updCore -/

@[simp] theorem State.updCore_tick (s : State) (n : Nat) (g : Core → Core) : (s.updCore n g).tick = s.tick := rfl
@[simp] theorem State.updCore_cycle (s : State) (n : Nat) (g : Core → Core) : (s.updCore n g).cycle = s.cycle := rfl
@[simp] theorem State.updCore_frac (s : State) (n : Nat) (g : Core → Core) : (s.updCore n g).frac = s.frac := rfl
@[simp] theorem State.updCore_tier1 (s : State) (n : Nat) (g : Core → Core) : (s.updCore n g).tier1 = s.tier1 := rfl
@[simp] theorem State.updCore_tier2 (s : State) (n : Nat) (g : Core → Core) : (s.updCore n g).tier2 = s.tier2 := rfl
@[simp] theorem State.updCore_host (s : State) (n : Nat) (g : Core → Core) : (s.updCore n g).host = s.host := rfl
@[simp] theorem State.updCore_poison1 (s : State) (n : Nat) (g : Core → Core) : (s.updCore n g).poison1 = s.poison1 := rfl
@[simp] theorem State.updCore_poison2 (s : State) (n : Nat) (g : Core → Core) : (s.updCore n g).poison2 = s.poison2 := rfl
@[simp] theorem State.updCore_poison3 (s : State) (n : Nat) (g : Core → Core) : (s.updCore n g).poison3 = s.poison3 := rfl
@[simp] theorem State.updCore_tcids (s : State) (n : Nat) (g : Core → Core) : (s.updCore n g).tcids = s.tcids := rfl
@[simp] theorem State.updCore_clayer (s : State) (n : Nat) (g : Core → Core) : (s.updCore n g).clayer = s.clayer := rfl
@[simp] theorem State.updCore_phases (s : State) (n : Nat) (g : Core → Core) : (s.updCore n g).phases = s.phases := rfl
@[simp] theorem State.updCore_areas (s : State) (n : Nat) (g : Core → Core) : (s.updCore n g).areas = s.areas := rfl
@[simp] theorem State.updCore_dies (s : State) (n : Nat) (g : Core → Core) : (s.updCore n g).dies = s.dies := rfl
@[simp] theorem State.updCore_launches (s : State) (n : Nat) (g : Core → Core) : (s.updCore n g).launches = s.launches := rfl
@[simp] theorem State.updCore_blocks (s : State) (n : Nat) (g : Core → Core) : (s.updCore n g).blocks = s.blocks := rfl
@[simp] theorem State.updCore_ctxs (s : State) (n : Nat) (g : Core → Core) : (s.updCore n g).ctxs = s.ctxs := rfl
@[simp] theorem State.updCore_walks (s : State) (n : Nat) (g : Core → Core) : (s.updCore n g).walks = s.walks := rfl
@[simp] theorem State.updCore_walkFaults (s : State) (n : Nat) (g : Core → Core) : (s.updCore n g).walkFaults = s.walkFaults := rfl
@[simp] theorem State.updCore_tlbis (s : State) (n : Nat) (g : Core → Core) : (s.updCore n g).tlbis = s.tlbis := rfl
@[simp] theorem State.updCore_stores (s : State) (n : Nat) (g : Core → Core) : (s.updCore n g).stores = s.stores := rfl
@[simp] theorem State.updCore_writeBacks (s : State) (n : Nat) (g : Core → Core) : (s.updCore n g).writeBacks = s.writeBacks := rfl
@[simp] theorem State.updCore_cmds (s : State) (n : Nat) (g : Core → Core) : (s.updCore n g).cmds = s.cmds := rfl
@[simp] theorem State.updCore_log (s : State) (n : Nat) (g : Core → Core) : (s.updCore n g).log = s.log := rfl
@[simp] theorem State.updCore_held (s : State) (n : Nat) (g : Core → Core) : (s.updCore n g).held = s.held := rfl
@[simp] theorem State.updCore_pushes (s : State) (n : Nat) (g : Core → Core) : (s.updCore n g).pushes = s.pushes := rfl
@[simp] theorem State.updCore_classes (s : State) (n : Nat) (g : Core → Core) : (s.updCore n g).classes = s.classes := rfl
@[simp] theorem State.updCore_ual (s : State) (n : Nat) (g : Core → Core) : (s.updCore n g).ual = s.ual := rfl
@[simp] theorem State.updCore_mbox (s : State) (n : Nat) (g : Core → Core) : (s.updCore n g).mbox = s.mbox := rfl
@[simp] theorem State.updCore_mgmt (s : State) (n : Nat) (g : Core → Core) : (s.updCore n g).mgmt = s.mgmt := rfl
@[simp] theorem State.updCore_codeGen (s : State) (n : Nat) (g : Core → Core) : (s.updCore n g).codeGen = s.codeGen := rfl
@[simp] theorem State.updCore_launchSeq (s : State) (n : Nat) (g : Core → Core) : (s.updCore n g).launchSeq = s.launchSeq := rfl
@[simp] theorem State.updCore_parkSeq (s : State) (n : Nat) (g : Core → Core) : (s.updCore n g).parkSeq = s.parkSeq := rfl
@[simp] theorem State.updCore_nextId (s : State) (n : Nat) (g : Core → Core) : (s.updCore n g).nextId = s.nextId := rfl
@[simp] theorem State.updCore_toEnqueue (s : State) (n : Nat) (g : Core → Core) : (s.updCore n g).toEnqueue = s.toEnqueue := rfl
@[simp] theorem State.updCore_pmapping (s : State) (n : Nat) (g : Core → Core) : (s.updCore n g).pmapping = s.pmapping := rfl
@[simp] theorem State.updCore_zeroed (s : State) (n : Nat) (g : Core → Core) : (s.updCore n g).zeroed = s.zeroed := rfl
@[simp] theorem State.updCore_strays (s : State) (n : Nat) (g : Core → Core) : (s.updCore n g).strays = s.strays := rfl
@[simp] theorem State.updCore_past (s : State) (n : Nat) (g : Core → Core) : (s.updCore n g).past = s.past := rfl
@[simp] theorem State.updCore_arFences (s : State) (n : Nat) (g : Core → Core) : (s.updCore n g).arFences = s.arFences := rfl
@[simp] theorem State.updCore_relFences (s : State) (n : Nat) (g : Core → Core) : (s.updCore n g).relFences = s.relFences := rfl
@[simp] theorem State.updCore_pubs (s : State) (n : Nat) (g : Core → Core) : (s.updCore n g).pubs = s.pubs := rfl
@[simp] theorem State.updCore_images (s : State) (n : Nat) (g : Core → Core) : (s.updCore n g).images = s.images := rfl
@[simp] theorem State.updCore_script (s : State) (n : Nat) (g : Core → Core) : (s.updCore n g).script = s.script := rfl
@[simp] theorem State.updCore_picks (s : State) (n : Nat) (g : Core → Core) : (s.updCore n g).picks = s.picks := rfl
@[simp] theorem State.updCore_cur (s : State) (n : Nat) (g : Core → Core) : (s.updCore n g).cur = s.cur := rfl
@[simp] theorem State.updCore_freeCtr (s : State) (n : Nat) (g : Core → Core) : (s.updCore n g).freeCtr = s.freeCtr := rfl

/-! ### updPart -/

@[simp] theorem State.updPart_tick (s : State) (n p : Nat) (g : Part → Part) : (s.updPart n p g).tick = s.tick := rfl
@[simp] theorem State.updPart_cycle (s : State) (n p : Nat) (g : Part → Part) : (s.updPart n p g).cycle = s.cycle := rfl
@[simp] theorem State.updPart_frac (s : State) (n p : Nat) (g : Part → Part) : (s.updPart n p g).frac = s.frac := rfl
@[simp] theorem State.updPart_tier1 (s : State) (n p : Nat) (g : Part → Part) : (s.updPart n p g).tier1 = s.tier1 := rfl
@[simp] theorem State.updPart_tier2 (s : State) (n p : Nat) (g : Part → Part) : (s.updPart n p g).tier2 = s.tier2 := rfl
@[simp] theorem State.updPart_host (s : State) (n p : Nat) (g : Part → Part) : (s.updPart n p g).host = s.host := rfl
@[simp] theorem State.updPart_poison1 (s : State) (n p : Nat) (g : Part → Part) : (s.updPart n p g).poison1 = s.poison1 := rfl
@[simp] theorem State.updPart_poison2 (s : State) (n p : Nat) (g : Part → Part) : (s.updPart n p g).poison2 = s.poison2 := rfl
@[simp] theorem State.updPart_poison3 (s : State) (n p : Nat) (g : Part → Part) : (s.updPart n p g).poison3 = s.poison3 := rfl
@[simp] theorem State.updPart_tcids (s : State) (n p : Nat) (g : Part → Part) : (s.updPart n p g).tcids = s.tcids := rfl
@[simp] theorem State.updPart_clayer (s : State) (n p : Nat) (g : Part → Part) : (s.updPart n p g).clayer = s.clayer := rfl
@[simp] theorem State.updPart_phases (s : State) (n p : Nat) (g : Part → Part) : (s.updPart n p g).phases = s.phases := rfl
@[simp] theorem State.updPart_areas (s : State) (n p : Nat) (g : Part → Part) : (s.updPart n p g).areas = s.areas := rfl
@[simp] theorem State.updPart_dies (s : State) (n p : Nat) (g : Part → Part) : (s.updPart n p g).dies = s.dies := rfl
@[simp] theorem State.updPart_launches (s : State) (n p : Nat) (g : Part → Part) : (s.updPart n p g).launches = s.launches := rfl
@[simp] theorem State.updPart_blocks (s : State) (n p : Nat) (g : Part → Part) : (s.updPart n p g).blocks = s.blocks := rfl
@[simp] theorem State.updPart_ctxs (s : State) (n p : Nat) (g : Part → Part) : (s.updPart n p g).ctxs = s.ctxs := rfl
@[simp] theorem State.updPart_walks (s : State) (n p : Nat) (g : Part → Part) : (s.updPart n p g).walks = s.walks := rfl
@[simp] theorem State.updPart_walkFaults (s : State) (n p : Nat) (g : Part → Part) : (s.updPart n p g).walkFaults = s.walkFaults := rfl
@[simp] theorem State.updPart_tlbis (s : State) (n p : Nat) (g : Part → Part) : (s.updPart n p g).tlbis = s.tlbis := rfl
@[simp] theorem State.updPart_stores (s : State) (n p : Nat) (g : Part → Part) : (s.updPart n p g).stores = s.stores := rfl
@[simp] theorem State.updPart_writeBacks (s : State) (n p : Nat) (g : Part → Part) : (s.updPart n p g).writeBacks = s.writeBacks := rfl
@[simp] theorem State.updPart_cmds (s : State) (n p : Nat) (g : Part → Part) : (s.updPart n p g).cmds = s.cmds := rfl
@[simp] theorem State.updPart_log (s : State) (n p : Nat) (g : Part → Part) : (s.updPart n p g).log = s.log := rfl
@[simp] theorem State.updPart_held (s : State) (n p : Nat) (g : Part → Part) : (s.updPart n p g).held = s.held := rfl
@[simp] theorem State.updPart_pushes (s : State) (n p : Nat) (g : Part → Part) : (s.updPart n p g).pushes = s.pushes := rfl
@[simp] theorem State.updPart_classes (s : State) (n p : Nat) (g : Part → Part) : (s.updPart n p g).classes = s.classes := rfl
@[simp] theorem State.updPart_ual (s : State) (n p : Nat) (g : Part → Part) : (s.updPart n p g).ual = s.ual := rfl
@[simp] theorem State.updPart_mbox (s : State) (n p : Nat) (g : Part → Part) : (s.updPart n p g).mbox = s.mbox := rfl
@[simp] theorem State.updPart_mgmt (s : State) (n p : Nat) (g : Part → Part) : (s.updPart n p g).mgmt = s.mgmt := rfl
@[simp] theorem State.updPart_codeGen (s : State) (n p : Nat) (g : Part → Part) : (s.updPart n p g).codeGen = s.codeGen := rfl
@[simp] theorem State.updPart_launchSeq (s : State) (n p : Nat) (g : Part → Part) : (s.updPart n p g).launchSeq = s.launchSeq := rfl
@[simp] theorem State.updPart_parkSeq (s : State) (n p : Nat) (g : Part → Part) : (s.updPart n p g).parkSeq = s.parkSeq := rfl
@[simp] theorem State.updPart_nextId (s : State) (n p : Nat) (g : Part → Part) : (s.updPart n p g).nextId = s.nextId := rfl
@[simp] theorem State.updPart_toEnqueue (s : State) (n p : Nat) (g : Part → Part) : (s.updPart n p g).toEnqueue = s.toEnqueue := rfl
@[simp] theorem State.updPart_pmapping (s : State) (n p : Nat) (g : Part → Part) : (s.updPart n p g).pmapping = s.pmapping := rfl
@[simp] theorem State.updPart_zeroed (s : State) (n p : Nat) (g : Part → Part) : (s.updPart n p g).zeroed = s.zeroed := rfl
@[simp] theorem State.updPart_strays (s : State) (n p : Nat) (g : Part → Part) : (s.updPart n p g).strays = s.strays := rfl
@[simp] theorem State.updPart_past (s : State) (n p : Nat) (g : Part → Part) : (s.updPart n p g).past = s.past := rfl
@[simp] theorem State.updPart_arFences (s : State) (n p : Nat) (g : Part → Part) : (s.updPart n p g).arFences = s.arFences := rfl
@[simp] theorem State.updPart_relFences (s : State) (n p : Nat) (g : Part → Part) : (s.updPart n p g).relFences = s.relFences := rfl
@[simp] theorem State.updPart_pubs (s : State) (n p : Nat) (g : Part → Part) : (s.updPart n p g).pubs = s.pubs := rfl
@[simp] theorem State.updPart_images (s : State) (n p : Nat) (g : Part → Part) : (s.updPart n p g).images = s.images := rfl
@[simp] theorem State.updPart_script (s : State) (n p : Nat) (g : Part → Part) : (s.updPart n p g).script = s.script := rfl
@[simp] theorem State.updPart_picks (s : State) (n p : Nat) (g : Part → Part) : (s.updPart n p g).picks = s.picks := rfl
@[simp] theorem State.updPart_cur (s : State) (n p : Nat) (g : Part → Part) : (s.updPart n p g).cur = s.cur := rfl
@[simp] theorem State.updPart_freeCtr (s : State) (n p : Nat) (g : Part → Part) : (s.updPart n p g).freeCtr = s.freeCtr := rfl

/-! ### updDie -/

@[simp] theorem State.updDie_tick (s : State) (d : Nat) (g : Die → Die) : (s.updDie d g).tick = s.tick := rfl
@[simp] theorem State.updDie_cycle (s : State) (d : Nat) (g : Die → Die) : (s.updDie d g).cycle = s.cycle := rfl
@[simp] theorem State.updDie_frac (s : State) (d : Nat) (g : Die → Die) : (s.updDie d g).frac = s.frac := rfl
@[simp] theorem State.updDie_tier1 (s : State) (d : Nat) (g : Die → Die) : (s.updDie d g).tier1 = s.tier1 := rfl
@[simp] theorem State.updDie_tier2 (s : State) (d : Nat) (g : Die → Die) : (s.updDie d g).tier2 = s.tier2 := rfl
@[simp] theorem State.updDie_host (s : State) (d : Nat) (g : Die → Die) : (s.updDie d g).host = s.host := rfl
@[simp] theorem State.updDie_poison1 (s : State) (d : Nat) (g : Die → Die) : (s.updDie d g).poison1 = s.poison1 := rfl
@[simp] theorem State.updDie_poison2 (s : State) (d : Nat) (g : Die → Die) : (s.updDie d g).poison2 = s.poison2 := rfl
@[simp] theorem State.updDie_poison3 (s : State) (d : Nat) (g : Die → Die) : (s.updDie d g).poison3 = s.poison3 := rfl
@[simp] theorem State.updDie_tcids (s : State) (d : Nat) (g : Die → Die) : (s.updDie d g).tcids = s.tcids := rfl
@[simp] theorem State.updDie_clayer (s : State) (d : Nat) (g : Die → Die) : (s.updDie d g).clayer = s.clayer := rfl
@[simp] theorem State.updDie_phases (s : State) (d : Nat) (g : Die → Die) : (s.updDie d g).phases = s.phases := rfl
@[simp] theorem State.updDie_areas (s : State) (d : Nat) (g : Die → Die) : (s.updDie d g).areas = s.areas := rfl
@[simp] theorem State.updDie_cores (s : State) (d : Nat) (g : Die → Die) : (s.updDie d g).cores = s.cores := rfl
@[simp] theorem State.updDie_launches (s : State) (d : Nat) (g : Die → Die) : (s.updDie d g).launches = s.launches := rfl
@[simp] theorem State.updDie_blocks (s : State) (d : Nat) (g : Die → Die) : (s.updDie d g).blocks = s.blocks := rfl
@[simp] theorem State.updDie_ctxs (s : State) (d : Nat) (g : Die → Die) : (s.updDie d g).ctxs = s.ctxs := rfl
@[simp] theorem State.updDie_walks (s : State) (d : Nat) (g : Die → Die) : (s.updDie d g).walks = s.walks := rfl
@[simp] theorem State.updDie_walkFaults (s : State) (d : Nat) (g : Die → Die) : (s.updDie d g).walkFaults = s.walkFaults := rfl
@[simp] theorem State.updDie_tlbis (s : State) (d : Nat) (g : Die → Die) : (s.updDie d g).tlbis = s.tlbis := rfl
@[simp] theorem State.updDie_stores (s : State) (d : Nat) (g : Die → Die) : (s.updDie d g).stores = s.stores := rfl
@[simp] theorem State.updDie_writeBacks (s : State) (d : Nat) (g : Die → Die) : (s.updDie d g).writeBacks = s.writeBacks := rfl
@[simp] theorem State.updDie_cmds (s : State) (d : Nat) (g : Die → Die) : (s.updDie d g).cmds = s.cmds := rfl
@[simp] theorem State.updDie_log (s : State) (d : Nat) (g : Die → Die) : (s.updDie d g).log = s.log := rfl
@[simp] theorem State.updDie_held (s : State) (d : Nat) (g : Die → Die) : (s.updDie d g).held = s.held := rfl
@[simp] theorem State.updDie_pushes (s : State) (d : Nat) (g : Die → Die) : (s.updDie d g).pushes = s.pushes := rfl
@[simp] theorem State.updDie_classes (s : State) (d : Nat) (g : Die → Die) : (s.updDie d g).classes = s.classes := rfl
@[simp] theorem State.updDie_ual (s : State) (d : Nat) (g : Die → Die) : (s.updDie d g).ual = s.ual := rfl
@[simp] theorem State.updDie_mbox (s : State) (d : Nat) (g : Die → Die) : (s.updDie d g).mbox = s.mbox := rfl
@[simp] theorem State.updDie_mgmt (s : State) (d : Nat) (g : Die → Die) : (s.updDie d g).mgmt = s.mgmt := rfl
@[simp] theorem State.updDie_codeGen (s : State) (d : Nat) (g : Die → Die) : (s.updDie d g).codeGen = s.codeGen := rfl
@[simp] theorem State.updDie_launchSeq (s : State) (d : Nat) (g : Die → Die) : (s.updDie d g).launchSeq = s.launchSeq := rfl
@[simp] theorem State.updDie_parkSeq (s : State) (d : Nat) (g : Die → Die) : (s.updDie d g).parkSeq = s.parkSeq := rfl
@[simp] theorem State.updDie_nextId (s : State) (d : Nat) (g : Die → Die) : (s.updDie d g).nextId = s.nextId := rfl
@[simp] theorem State.updDie_toEnqueue (s : State) (d : Nat) (g : Die → Die) : (s.updDie d g).toEnqueue = s.toEnqueue := rfl
@[simp] theorem State.updDie_pmapping (s : State) (d : Nat) (g : Die → Die) : (s.updDie d g).pmapping = s.pmapping := rfl
@[simp] theorem State.updDie_zeroed (s : State) (d : Nat) (g : Die → Die) : (s.updDie d g).zeroed = s.zeroed := rfl
@[simp] theorem State.updDie_strays (s : State) (d : Nat) (g : Die → Die) : (s.updDie d g).strays = s.strays := rfl
@[simp] theorem State.updDie_past (s : State) (d : Nat) (g : Die → Die) : (s.updDie d g).past = s.past := rfl
@[simp] theorem State.updDie_arFences (s : State) (d : Nat) (g : Die → Die) : (s.updDie d g).arFences = s.arFences := rfl
@[simp] theorem State.updDie_relFences (s : State) (d : Nat) (g : Die → Die) : (s.updDie d g).relFences = s.relFences := rfl
@[simp] theorem State.updDie_pubs (s : State) (d : Nat) (g : Die → Die) : (s.updDie d g).pubs = s.pubs := rfl
@[simp] theorem State.updDie_images (s : State) (d : Nat) (g : Die → Die) : (s.updDie d g).images = s.images := rfl
@[simp] theorem State.updDie_script (s : State) (d : Nat) (g : Die → Die) : (s.updDie d g).script = s.script := rfl
@[simp] theorem State.updDie_picks (s : State) (d : Nat) (g : Die → Die) : (s.updDie d g).picks = s.picks := rfl
@[simp] theorem State.updDie_cur (s : State) (d : Nat) (g : Die → Die) : (s.updDie d g).cur = s.cur := rfl
@[simp] theorem State.updDie_freeCtr (s : State) (d : Nat) (g : Die → Die) : (s.updDie d g).freeCtr = s.freeCtr := rfl

/-! ### setArea -/

@[simp] theorem State.setArea_tick (s : State) (t k : Nat) (x : Area) : (s.setArea t k x).tick = s.tick := rfl
@[simp] theorem State.setArea_cycle (s : State) (t k : Nat) (x : Area) : (s.setArea t k x).cycle = s.cycle := rfl
@[simp] theorem State.setArea_frac (s : State) (t k : Nat) (x : Area) : (s.setArea t k x).frac = s.frac := rfl
@[simp] theorem State.setArea_tier1 (s : State) (t k : Nat) (x : Area) : (s.setArea t k x).tier1 = s.tier1 := rfl
@[simp] theorem State.setArea_tier2 (s : State) (t k : Nat) (x : Area) : (s.setArea t k x).tier2 = s.tier2 := rfl
@[simp] theorem State.setArea_host (s : State) (t k : Nat) (x : Area) : (s.setArea t k x).host = s.host := rfl
@[simp] theorem State.setArea_poison1 (s : State) (t k : Nat) (x : Area) : (s.setArea t k x).poison1 = s.poison1 := rfl
@[simp] theorem State.setArea_poison2 (s : State) (t k : Nat) (x : Area) : (s.setArea t k x).poison2 = s.poison2 := rfl
@[simp] theorem State.setArea_poison3 (s : State) (t k : Nat) (x : Area) : (s.setArea t k x).poison3 = s.poison3 := rfl
@[simp] theorem State.setArea_tcids (s : State) (t k : Nat) (x : Area) : (s.setArea t k x).tcids = s.tcids := rfl
@[simp] theorem State.setArea_clayer (s : State) (t k : Nat) (x : Area) : (s.setArea t k x).clayer = s.clayer := rfl
@[simp] theorem State.setArea_phases (s : State) (t k : Nat) (x : Area) : (s.setArea t k x).phases = s.phases := rfl
@[simp] theorem State.setArea_dies (s : State) (t k : Nat) (x : Area) : (s.setArea t k x).dies = s.dies := rfl
@[simp] theorem State.setArea_cores (s : State) (t k : Nat) (x : Area) : (s.setArea t k x).cores = s.cores := rfl
@[simp] theorem State.setArea_launches (s : State) (t k : Nat) (x : Area) : (s.setArea t k x).launches = s.launches := rfl
@[simp] theorem State.setArea_blocks (s : State) (t k : Nat) (x : Area) : (s.setArea t k x).blocks = s.blocks := rfl
@[simp] theorem State.setArea_ctxs (s : State) (t k : Nat) (x : Area) : (s.setArea t k x).ctxs = s.ctxs := rfl
@[simp] theorem State.setArea_walks (s : State) (t k : Nat) (x : Area) : (s.setArea t k x).walks = s.walks := rfl
@[simp] theorem State.setArea_walkFaults (s : State) (t k : Nat) (x : Area) : (s.setArea t k x).walkFaults = s.walkFaults := rfl
@[simp] theorem State.setArea_tlbis (s : State) (t k : Nat) (x : Area) : (s.setArea t k x).tlbis = s.tlbis := rfl
@[simp] theorem State.setArea_stores (s : State) (t k : Nat) (x : Area) : (s.setArea t k x).stores = s.stores := rfl
@[simp] theorem State.setArea_writeBacks (s : State) (t k : Nat) (x : Area) : (s.setArea t k x).writeBacks = s.writeBacks := rfl
@[simp] theorem State.setArea_cmds (s : State) (t k : Nat) (x : Area) : (s.setArea t k x).cmds = s.cmds := rfl
@[simp] theorem State.setArea_log (s : State) (t k : Nat) (x : Area) : (s.setArea t k x).log = s.log := rfl
@[simp] theorem State.setArea_held (s : State) (t k : Nat) (x : Area) : (s.setArea t k x).held = s.held := rfl
@[simp] theorem State.setArea_pushes (s : State) (t k : Nat) (x : Area) : (s.setArea t k x).pushes = s.pushes := rfl
@[simp] theorem State.setArea_classes (s : State) (t k : Nat) (x : Area) : (s.setArea t k x).classes = s.classes := rfl
@[simp] theorem State.setArea_ual (s : State) (t k : Nat) (x : Area) : (s.setArea t k x).ual = s.ual := rfl
@[simp] theorem State.setArea_mbox (s : State) (t k : Nat) (x : Area) : (s.setArea t k x).mbox = s.mbox := rfl
@[simp] theorem State.setArea_mgmt (s : State) (t k : Nat) (x : Area) : (s.setArea t k x).mgmt = s.mgmt := rfl
@[simp] theorem State.setArea_codeGen (s : State) (t k : Nat) (x : Area) : (s.setArea t k x).codeGen = s.codeGen := rfl
@[simp] theorem State.setArea_launchSeq (s : State) (t k : Nat) (x : Area) : (s.setArea t k x).launchSeq = s.launchSeq := rfl
@[simp] theorem State.setArea_parkSeq (s : State) (t k : Nat) (x : Area) : (s.setArea t k x).parkSeq = s.parkSeq := rfl
@[simp] theorem State.setArea_nextId (s : State) (t k : Nat) (x : Area) : (s.setArea t k x).nextId = s.nextId := rfl
@[simp] theorem State.setArea_toEnqueue (s : State) (t k : Nat) (x : Area) : (s.setArea t k x).toEnqueue = s.toEnqueue := rfl
@[simp] theorem State.setArea_pmapping (s : State) (t k : Nat) (x : Area) : (s.setArea t k x).pmapping = s.pmapping := rfl
@[simp] theorem State.setArea_zeroed (s : State) (t k : Nat) (x : Area) : (s.setArea t k x).zeroed = s.zeroed := rfl
@[simp] theorem State.setArea_strays (s : State) (t k : Nat) (x : Area) : (s.setArea t k x).strays = s.strays := rfl
@[simp] theorem State.setArea_past (s : State) (t k : Nat) (x : Area) : (s.setArea t k x).past = s.past := rfl
@[simp] theorem State.setArea_arFences (s : State) (t k : Nat) (x : Area) : (s.setArea t k x).arFences = s.arFences := rfl
@[simp] theorem State.setArea_relFences (s : State) (t k : Nat) (x : Area) : (s.setArea t k x).relFences = s.relFences := rfl
@[simp] theorem State.setArea_pubs (s : State) (t k : Nat) (x : Area) : (s.setArea t k x).pubs = s.pubs := rfl
@[simp] theorem State.setArea_images (s : State) (t k : Nat) (x : Area) : (s.setArea t k x).images = s.images := rfl
@[simp] theorem State.setArea_script (s : State) (t k : Nat) (x : Area) : (s.setArea t k x).script = s.script := rfl
@[simp] theorem State.setArea_picks (s : State) (t k : Nat) (x : Area) : (s.setArea t k x).picks = s.picks := rfl
@[simp] theorem State.setArea_cur (s : State) (t k : Nat) (x : Area) : (s.setArea t k x).cur = s.cur := rfl
@[simp] theorem State.setArea_freeCtr (s : State) (t k : Nat) (x : Area) : (s.setArea t k x).freeCtr = s.freeCtr := rfl

/-! ### logError -/

@[simp] theorem State.logError_tick (s : State) (x : ErrRec) : (s.logError x).tick = s.tick := rfl
@[simp] theorem State.logError_cycle (s : State) (x : ErrRec) : (s.logError x).cycle = s.cycle := rfl
@[simp] theorem State.logError_frac (s : State) (x : ErrRec) : (s.logError x).frac = s.frac := rfl
@[simp] theorem State.logError_tier1 (s : State) (x : ErrRec) : (s.logError x).tier1 = s.tier1 := rfl
@[simp] theorem State.logError_tier2 (s : State) (x : ErrRec) : (s.logError x).tier2 = s.tier2 := rfl
@[simp] theorem State.logError_host (s : State) (x : ErrRec) : (s.logError x).host = s.host := rfl
@[simp] theorem State.logError_poison1 (s : State) (x : ErrRec) : (s.logError x).poison1 = s.poison1 := rfl
@[simp] theorem State.logError_poison2 (s : State) (x : ErrRec) : (s.logError x).poison2 = s.poison2 := rfl
@[simp] theorem State.logError_poison3 (s : State) (x : ErrRec) : (s.logError x).poison3 = s.poison3 := rfl
@[simp] theorem State.logError_tcids (s : State) (x : ErrRec) : (s.logError x).tcids = s.tcids := rfl
@[simp] theorem State.logError_clayer (s : State) (x : ErrRec) : (s.logError x).clayer = s.clayer := rfl
@[simp] theorem State.logError_phases (s : State) (x : ErrRec) : (s.logError x).phases = s.phases := rfl
@[simp] theorem State.logError_areas (s : State) (x : ErrRec) : (s.logError x).areas = s.areas := rfl
@[simp] theorem State.logError_dies (s : State) (x : ErrRec) : (s.logError x).dies = s.dies := rfl
@[simp] theorem State.logError_cores (s : State) (x : ErrRec) : (s.logError x).cores = s.cores := rfl
@[simp] theorem State.logError_launches (s : State) (x : ErrRec) : (s.logError x).launches = s.launches := rfl
@[simp] theorem State.logError_blocks (s : State) (x : ErrRec) : (s.logError x).blocks = s.blocks := rfl
@[simp] theorem State.logError_ctxs (s : State) (x : ErrRec) : (s.logError x).ctxs = s.ctxs := rfl
@[simp] theorem State.logError_walks (s : State) (x : ErrRec) : (s.logError x).walks = s.walks := rfl
@[simp] theorem State.logError_walkFaults (s : State) (x : ErrRec) : (s.logError x).walkFaults = s.walkFaults := rfl
@[simp] theorem State.logError_tlbis (s : State) (x : ErrRec) : (s.logError x).tlbis = s.tlbis := rfl
@[simp] theorem State.logError_stores (s : State) (x : ErrRec) : (s.logError x).stores = s.stores := rfl
@[simp] theorem State.logError_writeBacks (s : State) (x : ErrRec) : (s.logError x).writeBacks = s.writeBacks := rfl
@[simp] theorem State.logError_cmds (s : State) (x : ErrRec) : (s.logError x).cmds = s.cmds := rfl
@[simp] theorem State.logError_log (s : State) (x : ErrRec) : (s.logError x).log = s.log := rfl
@[simp] theorem State.logError_held (s : State) (x : ErrRec) : (s.logError x).held = s.held := rfl
@[simp] theorem State.logError_pushes (s : State) (x : ErrRec) : (s.logError x).pushes = s.pushes := rfl
@[simp] theorem State.logError_classes (s : State) (x : ErrRec) : (s.logError x).classes = s.classes := rfl
@[simp] theorem State.logError_ual (s : State) (x : ErrRec) : (s.logError x).ual = s.ual := rfl
@[simp] theorem State.logError_mbox (s : State) (x : ErrRec) : (s.logError x).mbox = s.mbox := rfl
@[simp] theorem State.logError_codeGen (s : State) (x : ErrRec) : (s.logError x).codeGen = s.codeGen := rfl
@[simp] theorem State.logError_launchSeq (s : State) (x : ErrRec) : (s.logError x).launchSeq = s.launchSeq := rfl
@[simp] theorem State.logError_parkSeq (s : State) (x : ErrRec) : (s.logError x).parkSeq = s.parkSeq := rfl
@[simp] theorem State.logError_nextId (s : State) (x : ErrRec) : (s.logError x).nextId = s.nextId := rfl
@[simp] theorem State.logError_toEnqueue (s : State) (x : ErrRec) : (s.logError x).toEnqueue = s.toEnqueue := rfl
@[simp] theorem State.logError_pmapping (s : State) (x : ErrRec) : (s.logError x).pmapping = s.pmapping := rfl
@[simp] theorem State.logError_zeroed (s : State) (x : ErrRec) : (s.logError x).zeroed = s.zeroed := rfl
@[simp] theorem State.logError_strays (s : State) (x : ErrRec) : (s.logError x).strays = s.strays := rfl
@[simp] theorem State.logError_past (s : State) (x : ErrRec) : (s.logError x).past = s.past := rfl
@[simp] theorem State.logError_arFences (s : State) (x : ErrRec) : (s.logError x).arFences = s.arFences := rfl
@[simp] theorem State.logError_relFences (s : State) (x : ErrRec) : (s.logError x).relFences = s.relFences := rfl
@[simp] theorem State.logError_pubs (s : State) (x : ErrRec) : (s.logError x).pubs = s.pubs := rfl
@[simp] theorem State.logError_images (s : State) (x : ErrRec) : (s.logError x).images = s.images := rfl
@[simp] theorem State.logError_script (s : State) (x : ErrRec) : (s.logError x).script = s.script := rfl
@[simp] theorem State.logError_picks (s : State) (x : ErrRec) : (s.logError x).picks = s.picks := rfl
@[simp] theorem State.logError_cur (s : State) (x : ErrRec) : (s.logError x).cur = s.cur := rfl
@[simp] theorem State.logError_freeCtr (s : State) (x : ErrRec) : (s.logError x).freeCtr = s.freeCtr := rfl

/-! ### knowAll -/

@[simp] theorem State.knowAll_tick (s : State) (r : FragRef) : (s.knowAll r).tick = s.tick := rfl
@[simp] theorem State.knowAll_cycle (s : State) (r : FragRef) : (s.knowAll r).cycle = s.cycle := rfl
@[simp] theorem State.knowAll_frac (s : State) (r : FragRef) : (s.knowAll r).frac = s.frac := rfl
@[simp] theorem State.knowAll_tier1 (s : State) (r : FragRef) : (s.knowAll r).tier1 = s.tier1 := rfl
@[simp] theorem State.knowAll_tier2 (s : State) (r : FragRef) : (s.knowAll r).tier2 = s.tier2 := rfl
@[simp] theorem State.knowAll_host (s : State) (r : FragRef) : (s.knowAll r).host = s.host := rfl
@[simp] theorem State.knowAll_poison1 (s : State) (r : FragRef) : (s.knowAll r).poison1 = s.poison1 := rfl
@[simp] theorem State.knowAll_poison2 (s : State) (r : FragRef) : (s.knowAll r).poison2 = s.poison2 := rfl
@[simp] theorem State.knowAll_poison3 (s : State) (r : FragRef) : (s.knowAll r).poison3 = s.poison3 := rfl
@[simp] theorem State.knowAll_tcids (s : State) (r : FragRef) : (s.knowAll r).tcids = s.tcids := rfl
@[simp] theorem State.knowAll_clayer (s : State) (r : FragRef) : (s.knowAll r).clayer = s.clayer := rfl
@[simp] theorem State.knowAll_phases (s : State) (r : FragRef) : (s.knowAll r).phases = s.phases := rfl
@[simp] theorem State.knowAll_areas (s : State) (r : FragRef) : (s.knowAll r).areas = s.areas := rfl
@[simp] theorem State.knowAll_dies (s : State) (r : FragRef) : (s.knowAll r).dies = s.dies := rfl
@[simp] theorem State.knowAll_cores (s : State) (r : FragRef) : (s.knowAll r).cores = s.cores := rfl
@[simp] theorem State.knowAll_launches (s : State) (r : FragRef) : (s.knowAll r).launches = s.launches := rfl
@[simp] theorem State.knowAll_blocks (s : State) (r : FragRef) : (s.knowAll r).blocks = s.blocks := rfl
@[simp] theorem State.knowAll_walks (s : State) (r : FragRef) : (s.knowAll r).walks = s.walks := rfl
@[simp] theorem State.knowAll_walkFaults (s : State) (r : FragRef) : (s.knowAll r).walkFaults = s.walkFaults := rfl
@[simp] theorem State.knowAll_tlbis (s : State) (r : FragRef) : (s.knowAll r).tlbis = s.tlbis := rfl
@[simp] theorem State.knowAll_stores (s : State) (r : FragRef) : (s.knowAll r).stores = s.stores := rfl
@[simp] theorem State.knowAll_writeBacks (s : State) (r : FragRef) : (s.knowAll r).writeBacks = s.writeBacks := rfl
@[simp] theorem State.knowAll_cmds (s : State) (r : FragRef) : (s.knowAll r).cmds = s.cmds := rfl
@[simp] theorem State.knowAll_log (s : State) (r : FragRef) : (s.knowAll r).log = s.log := rfl
@[simp] theorem State.knowAll_held (s : State) (r : FragRef) : (s.knowAll r).held = s.held := rfl
@[simp] theorem State.knowAll_pushes (s : State) (r : FragRef) : (s.knowAll r).pushes = s.pushes := rfl
@[simp] theorem State.knowAll_classes (s : State) (r : FragRef) : (s.knowAll r).classes = s.classes := rfl
@[simp] theorem State.knowAll_ual (s : State) (r : FragRef) : (s.knowAll r).ual = s.ual := rfl
@[simp] theorem State.knowAll_mbox (s : State) (r : FragRef) : (s.knowAll r).mbox = s.mbox := rfl
@[simp] theorem State.knowAll_mgmt (s : State) (r : FragRef) : (s.knowAll r).mgmt = s.mgmt := rfl
@[simp] theorem State.knowAll_codeGen (s : State) (r : FragRef) : (s.knowAll r).codeGen = s.codeGen := rfl
@[simp] theorem State.knowAll_launchSeq (s : State) (r : FragRef) : (s.knowAll r).launchSeq = s.launchSeq := rfl
@[simp] theorem State.knowAll_parkSeq (s : State) (r : FragRef) : (s.knowAll r).parkSeq = s.parkSeq := rfl
@[simp] theorem State.knowAll_nextId (s : State) (r : FragRef) : (s.knowAll r).nextId = s.nextId := rfl
@[simp] theorem State.knowAll_toEnqueue (s : State) (r : FragRef) : (s.knowAll r).toEnqueue = s.toEnqueue := rfl
@[simp] theorem State.knowAll_pmapping (s : State) (r : FragRef) : (s.knowAll r).pmapping = s.pmapping := rfl
@[simp] theorem State.knowAll_zeroed (s : State) (r : FragRef) : (s.knowAll r).zeroed = s.zeroed := rfl
@[simp] theorem State.knowAll_strays (s : State) (r : FragRef) : (s.knowAll r).strays = s.strays := rfl
@[simp] theorem State.knowAll_past (s : State) (r : FragRef) : (s.knowAll r).past = s.past := rfl
@[simp] theorem State.knowAll_arFences (s : State) (r : FragRef) : (s.knowAll r).arFences = s.arFences := rfl
@[simp] theorem State.knowAll_relFences (s : State) (r : FragRef) : (s.knowAll r).relFences = s.relFences := rfl
@[simp] theorem State.knowAll_pubs (s : State) (r : FragRef) : (s.knowAll r).pubs = s.pubs := rfl
@[simp] theorem State.knowAll_images (s : State) (r : FragRef) : (s.knowAll r).images = s.images := rfl
@[simp] theorem State.knowAll_script (s : State) (r : FragRef) : (s.knowAll r).script = s.script := rfl
@[simp] theorem State.knowAll_picks (s : State) (r : FragRef) : (s.knowAll r).picks = s.picks := rfl
@[simp] theorem State.knowAll_cur (s : State) (r : FragRef) : (s.knowAll r).cur = s.cur := rfl
@[simp] theorem State.knowAll_freeCtr (s : State) (r : FragRef) : (s.knowAll r).freeCtr = s.freeCtr := rfl

/-! ### saw -/

@[simp] theorem State.saw_tick (s : State) (r : FragRef) (acq : Option Scope) (x : Sight) : (s.saw r acq x).tick = s.tick := rfl
@[simp] theorem State.saw_cycle (s : State) (r : FragRef) (acq : Option Scope) (x : Sight) : (s.saw r acq x).cycle = s.cycle := rfl
@[simp] theorem State.saw_frac (s : State) (r : FragRef) (acq : Option Scope) (x : Sight) : (s.saw r acq x).frac = s.frac := rfl
@[simp] theorem State.saw_tier1 (s : State) (r : FragRef) (acq : Option Scope) (x : Sight) : (s.saw r acq x).tier1 = s.tier1 := rfl
@[simp] theorem State.saw_tier2 (s : State) (r : FragRef) (acq : Option Scope) (x : Sight) : (s.saw r acq x).tier2 = s.tier2 := rfl
@[simp] theorem State.saw_host (s : State) (r : FragRef) (acq : Option Scope) (x : Sight) : (s.saw r acq x).host = s.host := rfl
@[simp] theorem State.saw_poison1 (s : State) (r : FragRef) (acq : Option Scope) (x : Sight) : (s.saw r acq x).poison1 = s.poison1 := rfl
@[simp] theorem State.saw_poison2 (s : State) (r : FragRef) (acq : Option Scope) (x : Sight) : (s.saw r acq x).poison2 = s.poison2 := rfl
@[simp] theorem State.saw_poison3 (s : State) (r : FragRef) (acq : Option Scope) (x : Sight) : (s.saw r acq x).poison3 = s.poison3 := rfl
@[simp] theorem State.saw_tcids (s : State) (r : FragRef) (acq : Option Scope) (x : Sight) : (s.saw r acq x).tcids = s.tcids := rfl
@[simp] theorem State.saw_clayer (s : State) (r : FragRef) (acq : Option Scope) (x : Sight) : (s.saw r acq x).clayer = s.clayer := rfl
@[simp] theorem State.saw_phases (s : State) (r : FragRef) (acq : Option Scope) (x : Sight) : (s.saw r acq x).phases = s.phases := rfl
@[simp] theorem State.saw_areas (s : State) (r : FragRef) (acq : Option Scope) (x : Sight) : (s.saw r acq x).areas = s.areas := rfl
@[simp] theorem State.saw_dies (s : State) (r : FragRef) (acq : Option Scope) (x : Sight) : (s.saw r acq x).dies = s.dies := rfl
@[simp] theorem State.saw_cores (s : State) (r : FragRef) (acq : Option Scope) (x : Sight) : (s.saw r acq x).cores = s.cores := rfl
@[simp] theorem State.saw_launches (s : State) (r : FragRef) (acq : Option Scope) (x : Sight) : (s.saw r acq x).launches = s.launches := rfl
@[simp] theorem State.saw_blocks (s : State) (r : FragRef) (acq : Option Scope) (x : Sight) : (s.saw r acq x).blocks = s.blocks := rfl
@[simp] theorem State.saw_walks (s : State) (r : FragRef) (acq : Option Scope) (x : Sight) : (s.saw r acq x).walks = s.walks := rfl
@[simp] theorem State.saw_walkFaults (s : State) (r : FragRef) (acq : Option Scope) (x : Sight) : (s.saw r acq x).walkFaults = s.walkFaults := rfl
@[simp] theorem State.saw_tlbis (s : State) (r : FragRef) (acq : Option Scope) (x : Sight) : (s.saw r acq x).tlbis = s.tlbis := rfl
@[simp] theorem State.saw_stores (s : State) (r : FragRef) (acq : Option Scope) (x : Sight) : (s.saw r acq x).stores = s.stores := rfl
@[simp] theorem State.saw_writeBacks (s : State) (r : FragRef) (acq : Option Scope) (x : Sight) : (s.saw r acq x).writeBacks = s.writeBacks := rfl
@[simp] theorem State.saw_cmds (s : State) (r : FragRef) (acq : Option Scope) (x : Sight) : (s.saw r acq x).cmds = s.cmds := rfl
@[simp] theorem State.saw_log (s : State) (r : FragRef) (acq : Option Scope) (x : Sight) : (s.saw r acq x).log = s.log := rfl
@[simp] theorem State.saw_held (s : State) (r : FragRef) (acq : Option Scope) (x : Sight) : (s.saw r acq x).held = s.held := rfl
@[simp] theorem State.saw_pushes (s : State) (r : FragRef) (acq : Option Scope) (x : Sight) : (s.saw r acq x).pushes = s.pushes := rfl
@[simp] theorem State.saw_classes (s : State) (r : FragRef) (acq : Option Scope) (x : Sight) : (s.saw r acq x).classes = s.classes := rfl
@[simp] theorem State.saw_ual (s : State) (r : FragRef) (acq : Option Scope) (x : Sight) : (s.saw r acq x).ual = s.ual := rfl
@[simp] theorem State.saw_mbox (s : State) (r : FragRef) (acq : Option Scope) (x : Sight) : (s.saw r acq x).mbox = s.mbox := rfl
@[simp] theorem State.saw_mgmt (s : State) (r : FragRef) (acq : Option Scope) (x : Sight) : (s.saw r acq x).mgmt = s.mgmt := rfl
@[simp] theorem State.saw_codeGen (s : State) (r : FragRef) (acq : Option Scope) (x : Sight) : (s.saw r acq x).codeGen = s.codeGen := rfl
@[simp] theorem State.saw_launchSeq (s : State) (r : FragRef) (acq : Option Scope) (x : Sight) : (s.saw r acq x).launchSeq = s.launchSeq := rfl
@[simp] theorem State.saw_parkSeq (s : State) (r : FragRef) (acq : Option Scope) (x : Sight) : (s.saw r acq x).parkSeq = s.parkSeq := rfl
@[simp] theorem State.saw_nextId (s : State) (r : FragRef) (acq : Option Scope) (x : Sight) : (s.saw r acq x).nextId = s.nextId := rfl
@[simp] theorem State.saw_toEnqueue (s : State) (r : FragRef) (acq : Option Scope) (x : Sight) : (s.saw r acq x).toEnqueue = s.toEnqueue := rfl
@[simp] theorem State.saw_pmapping (s : State) (r : FragRef) (acq : Option Scope) (x : Sight) : (s.saw r acq x).pmapping = s.pmapping := rfl
@[simp] theorem State.saw_zeroed (s : State) (r : FragRef) (acq : Option Scope) (x : Sight) : (s.saw r acq x).zeroed = s.zeroed := rfl
@[simp] theorem State.saw_strays (s : State) (r : FragRef) (acq : Option Scope) (x : Sight) : (s.saw r acq x).strays = s.strays := rfl
@[simp] theorem State.saw_past (s : State) (r : FragRef) (acq : Option Scope) (x : Sight) : (s.saw r acq x).past = s.past := rfl
@[simp] theorem State.saw_arFences (s : State) (r : FragRef) (acq : Option Scope) (x : Sight) : (s.saw r acq x).arFences = s.arFences := rfl
@[simp] theorem State.saw_relFences (s : State) (r : FragRef) (acq : Option Scope) (x : Sight) : (s.saw r acq x).relFences = s.relFences := rfl
@[simp] theorem State.saw_pubs (s : State) (r : FragRef) (acq : Option Scope) (x : Sight) : (s.saw r acq x).pubs = s.pubs := rfl
@[simp] theorem State.saw_images (s : State) (r : FragRef) (acq : Option Scope) (x : Sight) : (s.saw r acq x).images = s.images := rfl
@[simp] theorem State.saw_script (s : State) (r : FragRef) (acq : Option Scope) (x : Sight) : (s.saw r acq x).script = s.script := rfl
@[simp] theorem State.saw_picks (s : State) (r : FragRef) (acq : Option Scope) (x : Sight) : (s.saw r acq x).picks = s.picks := rfl
@[simp] theorem State.saw_cur (s : State) (r : FragRef) (acq : Option Scope) (x : Sight) : (s.saw r acq x).cur = s.cur := rfl
@[simp] theorem State.saw_freeCtr (s : State) (r : FragRef) (acq : Option Scope) (x : Sight) : (s.saw r acq x).freeCtr = s.freeCtr := rfl

/-! ### anew -/

@[simp] theorem State.anew_tick (s : State) (m : MemSpace) (a n : Nat) : (s.anew m a n).tick = s.tick := rfl
@[simp] theorem State.anew_cycle (s : State) (m : MemSpace) (a n : Nat) : (s.anew m a n).cycle = s.cycle := rfl
@[simp] theorem State.anew_frac (s : State) (m : MemSpace) (a n : Nat) : (s.anew m a n).frac = s.frac := rfl
@[simp] theorem State.anew_tier1 (s : State) (m : MemSpace) (a n : Nat) : (s.anew m a n).tier1 = s.tier1 := rfl
@[simp] theorem State.anew_tier2 (s : State) (m : MemSpace) (a n : Nat) : (s.anew m a n).tier2 = s.tier2 := rfl
@[simp] theorem State.anew_host (s : State) (m : MemSpace) (a n : Nat) : (s.anew m a n).host = s.host := rfl
@[simp] theorem State.anew_poison1 (s : State) (m : MemSpace) (a n : Nat) : (s.anew m a n).poison1 = s.poison1 := rfl
@[simp] theorem State.anew_poison2 (s : State) (m : MemSpace) (a n : Nat) : (s.anew m a n).poison2 = s.poison2 := rfl
@[simp] theorem State.anew_poison3 (s : State) (m : MemSpace) (a n : Nat) : (s.anew m a n).poison3 = s.poison3 := rfl
@[simp] theorem State.anew_tcids (s : State) (m : MemSpace) (a n : Nat) : (s.anew m a n).tcids = s.tcids := rfl
@[simp] theorem State.anew_clayer (s : State) (m : MemSpace) (a n : Nat) : (s.anew m a n).clayer = s.clayer := rfl
@[simp] theorem State.anew_phases (s : State) (m : MemSpace) (a n : Nat) : (s.anew m a n).phases = s.phases := rfl
@[simp] theorem State.anew_areas (s : State) (m : MemSpace) (a n : Nat) : (s.anew m a n).areas = s.areas := rfl
@[simp] theorem State.anew_dies (s : State) (m : MemSpace) (a n : Nat) : (s.anew m a n).dies = s.dies := rfl
@[simp] theorem State.anew_cores (s : State) (m : MemSpace) (a n : Nat) : (s.anew m a n).cores = s.cores := rfl
@[simp] theorem State.anew_launches (s : State) (m : MemSpace) (a n : Nat) : (s.anew m a n).launches = s.launches := rfl
@[simp] theorem State.anew_blocks (s : State) (m : MemSpace) (a n : Nat) : (s.anew m a n).blocks = s.blocks := rfl
@[simp] theorem State.anew_ctxs (s : State) (m : MemSpace) (a n : Nat) : (s.anew m a n).ctxs = s.ctxs := rfl
@[simp] theorem State.anew_walks (s : State) (m : MemSpace) (a n : Nat) : (s.anew m a n).walks = s.walks := rfl
@[simp] theorem State.anew_walkFaults (s : State) (m : MemSpace) (a n : Nat) : (s.anew m a n).walkFaults = s.walkFaults := rfl
@[simp] theorem State.anew_tlbis (s : State) (m : MemSpace) (a n : Nat) : (s.anew m a n).tlbis = s.tlbis := rfl
@[simp] theorem State.anew_stores (s : State) (m : MemSpace) (a n : Nat) : (s.anew m a n).stores = s.stores := rfl
@[simp] theorem State.anew_writeBacks (s : State) (m : MemSpace) (a n : Nat) : (s.anew m a n).writeBacks = s.writeBacks := rfl
@[simp] theorem State.anew_cmds (s : State) (m : MemSpace) (a n : Nat) : (s.anew m a n).cmds = s.cmds := rfl
@[simp] theorem State.anew_log (s : State) (m : MemSpace) (a n : Nat) : (s.anew m a n).log = s.log := rfl
@[simp] theorem State.anew_held (s : State) (m : MemSpace) (a n : Nat) : (s.anew m a n).held = s.held := rfl
@[simp] theorem State.anew_pushes (s : State) (m : MemSpace) (a n : Nat) : (s.anew m a n).pushes = s.pushes := rfl
@[simp] theorem State.anew_classes (s : State) (m : MemSpace) (a n : Nat) : (s.anew m a n).classes = s.classes := rfl
@[simp] theorem State.anew_ual (s : State) (m : MemSpace) (a n : Nat) : (s.anew m a n).ual = s.ual := rfl
@[simp] theorem State.anew_mbox (s : State) (m : MemSpace) (a n : Nat) : (s.anew m a n).mbox = s.mbox := rfl
@[simp] theorem State.anew_mgmt (s : State) (m : MemSpace) (a n : Nat) : (s.anew m a n).mgmt = s.mgmt := rfl
@[simp] theorem State.anew_codeGen (s : State) (m : MemSpace) (a n : Nat) : (s.anew m a n).codeGen = s.codeGen := rfl
@[simp] theorem State.anew_launchSeq (s : State) (m : MemSpace) (a n : Nat) : (s.anew m a n).launchSeq = s.launchSeq := rfl
@[simp] theorem State.anew_parkSeq (s : State) (m : MemSpace) (a n : Nat) : (s.anew m a n).parkSeq = s.parkSeq := rfl
@[simp] theorem State.anew_nextId (s : State) (m : MemSpace) (a n : Nat) : (s.anew m a n).nextId = s.nextId := rfl
@[simp] theorem State.anew_toEnqueue (s : State) (m : MemSpace) (a n : Nat) : (s.anew m a n).toEnqueue = s.toEnqueue := rfl
@[simp] theorem State.anew_pmapping (s : State) (m : MemSpace) (a n : Nat) : (s.anew m a n).pmapping = s.pmapping := rfl
@[simp] theorem State.anew_zeroed (s : State) (m : MemSpace) (a n : Nat) : (s.anew m a n).zeroed = s.zeroed := rfl
@[simp] theorem State.anew_strays (s : State) (m : MemSpace) (a n : Nat) : (s.anew m a n).strays = s.strays := rfl
@[simp] theorem State.anew_arFences (s : State) (m : MemSpace) (a n : Nat) : (s.anew m a n).arFences = s.arFences := rfl
@[simp] theorem State.anew_relFences (s : State) (m : MemSpace) (a n : Nat) : (s.anew m a n).relFences = s.relFences := rfl
@[simp] theorem State.anew_pubs (s : State) (m : MemSpace) (a n : Nat) : (s.anew m a n).pubs = s.pubs := rfl
@[simp] theorem State.anew_images (s : State) (m : MemSpace) (a n : Nat) : (s.anew m a n).images = s.images := rfl
@[simp] theorem State.anew_script (s : State) (m : MemSpace) (a n : Nat) : (s.anew m a n).script = s.script := rfl
@[simp] theorem State.anew_picks (s : State) (m : MemSpace) (a n : Nat) : (s.anew m a n).picks = s.picks := rfl
@[simp] theorem State.anew_cur (s : State) (m : MemSpace) (a n : Nat) : (s.anew m a n).cur = s.cur := rfl
@[simp] theorem State.anew_freeCtr (s : State) (m : MemSpace) (a n : Nat) : (s.anew m a n).freeCtr = s.freeCtr := rfl

/-! ### wroteOver -/

@[simp] theorem State.wroteOver_tick (s : State) (w : Writer) (m : MemSpace) (a : Nat) (old : List Byte) : (s.wroteOver w m a old).tick = s.tick := rfl
@[simp] theorem State.wroteOver_cycle (s : State) (w : Writer) (m : MemSpace) (a : Nat) (old : List Byte) : (s.wroteOver w m a old).cycle = s.cycle := rfl
@[simp] theorem State.wroteOver_frac (s : State) (w : Writer) (m : MemSpace) (a : Nat) (old : List Byte) : (s.wroteOver w m a old).frac = s.frac := rfl
@[simp] theorem State.wroteOver_tier1 (s : State) (w : Writer) (m : MemSpace) (a : Nat) (old : List Byte) : (s.wroteOver w m a old).tier1 = s.tier1 := rfl
@[simp] theorem State.wroteOver_tier2 (s : State) (w : Writer) (m : MemSpace) (a : Nat) (old : List Byte) : (s.wroteOver w m a old).tier2 = s.tier2 := rfl
@[simp] theorem State.wroteOver_host (s : State) (w : Writer) (m : MemSpace) (a : Nat) (old : List Byte) : (s.wroteOver w m a old).host = s.host := rfl
@[simp] theorem State.wroteOver_poison1 (s : State) (w : Writer) (m : MemSpace) (a : Nat) (old : List Byte) : (s.wroteOver w m a old).poison1 = s.poison1 := rfl
@[simp] theorem State.wroteOver_poison2 (s : State) (w : Writer) (m : MemSpace) (a : Nat) (old : List Byte) : (s.wroteOver w m a old).poison2 = s.poison2 := rfl
@[simp] theorem State.wroteOver_poison3 (s : State) (w : Writer) (m : MemSpace) (a : Nat) (old : List Byte) : (s.wroteOver w m a old).poison3 = s.poison3 := rfl
@[simp] theorem State.wroteOver_tcids (s : State) (w : Writer) (m : MemSpace) (a : Nat) (old : List Byte) : (s.wroteOver w m a old).tcids = s.tcids := rfl
@[simp] theorem State.wroteOver_clayer (s : State) (w : Writer) (m : MemSpace) (a : Nat) (old : List Byte) : (s.wroteOver w m a old).clayer = s.clayer := rfl
@[simp] theorem State.wroteOver_phases (s : State) (w : Writer) (m : MemSpace) (a : Nat) (old : List Byte) : (s.wroteOver w m a old).phases = s.phases := rfl
@[simp] theorem State.wroteOver_areas (s : State) (w : Writer) (m : MemSpace) (a : Nat) (old : List Byte) : (s.wroteOver w m a old).areas = s.areas := rfl
@[simp] theorem State.wroteOver_dies (s : State) (w : Writer) (m : MemSpace) (a : Nat) (old : List Byte) : (s.wroteOver w m a old).dies = s.dies := rfl
@[simp] theorem State.wroteOver_cores (s : State) (w : Writer) (m : MemSpace) (a : Nat) (old : List Byte) : (s.wroteOver w m a old).cores = s.cores := rfl
@[simp] theorem State.wroteOver_launches (s : State) (w : Writer) (m : MemSpace) (a : Nat) (old : List Byte) : (s.wroteOver w m a old).launches = s.launches := rfl
@[simp] theorem State.wroteOver_blocks (s : State) (w : Writer) (m : MemSpace) (a : Nat) (old : List Byte) : (s.wroteOver w m a old).blocks = s.blocks := rfl
@[simp] theorem State.wroteOver_walks (s : State) (w : Writer) (m : MemSpace) (a : Nat) (old : List Byte) : (s.wroteOver w m a old).walks = s.walks := rfl
@[simp] theorem State.wroteOver_walkFaults (s : State) (w : Writer) (m : MemSpace) (a : Nat) (old : List Byte) : (s.wroteOver w m a old).walkFaults = s.walkFaults := rfl
@[simp] theorem State.wroteOver_tlbis (s : State) (w : Writer) (m : MemSpace) (a : Nat) (old : List Byte) : (s.wroteOver w m a old).tlbis = s.tlbis := rfl
@[simp] theorem State.wroteOver_stores (s : State) (w : Writer) (m : MemSpace) (a : Nat) (old : List Byte) : (s.wroteOver w m a old).stores = s.stores := rfl
@[simp] theorem State.wroteOver_writeBacks (s : State) (w : Writer) (m : MemSpace) (a : Nat) (old : List Byte) : (s.wroteOver w m a old).writeBacks = s.writeBacks := rfl
@[simp] theorem State.wroteOver_cmds (s : State) (w : Writer) (m : MemSpace) (a : Nat) (old : List Byte) : (s.wroteOver w m a old).cmds = s.cmds := rfl
@[simp] theorem State.wroteOver_log (s : State) (w : Writer) (m : MemSpace) (a : Nat) (old : List Byte) : (s.wroteOver w m a old).log = s.log := rfl
@[simp] theorem State.wroteOver_held (s : State) (w : Writer) (m : MemSpace) (a : Nat) (old : List Byte) : (s.wroteOver w m a old).held = s.held := rfl
@[simp] theorem State.wroteOver_pushes (s : State) (w : Writer) (m : MemSpace) (a : Nat) (old : List Byte) : (s.wroteOver w m a old).pushes = s.pushes := rfl
@[simp] theorem State.wroteOver_classes (s : State) (w : Writer) (m : MemSpace) (a : Nat) (old : List Byte) : (s.wroteOver w m a old).classes = s.classes := rfl
@[simp] theorem State.wroteOver_ual (s : State) (w : Writer) (m : MemSpace) (a : Nat) (old : List Byte) : (s.wroteOver w m a old).ual = s.ual := rfl
@[simp] theorem State.wroteOver_mbox (s : State) (w : Writer) (m : MemSpace) (a : Nat) (old : List Byte) : (s.wroteOver w m a old).mbox = s.mbox := rfl
@[simp] theorem State.wroteOver_mgmt (s : State) (w : Writer) (m : MemSpace) (a : Nat) (old : List Byte) : (s.wroteOver w m a old).mgmt = s.mgmt := rfl
@[simp] theorem State.wroteOver_codeGen (s : State) (w : Writer) (m : MemSpace) (a : Nat) (old : List Byte) : (s.wroteOver w m a old).codeGen = s.codeGen := rfl
@[simp] theorem State.wroteOver_launchSeq (s : State) (w : Writer) (m : MemSpace) (a : Nat) (old : List Byte) : (s.wroteOver w m a old).launchSeq = s.launchSeq := rfl
@[simp] theorem State.wroteOver_parkSeq (s : State) (w : Writer) (m : MemSpace) (a : Nat) (old : List Byte) : (s.wroteOver w m a old).parkSeq = s.parkSeq := rfl
@[simp] theorem State.wroteOver_nextId (s : State) (w : Writer) (m : MemSpace) (a : Nat) (old : List Byte) : (s.wroteOver w m a old).nextId = s.nextId := rfl
@[simp] theorem State.wroteOver_toEnqueue (s : State) (w : Writer) (m : MemSpace) (a : Nat) (old : List Byte) : (s.wroteOver w m a old).toEnqueue = s.toEnqueue := rfl
@[simp] theorem State.wroteOver_pmapping (s : State) (w : Writer) (m : MemSpace) (a : Nat) (old : List Byte) : (s.wroteOver w m a old).pmapping = s.pmapping := rfl
@[simp] theorem State.wroteOver_zeroed (s : State) (w : Writer) (m : MemSpace) (a : Nat) (old : List Byte) : (s.wroteOver w m a old).zeroed = s.zeroed := rfl
@[simp] theorem State.wroteOver_strays (s : State) (w : Writer) (m : MemSpace) (a : Nat) (old : List Byte) : (s.wroteOver w m a old).strays = s.strays := rfl
@[simp] theorem State.wroteOver_arFences (s : State) (w : Writer) (m : MemSpace) (a : Nat) (old : List Byte) : (s.wroteOver w m a old).arFences = s.arFences := rfl
@[simp] theorem State.wroteOver_relFences (s : State) (w : Writer) (m : MemSpace) (a : Nat) (old : List Byte) : (s.wroteOver w m a old).relFences = s.relFences := rfl
@[simp] theorem State.wroteOver_pubs (s : State) (w : Writer) (m : MemSpace) (a : Nat) (old : List Byte) : (s.wroteOver w m a old).pubs = s.pubs := rfl
@[simp] theorem State.wroteOver_images (s : State) (w : Writer) (m : MemSpace) (a : Nat) (old : List Byte) : (s.wroteOver w m a old).images = s.images := rfl
@[simp] theorem State.wroteOver_script (s : State) (w : Writer) (m : MemSpace) (a : Nat) (old : List Byte) : (s.wroteOver w m a old).script = s.script := rfl
@[simp] theorem State.wroteOver_picks (s : State) (w : Writer) (m : MemSpace) (a : Nat) (old : List Byte) : (s.wroteOver w m a old).picks = s.picks := rfl
@[simp] theorem State.wroteOver_cur (s : State) (w : Writer) (m : MemSpace) (a : Nat) (old : List Byte) : (s.wroteOver w m a old).cur = s.cur := rfl
@[simp] theorem State.wroteOver_freeCtr (s : State) (w : Writer) (m : MemSpace) (a : Nat) (old : List Byte) : (s.wroteOver w m a old).freeCtr = s.freeCtr := rfl

/-! ### wakeSpins -/

@[simp] theorem State.wakeSpins_tick (s : State) (own : Option Agent) (m : MemSpace) (a n : Nat) : (s.wakeSpins own m a n).tick = s.tick := rfl
@[simp] theorem State.wakeSpins_cycle (s : State) (own : Option Agent) (m : MemSpace) (a n : Nat) : (s.wakeSpins own m a n).cycle = s.cycle := rfl
@[simp] theorem State.wakeSpins_frac (s : State) (own : Option Agent) (m : MemSpace) (a n : Nat) : (s.wakeSpins own m a n).frac = s.frac := rfl
@[simp] theorem State.wakeSpins_tier1 (s : State) (own : Option Agent) (m : MemSpace) (a n : Nat) : (s.wakeSpins own m a n).tier1 = s.tier1 := rfl
@[simp] theorem State.wakeSpins_tier2 (s : State) (own : Option Agent) (m : MemSpace) (a n : Nat) : (s.wakeSpins own m a n).tier2 = s.tier2 := rfl
@[simp] theorem State.wakeSpins_host (s : State) (own : Option Agent) (m : MemSpace) (a n : Nat) : (s.wakeSpins own m a n).host = s.host := rfl
@[simp] theorem State.wakeSpins_poison1 (s : State) (own : Option Agent) (m : MemSpace) (a n : Nat) : (s.wakeSpins own m a n).poison1 = s.poison1 := rfl
@[simp] theorem State.wakeSpins_poison2 (s : State) (own : Option Agent) (m : MemSpace) (a n : Nat) : (s.wakeSpins own m a n).poison2 = s.poison2 := rfl
@[simp] theorem State.wakeSpins_poison3 (s : State) (own : Option Agent) (m : MemSpace) (a n : Nat) : (s.wakeSpins own m a n).poison3 = s.poison3 := rfl
@[simp] theorem State.wakeSpins_tcids (s : State) (own : Option Agent) (m : MemSpace) (a n : Nat) : (s.wakeSpins own m a n).tcids = s.tcids := rfl
@[simp] theorem State.wakeSpins_clayer (s : State) (own : Option Agent) (m : MemSpace) (a n : Nat) : (s.wakeSpins own m a n).clayer = s.clayer := rfl
@[simp] theorem State.wakeSpins_phases (s : State) (own : Option Agent) (m : MemSpace) (a n : Nat) : (s.wakeSpins own m a n).phases = s.phases := rfl
@[simp] theorem State.wakeSpins_areas (s : State) (own : Option Agent) (m : MemSpace) (a n : Nat) : (s.wakeSpins own m a n).areas = s.areas := rfl
@[simp] theorem State.wakeSpins_dies (s : State) (own : Option Agent) (m : MemSpace) (a n : Nat) : (s.wakeSpins own m a n).dies = s.dies := rfl
@[simp] theorem State.wakeSpins_cores (s : State) (own : Option Agent) (m : MemSpace) (a n : Nat) : (s.wakeSpins own m a n).cores = s.cores := rfl
@[simp] theorem State.wakeSpins_launches (s : State) (own : Option Agent) (m : MemSpace) (a n : Nat) : (s.wakeSpins own m a n).launches = s.launches := rfl
@[simp] theorem State.wakeSpins_blocks (s : State) (own : Option Agent) (m : MemSpace) (a n : Nat) : (s.wakeSpins own m a n).blocks = s.blocks := rfl
@[simp] theorem State.wakeSpins_walks (s : State) (own : Option Agent) (m : MemSpace) (a n : Nat) : (s.wakeSpins own m a n).walks = s.walks := rfl
@[simp] theorem State.wakeSpins_walkFaults (s : State) (own : Option Agent) (m : MemSpace) (a n : Nat) : (s.wakeSpins own m a n).walkFaults = s.walkFaults := rfl
@[simp] theorem State.wakeSpins_tlbis (s : State) (own : Option Agent) (m : MemSpace) (a n : Nat) : (s.wakeSpins own m a n).tlbis = s.tlbis := rfl
@[simp] theorem State.wakeSpins_stores (s : State) (own : Option Agent) (m : MemSpace) (a n : Nat) : (s.wakeSpins own m a n).stores = s.stores := rfl
@[simp] theorem State.wakeSpins_writeBacks (s : State) (own : Option Agent) (m : MemSpace) (a n : Nat) : (s.wakeSpins own m a n).writeBacks = s.writeBacks := rfl
@[simp] theorem State.wakeSpins_cmds (s : State) (own : Option Agent) (m : MemSpace) (a n : Nat) : (s.wakeSpins own m a n).cmds = s.cmds := rfl
@[simp] theorem State.wakeSpins_log (s : State) (own : Option Agent) (m : MemSpace) (a n : Nat) : (s.wakeSpins own m a n).log = s.log := rfl
@[simp] theorem State.wakeSpins_held (s : State) (own : Option Agent) (m : MemSpace) (a n : Nat) : (s.wakeSpins own m a n).held = s.held := rfl
@[simp] theorem State.wakeSpins_pushes (s : State) (own : Option Agent) (m : MemSpace) (a n : Nat) : (s.wakeSpins own m a n).pushes = s.pushes := rfl
@[simp] theorem State.wakeSpins_classes (s : State) (own : Option Agent) (m : MemSpace) (a n : Nat) : (s.wakeSpins own m a n).classes = s.classes := rfl
@[simp] theorem State.wakeSpins_ual (s : State) (own : Option Agent) (m : MemSpace) (a n : Nat) : (s.wakeSpins own m a n).ual = s.ual := rfl
@[simp] theorem State.wakeSpins_mbox (s : State) (own : Option Agent) (m : MemSpace) (a n : Nat) : (s.wakeSpins own m a n).mbox = s.mbox := rfl
@[simp] theorem State.wakeSpins_mgmt (s : State) (own : Option Agent) (m : MemSpace) (a n : Nat) : (s.wakeSpins own m a n).mgmt = s.mgmt := rfl
@[simp] theorem State.wakeSpins_codeGen (s : State) (own : Option Agent) (m : MemSpace) (a n : Nat) : (s.wakeSpins own m a n).codeGen = s.codeGen := rfl
@[simp] theorem State.wakeSpins_launchSeq (s : State) (own : Option Agent) (m : MemSpace) (a n : Nat) : (s.wakeSpins own m a n).launchSeq = s.launchSeq := rfl
@[simp] theorem State.wakeSpins_parkSeq (s : State) (own : Option Agent) (m : MemSpace) (a n : Nat) : (s.wakeSpins own m a n).parkSeq = s.parkSeq := rfl
@[simp] theorem State.wakeSpins_nextId (s : State) (own : Option Agent) (m : MemSpace) (a n : Nat) : (s.wakeSpins own m a n).nextId = s.nextId := rfl
@[simp] theorem State.wakeSpins_toEnqueue (s : State) (own : Option Agent) (m : MemSpace) (a n : Nat) : (s.wakeSpins own m a n).toEnqueue = s.toEnqueue := rfl
@[simp] theorem State.wakeSpins_pmapping (s : State) (own : Option Agent) (m : MemSpace) (a n : Nat) : (s.wakeSpins own m a n).pmapping = s.pmapping := rfl
@[simp] theorem State.wakeSpins_zeroed (s : State) (own : Option Agent) (m : MemSpace) (a n : Nat) : (s.wakeSpins own m a n).zeroed = s.zeroed := rfl
@[simp] theorem State.wakeSpins_strays (s : State) (own : Option Agent) (m : MemSpace) (a n : Nat) : (s.wakeSpins own m a n).strays = s.strays := rfl
@[simp] theorem State.wakeSpins_past (s : State) (own : Option Agent) (m : MemSpace) (a n : Nat) : (s.wakeSpins own m a n).past = s.past := rfl
@[simp] theorem State.wakeSpins_arFences (s : State) (own : Option Agent) (m : MemSpace) (a n : Nat) : (s.wakeSpins own m a n).arFences = s.arFences := rfl
@[simp] theorem State.wakeSpins_relFences (s : State) (own : Option Agent) (m : MemSpace) (a n : Nat) : (s.wakeSpins own m a n).relFences = s.relFences := rfl
@[simp] theorem State.wakeSpins_pubs (s : State) (own : Option Agent) (m : MemSpace) (a n : Nat) : (s.wakeSpins own m a n).pubs = s.pubs := rfl
@[simp] theorem State.wakeSpins_images (s : State) (own : Option Agent) (m : MemSpace) (a n : Nat) : (s.wakeSpins own m a n).images = s.images := rfl
@[simp] theorem State.wakeSpins_script (s : State) (own : Option Agent) (m : MemSpace) (a n : Nat) : (s.wakeSpins own m a n).script = s.script := rfl
@[simp] theorem State.wakeSpins_picks (s : State) (own : Option Agent) (m : MemSpace) (a n : Nat) : (s.wakeSpins own m a n).picks = s.picks := rfl
@[simp] theorem State.wakeSpins_cur (s : State) (own : Option Agent) (m : MemSpace) (a n : Nat) : (s.wakeSpins own m a n).cur = s.cur := rfl
@[simp] theorem State.wakeSpins_freeCtr (s : State) (own : Option Agent) (m : MemSpace) (a n : Nat) : (s.wakeSpins own m a n).freeCtr = s.freeCtr := rfl

/-! ### noteWrite -/

@[simp] theorem State.noteWrite_tick (s : State) (w : Writer) (m : MemSpace) (a : Nat) (old : List Byte) : (s.noteWrite w m a old).tick = s.tick := rfl
@[simp] theorem State.noteWrite_cycle (s : State) (w : Writer) (m : MemSpace) (a : Nat) (old : List Byte) : (s.noteWrite w m a old).cycle = s.cycle := rfl
@[simp] theorem State.noteWrite_frac (s : State) (w : Writer) (m : MemSpace) (a : Nat) (old : List Byte) : (s.noteWrite w m a old).frac = s.frac := rfl
@[simp] theorem State.noteWrite_tier1 (s : State) (w : Writer) (m : MemSpace) (a : Nat) (old : List Byte) : (s.noteWrite w m a old).tier1 = s.tier1 := rfl
@[simp] theorem State.noteWrite_tier2 (s : State) (w : Writer) (m : MemSpace) (a : Nat) (old : List Byte) : (s.noteWrite w m a old).tier2 = s.tier2 := rfl
@[simp] theorem State.noteWrite_host (s : State) (w : Writer) (m : MemSpace) (a : Nat) (old : List Byte) : (s.noteWrite w m a old).host = s.host := rfl
@[simp] theorem State.noteWrite_poison1 (s : State) (w : Writer) (m : MemSpace) (a : Nat) (old : List Byte) : (s.noteWrite w m a old).poison1 = s.poison1 := rfl
@[simp] theorem State.noteWrite_poison2 (s : State) (w : Writer) (m : MemSpace) (a : Nat) (old : List Byte) : (s.noteWrite w m a old).poison2 = s.poison2 := rfl
@[simp] theorem State.noteWrite_poison3 (s : State) (w : Writer) (m : MemSpace) (a : Nat) (old : List Byte) : (s.noteWrite w m a old).poison3 = s.poison3 := rfl
@[simp] theorem State.noteWrite_tcids (s : State) (w : Writer) (m : MemSpace) (a : Nat) (old : List Byte) : (s.noteWrite w m a old).tcids = s.tcids := rfl
@[simp] theorem State.noteWrite_clayer (s : State) (w : Writer) (m : MemSpace) (a : Nat) (old : List Byte) : (s.noteWrite w m a old).clayer = s.clayer := rfl
@[simp] theorem State.noteWrite_phases (s : State) (w : Writer) (m : MemSpace) (a : Nat) (old : List Byte) : (s.noteWrite w m a old).phases = s.phases := rfl
@[simp] theorem State.noteWrite_areas (s : State) (w : Writer) (m : MemSpace) (a : Nat) (old : List Byte) : (s.noteWrite w m a old).areas = s.areas := rfl
@[simp] theorem State.noteWrite_dies (s : State) (w : Writer) (m : MemSpace) (a : Nat) (old : List Byte) : (s.noteWrite w m a old).dies = s.dies := rfl
@[simp] theorem State.noteWrite_cores (s : State) (w : Writer) (m : MemSpace) (a : Nat) (old : List Byte) : (s.noteWrite w m a old).cores = s.cores := rfl
@[simp] theorem State.noteWrite_launches (s : State) (w : Writer) (m : MemSpace) (a : Nat) (old : List Byte) : (s.noteWrite w m a old).launches = s.launches := rfl
@[simp] theorem State.noteWrite_blocks (s : State) (w : Writer) (m : MemSpace) (a : Nat) (old : List Byte) : (s.noteWrite w m a old).blocks = s.blocks := rfl
@[simp] theorem State.noteWrite_walks (s : State) (w : Writer) (m : MemSpace) (a : Nat) (old : List Byte) : (s.noteWrite w m a old).walks = s.walks := rfl
@[simp] theorem State.noteWrite_walkFaults (s : State) (w : Writer) (m : MemSpace) (a : Nat) (old : List Byte) : (s.noteWrite w m a old).walkFaults = s.walkFaults := rfl
@[simp] theorem State.noteWrite_tlbis (s : State) (w : Writer) (m : MemSpace) (a : Nat) (old : List Byte) : (s.noteWrite w m a old).tlbis = s.tlbis := rfl
@[simp] theorem State.noteWrite_stores (s : State) (w : Writer) (m : MemSpace) (a : Nat) (old : List Byte) : (s.noteWrite w m a old).stores = s.stores := rfl
@[simp] theorem State.noteWrite_writeBacks (s : State) (w : Writer) (m : MemSpace) (a : Nat) (old : List Byte) : (s.noteWrite w m a old).writeBacks = s.writeBacks := rfl
@[simp] theorem State.noteWrite_cmds (s : State) (w : Writer) (m : MemSpace) (a : Nat) (old : List Byte) : (s.noteWrite w m a old).cmds = s.cmds := rfl
@[simp] theorem State.noteWrite_log (s : State) (w : Writer) (m : MemSpace) (a : Nat) (old : List Byte) : (s.noteWrite w m a old).log = s.log := rfl
@[simp] theorem State.noteWrite_held (s : State) (w : Writer) (m : MemSpace) (a : Nat) (old : List Byte) : (s.noteWrite w m a old).held = s.held := rfl
@[simp] theorem State.noteWrite_pushes (s : State) (w : Writer) (m : MemSpace) (a : Nat) (old : List Byte) : (s.noteWrite w m a old).pushes = s.pushes := rfl
@[simp] theorem State.noteWrite_classes (s : State) (w : Writer) (m : MemSpace) (a : Nat) (old : List Byte) : (s.noteWrite w m a old).classes = s.classes := rfl
@[simp] theorem State.noteWrite_ual (s : State) (w : Writer) (m : MemSpace) (a : Nat) (old : List Byte) : (s.noteWrite w m a old).ual = s.ual := rfl
@[simp] theorem State.noteWrite_mbox (s : State) (w : Writer) (m : MemSpace) (a : Nat) (old : List Byte) : (s.noteWrite w m a old).mbox = s.mbox := rfl
@[simp] theorem State.noteWrite_mgmt (s : State) (w : Writer) (m : MemSpace) (a : Nat) (old : List Byte) : (s.noteWrite w m a old).mgmt = s.mgmt := rfl
@[simp] theorem State.noteWrite_codeGen (s : State) (w : Writer) (m : MemSpace) (a : Nat) (old : List Byte) : (s.noteWrite w m a old).codeGen = s.codeGen := rfl
@[simp] theorem State.noteWrite_launchSeq (s : State) (w : Writer) (m : MemSpace) (a : Nat) (old : List Byte) : (s.noteWrite w m a old).launchSeq = s.launchSeq := rfl
@[simp] theorem State.noteWrite_parkSeq (s : State) (w : Writer) (m : MemSpace) (a : Nat) (old : List Byte) : (s.noteWrite w m a old).parkSeq = s.parkSeq := rfl
@[simp] theorem State.noteWrite_nextId (s : State) (w : Writer) (m : MemSpace) (a : Nat) (old : List Byte) : (s.noteWrite w m a old).nextId = s.nextId := rfl
@[simp] theorem State.noteWrite_toEnqueue (s : State) (w : Writer) (m : MemSpace) (a : Nat) (old : List Byte) : (s.noteWrite w m a old).toEnqueue = s.toEnqueue := rfl
@[simp] theorem State.noteWrite_pmapping (s : State) (w : Writer) (m : MemSpace) (a : Nat) (old : List Byte) : (s.noteWrite w m a old).pmapping = s.pmapping := rfl
@[simp] theorem State.noteWrite_zeroed (s : State) (w : Writer) (m : MemSpace) (a : Nat) (old : List Byte) : (s.noteWrite w m a old).zeroed = s.zeroed := rfl
@[simp] theorem State.noteWrite_strays (s : State) (w : Writer) (m : MemSpace) (a : Nat) (old : List Byte) : (s.noteWrite w m a old).strays = s.strays := rfl
@[simp] theorem State.noteWrite_arFences (s : State) (w : Writer) (m : MemSpace) (a : Nat) (old : List Byte) : (s.noteWrite w m a old).arFences = s.arFences := rfl
@[simp] theorem State.noteWrite_relFences (s : State) (w : Writer) (m : MemSpace) (a : Nat) (old : List Byte) : (s.noteWrite w m a old).relFences = s.relFences := rfl
@[simp] theorem State.noteWrite_pubs (s : State) (w : Writer) (m : MemSpace) (a : Nat) (old : List Byte) : (s.noteWrite w m a old).pubs = s.pubs := rfl
@[simp] theorem State.noteWrite_images (s : State) (w : Writer) (m : MemSpace) (a : Nat) (old : List Byte) : (s.noteWrite w m a old).images = s.images := rfl
@[simp] theorem State.noteWrite_script (s : State) (w : Writer) (m : MemSpace) (a : Nat) (old : List Byte) : (s.noteWrite w m a old).script = s.script := rfl
@[simp] theorem State.noteWrite_picks (s : State) (w : Writer) (m : MemSpace) (a : Nat) (old : List Byte) : (s.noteWrite w m a old).picks = s.picks := rfl
@[simp] theorem State.noteWrite_cur (s : State) (w : Writer) (m : MemSpace) (a : Nat) (old : List Byte) : (s.noteWrite w m a old).cur = s.cur := rfl
@[simp] theorem State.noteWrite_freeCtr (s : State) (w : Writer) (m : MemSpace) (a : Nat) (old : List Byte) : (s.noteWrite w m a old).freeCtr = s.freeCtr := rfl

/-! ### writeTier1 -/

@[simp] theorem State.writeTier1_tick (s : State) (w : Writer) (a : Nat) (bs : List Byte) : (s.writeTier1 w a bs).tick = s.tick := rfl
@[simp] theorem State.writeTier1_cycle (s : State) (w : Writer) (a : Nat) (bs : List Byte) : (s.writeTier1 w a bs).cycle = s.cycle := rfl
@[simp] theorem State.writeTier1_frac (s : State) (w : Writer) (a : Nat) (bs : List Byte) : (s.writeTier1 w a bs).frac = s.frac := rfl
@[simp] theorem State.writeTier1_tier2 (s : State) (w : Writer) (a : Nat) (bs : List Byte) : (s.writeTier1 w a bs).tier2 = s.tier2 := rfl
@[simp] theorem State.writeTier1_host (s : State) (w : Writer) (a : Nat) (bs : List Byte) : (s.writeTier1 w a bs).host = s.host := rfl
@[simp] theorem State.writeTier1_poison2 (s : State) (w : Writer) (a : Nat) (bs : List Byte) : (s.writeTier1 w a bs).poison2 = s.poison2 := rfl
@[simp] theorem State.writeTier1_poison3 (s : State) (w : Writer) (a : Nat) (bs : List Byte) : (s.writeTier1 w a bs).poison3 = s.poison3 := rfl
@[simp] theorem State.writeTier1_tcids (s : State) (w : Writer) (a : Nat) (bs : List Byte) : (s.writeTier1 w a bs).tcids = s.tcids := rfl
@[simp] theorem State.writeTier1_clayer (s : State) (w : Writer) (a : Nat) (bs : List Byte) : (s.writeTier1 w a bs).clayer = s.clayer := rfl
@[simp] theorem State.writeTier1_phases (s : State) (w : Writer) (a : Nat) (bs : List Byte) : (s.writeTier1 w a bs).phases = s.phases := rfl
@[simp] theorem State.writeTier1_areas (s : State) (w : Writer) (a : Nat) (bs : List Byte) : (s.writeTier1 w a bs).areas = s.areas := rfl
@[simp] theorem State.writeTier1_dies (s : State) (w : Writer) (a : Nat) (bs : List Byte) : (s.writeTier1 w a bs).dies = s.dies := rfl
@[simp] theorem State.writeTier1_cores (s : State) (w : Writer) (a : Nat) (bs : List Byte) : (s.writeTier1 w a bs).cores = s.cores := rfl
@[simp] theorem State.writeTier1_launches (s : State) (w : Writer) (a : Nat) (bs : List Byte) : (s.writeTier1 w a bs).launches = s.launches := rfl
@[simp] theorem State.writeTier1_blocks (s : State) (w : Writer) (a : Nat) (bs : List Byte) : (s.writeTier1 w a bs).blocks = s.blocks := rfl
@[simp] theorem State.writeTier1_walks (s : State) (w : Writer) (a : Nat) (bs : List Byte) : (s.writeTier1 w a bs).walks = s.walks := rfl
@[simp] theorem State.writeTier1_walkFaults (s : State) (w : Writer) (a : Nat) (bs : List Byte) : (s.writeTier1 w a bs).walkFaults = s.walkFaults := rfl
@[simp] theorem State.writeTier1_tlbis (s : State) (w : Writer) (a : Nat) (bs : List Byte) : (s.writeTier1 w a bs).tlbis = s.tlbis := rfl
@[simp] theorem State.writeTier1_stores (s : State) (w : Writer) (a : Nat) (bs : List Byte) : (s.writeTier1 w a bs).stores = s.stores := rfl
@[simp] theorem State.writeTier1_writeBacks (s : State) (w : Writer) (a : Nat) (bs : List Byte) : (s.writeTier1 w a bs).writeBacks = s.writeBacks := rfl
@[simp] theorem State.writeTier1_cmds (s : State) (w : Writer) (a : Nat) (bs : List Byte) : (s.writeTier1 w a bs).cmds = s.cmds := rfl
@[simp] theorem State.writeTier1_log (s : State) (w : Writer) (a : Nat) (bs : List Byte) : (s.writeTier1 w a bs).log = s.log := rfl
@[simp] theorem State.writeTier1_held (s : State) (w : Writer) (a : Nat) (bs : List Byte) : (s.writeTier1 w a bs).held = s.held := rfl
@[simp] theorem State.writeTier1_pushes (s : State) (w : Writer) (a : Nat) (bs : List Byte) : (s.writeTier1 w a bs).pushes = s.pushes := rfl
@[simp] theorem State.writeTier1_classes (s : State) (w : Writer) (a : Nat) (bs : List Byte) : (s.writeTier1 w a bs).classes = s.classes := rfl
@[simp] theorem State.writeTier1_ual (s : State) (w : Writer) (a : Nat) (bs : List Byte) : (s.writeTier1 w a bs).ual = s.ual := rfl
@[simp] theorem State.writeTier1_mbox (s : State) (w : Writer) (a : Nat) (bs : List Byte) : (s.writeTier1 w a bs).mbox = s.mbox := rfl
@[simp] theorem State.writeTier1_mgmt (s : State) (w : Writer) (a : Nat) (bs : List Byte) : (s.writeTier1 w a bs).mgmt = s.mgmt := rfl
@[simp] theorem State.writeTier1_codeGen (s : State) (w : Writer) (a : Nat) (bs : List Byte) : (s.writeTier1 w a bs).codeGen = s.codeGen := rfl
@[simp] theorem State.writeTier1_launchSeq (s : State) (w : Writer) (a : Nat) (bs : List Byte) : (s.writeTier1 w a bs).launchSeq = s.launchSeq := rfl
@[simp] theorem State.writeTier1_parkSeq (s : State) (w : Writer) (a : Nat) (bs : List Byte) : (s.writeTier1 w a bs).parkSeq = s.parkSeq := rfl
@[simp] theorem State.writeTier1_nextId (s : State) (w : Writer) (a : Nat) (bs : List Byte) : (s.writeTier1 w a bs).nextId = s.nextId := rfl
@[simp] theorem State.writeTier1_toEnqueue (s : State) (w : Writer) (a : Nat) (bs : List Byte) : (s.writeTier1 w a bs).toEnqueue = s.toEnqueue := rfl
@[simp] theorem State.writeTier1_pmapping (s : State) (w : Writer) (a : Nat) (bs : List Byte) : (s.writeTier1 w a bs).pmapping = s.pmapping := rfl
@[simp] theorem State.writeTier1_zeroed (s : State) (w : Writer) (a : Nat) (bs : List Byte) : (s.writeTier1 w a bs).zeroed = s.zeroed := rfl
@[simp] theorem State.writeTier1_strays (s : State) (w : Writer) (a : Nat) (bs : List Byte) : (s.writeTier1 w a bs).strays = s.strays := rfl
@[simp] theorem State.writeTier1_arFences (s : State) (w : Writer) (a : Nat) (bs : List Byte) : (s.writeTier1 w a bs).arFences = s.arFences := rfl
@[simp] theorem State.writeTier1_relFences (s : State) (w : Writer) (a : Nat) (bs : List Byte) : (s.writeTier1 w a bs).relFences = s.relFences := rfl
@[simp] theorem State.writeTier1_pubs (s : State) (w : Writer) (a : Nat) (bs : List Byte) : (s.writeTier1 w a bs).pubs = s.pubs := rfl
@[simp] theorem State.writeTier1_images (s : State) (w : Writer) (a : Nat) (bs : List Byte) : (s.writeTier1 w a bs).images = s.images := rfl
@[simp] theorem State.writeTier1_script (s : State) (w : Writer) (a : Nat) (bs : List Byte) : (s.writeTier1 w a bs).script = s.script := rfl
@[simp] theorem State.writeTier1_picks (s : State) (w : Writer) (a : Nat) (bs : List Byte) : (s.writeTier1 w a bs).picks = s.picks := rfl
@[simp] theorem State.writeTier1_cur (s : State) (w : Writer) (a : Nat) (bs : List Byte) : (s.writeTier1 w a bs).cur = s.cur := rfl
@[simp] theorem State.writeTier1_freeCtr (s : State) (w : Writer) (a : Nat) (bs : List Byte) : (s.writeTier1 w a bs).freeCtr = s.freeCtr := rfl

/-! ### writeTier2 -/

@[simp] theorem State.writeTier2_tick (s : State) (w : Writer) (a : Nat) (bs : List Byte) : (s.writeTier2 w a bs).tick = s.tick := rfl
@[simp] theorem State.writeTier2_cycle (s : State) (w : Writer) (a : Nat) (bs : List Byte) : (s.writeTier2 w a bs).cycle = s.cycle := rfl
@[simp] theorem State.writeTier2_frac (s : State) (w : Writer) (a : Nat) (bs : List Byte) : (s.writeTier2 w a bs).frac = s.frac := rfl
@[simp] theorem State.writeTier2_tier1 (s : State) (w : Writer) (a : Nat) (bs : List Byte) : (s.writeTier2 w a bs).tier1 = s.tier1 := rfl
@[simp] theorem State.writeTier2_host (s : State) (w : Writer) (a : Nat) (bs : List Byte) : (s.writeTier2 w a bs).host = s.host := rfl
@[simp] theorem State.writeTier2_poison1 (s : State) (w : Writer) (a : Nat) (bs : List Byte) : (s.writeTier2 w a bs).poison1 = s.poison1 := rfl
@[simp] theorem State.writeTier2_poison3 (s : State) (w : Writer) (a : Nat) (bs : List Byte) : (s.writeTier2 w a bs).poison3 = s.poison3 := rfl
@[simp] theorem State.writeTier2_tcids (s : State) (w : Writer) (a : Nat) (bs : List Byte) : (s.writeTier2 w a bs).tcids = s.tcids := rfl
@[simp] theorem State.writeTier2_clayer (s : State) (w : Writer) (a : Nat) (bs : List Byte) : (s.writeTier2 w a bs).clayer = s.clayer := rfl
@[simp] theorem State.writeTier2_phases (s : State) (w : Writer) (a : Nat) (bs : List Byte) : (s.writeTier2 w a bs).phases = s.phases := rfl
@[simp] theorem State.writeTier2_areas (s : State) (w : Writer) (a : Nat) (bs : List Byte) : (s.writeTier2 w a bs).areas = s.areas := rfl
@[simp] theorem State.writeTier2_dies (s : State) (w : Writer) (a : Nat) (bs : List Byte) : (s.writeTier2 w a bs).dies = s.dies := rfl
@[simp] theorem State.writeTier2_cores (s : State) (w : Writer) (a : Nat) (bs : List Byte) : (s.writeTier2 w a bs).cores = s.cores := rfl
@[simp] theorem State.writeTier2_launches (s : State) (w : Writer) (a : Nat) (bs : List Byte) : (s.writeTier2 w a bs).launches = s.launches := rfl
@[simp] theorem State.writeTier2_blocks (s : State) (w : Writer) (a : Nat) (bs : List Byte) : (s.writeTier2 w a bs).blocks = s.blocks := rfl
@[simp] theorem State.writeTier2_walks (s : State) (w : Writer) (a : Nat) (bs : List Byte) : (s.writeTier2 w a bs).walks = s.walks := rfl
@[simp] theorem State.writeTier2_walkFaults (s : State) (w : Writer) (a : Nat) (bs : List Byte) : (s.writeTier2 w a bs).walkFaults = s.walkFaults := rfl
@[simp] theorem State.writeTier2_tlbis (s : State) (w : Writer) (a : Nat) (bs : List Byte) : (s.writeTier2 w a bs).tlbis = s.tlbis := rfl
@[simp] theorem State.writeTier2_stores (s : State) (w : Writer) (a : Nat) (bs : List Byte) : (s.writeTier2 w a bs).stores = s.stores := rfl
@[simp] theorem State.writeTier2_writeBacks (s : State) (w : Writer) (a : Nat) (bs : List Byte) : (s.writeTier2 w a bs).writeBacks = s.writeBacks := rfl
@[simp] theorem State.writeTier2_cmds (s : State) (w : Writer) (a : Nat) (bs : List Byte) : (s.writeTier2 w a bs).cmds = s.cmds := rfl
@[simp] theorem State.writeTier2_log (s : State) (w : Writer) (a : Nat) (bs : List Byte) : (s.writeTier2 w a bs).log = s.log := rfl
@[simp] theorem State.writeTier2_held (s : State) (w : Writer) (a : Nat) (bs : List Byte) : (s.writeTier2 w a bs).held = s.held := rfl
@[simp] theorem State.writeTier2_pushes (s : State) (w : Writer) (a : Nat) (bs : List Byte) : (s.writeTier2 w a bs).pushes = s.pushes := rfl
@[simp] theorem State.writeTier2_classes (s : State) (w : Writer) (a : Nat) (bs : List Byte) : (s.writeTier2 w a bs).classes = s.classes := rfl
@[simp] theorem State.writeTier2_ual (s : State) (w : Writer) (a : Nat) (bs : List Byte) : (s.writeTier2 w a bs).ual = s.ual := rfl
@[simp] theorem State.writeTier2_mbox (s : State) (w : Writer) (a : Nat) (bs : List Byte) : (s.writeTier2 w a bs).mbox = s.mbox := rfl
@[simp] theorem State.writeTier2_mgmt (s : State) (w : Writer) (a : Nat) (bs : List Byte) : (s.writeTier2 w a bs).mgmt = s.mgmt := rfl
@[simp] theorem State.writeTier2_codeGen (s : State) (w : Writer) (a : Nat) (bs : List Byte) : (s.writeTier2 w a bs).codeGen = s.codeGen := rfl
@[simp] theorem State.writeTier2_launchSeq (s : State) (w : Writer) (a : Nat) (bs : List Byte) : (s.writeTier2 w a bs).launchSeq = s.launchSeq := rfl
@[simp] theorem State.writeTier2_parkSeq (s : State) (w : Writer) (a : Nat) (bs : List Byte) : (s.writeTier2 w a bs).parkSeq = s.parkSeq := rfl
@[simp] theorem State.writeTier2_nextId (s : State) (w : Writer) (a : Nat) (bs : List Byte) : (s.writeTier2 w a bs).nextId = s.nextId := rfl
@[simp] theorem State.writeTier2_toEnqueue (s : State) (w : Writer) (a : Nat) (bs : List Byte) : (s.writeTier2 w a bs).toEnqueue = s.toEnqueue := rfl
@[simp] theorem State.writeTier2_pmapping (s : State) (w : Writer) (a : Nat) (bs : List Byte) : (s.writeTier2 w a bs).pmapping = s.pmapping := rfl
@[simp] theorem State.writeTier2_zeroed (s : State) (w : Writer) (a : Nat) (bs : List Byte) : (s.writeTier2 w a bs).zeroed = s.zeroed := rfl
@[simp] theorem State.writeTier2_strays (s : State) (w : Writer) (a : Nat) (bs : List Byte) : (s.writeTier2 w a bs).strays = s.strays := rfl
@[simp] theorem State.writeTier2_arFences (s : State) (w : Writer) (a : Nat) (bs : List Byte) : (s.writeTier2 w a bs).arFences = s.arFences := rfl
@[simp] theorem State.writeTier2_relFences (s : State) (w : Writer) (a : Nat) (bs : List Byte) : (s.writeTier2 w a bs).relFences = s.relFences := rfl
@[simp] theorem State.writeTier2_pubs (s : State) (w : Writer) (a : Nat) (bs : List Byte) : (s.writeTier2 w a bs).pubs = s.pubs := rfl
@[simp] theorem State.writeTier2_images (s : State) (w : Writer) (a : Nat) (bs : List Byte) : (s.writeTier2 w a bs).images = s.images := rfl
@[simp] theorem State.writeTier2_script (s : State) (w : Writer) (a : Nat) (bs : List Byte) : (s.writeTier2 w a bs).script = s.script := rfl
@[simp] theorem State.writeTier2_picks (s : State) (w : Writer) (a : Nat) (bs : List Byte) : (s.writeTier2 w a bs).picks = s.picks := rfl
@[simp] theorem State.writeTier2_cur (s : State) (w : Writer) (a : Nat) (bs : List Byte) : (s.writeTier2 w a bs).cur = s.cur := rfl
@[simp] theorem State.writeTier2_freeCtr (s : State) (w : Writer) (a : Nat) (bs : List Byte) : (s.writeTier2 w a bs).freeCtr = s.freeCtr := rfl

/-! ### writeHost -/

@[simp] theorem State.writeHost_tick (s : State) (w : Writer) (a : Nat) (bs : List Byte) : (s.writeHost w a bs).tick = s.tick := by
  unfold State.writeHost; split <;> rfl
@[simp] theorem State.writeHost_cycle (s : State) (w : Writer) (a : Nat) (bs : List Byte) : (s.writeHost w a bs).cycle = s.cycle := by
  unfold State.writeHost; split <;> rfl
@[simp] theorem State.writeHost_frac (s : State) (w : Writer) (a : Nat) (bs : List Byte) : (s.writeHost w a bs).frac = s.frac := by
  unfold State.writeHost; split <;> rfl
@[simp] theorem State.writeHost_tier1 (s : State) (w : Writer) (a : Nat) (bs : List Byte) : (s.writeHost w a bs).tier1 = s.tier1 := by
  unfold State.writeHost; split <;> rfl
@[simp] theorem State.writeHost_tier2 (s : State) (w : Writer) (a : Nat) (bs : List Byte) : (s.writeHost w a bs).tier2 = s.tier2 := by
  unfold State.writeHost; split <;> rfl
@[simp] theorem State.writeHost_poison1 (s : State) (w : Writer) (a : Nat) (bs : List Byte) : (s.writeHost w a bs).poison1 = s.poison1 := by
  unfold State.writeHost; split <;> rfl
@[simp] theorem State.writeHost_poison2 (s : State) (w : Writer) (a : Nat) (bs : List Byte) : (s.writeHost w a bs).poison2 = s.poison2 := by
  unfold State.writeHost; split <;> rfl
@[simp] theorem State.writeHost_tcids (s : State) (w : Writer) (a : Nat) (bs : List Byte) : (s.writeHost w a bs).tcids = s.tcids := by
  unfold State.writeHost; split <;> rfl
@[simp] theorem State.writeHost_clayer (s : State) (w : Writer) (a : Nat) (bs : List Byte) : (s.writeHost w a bs).clayer = s.clayer := by
  unfold State.writeHost; split <;> rfl
@[simp] theorem State.writeHost_phases (s : State) (w : Writer) (a : Nat) (bs : List Byte) : (s.writeHost w a bs).phases = s.phases := by
  unfold State.writeHost; split <;> rfl
@[simp] theorem State.writeHost_areas (s : State) (w : Writer) (a : Nat) (bs : List Byte) : (s.writeHost w a bs).areas = s.areas := by
  unfold State.writeHost; split <;> rfl
@[simp] theorem State.writeHost_dies (s : State) (w : Writer) (a : Nat) (bs : List Byte) : (s.writeHost w a bs).dies = s.dies := by
  unfold State.writeHost; split <;> rfl
@[simp] theorem State.writeHost_cores (s : State) (w : Writer) (a : Nat) (bs : List Byte) : (s.writeHost w a bs).cores = s.cores := by
  unfold State.writeHost; split <;> rfl
@[simp] theorem State.writeHost_launches (s : State) (w : Writer) (a : Nat) (bs : List Byte) : (s.writeHost w a bs).launches = s.launches := by
  unfold State.writeHost; split <;> rfl
@[simp] theorem State.writeHost_blocks (s : State) (w : Writer) (a : Nat) (bs : List Byte) : (s.writeHost w a bs).blocks = s.blocks := by
  unfold State.writeHost; split <;> rfl
@[simp] theorem State.writeHost_walks (s : State) (w : Writer) (a : Nat) (bs : List Byte) : (s.writeHost w a bs).walks = s.walks := by
  unfold State.writeHost; split <;> rfl
@[simp] theorem State.writeHost_walkFaults (s : State) (w : Writer) (a : Nat) (bs : List Byte) : (s.writeHost w a bs).walkFaults = s.walkFaults := by
  unfold State.writeHost; split <;> rfl
@[simp] theorem State.writeHost_tlbis (s : State) (w : Writer) (a : Nat) (bs : List Byte) : (s.writeHost w a bs).tlbis = s.tlbis := by
  unfold State.writeHost; split <;> rfl
@[simp] theorem State.writeHost_stores (s : State) (w : Writer) (a : Nat) (bs : List Byte) : (s.writeHost w a bs).stores = s.stores := by
  unfold State.writeHost; split <;> rfl
@[simp] theorem State.writeHost_writeBacks (s : State) (w : Writer) (a : Nat) (bs : List Byte) : (s.writeHost w a bs).writeBacks = s.writeBacks := by
  unfold State.writeHost; split <;> rfl
@[simp] theorem State.writeHost_cmds (s : State) (w : Writer) (a : Nat) (bs : List Byte) : (s.writeHost w a bs).cmds = s.cmds := by
  unfold State.writeHost; split <;> rfl
@[simp] theorem State.writeHost_log (s : State) (w : Writer) (a : Nat) (bs : List Byte) : (s.writeHost w a bs).log = s.log := by
  unfold State.writeHost; split <;> rfl
@[simp] theorem State.writeHost_held (s : State) (w : Writer) (a : Nat) (bs : List Byte) : (s.writeHost w a bs).held = s.held := by
  unfold State.writeHost; split <;> rfl
@[simp] theorem State.writeHost_pushes (s : State) (w : Writer) (a : Nat) (bs : List Byte) : (s.writeHost w a bs).pushes = s.pushes := by
  unfold State.writeHost; split <;> rfl
@[simp] theorem State.writeHost_classes (s : State) (w : Writer) (a : Nat) (bs : List Byte) : (s.writeHost w a bs).classes = s.classes := by
  unfold State.writeHost; split <;> rfl
@[simp] theorem State.writeHost_ual (s : State) (w : Writer) (a : Nat) (bs : List Byte) : (s.writeHost w a bs).ual = s.ual := by
  unfold State.writeHost; split <;> rfl
@[simp] theorem State.writeHost_mbox (s : State) (w : Writer) (a : Nat) (bs : List Byte) : (s.writeHost w a bs).mbox = s.mbox := by
  unfold State.writeHost; split <;> rfl
@[simp] theorem State.writeHost_mgmt (s : State) (w : Writer) (a : Nat) (bs : List Byte) : (s.writeHost w a bs).mgmt = s.mgmt := by
  unfold State.writeHost; split <;> rfl
@[simp] theorem State.writeHost_codeGen (s : State) (w : Writer) (a : Nat) (bs : List Byte) : (s.writeHost w a bs).codeGen = s.codeGen := by
  unfold State.writeHost; split <;> rfl
@[simp] theorem State.writeHost_launchSeq (s : State) (w : Writer) (a : Nat) (bs : List Byte) : (s.writeHost w a bs).launchSeq = s.launchSeq := by
  unfold State.writeHost; split <;> rfl
@[simp] theorem State.writeHost_parkSeq (s : State) (w : Writer) (a : Nat) (bs : List Byte) : (s.writeHost w a bs).parkSeq = s.parkSeq := by
  unfold State.writeHost; split <;> rfl
@[simp] theorem State.writeHost_nextId (s : State) (w : Writer) (a : Nat) (bs : List Byte) : (s.writeHost w a bs).nextId = s.nextId := by
  unfold State.writeHost; split <;> rfl
@[simp] theorem State.writeHost_toEnqueue (s : State) (w : Writer) (a : Nat) (bs : List Byte) : (s.writeHost w a bs).toEnqueue = s.toEnqueue := by
  unfold State.writeHost; split <;> rfl
@[simp] theorem State.writeHost_pmapping (s : State) (w : Writer) (a : Nat) (bs : List Byte) : (s.writeHost w a bs).pmapping = s.pmapping := by
  unfold State.writeHost; split <;> rfl
@[simp] theorem State.writeHost_zeroed (s : State) (w : Writer) (a : Nat) (bs : List Byte) : (s.writeHost w a bs).zeroed = s.zeroed := by
  unfold State.writeHost; split <;> rfl
@[simp] theorem State.writeHost_strays (s : State) (w : Writer) (a : Nat) (bs : List Byte) : (s.writeHost w a bs).strays = s.strays := by
  unfold State.writeHost; split <;> rfl
@[simp] theorem State.writeHost_arFences (s : State) (w : Writer) (a : Nat) (bs : List Byte) : (s.writeHost w a bs).arFences = s.arFences := by
  unfold State.writeHost; split <;> rfl
@[simp] theorem State.writeHost_relFences (s : State) (w : Writer) (a : Nat) (bs : List Byte) : (s.writeHost w a bs).relFences = s.relFences := by
  unfold State.writeHost; split <;> rfl
@[simp] theorem State.writeHost_pubs (s : State) (w : Writer) (a : Nat) (bs : List Byte) : (s.writeHost w a bs).pubs = s.pubs := by
  unfold State.writeHost; split <;> rfl
@[simp] theorem State.writeHost_images (s : State) (w : Writer) (a : Nat) (bs : List Byte) : (s.writeHost w a bs).images = s.images := by
  unfold State.writeHost; split <;> rfl
@[simp] theorem State.writeHost_script (s : State) (w : Writer) (a : Nat) (bs : List Byte) : (s.writeHost w a bs).script = s.script := by
  unfold State.writeHost; split <;> rfl
@[simp] theorem State.writeHost_picks (s : State) (w : Writer) (a : Nat) (bs : List Byte) : (s.writeHost w a bs).picks = s.picks := by
  unfold State.writeHost; split <;> rfl
@[simp] theorem State.writeHost_cur (s : State) (w : Writer) (a : Nat) (bs : List Byte) : (s.writeHost w a bs).cur = s.cur := by
  unfold State.writeHost; split <;> rfl
@[simp] theorem State.writeHost_freeCtr (s : State) (w : Writer) (a : Nat) (bs : List Byte) : (s.writeHost w a bs).freeCtr = s.freeCtr := by
  unfold State.writeHost; split <;> rfl

end Sys2Proof.Machine
end

