-- ==== Sys2Proof/Laws/Frame.lean ====
section
/-! SUPPORT. What the frame of an instruction does: when it issues, the state that it is executed in, and the state that it leaves. -/

namespace Sys2Proof.Machine

open Sys2Proof

/-! ### The fragment that executes -/

/-- Everything that `env?` says of what it answers. -/
theorem State.env?_spec {s : State} {i : Instr} {e : Env} (h : s.env? i = some e) :
    s.cur = some e.r ∧ s.ctx? e.r.ctx = some e.c ∧ e.c.frag? e.r.frag = some e.f ∧ s.block? e.c.block = some e.b ∧
      s.launch? e.b.launch = some e.l ∧ e.f.state = .running ∧ e.f.hasChildren = false ∧ e.f.wait = none ∧ e.f.mask ≠ 0 ∧
      e.c.state = .resident ∧ e.s = s ∧ e.s0 = s ∧ e.i = i ∧ e.len = instrLen i := by
  unfold State.env? at h
  cases hcur : s.cur with
  | none => simp [hcur] at h
  | some r =>
    cases hc : s.ctx? r.ctx with
    | none => simp [hcur, hc] at h
    | some c =>
      cases hf : c.frag? r.frag with
      | none => simp [hcur, hc, hf] at h
      | some f =>
        cases hb : s.block? c.block with
        | none => simp [hcur, hc, hf, hb] at h
        | some b =>
          cases hl : s.launch? b.launch with
          | none => simp [hcur, hc, hf, hb, hl] at h
          | some l =>
            simp only [hcur, hc, hf, hb, hl] at h
            split at h
            · rename_i hk
              simp only [Option.some.injEq] at h
              subst h
              exact ⟨rfl, hc, hf, hb, hl, hk.1, hk.2.1, hk.2.2.1, hk.2.2.2.1, hk.2.2.2.2, rfl, rfl, rfl, rfl⟩
            · simp at h

theorem State.env?_of {s : State} {i : Instr} {r : FragRef} {c : Ctx} {f : Frag} {b : Block} {l : Launch} (hcur : s.cur = some r)
    (hc : s.ctx? r.ctx = some c) (hf : c.frag? r.frag = some f) (hb : s.block? c.block = some b)
    (hl : s.launch? b.launch = some l) (hr : f.state = .running) (hk : f.hasChildren = false) (hw : f.wait = none)
    (hm : f.mask ≠ 0) (hs : c.state = .resident) :
    s.env? i = some { s := s, s0 := s, r := r, c := c, f := f, b := b, l := l, i := i, len := instrLen i } := by
  unfold State.env?
  simp only [hcur, hc, hf, hb, hl]
  rw [if_pos ⟨hr, hk, hw, hm, hs⟩]

theorem Env.next_mark (e : Env) (k : Cost) : (e.mark k).next = e.next := rfl

/-! ### The instruction counts as issued -/

section mark

variable {s : State} {i : Instr} {e : Env} (h : s.env? i = some e) (k : Cost)

include h

theorem Env.mark_ctx : (e.mark k).s.ctx? e.r.ctx = some (e.mark k).c := by
  obtain ⟨_, hc, _, _, _, _, _, _, _, _, hs, _⟩ := State.env?_spec h
  have hi : e.c.id = e.r.ctx := State.ctx?_id hc
  have h1 : e.s.ctx? (e.mark k).c.id = some e.c := by
    show e.s.ctx? e.c.id = _
    rw [hi, hs]
    exact hc
  have h2 : ((e.mark k).s).ctx? (e.mark k).c.id = some (e.mark k).c := State.ctx?_setCtx (c := e.c) h1
  have h3 : (e.mark k).c.id = e.r.ctx := hi
  rwa [h3] at h2

theorem Env.mark_frag : (e.mark k).c.frag? e.r.frag = some (e.mark k).f := by
  obtain ⟨_, _, hf, _⟩ := State.env?_spec h
  have hi := Ctx.frag?_id hf
  have : (e.mark k).f.id = e.r.frag := hi
  rw [← this] at hf ⊢
  exact Ctx.frag?_setFrag hf

theorem Env.mark_frag? : (e.mark k).s.frag? e.r = some (e.mark k).f :=
  State.frag?_of (Env.mark_ctx h k) (Env.mark_frag h k)

/-- The fragment of the context that a state holds, replaced: the last replacement counts. -/
theorem Env.mark_updFrag (g : Frag → Frag) (hg : (g (e.mark k).f).id = (e.mark k).f.id) :
    (e.mark k).s.updFrag e.r g = e.left k (g (e.mark k).f) (e.mark k).c.mat := by
  have hc := Env.mark_ctx h k
  have hf := Env.mark_frag h k
  have hi : (e.mark k).f.id = e.r.frag := Ctx.frag?_id hf
  unfold State.updFrag
  rw [State.updCtx_eq _ hc (by simpa using State.ctx?_id hc)]
  rw [Ctx.updFrag_eq g hf (by rw [hg, hi])]
  rfl

end mark

theorem shSync_unmapped {s : State} {n : Nat} {c : Ctx} (hc : s.ctx? n = some c) (hm : c.shmap = none) : shSync s n = s := by
  unfold shSync
  simp [hc, hm]

/-- The context of the state that an instruction leaves. -/
theorem Env.left_ctx {s : State} {i : Instr} {e : Env} (h : s.env? i = some e) (k : Cost) (f : Frag) (mat : SMap (List W32)) :
    (e.left k f mat).ctx? e.r.ctx = some { ((e.mark k).c.setFrag f) with mat := mat } := by
  have hc := Env.mark_ctx h k
  have hi : (e.mark k).c.id = e.r.ctx := State.ctx?_id hc
  have : ({ ((e.mark k).c.setFrag f) with mat := mat } : Ctx).id = e.r.ctx := hi
  unfold Env.left
  rw [← this] at hc ⊢
  exact State.ctx?_setCtx hc

theorem Env.left_frag {s : State} {i : Instr} {e : Env} (h : s.env? i = some e) (k : Cost) (f : Frag) (mat : SMap (List W32))
    (hf : f.id = e.f.id) : (e.left k f mat).frag? e.r = some f := by
  have h1 := Env.left_ctx h k f mat
  have h2 := Env.mark_frag h k
  have hi : (e.mark k).f.id = e.r.frag := Ctx.frag?_id h2
  have hi' : f.id = e.r.frag := by rw [hf]; exact hi
  refine State.frag?_of h1 ?_
  rw [← hi'] at h2 ⊢
  exact Ctx.frag?_setFrag (c := (e.mark k).c) h2

theorem Env.left_left {s : State} {i : Instr} {e : Env} (h : s.env? i = some e) (k : Cost) (f g : Frag) (mat mat' : SMap (List W32))
    (hf : f.id = e.f.id) (hg : g.id = e.f.id) :
    (e.left k f mat).setCtx { (({ ((e.mark k).c.setFrag f) with mat := mat } : Ctx).setFrag g) with mat := mat' } = e.left k g mat' := by
  have hfg : f.id = g.id := by rw [hf, hg]
  unfold Env.left
  refine (State.setCtx_setCtx _ ?_).trans ?_
  · rfl
  · congr 1
    show ({ (((e.mark k).c.setFrag f).setFrag g) with mat := mat' } : Ctx) = _
    rw [Ctx.setFrag_setFrag _ hfg]

/-- An update of the fragment in the state that the instruction leaves. -/
theorem Env.left_updFrag {s : State} {i : Instr} {e : Env} (h : s.env? i = some e) (k : Cost) (f : Frag) (mat : SMap (List W32))
    (g : Frag → Frag) (hf : f.id = e.f.id) (hg : (g f).id = e.f.id) : (e.left k f mat).updFrag e.r g = e.left k (g f) mat := by
  have h1 := Env.left_ctx h k f mat
  have h2 := Env.left_frag h k f mat hf
  have hi : f.id = e.r.frag := by rw [hf]; exact Ctx.frag?_id (State.env?_spec h).2.2.1
  have h3 : ({ ((e.mark k).c.setFrag f) with mat := mat } : Ctx).frag? e.r.frag = some f := by
    simpa [State.frag?, h1] using h2
  unfold State.updFrag
  rw [State.updCtx_eq _ h1 (by simpa using State.ctx?_id h1), Ctx.updFrag_eq g h3 (by rw [hg, ← hf]; exact hi)]
  exact Env.left_left h k f (g f) mat mat hf hg

/-! ### What an instruction leaves -/

/-- The registers after an instruction in a context without a mapping (R186). -/
theorem Env.put_mark {s : State} {i : Instr} {e : Env} (h : s.env? i = some e) (k : Cost) (R : RegFile) (hm : e.c.shmap = none) :
    (e.mark k).put (e.mark k).s R = e.left k { e.issued k with regs := R.regs } R.mat := by
  have hc := Env.mark_ctx h k
  have hf := Env.mark_frag h k
  have hi : (e.mark k).f.id = e.r.frag := Ctx.frag?_id hf
  have key : (e.mark k).s.updCtx e.r.ctx (fun c => { c with mat := R.mat }.updFrag e.r.frag fun f => { f with regs := R.regs })
      = e.left k { e.issued k with regs := R.regs } R.mat := by
    rw [State.updCtx_eq _ hc (by simpa using State.ctx?_id hc)]
    have hf' : ({ (e.mark k).c with mat := R.mat } : Ctx).frag? e.r.frag = some (e.mark k).f := hf
    rw [Ctx.updFrag_eq _ hf' hi]
    rfl
  unfold Env.put
  show shSync ((e.mark k).s.updCtx e.r.ctx (fun c => { c with mat := R.mat }.updFrag e.r.frag fun f => { f with regs := R.regs })) e.r.ctx = _
  rw [key]
  exact shSync_unmapped (Env.left_ctx h k _ _) hm

/-- A fragment that has not come to its reconvergence point stays where it is (R173). -/
theorem checkArrive_straight {s : State} {r : FragRef} {f : Frag} (hf : s.frag? r = some f)
    (hs : f.parent = none ∨ f.pc ≠ f.reconv) : s.checkArrive r = s := by
  unfold State.checkArrive
  rw [hf]
  rcases hs with hs | hs
  · simp [hs]
  · simp [hs]

theorem Env.goto_left {s : State} {i : Instr} {e : Env} (h : s.env? i = some e) (k : Cost) (f : Frag) (mat : SMap (List W32))
    (pc : VAddr) (hf : f.id = e.f.id) (hs : f.parent = none ∨ pc ≠ f.reconv) :
    (e.left k f mat).goto e.r pc = e.left k { f with pc := pc } mat := by
  unfold State.goto
  rw [Env.left_updFrag h k f mat _ hf hf]
  exact checkArrive_straight (Env.left_frag h k _ mat hf) hs

theorem Env.left_mark {s : State} {i : Instr} {e : Env} (h : s.env? i = some e) (k : Cost) :
    (e.mark k).s = e.left k (e.issued k) e.c.mat := by
  have := Env.mark_updFrag h k (fun f => f) rfl
  rw [← show (e.mark k).s.updFrag e.r (fun f => f) = (e.mark k).s from ?_]
  · exact this
  · unfold State.updFrag State.updCtx
    have hu : ∀ {α : Type} (p : α → Bool) (l : List α), updFirst p (fun x => x) l = l := by
      intro α p l
      induction l with
      | nil => rfl
      | cons y ys ih => by_cases hy : p y = true <;> simp [updFirst, hy, ih]
    have hc : (fun c : Ctx => c.updFrag e.r.frag fun f => f) = fun c => c := by
      funext c
      simp [Ctx.updFrag, hu]
    simp only [hc, hu]

theorem Env.done_put {s : State} {i : Instr} {e : Env} (h : s.env? i = some e) (k : Cost) (R : RegFile) (hm : e.c.shmap = none)
    (hs : e.straight e.next) : (e.mark k).done ((e.mark k).put (e.mark k).s R) = e.passed k R := by
  rw [Env.put_mark h k R hm]
  exact Env.goto_left h k _ _ e.next rfl hs

theorem Env.done_mark {s : State} {i : Instr} {e : Env} (h : s.env? i = some e) (k : Cost)
    (hs : e.straight e.next) : (e.mark k).done (e.mark k).s = e.passed k e.view.file := by
  rw [Env.left_mark h k]
  exact Env.goto_left h k _ _ e.next rfl hs

theorem Env.goto_mark {s : State} {i : Instr} {e : Env} (h : s.env? i = some e) (k : Cost) (pc : VAddr)
    (hs : e.straight pc) : (e.mark k).s.goto (e.mark k).r pc = e.jumped k pc := by
  rw [Env.left_mark h k]
  exact Env.goto_left h k _ _ pc rfl hs

theorem Env.put_mark_all {s : State} {i : Instr} {e : Env} (h : s.env? i = some e) (k : Cost) (R : RegFile) :
    (e.mark k).put (e.mark k).s R = shSync (e.left k { e.issued k with regs := R.regs } R.mat) e.r.ctx := by
  have hc := Env.mark_ctx h k
  have hf := Env.mark_frag h k
  have hi : (e.mark k).f.id = e.r.frag := Ctx.frag?_id hf
  have key : (e.mark k).s.updCtx e.r.ctx (fun c => { c with mat := R.mat }.updFrag e.r.frag fun f => { f with regs := R.regs })
      = e.left k { e.issued k with regs := R.regs } R.mat := by
    rw [State.updCtx_eq _ hc (by simpa using State.ctx?_id hc)]
    have hf' : ({ (e.mark k).c with mat := R.mat } : Ctx).frag? e.r.frag = some (e.mark k).f := hf
    rw [Ctx.updFrag_eq _ hf' hi]
    rfl
  unfold Env.put
  show shSync ((e.mark k).s.updCtx e.r.ctx (fun c => { c with mat := R.mat }.updFrag e.r.frag fun f => { f with regs := R.regs })) e.r.ctx = _
  rw [key]

/-- An instruction that writes registers leaves them written and the fragment past it. -/
theorem Env.done_put_settled {s : State} {i : Instr} {e : Env} (h : s.env? i = some e) (k : Cost) (R : RegFile) :
    (e.mark k).done ((e.mark k).put (e.mark k).s R) = e.settled k R := by
  rw [Env.put_mark_all h k R]
  rfl

/-- An instruction that does nothing more leaves its fragment past it. -/
theorem Env.done_skipped {s : State} {i : Instr} {e : Env} (h : s.env? i = some e) (k : Cost) :
    (e.mark k).done (e.mark k).s = e.skipped k := by
  rw [Env.left_mark h k]
  rfl

theorem Env.goto_moved {s : State} {i : Instr} {e : Env} (h : s.env? i = some e) (k : Cost) (pc : VAddr) :
    (e.mark k).s.goto (e.mark k).r pc = e.moved k pc := by
  rw [Env.left_mark h k]
  rfl

/-- Away from the reconvergence point a transfer moves the pc alone. -/
theorem Env.moved_straight {s : State} {i : Instr} {e : Env} (h : s.env? i = some e) (k : Cost) (pc : VAddr) (hs : e.straight pc) :
    e.moved k pc = e.jumped k pc :=
  Env.goto_left h k _ _ pc rfl hs

/-- In a context without a mapping, away from the reconvergence point, the registers and the pc change. -/
theorem Env.settled_plain {s : State} {i : Instr} {e : Env} (h : s.env? i = some e) (k : Cost) (R : RegFile) (hm : e.c.shmap = none)
    (hs : e.straight e.next) : e.settled k R = e.passed k R := by
  unfold Env.settled
  rw [shSync_unmapped (Env.left_ctx h k _ _) hm]
  exact Env.goto_left h k _ _ e.next rfl hs

/-! ### The frame -/

/-- Nothing of a mapped range is noted where the detector follows none. -/
theorem Env.noteReads_idle {e : Env} (uses : List VUse) (h : e.c.shmap = none ∨ e.f.spin.regs = none) : e.noteReads uses = e := by
  unfold Env.noteReads
  rcases h with h | h <;> simp [h]

theorem Env.damaged_sound {e : Env} (uses : List VUse) (reads : LaneReads) (h : e.c.damage = []) : e.damaged uses reads = none := by
  unfold Env.damaged
  simp [h]

theorem Env.heal_sound {e : Env} (uses : List VUse) (s : State) (h : e.c.damage = []) : e.heal uses s = s := by
  unfold Env.heal
  simp [h]

/-- A context of one strip needs nothing beyond what its launch has reserved. -/
theorem overfull_one {e : Env} (h : e.c.strips ≤ 1) (s : State) : e.overfull s = false := by
  unfold Env.overfull
  simp [Nat.not_lt.mpr h]

/-- Where the instruction fits, what it leaves is what it needs, and nothing is cut. -/
theorem Env.fits_need {e : Env} {k : Cost} {body : Env → State} {s' : State} (h : e.fits s') :
    (e.mark k).need body s' = s' ∧ e.overfull s' = false := by
  obtain ⟨_, h | ⟨h, hf⟩⟩ := h
  · have h' : (e.mark k).c.strips ≤ 1 := h
    exact ⟨by unfold Env.need; simp [h'], overfull_one h s'⟩
  · have h' : (s'.frag? (e.mark k).r).isSome = true := hf
    exact ⟨by unfold Env.need; simp [h'], h⟩

/-- Outside a handler, with no older word of a mapped register kept, writes leave nothing beside the registers. -/
theorem Env.landed_plain {e : Env} (uses : List VUse) (s : State) (hh : e.f.shadow = none)
    (hm : ∀ m, e.c.shmap = some m → m.olds = []) : e.landed uses s = s := by
  have h1 : e.ownWrites uses s = s := by
    unfold Env.ownWrites
    cases hc : e.c.shmap with
    | none => simp
    | some m => simp [hm m hc]
  unfold Env.landed Env.handlerWrote
  rw [h1]
  simp only [hh, Option.isNone_none, Bool.true_or, if_true]
  repeat' split
  all_goals rfl

/-- An instruction that leaves its fragment where it was has written nothing yet. -/
theorem Env.landed_waits {e : Env} (uses : List VUse) (s : State) {f : Frag} (hf : s.frag? e.r = some f) (hp : f.pc = e.f.pc) :
    e.landed uses s = s := by
  have h1 : e.ownWrites uses s = s := by
    unfold Env.ownWrites
    simp [hf, hp]
  unfold Env.landed Env.handlerWrote
  rw [h1]
  cases hc : s.ctx? e.r.ctx with
  | none => rfl
  | some c => cases hs : f.shadow <;> simp [hf, hp, hs]

/-- An instruction that writes no vector register, after which its fragment is gone, out of the handler, or at the same pc, leaves nothing beside. -/
theorem Env.landed_still {e : Env} (uses : List VUse) (s : State) (hu : uses.any (fun u => u.wr) = false)
    (h : ∀ f, s.frag? e.r = some f → f.shadow = none ∨ f.pc = e.f.pc) : e.landed uses s = s := by
  have h1 : e.ownWrites uses s = s := by
    unfold Env.ownWrites
    rw [hu]
    simp
  unfold Env.landed Env.handlerWrote
  rw [h1]
  cases hc : s.ctx? e.r.ctx with
  | none => rfl
  | some c =>
    cases hf : s.frag? e.r with
    | none => rfl
    | some f =>
      rcases h f hf with h | h
      · simp [h]
      · cases hs : f.shadow <;> simp [h, hs]

/-- An instruction that issues with nothing in its way, was ready, and does not need more storage than is free, has its own effect. -/
theorem issueR_next {i : Instr} {s : State} {e : Env} {uses : List VUse} (h : Issues i s e uses) (reads : LaneReads) (k : Env → Cost)
    (body : Env → State) (hfit : e.fits (body (e.mark (k e)))) :
    issueR i s uses reads k body = .next (e.landed uses (body (e.mark (k e)))) := by
  have hn := Env.fits_need (k := k e) (body := body) hfit
  have hi : e.i = i := (State.env?_spec h.env).2.2.2.2.2.2.2.2.2.2.2.2.1
  have hr : (maybeUnready i && (body (e.mark (k e))).unready e.r) = false := hi ▸ hfit.1
  unfold issueR
  simp only [h.env, h.regs, h.data, h.gathered, Env.noteReads_idle uses h.watch, Env.damaged_sound uses reads h.sound, hr, hn.1, hn.2,
    Env.heal_sound uses _ h.sound]
  simp

theorem issueK_next {i : Instr} {s : State} {e : Env} {uses : List VUse} (h : Issues i s e uses) (k : Env → Cost) (body : Env → State)
    (hfit : e.fits (body (e.mark (k e)))) : issueK i s uses k body = .next (e.landed uses (body (e.mark (k e)))) :=
  issueR_next h ownLane k body hfit

/-- Every instruction that a fragment executes leaves a next state. -/
theorem issueK_answers {i : Instr} {s : State} {e : Env} (h : s.env? i = some e) (uses : List VUse) (k : Env → Cost)
    (body : Env → State) : ∃ t, issueK i s uses k body = .next t := by
  unfold issueK issueR
  simp only [h]
  repeat' split
  all_goals exact ⟨_, rfl⟩

/-- A register use that R9 or R183 forbids traps. -/
theorem issueK_illegal {i : Instr} {s : State} {e : Env} (h : s.env? i = some e) {uses : List VUse} (k : Env → Cost) (body : Env → State)
    (hu : (uses.all fun u => u.ok e.l.hdr.vregs) = false) : issueK i s uses k body = .next e.illegal := by
  unfold issueK issueR
  simp [h, hu]

theorem guarded_pass {e : Env} {g : Guard} (h : e.pass g ≠ 0) (body : Lanes → State) : e.guarded g body = body (e.pass g) := by
  unfold Env.guarded
  simp only [h, if_false]

theorem guarded_none {e : Env} {g : Guard} (h : e.pass g = 0) (body : Lanes → State) : e.guarded g body = e.done e.s := by
  unfold Env.guarded
  simp [h]

end Sys2Proof.Machine
end

