-- ==== Sys2Proof/Laws/Mem.lean ====
section
/-! SUPPORT. Laws of sparse tables and of memory: what a read gives after a write, and that every memory operation keeps the canonical form. -/

namespace Sys2Proof.Machine

open Sys2Proof

/-! ### Sparse tables -/

theorem SMap.get?_set_same {α : Type} (m : SMap α) (a : Nat) (x : α) : (SMap.set m a x).get? a = some x := by
  induction m with
  | nil => simp [SMap.set, SMap.get?]
  | cons h t ih =>
    simp only [SMap.set]
    split
    · simp [SMap.get?]
    · split
      · simp [SMap.get?]
      · rename_i h1 _
        simp [SMap.get?, h1, ih]

theorem SMap.get?_set_other {α : Type} (m : SMap α) (a b : Nat) (x : α) (h : b ≠ a) :
    (SMap.set m a x).get? b = m.get? b := by
  induction m with
  | nil => simp [SMap.set, SMap.get?, Ne.symm h]
  | cons p t ih =>
    simp only [SMap.set]
    split
    · rename_i hk
      subst hk
      simp [SMap.get?, Ne.symm h]
    · split
      · simp [SMap.get?, Ne.symm h]
      · simp only [SMap.get?, ih]

@[simp] theorem SMap.getD_set_same {α : Type} (m : SMap α) (a : Nat) (x d : α) : (SMap.set m a x).getD a d = x := by
  simp [SMap.getD, SMap.get?_set_same]

theorem SMap.getD_set_other {α : Type} (m : SMap α) (a b : Nat) (x d : α) (h : b ≠ a) :
    (SMap.set m a x).getD b d = m.getD b d := by
  simp [SMap.getD, SMap.get?_set_other m a b x h]

/-- The first key of a sorted table is below every later one. -/
def SMap.above {α : Type} (a : Nat) : SMap α → Bool
  | [] => true
  | (k, _) :: _ => decide (a < k)

theorem SMap.sorted_cons {α : Type} (a : Nat) (x : α) (m : SMap α) :
    SMap.sorted ((a, x) :: m) = (SMap.above a m && SMap.sorted m) := by
  cases m with
  | nil => rfl
  | cons p t => rfl

theorem SMap.above_set {α : Type} (m : SMap α) (a b : Nat) (x : α) (h : a < b) (hm : SMap.above a m = true) :
    SMap.above a (SMap.set m b x) = true := by
  cases m with
  | nil => simp [SMap.set, SMap.above, h]
  | cons p t =>
    obtain ⟨k, v⟩ := p
    simp only [SMap.set]
    split
    · simp [SMap.above, h]
    · split
      · simp [SMap.above, h]
      · exact hm

theorem SMap.sorted_set {α : Type} (m : SMap α) (a : Nat) (x : α) (h : SMap.sorted m = true) :
    SMap.sorted (SMap.set m a x) = true := by
  induction m with
  | nil => rfl
  | cons p t ih =>
    obtain ⟨k, v⟩ := p
    rw [SMap.sorted_cons] at h
    simp only [Bool.and_eq_true] at h
    simp only [SMap.set]
    split
    · rename_i hk
      subst hk
      rw [SMap.sorted_cons]
      simp [h.1, h.2]
    · split
      · rename_i h1 h2
        rw [SMap.sorted_cons, SMap.sorted_cons, h.1, h.2]
        simp [SMap.above, h2]
      · rename_i h1 h2
        rw [SMap.sorted_cons, ih h.2, SMap.above_set t k a x (by omega) h.1]
        rfl

theorem SMap.above_mono {α : Type} (m : SMap α) (a b : Nat) (h : a < b) (hm : SMap.above b m = true) :
    SMap.above a m = true := by
  cases m with
  | nil => rfl
  | cons p t => simp only [SMap.above, decide_eq_true_eq] at *; omega

theorem SMap.above_erase {α : Type} (m : SMap α) (a b : Nat) (hm : SMap.above a m = true) (hs : SMap.sorted m = true) :
    SMap.above a (SMap.erase m b) = true := by
  induction m with
  | nil => rfl
  | cons p t ih =>
    rw [SMap.sorted_cons] at hs
    simp only [Bool.and_eq_true] at hs
    simp only [SMap.erase]
    split
    · exact ih (SMap.above_mono t a p.1 (by simpa [SMap.above] using hm) hs.1) hs.2
    · exact hm

theorem SMap.sorted_erase {α : Type} (m : SMap α) (a : Nat) (h : SMap.sorted m = true) :
    SMap.sorted (SMap.erase m a) = true := by
  induction m with
  | nil => rfl
  | cons p t ih =>
    rw [SMap.sorted_cons] at h
    simp only [Bool.and_eq_true] at h
    simp only [SMap.erase]
    split
    · exact ih h.2
    · rw [SMap.sorted_cons, ih h.2, SMap.above_erase t p.1 a h.1 h.2]
      rfl

theorem SMap.get?_erase_same {α : Type} (m : SMap α) (a : Nat) : (SMap.erase m a).get? a = none := by
  induction m with
  | nil => rfl
  | cons p t ih =>
    simp only [SMap.erase]
    split
    · exact ih
    · rename_i h
      simp [SMap.get?, h, ih]

theorem SMap.get?_erase_other {α : Type} (m : SMap α) (a b : Nat) (hab : b ≠ a) : (SMap.erase m a).get? b = m.get? b := by
  induction m with
  | nil => rfl
  | cons p t ih =>
    simp only [SMap.erase]
    split
    · rename_i hk
      subst hk
      simp [SMap.get?, Ne.symm hab, ih]
    · simp only [SMap.get?, ih]

theorem SMap.all_set {α : Type} (p : Nat × α → Bool) (m : SMap α) (a : Nat) (x : α) (hx : p (a, x) = true) (h : m.all p = true) :
    (SMap.set m a x).all p = true := by
  induction m with
  | nil => simp [SMap.set, hx]
  | cons q t ih =>
    obtain ⟨k, v⟩ := q
    simp only [List.all_cons, Bool.and_eq_true] at h
    simp only [SMap.set]
    split
    · simp [hx, h.2]
    · split
      · simp [hx, h.1, h.2]
      · simp [h.1, ih h.2]

theorem SMap.all_erase {α : Type} (p : Nat × α → Bool) (m : SMap α) (a : Nat) (h : m.all p = true) : (SMap.erase m a).all p = true := by
  induction m with
  | nil => rfl
  | cons q t ih =>
    simp only [List.all_cons, Bool.and_eq_true] at h
    simp only [SMap.erase]
    split
    · exact ih h.2
    · simp [h.1, ih h.2]

theorem SMap.above_filter {α : Type} (p : Nat × α → Bool) (m : SMap α) (a : Nat) (h : SMap.above a m = true) (hs : SMap.sorted m = true) :
    SMap.above a (m.filter p) = true := by
  induction m generalizing a with
  | nil => rfl
  | cons q t ih =>
    obtain ⟨k, v⟩ := q
    rw [SMap.sorted_cons] at hs
    simp only [Bool.and_eq_true] at hs
    simp only [SMap.above, decide_eq_true_eq] at h
    rw [List.filter_cons]
    split
    · simp [SMap.above, h]
    · exact SMap.above_mono _ _ _ h (ih k hs.1 hs.2)

theorem SMap.sorted_filter {α : Type} (p : Nat × α → Bool) (m : SMap α) (h : SMap.sorted m = true) :
    SMap.sorted (m.filter p : SMap α) = true := by
  induction m with
  | nil => rfl
  | cons q t ih =>
    obtain ⟨k, v⟩ := q
    rw [SMap.sorted_cons] at h
    simp only [Bool.and_eq_true] at h
    rw [List.filter_cons]
    split
    · exact (SMap.sorted_cons k v _).trans (by rw [ih h.2, SMap.above_filter p t k h.1 h.2]; rfl)
    · exact ih h.2

/-! ### Memory -/

theorem Mem.empty_wf : Mem.empty.wf = true := rfl

@[simp] theorem Mem.write_epoch (m : Mem) (a : Nat) (b : Byte) : (m.write a b).epoch = m.epoch := by
  unfold Mem.write; split <;> rfl

/-- A write keeps the canonical form. -/
theorem Mem.write_wf (m : Mem) (a : Nat) (b : Byte) (h : m.wf = true) : (m.write a b).wf = true := by
  simp only [Mem.wf, Bool.and_eq_true] at h
  unfold Mem.write
  split
  · simp only [Mem.wf, Bool.and_eq_true]
    exact ⟨SMap.sorted_erase _ _ h.1, SMap.all_erase _ _ _ h.2⟩
  · rename_i hb
    simp only [Mem.wf, Bool.and_eq_true]
    exact ⟨SMap.sorted_set _ _ _ h.1, SMap.all_set _ _ _ _ (by simpa using hb) h.2⟩

/-- A read after a write to the same address gives the byte written. -/
theorem Mem.read_write_same (m : Mem) (a : Nat) (b : Byte) : (m.write a b).read a = b := by
  unfold Mem.write
  split
  · rename_i hb
    simp [Mem.read, SMap.get?_erase_same, ← hb]
  · simp [Mem.read, SMap.get?_set_same]

/-- A write leaves every other address alone. -/
theorem Mem.read_write_other (m : Mem) (a c : Nat) (b : Byte) (hc : c ≠ a) : (m.write a b).read c = m.read c := by
  unfold Mem.write
  split
  · simp [Mem.read, SMap.get?_erase_other _ _ _ hc]
  · simp [Mem.read, SMap.get?_set_other _ _ _ _ hc]

theorem Mem.writeBytes_wf (m : Mem) (a : Nat) (bs : List Byte) (h : m.wf = true) : (m.writeBytes a bs).wf = true := by
  induction bs generalizing m a with
  | nil => exact h
  | cons b bs ih => exact ih _ _ (Mem.write_wf m a b h)

theorem Mem.writeCells_wf (m : Mem) (l : List (Nat × Byte)) (h : m.wf = true) : (m.writeCells l).wf = true := by
  induction l generalizing m with
  | nil => exact h
  | cons p l ih => exact ih _ (Mem.write_wf m p.1 p.2 h)

/-- Bytes outside those written read as before. -/
theorem Mem.read_writeBytes_other (m : Mem) (a c : Nat) (bs : List Byte) (hc : c < a ∨ a + bs.length ≤ c) :
    (m.writeBytes a bs).read c = m.read c := by
  induction bs generalizing m a with
  | nil => rfl
  | cons b bs ih =>
    simp only [List.length_cons] at hc
    simp only [Mem.writeBytes]
    rw [ih (m.write a b) (a + 1) (by omega), Mem.read_write_other m a c b (by omega)]

/-- The bytes written are read back. -/
theorem Mem.read_writeBytes (m : Mem) (a i : Nat) (bs : List Byte) (hi : i < bs.length) :
    (m.writeBytes a bs).read (a + i) = bs[i] := by
  induction bs generalizing m a i with
  | nil => simp at hi
  | cons b bs ih =>
    cases i with
    | zero =>
      simp only [Mem.writeBytes, Nat.add_zero, List.getElem_cons_zero]
      rw [Mem.read_writeBytes_other _ _ _ _ (by omega), Mem.read_write_same m a b]
    | succ i =>
      simp only [List.length_cons] at hi
      have := ih (m.write a b) (a + 1) i (by omega)
      simp only [Mem.writeBytes, List.getElem_cons_succ]
      rw [← this]
      congr 1
      omega

theorem Mem.readBytes_writeBytes (m : Mem) (a : Nat) (bs : List Byte) : (m.writeBytes a bs).readBytes a bs.length = bs := by
  induction bs generalizing m a with
  | nil => rfl
  | cons b bs ih =>
    simp only [List.length_cons, Mem.readBytes, Mem.writeBytes]
    rw [Mem.read_writeBytes_other _ _ _ _ (by omega), Mem.read_write_same m a b, ih _ _]

theorem Mem.zero_wf (m : Mem) (a n : Nat) (h : m.wf = true) : (m.zero a n).wf = true := by
  unfold Mem.zero
  split
  · simp only [Mem.wf, Bool.and_eq_true] at h ⊢
    refine ⟨SMap.sorted_filter _ _ h.1, ?_⟩
    rw [List.all_filter]
    have h2 := List.all_eq_true.mp h.2
    exact List.all_eq_true.mpr fun x hx => by simp [h2 x hx]
  · exact Mem.writeBytes_wf m a _ h

end Sys2Proof.Machine
end

