-- ==== Sys2Proof/Tests/Slice0.lean ====
section
/-! SUPPORT. Tests: words written out from the spec's encodings, terms that are not well formed, worked examples of the spec, and for every
statement with hypotheses a witness that meets them. -/

namespace Sys2Proof.Tests

open Sys2Proof Sys2Proof.Machine Sys2Proof.Claims

set_option Elab.async false

/-! ### Decoding (words printed in the entries of the instructions) -/

def g0 : Guard := ⟨0, false⟩
def o0 : LOpt := ⟨g0, false, none⟩
def reads (ws : List W32) (i : Instr) : Bool := decide (decode ws = .ok (i, 4 * ws.length) ∧ encodeWords i = ws)

/-- R240 `nop`, bit by bit: b = 0x1C4 >> 0 spread over [35:27], a 452, d 452, nw 0, opcode 1; word 1 holds c = 452 and a zero modifier. -/
theorem test_nop_bits : reads [0b00100111000100111000100000000001#32, 0b00000000000000000001110001001110#32] (.nop g0) = true := by decide +kernel

theorem test_control_words :
    reads [0x00010102, 0x00000100] (.bra ⟨1, false, false, 4, 4⟩) = true ∧ reads [0x00010004, 0x00000000] (.callDirect 4) = true ∧
    reads [0x27138805, 0x00001C4E] .ret = true ∧ reads [0x78238809, 0x00001C40] (.region (some (8, 15))) = true ∧
    reads [0x2713880B, 0x00601C4E] (.brk 3 g0) = true ∧ reads [0x2710040E, 0x00001C4E] (.elect 2 g0) = true ∧
    reads [0x2024080F, 0x00001C4E] (.matchKeys .i32 ⟨4, false⟩ (.v 9) g0) = true ∧ reads [0x26238811, 0x00001C4E] (.launch (.k 8) g0) = true ∧
    reads [0x862B1014, 0x00000170] (.shmap ⟨some 8, false⟩ (some 10) (some (16, 23))) = true := by decide +kernel

theorem test_system_words :
    reads [0x27100A17, 0x00001C4E] (.mat ⟨5, false⟩ false) = true ∧ reads [0x20171018, 0x00001C4E] (.rep ⟨8, false⟩ false 5) = true ∧
    reads [0x2713101A, 0x01401C4E] (.getsr ⟨8, false⟩ .image g0) = true ∧ reads [0x2627881B, 0x00401C4E] (.setsr .clayer 9 g0) = true ∧
    reads [0x2713101C, 0x00201C4E] (.tickS ⟨8, false⟩ g0) = true ∧ reads [0x27131021, 0x01801C4E] (.ctr ⟨8, false⟩ 12 g0) = true := by decide +kernel

theorem test_integer_words :
    reads [0x40180830, 0x000C1C40] (.add ⟨.n64, .v 4, .v 6, .reg (.v 8), o0⟩) = true ∧
    reads [0x10040837, 0x00001C40] (.div ⟨.i32, .v 4, .v 1, .reg (.v 2), o0⟩) = true ∧
    reads [0x4018083F, 0x00681C40] (.lea ⟨⟨.i64, .v 4, .v 6, .reg (.v 8), o0⟩, 3⟩) = true ∧
    reads [0x20040646, 0x80041C40] (.shr ⟨.n32, .v 3, .v 1, .imm 4, o0⟩) = true ∧
    reads [0x10040A51, 0x00000030] (.sel ⟨⟨.i32, .v 5, .v 1, .reg (.v 2), o0⟩, 3, false⟩) = true ∧
    reads [0x271C0652, 0x80401C43] (.cmp ⟨.lt, .i32, 3, .iidx, .imm 100, g0, none⟩) = true ∧
    reads [0x07131254, 0x00000005] (.movi ⟨.k 9, 5, g0, false⟩) = true ∧
    reads [0x1004065A, 0x00180040] (.dp4 ⟨⟨.i8x4, .v 3, .v 1, .reg (.v 2), .v 4, o0⟩, 0, false⟩) = true := by decide +kernel

theorem test_predicate_words :
    reads [0x10040661, 0x00401C40] (.por ⟨3, 1, 2, false, true, g0⟩) = true ∧ reads [0x200F1066, 0x00001C4E] (.pcnt ⟨8, 3, g0, false⟩) = true := by
  decide +kernel

theorem test_float_words :
    reads [0x38180A70, 0x00001C40] (.fadd ⟨.f32, .v 5, .v 6, .v 7, o0⟩) = true ∧
    reads [0x10040A73, 0x00000030] (.fma ⟨.f32, .v 5, .v 1, .v 2, .v 3, o0⟩) = true ∧
    reads [0x20040879, 0x12001C4E] (.fcvt ⟨.f32, .f64, .v 4, .v 1, o0⟩) = true ∧
    reads [0x2018087E, 0x00041C4E] (.fsqrt ⟨.f64, .v 4, .v 6, o0⟩) = true := by decide +kernel

theorem test_cross_lane_words :
    reads [0x28040690, 0x80001C40] (.shfl ⟨.i32, 3, .v 1, .imm 5, o0⟩) = true ∧
    reads [0x20071096, 0x00401C4E] (.red ⟨.max, .int .i32, .k 8, .v 1, o0⟩) = true ∧
    reads [0x20040697, 0x0000002E] (.scan ⟨.add, .int .i32, 3, .v 1, some 2, o0⟩) = true ∧
    reads [0x2004089A, 0x0160008E] (.topk ⟨.f32, 4, 8, .v 1, 3, o0⟩) = true := by decide +kernel

theorem test_matrix_words :
    reads [0x60C100A1, 0x46038830] (.opa ⟨2, 3, false, false, 0, false, 0, .zero, 3, 12, 3, 8, g0⟩) = true ∧
    reads [0x203880A2, 0x4603880E] (.opc ⟨⟨2, false, g0⟩, 3⟩) = true ∧
    reads [0x41C200A4, 0x4003880E] (.areadRow ⟨⟨2, false, g0⟩, 16, 7, .lane⟩) = true ∧
    reads [0x203100A4, 0x4203880E] (.areadStatus ⟨⟨2, false, g0⟩, 8⟩) = true ∧
    reads [0x27F100AA, 0x400389FE] (.apromCvt ⟨⟨2, false, g0⟩, 8, 31, 31⟩) = true ∧
    reads [0x203880A8, 0x0003880E] .afence = true := by decide +kernel

theorem test_local_memory_words :
    reads [0x03C4E0F0, 0x0C05C4B1, 0x00000000] (.sts ⟨.v 3, .i32, false, .ctx, ⟨.v 2, 128, true⟩, g0⟩) = true ∧
    reads [0x138802B2, 0x400A4007] (.ldw ⟨1, ⟨2, .i32, true, .dev, ⟨.zero, 32, false⟩, g0⟩⟩) = true ∧
    reads [0x000CE0F0, 0x2F8802B5, 0x40010800] (.cas ⟨.i32, .rlx, true, .blk, none, some 2, .v 11, .v 12, ⟨.zero, 32, true⟩, g0⟩) = true ∧
    reads [0x27130AB6, 0x01401C4E] (.fence ⟨.rel, .dev, some 5, g0, false⟩) = true ∧
    reads [0x260388B7, 0x00401C4E] (.wait ⟨.cp, some 0, g0⟩) = true ∧ reads [0x582388B8, 0x00001C40] (.push 8 11) = true ∧
    reads [0x1311C4BA, 0x00100007] (.rmap 2 (some 8) g0) = true := by decide +kernel

theorem test_engine_words :
    reads [0x1305C4C0, 0x00000007] (.copy ⟨.k 2, 0, g0⟩) = true ∧ reads [0x1705C4C1, 0x00000100] (.gather ⟨.n32, some 2, .v 5, 0, g0⟩) = true ∧
    reads [0x280803C3, 0x00040100] (.xatom ⟨.add .n32, false, .pod, .v 3, .v 4, .v 10, g0⟩) = true ∧
    reads [0x0B11C4C5, 0x00000000] (.dred ⟨.add, .f32, .k 8, .v 2, g0⟩) = true ∧ reads [0x1389C4C7, 0x00200007] (.seal 4) = true := by
  decide +kernel

theorem test_queue_words :
    reads [0x200A02D0, 0x00000000] (.qpush ⟨some 2, .v 5, 8, g0⟩) = true ∧ reads [0x131388D1, 0x00000007] (.qfire (some 8) 9 g0) = true ∧
    reads [0x13198AD3, 0x00000007] (.eslotGet 10 12) = true ∧ reads [0x130588D5, 0x00000007] (.qdrain ⟨some 8, some 2, 0⟩) = true := by
  decide +kernel

/-- R229, R230: opcode 0 and a second leading word are no instructions. -/
theorem test_illegal_words : (decodeOrIll [0x00000000, 0x00000000]).1 = .ill ∧ (decodeOrIll [0x000000F0, 0x000000F0, 0]).1 = .ill := by
  decide +kernel

/-! ### Terms that are not well formed -/

theorem test_ill_formed :
    Instr.wellFormed (.region (some (9, 8))) = false ∧ Instr.wellFormed (.matchKeys .i32 ⟨5, false⟩ (.v 1) g0) = false ∧
    Instr.wellFormed (.matchKeys .i16x2 ⟨4, false⟩ (.v 1) g0) = false ∧ Instr.wellFormed (.regroup (.v 1) (some (0, 32))) = false ∧
    Instr.wellFormed (.rep ⟨0, false⟩ true 16) = false ∧ Instr.wellFormed (.add ⟨.i32, .v 0, .v 1, .imm 256, o0⟩) = false ∧
    Instr.wellFormed (.add ⟨.i32, .v 0, .v 1, .imm 0, ⟨g0, false, some ⟨0, true, none⟩⟩⟩) = false ∧
    Instr.wellFormed (.add ⟨.i32, .v 0, .v 1, .imm 0, ⟨g0, false, some ⟨0, false, some .rz⟩⟩⟩) = false ∧
    Instr.wellFormed (.lea ⟨⟨.i32, .v 0, .v 1, .imm 0, o0⟩, 32⟩) = false ∧ Instr.wellFormed (.bfx ⟨.i8x4, .v 0, .v 1, .imm 0, o0⟩) = false ∧
    Instr.wellFormed (.cvt ⟨.int .i32, .int .i32, false, .v 0, .v 1, o0⟩) = false ∧
    Instr.wellFormed (.pack ⟨.int .i32, .int .i16x2, false, .v 0, .v 1, .imm 0, .v 2, .zero, o0⟩) = false ∧
    Instr.wellFormed (.unpk ⟨.int .i16x2, .int .i32, false, 2, .v 0, .v 1, o0⟩) = false ∧
    Instr.wellFormed (.dp4 ⟨⟨.i32, .v 0, .v 1, .imm 0, .v 2, o0⟩, 0, false⟩) = false := by decide +kernel

theorem test_ill_formed_more :
    Instr.wellFormed (.fcvt ⟨.f32, .f32, .v 0, .v 1, o0⟩) = false ∧ Instr.wellFormed (.fsin ⟨.f64, .v 0, .v 2, o0⟩) = false ∧
    Instr.wellFormed (.red ⟨.xor, .fp .f32, .v 0, .v 1, o0⟩) = false ∧ Instr.wellFormed (.ballot ⟨.v 3, 0, o0⟩) = false ∧
    Instr.wellFormed (.topk ⟨.i32, 3, 3, .v 1, 0, o0⟩) = false ∧ Instr.wellFormed (.fmt (.imm 0x5) g0) = false ∧
    Instr.wellFormed (.opa ⟨0, 0, false, false, 0, false, 0, .idx, 0, 0, 0, 0, g0⟩) = false ∧
    Instr.wellFormed (.lds ⟨0, .i32, false, .ctx, ⟨.zero, 64, false⟩, g0⟩) = false ∧
    Instr.wellFormed (.atom ⟨.add .i8x4, .rlx, .blk, none, none, .v 0, ⟨.zero, 0, false⟩, g0⟩) = false ∧
    Instr.wellFormed (.cas ⟨.i32, .rlx, false, .blk, none, none, .v 0, .v 1, ⟨.zero, 0, false⟩, g0⟩) = false ∧
    Instr.wellFormed (.push 0 32) = false ∧ Instr.wellFormed (.gather ⟨.i8x4, none, .v 0, 0, g0⟩) = false ∧
    Instr.wellFormed (.xatom ⟨.add .i32, false, .dev, .zero, .v 3, .v 0, g0⟩) = false ∧
    Instr.wellFormed (.dred ⟨.add, .f32, .v 3, .v 0, g0⟩) = false ∧ Instr.wellFormed (.qpush ⟨none, .v 0, 6, g0⟩) = false := by decide +kernel

/-! ### States for the tests and the witnesses -/

/-- The machine after reset with one block of one fragment resident and chosen; the functions change its launch, block, context and
fragment. -/
def demo (fl : Launch → Launch := id) (fb : Block → Block := id) (fc : Ctx → Ctx := id) (ff : Frag → Frag := id) : State :=
  let s := State.reset.probe 64 0x00001C4E27138801
  { s with launches := s.launches.map fl, blocks := s.blocks.map fb, cur := some ⟨2, 0⟩
           ctxs := s.ctxs.map fun c => fc { c with frags := c.frags.map ff } }

/-- Its registers changed. -/
def demoR (fr : Regs → Regs) : State := demo (ff := fun f => { f with regs := fr f.regs })

/-- An instruction issues at a state with nothing in its way and `P` holds. -/
def hits (s : State) (i : Instr) (uses : List VUse) (P : Env → Bool := fun _ => true) : Bool :=
  match s.env? i with
  | some e => (uses.all fun u => u.ok e.l.hdr.vregs) && !e.blocked uses && (e.collect uses).isNone && (e.c.shmap.isNone || e.f.spin.regs.isNone) &&
      e.c.damage.isEmpty && P e
  | none => false

theorem of_hits {s : State} {i : Instr} {uses : List VUse} {P : Env → Bool} (h : hits s i uses P = true) :
    ∃ e, Issues i s e uses ∧ P e = true := by
  unfold hits at h
  cases he : s.env? i with
  | none => simp [he] at h
  | some e =>
    simp only [he, Bool.and_eq_true, Bool.or_eq_true, Bool.not_eq_true', List.isEmpty_iff, Option.isNone_iff_eq_none] at h
    exact ⟨e, ⟨he, h.1.1.1.1.1, h.1.1.1.1.2, h.1.1.1.2, h.1.1.2, h.1.2⟩, h.2⟩

/-- The same for a row that its environment gives. -/
def hitsRow {α : Type} (s : State) (i : Instr) (row : Env → Option α) (uses : α → List VUse) (P : Env → α → Bool) : Bool :=
  match s.env? i with
  | some e =>
    match row e with
    | some x => ((uses x).all fun u => u.ok e.l.hdr.vregs) && !e.blocked (uses x) && (e.collect (uses x)).isNone &&
        (e.c.shmap.isNone || e.f.spin.regs.isNone) && e.c.damage.isEmpty && P e x
    | none => false
  | none => false

theorem of_hitsRow {α : Type} {s : State} {i : Instr} {row : Env → Option α} {uses : α → List VUse} {P : Env → α → Bool}
    (h : hitsRow s i row uses P = true) : ∃ e x, row e = some x ∧ Issues i s e (uses x) ∧ P e x = true := by
  unfold hitsRow at h
  cases he : s.env? i with
  | none => simp [he] at h
  | some e =>
    cases hr : row e with
    | none => simp [he, hr] at h
    | some x =>
      simp only [he, hr, Bool.and_eq_true, Bool.or_eq_true, Bool.not_eq_true', List.isEmpty_iff, Option.isNone_iff_eq_none] at h
      exact ⟨e, x, hr, ⟨he, h.1.1.1.1.1, h.1.1.1.1.2, h.1.1.1.2, h.1.1.2, h.1.2⟩, h.2⟩

/-- Both again, with a decidable proposition. -/
theorem issues_with {s : State} {i : Instr} {uses : List VUse} {P : Env → Prop} [DecidablePred P]
    (h : hits s i uses (fun e => decide (P e)) = true) : ∃ e, Issues i s e uses ∧ P e := by
  have ⟨e, a, b⟩ := of_hits h
  exact ⟨e, a, of_decide_eq_true b⟩

theorem row_with {α : Type} {s : State} {i : Instr} {row : Env → Option α} {uses : α → List VUse} {P : Env → α → Prop}
    [∀ e x, Decidable (P e x)] (h : hitsRow s i row uses (fun e x => decide (P e x)) = true) :
    ∃ e x, row e = some x ∧ Issues i s e (uses x) ∧ P e x := by
  have ⟨e, x, a, b, c⟩ := of_hitsRow h
  exact ⟨e, x, a, b, of_decide_eq_true c⟩

/-- A fragment of a state at which `P` holds. -/
def atFrag (s : State) (r : FragRef) (P : Ctx → Frag → Bool) : Bool :=
  match s.ctx? r.ctx with
  | some c =>
    match c.frag? r.frag with
    | some f => P c f
    | none => false
  | none => false

theorem frag_with {s : State} {r : FragRef} {P : Ctx → Frag → Prop} [∀ c f, Decidable (P c f)]
    (h : atFrag s r (fun c f => decide (P c f)) = true) : ∃ c f, s.ctx? r.ctx = some c ∧ c.frag? r.frag = some f ∧ P c f := by
  unfold atFrag at h
  cases hc : s.ctx? r.ctx with
  | none => simp [hc] at h
  | some c =>
    cases hf : c.frag? r.frag with
    | none => simp [hc, hf] at h
    | some f => exact ⟨c, f, rfl, hf, by simpa [hc, hf] using h⟩

/-- What an option holds meets `P`. -/
theorem some_with {α : Type} {o : Option α} {P : α → Prop} [DecidablePred P] (h : o.any (fun x => decide (P x)) = true) :
    ∃ x, o = some x ∧ P x := by
  cases o with
  | none => simp at h
  | some x => exact ⟨x, rfl, by simpa using h⟩

/-! ### Worked examples of the spec -/

/-- R15, the worked example: wrapped and aligned addresses in an allocation of 4,096 bytes. -/
theorem test_effective_addresses :
    [effAddr 4096 4 8 0, effAddr 4096 4 4104 0, effAddr 4096 4 5003 0, effAddr 4096 4 0 (-4), effAddr 4096 8 6 0, effAddr (2 ^ 20) 8 0x04000007 0] =
      [8, 8, 904, 4092, 0, 0] := by decide

/-- The registers v8 to v11 of the example of R74. -/
def spillDemo : State :=
  demo (fc := fun c => { c with mat := [(10, (List.range 64).map fun i => BitVec.ofNat 32 (1000 + i)),
      (11, (List.range 64).map fun i => BitVec.ofNat 32 (i * 0x10000))] })
    (ff := fun f => { f with regs := { f.regs with vtags := [(8, .uni 7), (9, .aff 0x100 4), (10, .mat), (11, .mat)] } })

/-- R72 to R74, the worked example: 348 bytes, the header 0x015C0608, the formats 0, 1, 2 and 4, and what `pop` reads. -/
theorem test_record_group :
    hits spillDemo (.push 8 11) [] (fun e =>
      let bs := e.spillGroup 8 11 0
      bs.length == 348 && natOfBytes (bs.take 4) == 0x015C0608 && natOfBytes (bs.drop 344) == 0x015C0608 &&
        (bs.drop 4).take 20 == ([0x00, 0x01, 0x02, 0x04, 0x07, 0, 0, 0, 0x00, 0x01, 0, 0, 0x04, 0, 0, 0, 0xE8, 0x03, 0, 0] : List Byte) &&
        bs.getD 24 0 == 0 && bs.getD 87 0 == 0x3F && natOfBytes ((bs.drop 340).take 4) == 0x003F0000) = true := by decide +kernel

/-- R203, R195, the worked case of the promotion interval: +0 with p = 2 and 1.0 with p = 1. -/
def promoted (p : Nat) : W32 :=
  let term (pos : Nat) (x y : Nat) : OpaTerm := ⟨pos, [BitVec.ofNat 32 x], [BitVec.ofNat 32 y], 0⟩
  let q : OpaParams := ⟨BitVec.ofNat 32 (0x22 + (p - 1) * 0x100), 1, 1, false, false, 0, 0⟩
  ((⟨0, some 0, [], false, [], []⟩ : TileInst).apply
    ⟨1, 3, some q, 0, [term 0 0x4480 0x4480, term 16 0x3F80 0x3F80, term 32 0xC480 0x4480], [], some 0⟩).word 0

theorem test_promotion_interval : promoted 2 = 0 ∧ promoted 1 = 0x3F800000 := by decide +kernel

/-- R205: a NaN result of a reduction is the canonical NaN, whatever the order. -/
theorem test_reduction_nan :
    addF fp32 .rne (addF fp32 .rne 0x7F800000 0xFF800000) 0xFFA00001 = 0x7FC00000 ∧
    addF fp32 .rne 0x7F800000 (addF fp32 .rne 0xFF800000 0xFFA00001) = 0x7FC00000 ∧
    addF fp32 .rne (addF fp32 .rne 0x7F800000 0xFFA00001) 0xFF800000 = 0x7FC00000 := by decide +kernel

/-- R49: the leaf of the worked example, valid, readable and writable, with its frame. -/
theorem test_leaf_fields :
    leafValid 0x30A800008000140F = true ∧ leafRd 0x30A800008000140F = true ∧ leafTier 0x30A800008000140F = 0 ∧
    leafPhys 0x30A800008000140F 0x4000014000 = 0x800014000 := by decide +kernel

/-! ### Witnesses: encoding, the step, reset -/

theorem unassigned_opcodes : [0x00, 0x22, 0x2F, 0x5B, 0x9B, 0xBF, 0xD6, 0xFF].all (fun n => !assigned n) = true ∧ assigned 0xF0 = false := by decide

theorem well_formed_instruction : ∃ i : Instr, i.wellFormed = true ∧ i.isEvent = false :=
  ⟨.add ⟨.i32, .v 383, .v 0, .imm 255, o0⟩, by decide⟩

theorem word_that_decodes : ∃ ws i n, decode ws = .ok (i, n) := ⟨[0x27138801, 0x00001C4E], .nop g0, 8, by decide +kernel⟩

/-- The first two words at the pc of `demo` are those of `nop`, and then of no instruction. -/
def fetched (s : State) : Bool :=
  match s.livePicks with
  | [r] =>
    match s.ctx? r.ctx, s.frag? r with
    | some c, some f =>
      match s.fetchCode c.core (s.ctxTcid c) f.pc with
      | .ok _ => s.script.isEmpty && !s.mgmt.stopped
      | .error _ => false
    | _, _ => false
  | _ => false

theorem of_fetched {s : State} (h : fetched s = true) :
    ∃ r rest c f ws, s.script = [] ∧ s.mgmt.stopped = false ∧ s.livePicks = r :: rest ∧ s.ctx? r.ctx = some c ∧ s.frag? r = some f ∧
      s.fetchCode c.core (s.ctxTcid c) f.pc = .ok ws := by
  unfold fetched at h
  split at h
  · rename_i r hr
    split at h
    · rename_i c f hc hf
      split at h
      · rename_i ws hw
        simp only [Bool.and_eq_true, List.isEmpty_iff, Bool.not_eq_true'] at h
        exact ⟨r, [], c, f, ws, h.1, h.2, hr, hc, hf, hw⟩
      · simp at h
    · simp at h
  · simp at h

theorem step_has_an_instruction :
    (∃ r rest c f ws, demo.script = [] ∧ demo.mgmt.stopped = false ∧ demo.livePicks = r :: rest ∧ demo.ctx? r.ctx = some c ∧
      demo.frag? r = some f ∧ demo.fetchCode c.core (demo.ctxTcid c) f.pc = .ok ws) ∧
    decode [0x27138801, 0x00001C4E] = .ok (.nop g0, 8) ∧ (match decode [0, 0] with | .error _ => true | .ok _ => false) = true :=
  ⟨of_fetched (by decide +kernel), by decide +kernel, by decide +kernel⟩

/-- A latch, or a stop, that is due. -/
theorem boundaries_due :
    (let s : State := { State.reset with mgmt := { State.reset.mgmt with solstice := some 0 } }
     s.picks = [] ∧ s.boundaryDue = true ∧ s.mgmt.stopped = false ∧ s.solsticeDue = true) ∧
    (let s : State := { State.reset with mgmt := { State.reset.mgmt with stopAt := some 0 } }
     s.picks = [] ∧ s.boundaryDue = true ∧ s.mgmt.stopped = false ∧ s.solsticeDue = false) := by decide +kernel

theorem clocked_machine : State.reset.script = [] ∧ State.reset.mgmt.stopped = false := by decide +kernel

/-- Equinox stop, with the debug port open and a script of inputs. -/
def gated (inputs : List Instr) : State := { State.reset with script := inputs, mgmt := { State.reset.mgmt with stopped := true, portOpen := true } }

theorem stopped_machines :
    ((gated []).mgmt.stopped = true ∧ (gated []).script = []) ∧
    (∃ i rest, (gated [.thawEnd]).mgmt.stopped = true ∧ (gated [.thawEnd]).script = i :: rest ∧ i ≠ .packageReset ∧ i ≠ .debugScanOut) ∧
    (∃ rest, (gated [.packageReset]).mgmt.stopped = true ∧ (gated [.packageReset]).script = .packageReset :: rest) ∧
    (∃ rest, (gated [.debugScanOut]).mgmt.stopped = true ∧ (gated [.debugScanOut]).mgmt.portOpen = true ∧
      (gated [.debugScanOut]).script = .debugScanOut :: rest) :=
  ⟨by decide +kernel, ⟨.thawEnd, [], by decide +kernel⟩, ⟨[], by decide +kernel⟩, ⟨[], by decide +kernel⟩⟩

/-! ### Witnesses: rows on registers -/

def addDemo (g : Guard) : Alu2 := ⟨.i32, .v 2, .v 0, .reg (.k 4), ⟨g, false, none⟩⟩

/-- A computing row at a state, with its guard. -/
def addAt (g : Guard) : Alu := aluAdd (addDemo g)

theorem computing_row_issues :
    (computes (.add (addDemo g0)) = some (addAt g0) ∧ ∃ e, Issues (.add (addDemo g0)) demo e (addAt g0).uses ∧ e.view.guard g0 ≠ .uni false ∧
      e.fits (e.settled ((addAt g0).cost e) ((addAt g0).file (during e ((addAt g0).cost e)))) ∧
      e.c.shmap = none ∧ e.straight e.next ∧ e.fits (e.skipped ((addAt g0).cost e))) ∧
    (computes (.add (addDemo ⟨1, false⟩)) = some (addAt ⟨1, false⟩) ∧
      ∃ e, Issues (.add (addDemo ⟨1, false⟩)) demo e (addAt ⟨1, false⟩).uses ∧ e.view.guard ⟨1, false⟩ = .uni false ∧
      e.fits (e.skipped ((addAt ⟨1, false⟩).cost e))) ∧
    (∃ e, Issues (.add (addDemo ⟨1, false⟩)) (demoR fun r => { r with preds := r.preds.set 1 (.mat 0) }) e (addAt ⟨1, false⟩).uses ∧
      e.view.guard ⟨1, false⟩ ≠ .uni false ∧ e.pass ⟨1, false⟩ = 0 ∧
      e.fits (e.settled ((addAt ⟨1, false⟩).cost e) ((addAt ⟨1, false⟩).file (during e ((addAt ⟨1, false⟩).cost e))))) :=
  ⟨⟨rfl, issues_with (by decide +kernel)⟩, ⟨rfl, issues_with (by decide +kernel)⟩, issues_with (by decide +kernel)⟩

/-- The registers of a fragment of 64 items at its first instruction. -/
def demoView : View := ⟨false, 64, 1, 0, 0, 0, none, 64, [], Lanes.below 64, launchRegs (probeLaunch 1 0).desc, 0⟩

/-- Operands of `div`: a zero divisor, the most negative value by −1, and neither; and an item at which a row computes. -/
theorem integer_operands :
    (7 < 2 ^ IntTy.i32.bits ∧ (0 : Nat) < 2 ^ IntTy.i32.bits) ∧
    (IntTy.i64.signed = true ∧ (2 ^ 63 : Nat) = 2 ^ (IntTy.i64.bits - 1) ∧ (2 ^ 64 - 1 : Nat) = 2 ^ IntTy.i64.bits - 1) ∧
    ((0xF9 : Nat) < 2 ^ IntTy.i8x4.bits ∧ (2 : Nat) ≠ 0 ∧ ¬ (IntTy.i8x4.signed = true ∧ (0xF9 : Nat) = 2 ^ (IntTy.i8x4.bits - 1) ∧ (2 : Nat) = 2 ^ 8 - 1)) ∧
    (∃ x a f, scalar2 (.add (addDemo g0)) = some (x, a, f) ∧ x.ty.scalar = true) ∧
    (∃ x a f, scalar1 (.neg ⟨.n64, .v 2, .v 0, o0⟩) = some (x, a, f) ∧ x.ty.scalar = true) ∧
    (63 < demoView.n ∧ (Lanes.below 64).getLsbD 63 = true) :=
  ⟨by decide, by decide, by decide, ⟨addDemo g0, addAt g0, _, rfl, rfl⟩, ⟨⟨.n64, .v 2, .v 0, o0⟩, aluNeg ⟨.n64, .v 2, .v 0, o0⟩, _, rfl, rfl⟩,
    by decide +kernel⟩

theorem view_is_placed : Placed demoView := ⟨rfl, fun _ h => nomatch h⟩

theorem items_of_a_row :
    demoView.n = 64 * demoView.strips ∧ 63 < demoView.n ∧ 63 < demoView.exist ∧ (Lanes.below 64).getLsbD (64 * 0 + 63) = true ∧
    0 < demoView.strips ∧ (demoView.pass g0).getLsbD 0 = true ∧ demoView.own.getLsbD 63 = true ∧ (demoView.pass ⟨1, false⟩).getLsbD 0 = false ∧
    (computes (.add (addDemo g0))).isSome = true ∧ (addAt g0).dst.isSome = true ∧
    (aluCmp ⟨.lt, .i32, 3, .iidx, .imm 100, g0, none⟩).pdst.isSome = true := by decide +kernel

theorem nan_result :
    isNaNBits fp32 (addF fp32 .rne 0x7F800000 0xFF800000) = true ∧ isNaNBits fp16 (sqrtF fp16 .rz 0xBC00) = true ∧
    isNaNBits bf16 (viaF32 .bf16x2 sinF 0x7F80) = true ∧ isNaNBits fp16 (convF fp32 fp16 .rne 0x7FC00001) = true ∧ 1 < FTy.f16x2.elems := by
  decide +kernel

/-- R185, R227: with an unmasked result 7 of each item b0 holds 7, and items that the guard stops keep what the destination held. -/
theorem test_b0_value :
    (let R := demoView.write demoView.file o0 (demoView.pass g0) (.v 2) false false (.uni 7)
     R.regs.latches[0].any fun y => y.at 63 == 7) = true ∧
    (let V : View := { demoView with regs := { demoView.regs with preds := demoView.regs.preds.set 1 (.mat (Lanes.below 8)) } }
     let R := V.write V.file { o0 with g := ⟨1, false⟩, nw := true } (V.pass ⟨1, false⟩) (.v 2) false false (.uni 7)
     R.regs.latches[0].any fun y => y.at 7 == 7 && y.at 8 == (V.vec false 2).at 8) = true := by decide +kernel

theorem reduction_row : (RedInstr.mk .add (.int .i32) (.v 3) (.v 1) o0).op = .add ∧ (RedInstr.mk .add (.int .i32) (.v 3) (.v 1) o0).ty = .int .i32 :=
  ⟨rfl, rfl⟩

/-! ### Witnesses: traps -/

theorem illegal_row_issues : ∃ e, demo.env? .ill = some e ∧ 0 < e.c.width := by
  have ⟨e, h, p⟩ := issues_with (s := demo) (i := .ill) (uses := []) (P := fun e => 0 < e.c.width) (by decide +kernel)
  exact ⟨e, h.env, p⟩

/-- A launch with 8 vector registers. -/
def narrow : State := demo (fl := fun l => { l with hdr := { l.hdr with vregs := 8 } })

def highAdd : Alu := aluAdd ⟨.i32, .v 8, .v 0, .imm 0, o0⟩
def oddAdd : Alu := aluAdd ⟨.i64, .v 3, .v 0, .imm 0, o0⟩

theorem register_out_of_range :
    (computes (.add ⟨.i32, .v 8, .v 0, .imm 0, o0⟩) = some highAdd ∧
      ∃ e, narrow.env? (.add ⟨.i32, .v 8, .v 0, .imm 0, o0⟩) = some e ∧ ∃ u ∈ highAdd.uses, e.l.hdr.vregs < u.reg + u.count) ∧
    (computes (.add ⟨.i64, .v 3, .v 0, .imm 0, o0⟩) = some oddAdd ∧ ∃ u ∈ oddAdd.uses, u.even = true ∧ u.reg % 2 = 1) ∧
    (∃ u ∈ namedRegs (.lds ⟨8, .i32, false, .ctx, ⟨.v 2, 0, false⟩, g0⟩), 8 < u.reg + u.count) ∧
    (∃ u ∈ namedRegs (.qpush ⟨none, .v 5, 8, g0⟩), 8 < u.reg + u.count) ∧
    (∃ e, Issues (.opa ⟨2, 3, false, false, 0, false, 0, .zero, 3, 12, 3, 8, g0⟩) narrow e [] ∧
      (∃ u ∈ opaUses ⟨2, 3, false, false, 0, false, 0, .zero, 3, 12, 3, 8, g0⟩ e.f.regs.fmt, e.l.hdr.vregs < u.reg + u.count) ∧
      e.fits (e.s0.faultItems e.r 1 e.f.mask 0 fun _ => 0)) := by
  refine ⟨⟨rfl, ?_⟩, ⟨rfl, by decide⟩, by decide, by decide, issues_with (by decide +kernel)⟩
  have ⟨e, h, p⟩ := issues_with (s := narrow) (i := .add ⟨.i32, .v 8, .v 0, .imm 0, o0⟩) (uses := [])
    (P := fun e => ∃ u ∈ highAdd.uses, e.l.hdr.vregs < u.reg + u.count) (by decide +kernel)
  exact ⟨e, h.env, p⟩

/-- The state of a privilege trap. -/
def privileged (e : Env) : State := e.s0.faultItems e.r 2 e.f.mask 0 fun _ => 0

theorem privileged_rows :
    (∃ e, Issues .eret demo e [] ∧ e.inHandler = false ∧ e.fits (privileged e)) ∧
    (∃ e, Issues (.setsr .image 9 g0) demo e [] ∧ e.fits (privileged e)) ∧
    (∃ e, Issues (.tlbiVa 1 2 g0) demo e [] ∧ e.sup = false ∧ e.fits (privileged e)) ∧
    (∃ e, Issues (.tlbiTcid 2 g0) demo e [] ∧ e.sup = false ∧ e.fits (privileged e)) ∧
    (∃ e, Issues (.tlbiAll g0) demo e [] ∧ e.sup = false ∧ e.fits (privileged e)) ∧
    (∃ e, Issues (.pmap 1 2 g0) demo e [] ∧ e.sup = false ∧ e.fits (privileged e)) :=
  ⟨issues_with (by decide +kernel), issues_with (by decide +kernel), issues_with (by decide +kernel), issues_with (by decide +kernel),
    issues_with (by decide +kernel), issues_with (by decide +kernel)⟩

/-- A fragment in a handler; `owner` is the entry that vectored. -/
def handler (owner : Nat) : State :=
  demo (ff := fun f => { f with shadow := some ⟨owner, List.replicate 8 5, .uni true, .uni false, fmtReset, f.region, f.region.snap⟩ })

theorem fragments_that_fault :
    (∃ c f, demo.ctx? 2 = some c ∧ c.frag? 0 = some f ∧ f.shadow = none ∧ 63 < c.width ∧ f.mask.getLsbD 63 = true) ∧
    (∃ c f, (handler 0).ctx? 2 = some c ∧ c.frag? 0 = some f ∧ f.shadow.isSome = true ∧ 63 < c.width ∧ (Lanes.below 64).getLsbD 63 = true ∧
      f.mask.getLsbD 63 = true) :=
  ⟨frag_with (r := ⟨2, 0⟩) (by decide +kernel), frag_with (r := ⟨2, 0⟩) (by decide +kernel)⟩

theorem trap_issues :
    (∃ e, Issues (.trap 7 g0) demo e [] ∧ e.pass g0 ≠ 0 ∧ e.inHandler = false ∧ e.fits (vectored e (costC 1) 7 g0)) ∧
    (∃ e, Issues (.trap 7 g0) (handler 0) e [] ∧ e.pass g0 ≠ 0 ∧ e.inHandler = true ∧
      e.fits ((e.during (costC 1)).park e.r 10 2 (e.f.p14 e.c) { addr := 7, source := 4, tcid := e.l.tcid })) :=
  ⟨issues_with (by decide +kernel), issues_with (by decide +kernel)⟩

theorem eret_issues :
    (∃ e sh, e.f.shadow = some sh ∧ Issues .eret (handler 0) e [] ∧ sh.owner = e.f.id ∧ e.fits ((e.during (costC 1)).leaveHandler e.r)) ∧
    (∃ e sh, e.f.shadow = some sh ∧ Issues .eret (handler 1) e [] ∧ sh.owner ≠ e.f.id ∧ e.fits ((e.during (costC 1)).arrive e.r e.f.pc)) :=
  ⟨row_with (row := fun e => e.f.shadow) (uses := fun _ => []) (by decide +kernel),
    row_with (row := fun e => e.f.shadow) (uses := fun _ => []) (by decide +kernel)⟩

/-! ### Witnesses: registers and predicates beside the computing rows -/

theorem register_row_issues :
    (∃ e x, regRow e (.tick ⟨8, false⟩ g0) = some x ∧ Issues (.tick ⟨8, false⟩ g0) demo e x.uses ∧ x.off = false ∧ e.fits (e.settled x.k x.file) ∧
      e.fits (e.skipped x.k) ∧ e.c.shmap = none ∧ e.straight e.next) ∧
    (∃ e x, regRow e (.tickS ⟨8, false⟩ ⟨1, false⟩) = some x ∧ Issues (.tickS ⟨8, false⟩ ⟨1, false⟩) demo e x.uses ∧ x.off = true ∧
      e.fits (e.skipped x.k)) ∧
    (∃ e x, regRow e (.getsr ⟨8, false⟩ .image g0) = some x ∧ Issues (.getsr ⟨8, false⟩ .image g0) demo e x.uses ∧ e.fits (e.settled x.k x.file)) ∧
    (∃ e x, regRow e (.mat ⟨4, false⟩ true) = some x ∧ Issues (.mat ⟨4, false⟩ true) demo e x.uses ∧ e.fits (e.settled x.k x.file)) ∧
    (∃ e x, regRow e (.elect 2 g0) = some x ∧ Issues (.elect 2 g0) demo e x.uses ∧ e.fits (e.settled x.k x.file)) ∧
    (∃ e x, regRow e (.matchKeys .n64 ⟨4, false⟩ (.v 8) g0) = some x ∧ Issues (.matchKeys .n64 ⟨4, false⟩ (.v 8) g0) demo e x.uses ∧ e.fits (e.settled x.k x.file)) ∧
    (∃ e x, regRow e (.topk ⟨.f32, 4, 8, .v 1, 3, o0⟩) = some x ∧ Issues (.topk ⟨.f32, 4, 8, .v 1, 3, o0⟩) demo e x.uses ∧
      e.fits (e.settled x.k x.file)) ∧
    (∃ e x, regRow e (.areadRow ⟨⟨2, false, g0⟩, 16, 7, .lane⟩) = some x ∧ Issues (.areadRow ⟨⟨2, false, g0⟩, 16, 7, .lane⟩) demo e x.uses ∧
      e.fits (e.settled x.k x.file)) ∧
    (∃ e x, regRow e (.areadStatus ⟨⟨4, true, g0⟩, 8⟩) = some x ∧ Issues (.areadStatus ⟨⟨4, true, g0⟩, 8⟩) demo e x.uses ∧
      e.fits (e.settled x.k x.file)) :=
  ⟨row_with (row := fun e => regRow e (.tick ⟨8, false⟩ g0)) (uses := RegRow.uses) (by decide +kernel),
    row_with (row := fun e => regRow e (.tickS ⟨8, false⟩ ⟨1, false⟩)) (uses := RegRow.uses) (by decide +kernel),
    row_with (row := fun e => regRow e (.getsr ⟨8, false⟩ .image g0)) (uses := RegRow.uses) (by decide +kernel),
    row_with (row := fun e => regRow e (.mat ⟨4, false⟩ true)) (uses := RegRow.uses) (by decide +kernel),
    row_with (row := fun e => regRow e (.elect 2 g0)) (uses := RegRow.uses) (by decide +kernel),
    row_with (row := fun e => regRow e (.matchKeys .n64 ⟨4, false⟩ (.v 8) g0)) (uses := RegRow.uses) (by decide +kernel),
    row_with (row := fun e => regRow e (.topk ⟨.f32, 4, 8, .v 1, 3, o0⟩)) (uses := RegRow.uses) (by decide +kernel),
    row_with (row := fun e => regRow e (.areadRow ⟨⟨2, false, g0⟩, 16, 7, .lane⟩)) (uses := RegRow.uses) (by decide +kernel),
    row_with (row := fun e => regRow e (.areadStatus ⟨⟨4, true, g0⟩, 8⟩)) (uses := RegRow.uses) (by decide +kernel)⟩

/-! ### Witnesses: transfers, cuts and joins -/

/-- k12 set. -/
def withK12 (x : W64) : State := demoR fun r => { r with k := r.k.set 12 x }
/-- A return stack of n entries. -/
def withStack (n : Nat) : State := demoR fun r => { r with rstack := List.replicate n 0x2000 }
/-- A fragment with a parent and one running sibling. -/
def withSibling : State :=
  demo (fc := fun c => { c with frags := c.frags.flatMap fun f =>
    [{ f with parent := some 1, mask := Lanes.below 32 }, { f with id := 1, hasChildren := true },
     { f with id := 2, parent := some 1, mask := Lanes.below 64 &&& ~~~ Lanes.below 32 }] })

theorem transfers_issue :
    (∃ e t, transfer e (.nop g0) = some t ∧ Issues (.nop g0) demo e [] ∧ e.fits t) ∧
    (∃ e t, transfer e .afence = some t ∧ Issues .afence demo e [] ∧ e.fits t) ∧
    (∃ e t, transfer e (.jmpDirect 4) = some t ∧ Issues (.jmpDirect 4) demo e [] ∧ e.fits t) ∧
    (∃ e t, transfer e (.jmpIndirect 12) = some t ∧ Issues (.jmpIndirect 12) (withK12 0x3FFFFFFFFFFFFFC) e [] ∧ e.fits t) ∧
    (∃ e t, transfer e (.callDirect 4) = some t ∧ Issues (.callDirect 4) (withStack 15) e [] ∧ e.fits t) ∧
    (∃ e t, transfer e (.callIndirect 12) = some t ∧ Issues (.callIndirect 12) (withK12 0x1080) e [] ∧ e.fits t) ∧
    (∃ e t, transfer e .ret = some t ∧ Issues .ret (withStack 1) e [] ∧ e.fits t) ∧
    (∃ e t, transfer e (.loop 12 0xFFFFFE) = some t ∧ Issues (.loop 12 0xFFFFFE) (withK12 1) e [] ∧ e.fits t) ∧
    (∃ e t, transfer e .join = some t ∧ Issues .join demo e [] ∧ e.fits t) ∧
    (∃ e t, transfer e .join = some t ∧ Issues .join withSibling e [] ∧ e.f.parent = some 1 ∧ e.fits t) :=
  ⟨row_with (row := fun e => transfer e (.nop g0)) (uses := fun _ => []) (by decide +kernel),
    row_with (row := fun e => transfer e .afence) (uses := fun _ => []) (by decide +kernel),
    row_with (row := fun e => transfer e (.jmpDirect 4)) (uses := fun _ => []) (by decide +kernel),
    row_with (row := fun e => transfer e (.jmpIndirect 12)) (uses := fun _ => []) (by decide +kernel),
    row_with (row := fun e => transfer e (.callDirect 4)) (uses := fun _ => []) (by decide +kernel),
    row_with (row := fun e => transfer e (.callIndirect 12)) (uses := fun _ => []) (by decide +kernel),
    row_with (row := fun e => transfer e .ret) (uses := fun _ => []) (by decide +kernel),
    row_with (row := fun e => transfer e (.loop 12 0xFFFFFE)) (uses := fun _ => []) (by decide +kernel),
    row_with (row := fun e => transfer e .join) (uses := fun _ => []) (by decide +kernel),
    row_with (row := fun e => transfer e .join) (uses := fun _ => []) (by decide +kernel)⟩

theorem transfers_that_trap :
    (∃ e, Issues .ret demo e [] ∧ e.f.regs.rstack = [] ∧ e.fits (e.s0.faultItems e.r 1 e.f.mask 0 fun _ => 0)) ∧
    (∃ e, Issues (.jmpIndirect 12) (withK12 0x1042) e [] ∧ (e.k 12).toNat % 4 ≠ 0 ∧ e.fits (e.s0.faultItems e.r 1 e.f.mask 0 fun _ => 0)) ∧
    (∃ e, Issues (.callDirect 4) (withStack 16) e [] ∧ 16 ≤ e.f.regs.rstack.length ∧
      e.fits ((e.during (costC 1)).faultItems e.r 7 e.f.mask 0 fun _ => 0)) ∧
    (∃ e, Issues (.jmpIndirect 12) (withK12 0x400000000000000) e [] ∧ (e.k 12).toNat % 4 = 0 ∧ 2 ^ 58 ≤ (e.k 12).toNat ∧
      e.fits ((e.during (costC 1)).faultItems e.r 4 e.f.mask 2 fun _ => (e.k 12).toNat)) :=
  ⟨issues_with (by decide +kernel), issues_with (by decide +kernel), issues_with (by decide +kernel), issues_with (by decide +kernel)⟩

def braDemo (t : BitVec 24) : BraOp := ⟨1, false, false, t, 4⟩
/-- p1 holds at the items of `m`; a fragment of depth n. -/
def withP1 (m : Lanes) (n : Nat := 0) : State := demo (ff := fun f => { f with depth := n, regs := { f.regs with preds := f.regs.preds.set 1 (.mat m) } })

theorem branches_issue :
    (∃ e, Issues (.bra (braDemo 4)) (withP1 0) e [] ∧ taken e (braDemo 4) = 0 ∧ e.fits (e.skipped (costC 1))) ∧
    (∃ e, Issues (.bra (braDemo 4)) (withP1 (Lanes.below 64)) e [] ∧ taken e (braDemo 4) ≠ 0 ∧ fallen e (braDemo 4) = 0 ∧
      e.f.pc.toNat < (e.f.pc + (4 : BitVec 24).signExtend 58 * 4).toNat ∧ e.fits (e.moved (costC 1) (e.f.pc + (4 : BitVec 24).signExtend 58 * 4))) ∧
    (∃ e, Issues (.bra (braDemo 0)) (withP1 (Lanes.below 64)) e [] ∧ taken e (braDemo 0) ≠ 0 ∧ fallen e (braDemo 0) = 0 ∧
      (e.f.pc + (0 : BitVec 24).signExtend 58 * 4).toNat ≤ e.f.pc.toNat ∧
      e.fits ((e.spin (e.during (costC 1)) (e.f.pc + (0 : BitVec 24).signExtend 58 * 4)).goto e.r (e.f.pc + (0 : BitVec 24).signExtend 58 * 4))) ∧
    (∃ e, Issues (.bra (braDemo 4)) (withP1 (Lanes.below 8) 63) e [] ∧ taken e (braDemo 4) ≠ 0 ∧ fallen e (braDemo 4) ≠ 0 ∧ 64 ≤ e.f.depth + 1 ∧
      e.fits ((e.during (costC 1)).faultItems e.r 7 e.f.mask 0 fun _ => 0)) ∧
    (∃ e, Issues (.bra (braDemo 4)) (withP1 (Lanes.below 8) 62) e [] ∧ taken e (braDemo 4) ≠ 0 ∧ fallen e (braDemo 4) ≠ 0 ∧
      e.fits ((e.mark (costC 1)).cut (cutFrags e.c.strips (taken e (braDemo 4)) (fallen e (braDemo 4))
        (e.f.pc + (4 : BitVec 24).signExtend 58 * 4) e.next) (e.f.pc + (4 : BitVec 24).signExtend 58 * 4))) :=
  ⟨issues_with (by decide +kernel), issues_with (by decide +kernel), issues_with (by decide +kernel), issues_with (by decide +kernel),
    issues_with (by decide +kernel)⟩

theorem masks_of_a_cut : (Lanes.below 8) &&& (Lanes.below 64 &&& ~~~ Lanes.below 8) = 0 ∧ (0x1050 : VAddr) ≠ 0x1048 ∧ 1 ≤ 16 := by decide +kernel

theorem exit_issues : ∃ e, Issues (.exit ⟨1, false⟩) (withP1 (Lanes.below 8)) e [] ∧ e.pass ⟨1, false⟩ ≠ 0 ∧
    e.fits (((e.during (costC 1)).retire e.r (e.pass ⟨1, false⟩)).goto e.r e.next) := issues_with (by decide +kernel)

/-- Two arrived fragments below entry 1. -/
def toFuse : State := { withSibling with ctxs := withSibling.ctxs.map fun c =>
  { c with frags := c.frags.map fun f => if f.id = 1 then f else { f with state := .arrived } } }

theorem fragments_to_fuse :
    ∃ c p, toFuse.ctx? 2 = some c ∧ c.frag? 1 = some p ∧ p.parent ≠ some 1 ∧
      (c.frags.filter fun k => k.parent == some 1 && k.state == .arrived && k.mask != 0) ≠ [] ∧
      (∀ k ∈ c.frags.filter (fun k => k.parent == some 1 && k.state == .arrived && k.mask != 0), k.region.serial = p.region.serial) ∧
      (c.frags.filter fun k => k.parent == some 1 && k.state == .arrived && k.mask != 0).Pairwise fun a b => a.mask &&& b.mask = 0 :=
  frag_with (r := ⟨2, 1⟩) (by decide +kernel)

/-! ### Witnesses: regions, system rows and waits -/

/-- The launch is on debug, or in supervisor mode. -/
def debugged : State := demo (fl := fun l => { l with dbg := true })
def supervised : State := demo (fl := fun l => { l with sup := true })
/-- A posted store of the context is outstanding. -/
def storing : State := { demo with stores := [⟨9, 2, 0, 8, 0, 0, 0, [(0, 1)], []⟩] }

theorem system_rows_issue :
    (∃ e x, systemRow e (.region (some (8, 15))) = some x ∧ Issues (.region (some (8, 15))) demo e x.uses ∧ e.fits x.state ∧ e.straight e.next) ∧
    (∃ e x, systemRow e .yield = some x ∧ Issues .yield demo e x.uses ∧ e.fits x.state) ∧
    (∃ e x, systemRow e (.brk 3 g0) = some x ∧ Issues (.brk 3 g0) debugged e x.uses ∧ e.fits x.state) ∧
    (∃ e x, systemRow e (.halt 1 g0) = some x ∧ Issues (.halt 1 g0) demo e x.uses ∧ e.l.halted = none ∧ e.fits x.state) ∧
    (∃ e x, systemRow e (.setsr .clayer 9 g0) = some x ∧ Issues (.setsr .clayer 9 g0) demo e x.uses ∧ e.fits x.state ∧ e.straight e.next) ∧
    (∃ e x, systemRow e (.cpub ⟨some 9, false⟩ g0) = some x ∧ Issues (.cpub ⟨some 9, false⟩ g0) demo e x.uses ∧ e.fits x.state) ∧
    (∃ e x, systemRow e (.cinv g0) = some x ∧ Issues (.cinv g0) demo e x.uses ∧ e.fits x.state ∧ e.straight e.next) ∧
    (∃ e x, systemRow e (.ctrClr ⟨8, false⟩ 12 g0) = some x ∧ Issues (.ctrClr ⟨8, false⟩ 12 g0) demo e x.uses ∧ e.fits x.state) ∧
    (∃ e x, systemRow e (.fmt (.imm 0x4322) g0) = some x ∧ Issues (.fmt (.imm 0x4322) g0) demo e x.uses ∧ e.fits x.state ∧ e.straight e.next) ∧
    (∃ e x, systemRow e (.fmt (.k 12) g0) = some x ∧ Issues (.fmt (.k 12) g0) (withK12 0x4322) e x.uses ∧ e.fits x.state ∧ e.straight e.next) :=
  ⟨row_with (row := fun e => systemRow e (.region (some (8, 15)))) (uses := Row.uses) (by decide +kernel),
    row_with (row := fun e => systemRow e .yield) (uses := Row.uses) (by decide +kernel),
    row_with (row := fun e => systemRow e (.brk 3 g0)) (uses := Row.uses) (by decide +kernel),
    row_with (row := fun e => systemRow e (.halt 1 g0)) (uses := Row.uses) (by decide +kernel),
    row_with (row := fun e => systemRow e (.setsr .clayer 9 g0)) (uses := Row.uses) (by decide +kernel),
    row_with (row := fun e => systemRow e (.cpub ⟨some 9, false⟩ g0)) (uses := Row.uses) (by decide +kernel),
    row_with (row := fun e => systemRow e (.cinv g0)) (uses := Row.uses) (by decide +kernel),
    row_with (row := fun e => systemRow e (.ctrClr ⟨8, false⟩ 12 g0)) (uses := Row.uses) (by decide +kernel),
    row_with (row := fun e => systemRow e (.fmt (.imm 0x4322) g0)) (uses := Row.uses) (by decide +kernel),
    row_with (row := fun e => systemRow e (.fmt (.k 12) g0)) (uses := Row.uses) (by decide +kernel)⟩

/-- v16 to v23 mapped with a partner, none of them full or all of them. -/
def shared (full : Bool) : State := demo (fc := fun c => { c with shmap := some ⟨7, 16, 23, List.replicate 8 full, []⟩ })
/-- A fragment that has arrived at barrier 15 and been released. -/
def released : State := demo (ff := fun f => { f with arrival := some (15, true) })
/-- Three commands on the counter cp. -/
def counting : State := demo (fc := fun c => { c with counters := c.counters.set 2 3 })

theorem waiting_rows_issue :
    (∃ e x, waitRow e .wchild = some x ∧ Issues .wchild demo e x.uses ∧ e.fits x.state) ∧
    (∃ e x, waitRow e (.regroup (.v 6) (some (16, 23))) = some x ∧ Issues (.regroup (.v 6) (some (16, 23))) demo e x.uses ∧ e.fits x.state) ∧
    (∃ e x, waitRow e (.tlbiVa 1 2 g0) = some x ∧ Issues (.tlbiVa 1 2 g0) supervised e x.uses ∧ e.fits x.state) ∧
    (∃ e x, waitRow e (.tlbiTcid 2 g0) = some x ∧ Issues (.tlbiTcid 2 g0) supervised e x.uses ∧ e.fits x.state) ∧
    (∃ e x, waitRow e (.tlbiAll g0) = some x ∧ Issues (.tlbiAll g0) supervised e x.uses ∧ e.fits x.state) ∧
    (∃ e x, waitRow e (.pmap 1 2 g0) = some x ∧ Issues (.pmap 1 2 g0) supervised e x.uses ∧ e.fits x.state) ∧
    (∃ e x, waitRow e (.wait ⟨.cp, none, g0⟩) = some x ∧ Issues (.wait ⟨.cp, none, g0⟩) counting e x.uses ∧ e.fits x.state) ∧
    (∃ e x, waitRow e (.wait ⟨.sp, some 12, g0⟩) = some x ∧ Issues (.wait ⟨.sp, some 12, g0⟩) counting e x.uses ∧ e.fits x.state) ∧
    (∃ e x, waitRow e (.fence ⟨.rel, .dev, some 5, g0, false⟩) = some x ∧ Issues (.fence ⟨.rel, .dev, some 5, g0, false⟩) demo e x.uses ∧ e.fits x.state) ∧
    (∃ e x, waitRow e (.fence ⟨.rel, .dev, some 5, g0, false⟩) = some x ∧ Issues (.fence ⟨.rel, .dev, some 5, g0, false⟩) storing e x.uses ∧ e.fits x.state) ∧
    (∃ e x, waitRow e (.shmap ⟨some 8, false⟩ (some 10) (some (16, 23))) = some x ∧
      Issues (.shmap ⟨some 8, false⟩ (some 10) (some (16, 23))) (demo (fc := fun c => { c with slot := 1 })) e x.uses ∧ e.fits x.state) ∧
    (∃ e x, waitRow e (.shmap ⟨none, false⟩ none (some (16, 23))) = some x ∧ Issues (.shmap ⟨none, false⟩ none (some (16, 23))) demo e x.uses ∧ e.fits x.state) ∧
    (∃ e x, waitRow e (.fwr ⟨16, false⟩ (.v 2) g0) = some x ∧ Issues (.fwr ⟨16, false⟩ (.v 2) g0) (shared false) e x.uses ∧ e.fits x.state) ∧
    (∃ e x, waitRow e (.frd ⟨3, false⟩ 16 g0) = some x ∧ Issues (.frd ⟨3, false⟩ 16 g0) (shared true) e x.uses ∧ e.fits x.state) ∧
    (∃ e x, waitRow e (.bar 15) = some x ∧ Issues (.bar 15) demo e x.uses ∧ e.fits x.state) ∧
    (∃ e x, waitRow e (.bar 15) = some x ∧ Issues (.bar 15) released e x.uses ∧ e.fits x.state) ∧
    (∃ e x, waitRow e (.await ⟨⟨2, false, g0⟩, 3⟩) = some x ∧ Issues (.await ⟨⟨2, false, g0⟩, 3⟩) demo e x.uses ∧ e.fits x.state) ∧
    (∃ e, Issues (.fwr ⟨16, false⟩ (.v 2) g0) (shared true) e (useD false 16 :: useSrc false (.v 2)) ∧ e.c.strips = 1 ∧ e.c.mapped 16 = true ∧
      e.c.fullBit 16 = true ∧ never e g0 = false) ∧
    (∃ e, Issues (.frd ⟨3, false⟩ 16 g0) (shared false) e [useD false 3, useV false 16] ∧ e.c.strips = 1 ∧ e.c.mapped 16 = true ∧
      e.c.fullBit 16 = false ∧ never e g0 = false) :=
  ⟨row_with (row := fun e => waitRow e .wchild) (uses := Row.uses) (by decide +kernel),
    row_with (row := fun e => waitRow e (.regroup (.v 6) (some (16, 23)))) (uses := Row.uses) (by decide +kernel),
    row_with (row := fun e => waitRow e (.tlbiVa 1 2 g0)) (uses := Row.uses) (by decide +kernel),
    row_with (row := fun e => waitRow e (.tlbiTcid 2 g0)) (uses := Row.uses) (by decide +kernel),
    row_with (row := fun e => waitRow e (.tlbiAll g0)) (uses := Row.uses) (by decide +kernel),
    row_with (row := fun e => waitRow e (.pmap 1 2 g0)) (uses := Row.uses) (by decide +kernel),
    row_with (row := fun e => waitRow e (.wait ⟨.cp, none, g0⟩)) (uses := Row.uses) (by decide +kernel),
    row_with (row := fun e => waitRow e (.wait ⟨.sp, some 12, g0⟩)) (uses := Row.uses) (by decide +kernel),
    row_with (row := fun e => waitRow e (.fence ⟨.rel, .dev, some 5, g0, false⟩)) (uses := Row.uses) (by decide +kernel),
    row_with (row := fun e => waitRow e (.fence ⟨.rel, .dev, some 5, g0, false⟩)) (uses := Row.uses) (by decide +kernel),
    row_with (row := fun e => waitRow e (.shmap ⟨some 8, false⟩ (some 10) (some (16, 23)))) (uses := Row.uses) (by decide +kernel),
    row_with (row := fun e => waitRow e (.shmap ⟨none, false⟩ none (some (16, 23)))) (uses := Row.uses) (by decide +kernel),
    row_with (row := fun e => waitRow e (.fwr ⟨16, false⟩ (.v 2) g0)) (uses := Row.uses) (by decide +kernel),
    row_with (row := fun e => waitRow e (.frd ⟨3, false⟩ 16 g0)) (uses := Row.uses) (by decide +kernel),
    row_with (row := fun e => waitRow e (.bar 15)) (uses := Row.uses) (by decide +kernel),
    row_with (row := fun e => waitRow e (.bar 15)) (uses := Row.uses) (by decide +kernel),
    row_with (row := fun e => waitRow e (.await ⟨⟨2, false, g0⟩, 3⟩)) (uses := Row.uses) (by decide +kernel), issues_with (by decide +kernel),
    issues_with (by decide +kernel)⟩

/-- The block's barrier 15 with the bits of `m`. -/
def arrivedAt (m : Lanes) : State := demo (fb := fun b => { b with barriers := (List.replicate 15 0) ++ [m] })

theorem barriers_and_fences :
    (∃ b, (arrivedAt (Lanes.below 8)).block? 1 = some b ∧ b.id = 1 ∧ b.barriers.length = 16 ∧
      b.barriers.getD 15 0 &&& (b.exists_ &&& ~~~ b.retired) ≠ b.exists_ &&& ~~~ b.retired) ∧
    (∃ b, (arrivedAt (Lanes.below 64)).block? 1 = some b ∧ b.id = 1 ∧ b.barriers.length = 16 ∧ b.exists_ &&& ~~~ b.retired ≠ 0 ∧
      b.barriers.getD 15 0 &&& (b.exists_ &&& ~~~ b.retired) = b.exists_ &&& ~~~ b.retired ∧
      ((arrivedAt (Lanes.below 64)).ctxs.map fun c => c.id).Nodup ∧
      ∀ c ∈ (arrivedAt (Lanes.below 64)).ctxs, (c.frags.map fun f => f.id).Nodup) ∧
    (∃ c f, demo.ctx? 2 = some c ∧ c.frag? 0 = some f ∧ (FenceOp.mk .ar .sys (some 5) g0 false).d = some 5) :=
  ⟨some_with (by decide +kernel), some_with (by decide +kernel), frag_with (r := ⟨2, 0⟩) (by decide +kernel)⟩

/-! ### Witnesses: memory -/

theorem shared_through (e : Env) (x : MemRow) (p : Lanes) (h : (match x.sp with | .shared => true | _ => false) = true) (hh : e.hurt = none) :
    Through e x p (e.during x.k) := by
  intro lane next
  cases hs : x.sp <;> simp [hs] at h
  have hm : (e.mark x.k).hurt = none := hh
  simp [Env.access, Env.orCheck, hm]

/-- A region of 4 KiB in slot 1 of die 0, which k12 names. -/
def withRegion (kind : RKind) (fe : RegionEnt → RegionEnt := id) (s : State := withK12 0x100001) : State :=
  { s with dies := s.dies.set 0 { s.dies[0] with regions := [(1, fe (mkRegion kind 12 0))], gens := [(1, 1)] } }

def at0 : MemAddr := ⟨.v 2, 0, false⟩

theorem mem_row_issues {s : State} {i : Instr}
    (h : hitsRow s i (fun e => memRow e i) (fun x => x.2.uses) (fun e x => decide (e.pass x.1 ≠ 0 ∧ e.fits (x.2.after (e.during x.2.k) (e.pass x.1)) ∧
      (match x.2.sp with | .shared => true | _ => false) = true ∧ e.hurt = none ∧
      (x.2.rd = true → x.2.accs.all (fun a => ((e.during x.2.k).badLocal e.b.id e.die x.2.sp a.off a.size).isNone) = true))) = true) :
    ∃ e g x, memRow e i = some (g, x) ∧ Issues i s e x.uses ∧ e.pass g ≠ 0 ∧ Through e x (e.pass g) (e.during x.k) ∧
      (x.rd = true → x.accs.all (fun a => ((e.during x.k).badLocal e.b.id e.die x.sp a.off a.size).isNone) = true) ∧
      e.fits (x.after (e.during x.k) (e.pass g)) := by
  have ⟨e, x, a, b, c⟩ := of_hitsRow h
  have c := of_decide_eq_true c
  exact ⟨e, x.1, x.2, a, b, c.1, shared_through e x.2 _ c.2.2.1 c.2.2.2.1, c.2.2.2.2, c.2.1⟩

theorem memory_rows_issue :
    (∃ e g x, memRow e (.lds ⟨3, .i32, false, .ctx, at0, g0⟩) = some (g, x) ∧ Issues (.lds ⟨3, .i32, false, .ctx, at0, g0⟩) demo e x.uses ∧ e.pass g ≠ 0 ∧
      Through e x (e.pass g) (e.during x.k) ∧
      (x.rd = true → x.accs.all (fun a => ((e.during x.k).badLocal e.b.id e.die x.sp a.off a.size).isNone) = true) ∧
      e.fits (x.after (e.during x.k) (e.pass g))) ∧
    (∃ e g x, memRow e (.atom ⟨.add .i32, .rlx, .blk, none, some 3, .iidx, at0, g0⟩) = some (g, x) ∧
      Issues (.atom ⟨.add .i32, .rlx, .blk, none, some 3, .iidx, at0, g0⟩) demo e x.uses ∧ e.pass g ≠ 0 ∧ Through e x (e.pass g) (e.during x.k) ∧
      (x.rd = true → x.accs.all (fun a => ((e.during x.k).badLocal e.b.id e.die x.sp a.off a.size).isNone) = true) ∧
      e.fits (x.after (e.during x.k) (e.pass g))) ∧
    (∃ e g x, memRow e (.cas ⟨.i32, .rlx, true, .blk, none, some 3, .v 11, .v 12, at0, g0⟩) = some (g, x) ∧
      Issues (.cas ⟨.i32, .rlx, true, .blk, none, some 3, .v 11, .v 12, at0, g0⟩) demo e x.uses ∧ e.pass g ≠ 0 ∧ Through e x (e.pass g) (e.during x.k) ∧
      (x.rd = true → x.accs.all (fun a => ((e.during x.k).badLocal e.b.id e.die x.sp a.off a.size).isNone) = true) ∧
      e.fits (x.after (e.during x.k) (e.pass g))) ∧
    (∃ e x, memRow e (.lds ⟨3, .i32, false, .ctx, at0, ⟨1, false⟩⟩) = some x ∧ Issues (.lds ⟨3, .i32, false, .ctx, at0, ⟨1, false⟩⟩) demo e x.2.uses ∧
      x.2.off = true ∧ e.hurt = none ∧ e.fits (e.skipped x.2.k)) :=
  ⟨mem_row_issues (by decide +kernel), mem_row_issues (by decide +kernel), mem_row_issues (by decide +kernel),
    row_with (row := fun e => memRow e (.lds ⟨3, .i32, false, .ctx, at0, ⟨1, false⟩⟩)) (uses := fun x => x.2.uses) (by decide +kernel)⟩

/-- The accesses go to a region, or through an invalid handle. -/
def spaceIs (sp : Space) (slot : Option Nat) (kind : RKind) : Bool :=
  match sp, slot with
  | .region n r, some m => n == m && r.kind == kind
  | .void, none => true
  | _, _ => false

set_option maxRecDepth 100000 in
theorem accesses_go_through :
    (∃ e x, memRow e (.ldw ⟨12, ⟨3, .i32, false, .ctx, at0, g0⟩⟩) = some x ∧
      Issues (.ldw ⟨12, ⟨3, .i32, false, .ctx, at0, g0⟩⟩) (withRegion .plain) e x.2.uses ∧ spaceIs x.2.sp (some 1) .plain = true ∧ e.pass x.1 ≠ 0 ∧
      e.fits (x.2.after (((e.during x.2.k).ownStores e.c.id e.die 1 x.2.accs).settled e.r) (e.pass x.1))) ∧
    (∃ e x, memRow e (.stw ⟨12, ⟨.v 3, .i32, false, .ctx, at0, g0⟩⟩) = some x ∧
      Issues (.stw ⟨12, ⟨.v 3, .i32, false, .ctx, at0, g0⟩⟩) (withRegion .eslot) e x.2.uses ∧ spaceIs x.2.sp (some 1) .eslot = true ∧ e.pass x.1 ≠ 0 ∧
      e.fits (x.2.after ((e.during x.2.k).settled e.r) (e.pass x.1))) ∧
    (∃ e x, memRow e (.stw ⟨12, ⟨.v 3, .i32, false, .ctx, at0, g0⟩⟩) = some x ∧
      Issues (.stw ⟨12, ⟨.v 3, .i32, false, .ctx, at0, g0⟩⟩) (withK12 0x100001) e x.2.uses ∧ spaceIs x.2.sp none .plain = true ∧ e.pass x.1 ≠ 0 ∧
      e.fits (x.2.after ((e.during x.2.k).countInvalid e.l.tcid x.2.accs.length) (e.pass x.1))) ∧
    (∃ e x, memRow e (.ald ⟨2, false, some 12, none, 0, .ctx, false, g0⟩) = some x ∧
      Issues (.ald ⟨2, false, some 12, none, 0, .ctx, false, g0⟩) (withRegion .plain) e x.2.uses ∧ spaceIs x.2.sp (some 1) .plain = true ∧ e.pass x.1 ≠ 0 ∧
      e.fits (x.2.after (((e.during x.2.k).ownStores e.c.id e.die 1 x.2.accs).settled e.r) (e.pass x.1))) ∧
    (∃ e x, memRow e (.ast ⟨2, false, some 12, none, 0, .ctx, false, g0⟩) = some x ∧
      Issues (.ast ⟨2, false, some 12, none, 0, .ctx, false, g0⟩) (withRegion .plain) e x.2.uses ∧ spaceIs x.2.sp (some 1) .plain = true ∧ e.pass x.1 ≠ 0 ∧
      e.fits (x.2.after (((e.during x.2.k).ownStores e.c.id e.die 1 x.2.accs).settled e.r) (e.pass x.1))) :=
  ⟨row_with (row := fun e => memRow e (.ldw ⟨12, ⟨3, .i32, false, .ctx, at0, g0⟩⟩)) (uses := fun x => x.2.uses) (by decide +kernel),
    row_with (row := fun e => memRow e (.stw ⟨12, ⟨.v 3, .i32, false, .ctx, at0, g0⟩⟩)) (uses := fun x => x.2.uses) (by decide +kernel),
    row_with (row := fun e => memRow e (.stw ⟨12, ⟨.v 3, .i32, false, .ctx, at0, g0⟩⟩)) (uses := fun x => x.2.uses) (by decide +kernel),
    row_with (row := fun e => memRow e (.ald ⟨2, false, some 12, none, 0, .ctx, false, g0⟩)) (uses := fun x => x.2.uses) (by decide +kernel),
    row_with (row := fun e => memRow e (.ast ⟨2, false, some 12, none, 0, .ctx, false, g0⟩)) (uses := fun x => x.2.uses) (by decide +kernel)⟩

def stsDemo : StsOp := ⟨.v 3, .i32, false, .ctx, at0, g0⟩
theorem shared_store_issues :
    demo.memOk = true ∧ ∃ e, Issues (.sts stsDemo) demo e (stUses stsDemo) ∧ e.pass g0 ≠ 0 ∧ (stsDemo.rel = true → ∀ p ∈ demo.stores, p.ctx ≠ e.c.id) ∧
      let k := e.memCost at0 4 none false false g0
      let at_ (p : Nat) : Nat := effAddr e.b.shSize 4 (((during e k).src false at0.a).at p).toNat (at0.disp.toInt * 4)
      e.fits (e.done (((e.passing g0).foldl (fun s p => s.writeSharedBy
        ⟨e.r.agent, true, (e.during k).headsOf e.r (if stsDemo.rel then some stsDemo.scope else none)⟩ e.b.id (at_ p)
        ((during e k).storeBytes .i32 (.v 3) p)) (e.during k)).mendLocal e.b.id e.die .shared
        ((e.passing g0).flatMap fun p => (List.range 4).map fun j => at_ p + j))) :=
  ⟨by decide +kernel, issues_with (by decide +kernel)⟩

theorem atomic_items : demo.memOk = true ∧ (∃ b, demo.block? 1 = some b ∧ b.id = 1) ∧ [0, 5, 1023].Nodup ∧ ∀ i ∈ [0, 5, 1023], i < 1024 :=
  ⟨by decide +kernel, some_with (by decide +kernel), by decide, by decide⟩

/-- A fragment with a pending load of v3. -/
def loading : State := demo (ff := fun f => { f with loads := [⟨[(3, .mat, List.replicate 64 9)], Lanes.below 64, 0, false, 0⟩] })

theorem load_returns :
    ∃ c f, loading.ctx? 2 = some c ∧ c.frag? 0 = some f ∧ c.shmap = none ∧ f.wait = none ∧ f.hasChildren = false ∧
      (∀ l ∈ f.loads, c.frags.filter (fun g => g.loads.contains l) = [f]) ∧ 63 < c.width ∧ f.mask.getLsbD 63 = true ∧
      f.loads ≠ [] ∧ ∀ l ∈ f.loads, (l.dst.map fun d => d.1).Nodup ∧ ∀ d ∈ l.dst, d.2.1 = .mat := frag_with (r := ⟨2, 0⟩) (by decide +kernel)

/-- A stack with one group, or with no room. -/
def stacked (n : Nat) : State :=
  let s := demo
  match s.env? (.push 8 11) with
  | some e => { s with blocks := s.blocks.map fun b => { b with spill := [List.replicate n 0 ++ e.spillGroup 8 11 0] } }
  | none => s

theorem spill_rows_issue :
    (∃ e, Issues (.push 8 11) demo e (spillUse 8 11 false) ∧
      (∀ t ∈ e.f.strips', (e.stack t).length + e.c.parkedBytes t + (e.spillGroup 8 11 t).length ≤ e.l.hdr.spill) ∧ e.fits (pushed e (costC 2) 8 11)) ∧
    (∃ e, Issues (.push 8 11) (stacked 16352) e (spillUse 8 11 false) ∧
      ¬ (∀ t ∈ e.f.strips', (e.stack t).length + e.c.parkedBytes t + (e.spillGroup 8 11 t).length ≤ e.l.hdr.spill) ∧
      e.fits ((e.during (costC 2)).faultItems e.r 4 e.f.mask 0 fun i => 2 ^ 63 + e.stackPos (i / 64))) ∧
    (∃ e, Issues (.pop 8 11) (stacked 0) e (spillUse 8 11 true) ∧
      (∀ t ∈ e.f.strips', 4 ≤ recordsOn (e.stack t).length (e.stack t)) ∧ (∀ t ∈ e.f.strips', ∀ d ∈ e.b.spillDamage, d.1 = e.c.firstStrip + t →
        d.2 ∉ stackWords ((e.stack t).length - ((topGroup (e.stack t)).map fun g => g.2.2).getD 0) (e.stack t).length) ∧ e.fits (popped e (costC 2))) ∧
    (∃ e, Issues (.pop 8 12) (stacked 0) e (spillUse 8 12 true) ∧
      ¬ (∀ t ∈ e.f.strips', 5 ≤ recordsOn (e.stack t).length (e.stack t)) ∧
      e.fits ((e.during (costC 2)).faultItems e.r 4 e.f.mask 0 fun i => 2 ^ 63 + e.stackPos (i / 64))) ∧
    ((352 : Nat) ≤ 383 ∧ (383 : Nat) < 352 + 32 ∧ (383 : Nat) < 384) ∧ (List.replicate 64 (0 : W32)).length = 64 :=
  ⟨issues_with (by decide +kernel), issues_with (by decide +kernel), issues_with (by decide +kernel), issues_with (by decide +kernel), by decide,
    by decide⟩

/-! ### Witnesses: tiles -/

def opaDemo : OpaOp := ⟨2, 3, false, false, 0, false, 0, .zero, 3, 12, 3, 8, g0⟩

theorem tile_rows_issue :
    (∃ e x, tileRow e (.azero ⟨2, false, g0⟩) = some x ∧ Issues (.azero ⟨2, false, g0⟩) demo e x.uses ∧ e.fits x.state) ∧
    (∃ e x, tileRow e (.awrtStatus ⟨⟨2, false, g0⟩, 8⟩) = some x ∧ Issues (.awrtStatus ⟨⟨2, false, g0⟩, 8⟩) demo e x.uses ∧ e.fits x.state) ∧
    (∃ e x, tileRow e (.awrtRow ⟨⟨4, true, g0⟩, 16, 7, .lane⟩) = some x ∧ Issues (.awrtRow ⟨⟨4, true, g0⟩, 16, 7, .lane⟩) demo e x.uses ∧ e.fits x.state) ∧
    (∃ e x, tileRow e (.apromCvt ⟨⟨2, false, g0⟩, 8, 31, 31⟩) = some x ∧ Issues (.apromCvt ⟨⟨2, false, g0⟩, 8, 31, 31⟩) demo e x.uses ∧ e.fits x.state) ∧
    (∃ e x, tileRow e (.apromScl ⟨⟨2, false, g0⟩, 8, 0, 0⟩) = some x ∧ Issues (.apromScl ⟨⟨2, false, g0⟩, 8, 0, 0⟩) demo e x.uses ∧ e.fits x.state) ∧
    (∃ e x, tileRow e (.opc ⟨⟨2, false, g0⟩, 3⟩) = some x ∧ Issues (.opc ⟨⟨2, false, g0⟩, 3⟩) demo e x.uses ∧ e.fits x.state) ∧
    (∃ e x, tileRow e (.opa opaDemo) = some x ∧ Issues (.opa opaDemo) demo e x.uses ∧ e.fits x.state) :=
  ⟨row_with (row := fun e => tileRow e (.azero ⟨2, false, g0⟩)) (uses := Row.uses) (by decide +kernel),
    row_with (row := fun e => tileRow e (.awrtStatus ⟨⟨2, false, g0⟩, 8⟩)) (uses := Row.uses) (by decide +kernel),
    row_with (row := fun e => tileRow e (.awrtRow ⟨⟨4, true, g0⟩, 16, 7, .lane⟩)) (uses := Row.uses) (by decide +kernel),
    row_with (row := fun e => tileRow e (.apromCvt ⟨⟨2, false, g0⟩, 8, 31, 31⟩)) (uses := Row.uses) (by decide +kernel),
    row_with (row := fun e => tileRow e (.apromScl ⟨⟨2, false, g0⟩, 8, 0, 0⟩)) (uses := Row.uses) (by decide +kernel),
    row_with (row := fun e => tileRow e (.opc ⟨⟨2, false, g0⟩, 3⟩)) (uses := Row.uses) (by decide +kernel),
    row_with (row := fun e => tileRow e (.opa opaDemo)) (uses := Row.uses) (by decide +kernel)⟩

theorem closed_contraction :
    (OpaParams.mk 0x44 2 3 false false 0 0).m ≤ 32 ∧ (OpaParams.mk 0x44 2 3 false false 0 0).n ≤ 32 ∧ fmtX 0x44 = 4 ∧ fmtY 0x44 = 4 ∧
    ([⟨1023, [1], [2], 0⟩] : List OpaTerm) ≠ [] ∧ ∀ u ∈ ([⟨1023, [1], [2], 0⟩] : List OpaTerm), u.pos < 1024 := by decide +kernel

/-! ### Witnesses: regions and engines -/

theorem region_rows_issue :
    (∃ e x, regionRow e (.rmap 12 (some 8) g0) = some x ∧ Issues (.rmap 12 (some 8) g0) (withRegion .plain) e x.uses ∧ e.fits x.state) ∧
    (∃ e x, regionRow e (.rmap 12 (some 8) g0) = some x ∧ Issues (.rmap 12 (some 8) g0) (withK12 0x100001) e x.uses ∧ e.fits x.state) ∧
    (∃ e x, regionRow e (.runmap 12 g0) = some x ∧ Issues (.runmap 12 g0) (withRegion .mapped) e x.uses ∧ e.fits x.state) ∧
    (∃ e x, regionRow e (.rwb ⟨12, none, none, g0⟩) = some x ∧ Issues (.rwb ⟨12, none, none, g0⟩) (withRegion .stash) e x.uses ∧ e.fits x.state) ∧
    (∃ e x, regionRow e (.rinv ⟨12, some 8, some 9, g0⟩) = some x ∧ Issues (.rinv ⟨12, some 8, some 9, g0⟩) (withRegion .mapped) e x.uses ∧ e.fits x.state) ∧
    (∃ e x, regionRow e (.seal 12) = some x ∧ Issues (.seal 12) (withRegion .stash) e x.uses ∧ e.fits x.state) :=
  ⟨row_with (row := fun e => regionRow e (.rmap 12 (some 8) g0)) (uses := Row.uses) (by decide +kernel),
    row_with (row := fun e => regionRow e (.rmap 12 (some 8) g0)) (uses := Row.uses) (by decide +kernel),
    row_with (row := fun e => regionRow e (.runmap 12 g0)) (uses := Row.uses) (by decide +kernel),
    row_with (row := fun e => regionRow e (.rwb ⟨12, none, none, g0⟩)) (uses := Row.uses) (by decide +kernel),
    row_with (row := fun e => regionRow e (.rinv ⟨12, some 8, some 9, g0⟩)) (uses := Row.uses) (by decide +kernel),
    row_with (row := fun e => regionRow e (.seal 12)) (uses := Row.uses) (by decide +kernel)⟩

/-- Pages 1 and 2 of TCID 0 mapped to the same physical addresses, also in the TLB of core 0. -/
def paged (s : State) : State :=
  let leaf (n : Nat) : Nat := 0x1F + n * 2 ^ 10
  { s.updCore 0 fun k => { k with tlb := [⟨0, 0, 1, 0, BitVec.ofNat 64 (leaf 1), Horizon.none⟩, ⟨0, 0, 2, 0, BitVec.ofNat 64 (leaf 2), Horizon.none⟩] } with
    tcids := [(0, ⟨0x8000000000000004, 0, 0, 0⟩)]
    tier1 := [(0x10000, 1 + 5 * 2 ^ 10), (0x14000, 1 + 6 * 2 ^ 10), (0x18000, 1 + 7 * 2 ^ 10), (0x1C008, leaf 1), (0x1C010, leaf 2),
      (0x8000, 1), (0x8004, 0x80040), (0x8008, 8)].foldl (fun m x => m.writeBytes x.1 (bytesN (if x.1 < 0x10000 then 4 else 8) x.2)) s.tier1 }

/-- One item passes p1; words of 8 bytes in shared memory; k12 set. -/
def withShared (xs : List (Nat × Nat)) (k12 : W64 := 0) : State :=
  paged (demo (fb := fun b => { b with shared := xs.foldl (fun m x => m.writeBytes x.1 (bytesN 8 x.2)) Mem.empty })
    (ff := fun f => { f with regs := { f.regs with preds := f.regs.preds.set 1 (.mat 1), k := f.regs.k.set 12 k12 } }))

def p1 : Guard := ⟨1, false⟩
def copyDesc : List (Nat × Nat) := [(0, 0x14201), (8, 128), (16, 192), (72, 4)]
def gatherDesc (scatter : Bool) : List (Nat × Nat) := [(0, 0x10201 + if scatter then 0x40000 else 0), (8, 0x4000), (16, 192)]
def collDemo : List (Nat × Nat) := [(0, 5 * 2 ^ 40), (8, 0x4000), (16, 0x4100), (24, 1)]
/-- Slot 5 of group 0 is this device's. -/
def grouped : State := { withShared collDemo with ual := { State.reset.ual with groups := [(0, ⟨0, [(0, 5, 5)], [5]⟩)] } }

/-- What an engine row must meet. -/
theorem engine_rows_issue :
    (∃ e x, engineRow e (.copy ⟨.zero, 0, p1⟩) = some x ∧ Issues (.copy ⟨.zero, 0, p1⟩) (withShared copyDesc) e x.2.uses ∧ e.pass x.1 ≠ 0 ∧
      x.2.hurt = none ∧ (e.mark (costC 1)).pathsFit x.2.jobs = true ∧ (translated e x.2).2.2.1 = [] ∧
      e.fits (committed e (translated e x.2) x.2.commit)) ∧
    (∃ e x, engineRow e (.coll ⟨.zero, 0, p1⟩) = some x ∧ Issues (.coll ⟨.zero, 0, p1⟩) grouped e x.2.uses ∧ e.pass x.1 ≠ 0 ∧
      x.2.hurt = none ∧ (e.mark (costC 1)).pathsFit x.2.jobs = true ∧ (translated e x.2).2.2.1 = [] ∧
      e.fits (committed e (translated e x.2) x.2.commit)) ∧
    (∃ e x, engineRow e (.gather ⟨.n32, none, .v 5, 0, p1⟩) = some x ∧ Issues (.gather ⟨.n32, none, .v 5, 0, p1⟩) (withShared (gatherDesc false)) e x.2.uses ∧
      e.pass x.1 ≠ 0 ∧ x.2.hurt = none ∧ (e.mark (costC 1)).pathsFit x.2.jobs = true ∧ (translated e x.2).2.2.1 = [] ∧
      e.fits (committed e (translated e x.2) x.2.commit)) ∧
    (∃ e x, engineRow e (.scatter ⟨.n32, none, .v 5, 0, p1⟩) = some x ∧ Issues (.scatter ⟨.n32, none, .v 5, 0, p1⟩) (withShared (gatherDesc true)) e x.2.uses ∧
      e.pass x.1 ≠ 0 ∧ x.2.hurt = none ∧ (e.mark (costC 1)).pathsFit x.2.jobs = true ∧ (translated e x.2).2.2.1 = [] ∧
      e.fits (committed e (translated e x.2) x.2.commit)) ∧
    (∃ e x, engineRow e (.xatom ⟨.add .n32, false, .pod, .zero, .k 12, .iidx, p1⟩) = some x ∧
      Issues (.xatom ⟨.add .n32, false, .pod, .zero, .k 12, .iidx, p1⟩) (withShared [] 0x4000) e x.2.uses ∧
      e.pass x.1 ≠ 0 ∧ x.2.hurt = none ∧ (e.mark (costC 1)).pathsFit x.2.jobs = true ∧ (translated e x.2).2.2.1 = [] ∧
      e.fits (committed e (translated e x.2) x.2.commit)) ∧
    (∃ e x, engineRow e (.dred ⟨.add, .f32, .k 12, .v 2, p1⟩) = some x ∧ Issues (.dred ⟨.add, .f32, .k 12, .v 2, p1⟩) (withShared [] 0x4000) e x.2.uses ∧
      e.pass x.1 ≠ 0 ∧ x.2.hurt = none ∧ (e.mark (costC 1)).pathsFit x.2.jobs = true ∧ (translated e x.2).2.2.1 = [] ∧
      e.fits (committed e (translated e x.2) x.2.commit)) :=
  ⟨row_with (row := fun e => engineRow e (.copy ⟨.zero, 0, p1⟩)) (uses := fun x => x.2.uses) (by decide +kernel),
    row_with (row := fun e => engineRow e (.coll ⟨.zero, 0, p1⟩)) (uses := fun x => x.2.uses) (by decide +kernel),
    row_with (row := fun e => engineRow e (.gather ⟨.n32, none, .v 5, 0, p1⟩)) (uses := fun x => x.2.uses) (by decide +kernel),
    row_with (row := fun e => engineRow e (.scatter ⟨.n32, none, .v 5, 0, p1⟩)) (uses := fun x => x.2.uses) (by decide +kernel),
    row_with (row := fun e => engineRow e (.xatom ⟨.add .n32, false, .pod, .zero, .k 12, .iidx, p1⟩)) (uses := fun x => x.2.uses) (by decide +kernel),
    row_with (row := fun e => engineRow e (.dred ⟨.add, .f32, .k 12, .v 2, p1⟩)) (uses := fun x => x.2.uses) (by decide +kernel)⟩

/-- One line of a mapped region of 256 bytes, translated. -/
def lined : State :=
  let s := withRegion .mapped (fun r => { r with logSize := 8, globalBase := 0x4000 }) (withShared [] 0x100001)
  { s with dies := s.dies.set 0 { s.dies[0] with lines := [⟨1, 0, 0x41F, 0x4000, Horizon.none, 0, 0, 0, 0⟩] } }

def fillAll : LinesOp := ⟨12, none, none, g0⟩

theorem fill_issues :
    ∃ e x, named e 12 (fun r => r.kind == .mapped || (r.kind == .stash && r.sealed)) = some x ∧ Issues (.rfill fillAll) lined e [] ∧ e.pass g0 ≠ 0 ∧
      e.c.counter .sp < 4095 ∧ (∀ n ∈ (List.range (x.2.size / 256)).filter (e.lineSetOf fillAll x.2),
        ((((e.during (costC 1)).settleRegion e.die x.1).linesOf e.die x.1).find? (fun l => l.line == n)).any (fun l => leafRd l.leaf) = true) ∧
      (List.range (x.2.size / 256)).filter (e.lineSetOf fillAll x.2) = [0] ∧
      e.fits (e.done (([0] : List Nat).foldl (fun s n => s.askLine e.die x.1 n e.c.core x.2.tcid false true [])
       (((e.during (costC 1)).settleRegion e.die x.1).commitCmd { (e.mark (costC 1)).spCommand ((e.during (costC 1)).settleRegion e.die x.1) (e.pass g0) with
          waiting := [0], writers := [(e.die, x.1)] }))) :=
  row_with (row := fun e => named e 12 fun r => r.kind == .mapped || (r.kind == .stash && r.sealed)) (uses := fun _ => []) (by decide +kernel)

/-- A stash region whose first page has its leaf. -/
def stashing : State :=
  withRegion .stash (fun r => { r with logSize := 14, globalBase := 0x4000, quota1 := 1 })
    (withShared [(0, 0x24201), (8, 128), (16, 0x100001 * 2 ^ 32)] 0x100001)

def stashJobs (e : Env) : List Job :=
  (e.passing p1).map fun i =>
    let bs := e.readShDesc (((during e (costC 1)).src false .zero).at i) 0 128 128
    let d := parseCopy bs
    ⟨{ (e.mark (costC 1)).newCmd i .cp (.copy d true) d.moves with rows := d.rows }, refusal (stashRefused bs d (e.sideKind d.denseSpace d.dense))⟩

def stashCharge (e : Env) : Charge := (e.mark (costC 1)).charge (e.during (costC 1)) (stashJobs e)
def stashOut (e : Env) : State × List Cmd × List ItemFault × List (Nat × Nat) := (e.mark (costC 1)).xlJobs (stashCharge e).s (stashJobs e)

theorem stash_issues :
    ∃ e, Issues (.stash ⟨.zero, 0, p1⟩) stashing e (descUses .zero) ∧ e.pass p1 ≠ 0 ∧
      descHurt e (e.pass p1) ((during e (costC 1)).src false .zero) 0 = none ∧ (stashCharge e).over_ = none ∧
      (e.mark (costC 1)).pathsFit (stashJobs e) = true ∧ (stashOut e).2.2.1 = [] ∧ (stashOut e).2.1 ≠ [] ∧
      e.fits (committed e (stashOut e) State.commitCmd) := issues_with (by decide +kernel)

/-- A fragment and a context with nothing in them. -/
def aFrag : Frag := rootFrag 0 0 0 0 (launchRegs (probeLaunch 1 0).desc) 0
def aCtx : Ctx := freshCtx 2 1 0 0 0 1 0 0 none 0 0 aFrag
/-- A context with one completed command on `cp`. -/
def commanding : State :=
  let c := Cmd.new 9 ((demo.ctx? 2).getD aCtx) aFrag 0 0 .cp (.sp 0) 0 0
  { demo (fc := fun c => { c with counters := c.counters.set 2 1 }) with cmds := [c] }

theorem commands_count :
    (∃ c, commanding.ctx? 2 = some c ∧ c.counter .cp = 1) ∧
    (∃ cmd, commanding.cmds.find? (fun x => x.ctx == 2 && x.path == Path.cp) = some cmd ∧ cmd.complete = true ∧ cmd.ctx = 2) :=
  ⟨some_with (by decide +kernel), some_with (by decide +kernel)⟩

/-! ### Witnesses: queues and child launches -/

def queueDemo : Queue :=
  { key := 0, tcid := 0, home := 0, cls := 0, nbuf := 1, header := 0x8000, buffers := 0x4000, spill := 0, spillCap := 0, quota := 1, args := [], chip := []
    ring := [], ringHead := 0, busy := [], fired := 0, drops := 0, refusedNoted := false }

/-- Queues on die 0, of a class that drops or that does not. -/
def queued (qs : List Queue) (drop : Bool) (s : State := withShared []) : State :=
  { s with classes := [(0, ⟨true, false, drop, 0, 100, 64, 8⟩)], dies := s.dies.set 0 { s.dies[0] with queues := qs } }

def combDesc : List (Nat × Nat) := [(0, 0x100010100), (8, 0x4000), (16, 0x4100), (24, 0x4200), (32, 0x4300), (40, 0x4400)]
def drainDesc : List (Nat × Nat) := [(0, 0x8000), (160, 0x10000)]

/-- A slot set of one ready slot. -/
def slotted : State :=
  let s := withRegion .eslot
  { s with dies := s.dies.set 0 { s.dies[0] with slotSet := some ⟨12, 4, 0, [⟨1, 0, .ready, none, []⟩]⟩ } }

theorem queue_rows_issue :
    (∃ e x, queueRow e (.qpush ⟨some 2, .zero, 8, g0⟩) = some x ∧ Issues (.qpush ⟨some 2, .zero, 8, g0⟩) (queued [queueDemo] false) e x.uses ∧ e.fits x.state) ∧
    (∃ e x, queueRow e (.qfire (some 8) 9 g0) = some x ∧ Issues (.qfire (some 8) 9 g0) (queued [queueDemo] false) e x.uses ∧ e.fits x.state) ∧
    (∃ e x, queueRow e (.qcomb ⟨some 8, none, 0⟩) = some x ∧ Issues (.qcomb ⟨some 8, none, 0⟩) (withShared combDesc) e x.uses ∧ e.fits x.state) ∧
    (∃ e x, queueRow e (.qdrain ⟨some 8, none, 0⟩) = some x ∧ Issues (.qdrain ⟨some 8, none, 0⟩) (withShared drainDesc) e x.uses ∧ e.fits x.state) ∧
    (∃ e x, queueRow e (.eslotGet 10 13) = some x ∧ Issues (.eslotGet 10 13) slotted e x.uses ∧ e.fits x.state) ∧
    (∃ e x, queueRow e (.eslotReady 12) = some x ∧ Issues (.eslotReady 12) slotted e x.uses ∧ e.fits x.state) ∧
    (∃ e x, queueRow e (.eslotPut 12) = some x ∧ Issues (.eslotPut 12) slotted e x.uses ∧ e.fits x.state) :=
  ⟨row_with (row := fun e => queueRow e (.qpush ⟨some 2, .zero, 8, g0⟩)) (uses := Row.uses) (by decide +kernel),
    row_with (row := fun e => queueRow e (.qfire (some 8) 9 g0)) (uses := Row.uses) (by decide +kernel),
    row_with (row := fun e => queueRow e (.qcomb ⟨some 8, none, 0⟩)) (uses := Row.uses) (by decide +kernel),
    row_with (row := fun e => queueRow e (.qdrain ⟨some 8, none, 0⟩)) (uses := Row.uses) (by decide +kernel),
    row_with (row := fun e => queueRow e (.eslotGet 10 13)) (uses := Row.uses) (by decide +kernel),
    row_with (row := fun e => queueRow e (.eslotReady 12)) (uses := Row.uses) (by decide +kernel),
    row_with (row := fun e => queueRow e (.eslotPut 12)) (uses := Row.uses) (by decide +kernel)⟩

theorem queues_are_there :
    ((queued [queueDemo] false).die 0).queues = [queueDemo] ∧ queueDemo.ring = [] ∧ queueDemo.chip.length < queueDemo.quota ∧
    ((queued [{ queueDemo with quota := 0 }] true).qclass 0).drop = true ∧ queueDemo.spillCap = 0 := by decide +kernel

def oneChild : State := withShared [(0, 0x8000), (8, 64)]

theorem child_launch_issues :
    (∃ e, Issues (.launch .zero p1) oneChild e (useSrc false .zero) ∧ e.pass p1 ≠ 0 ∧ e.l.det = false ∧
      ((e.mark (costC 1)).childChecks ((e.during (costC 1)).publish e.c.id) ((during e (costC 1)).src false .zero) (e.passing p1)).2.all
        (fun x => match x.2 with | .ok _ _ => true | _ => false) = true ∧
      (((e.mark (costC 1)).childChecks ((e.during (costC 1)).publish e.c.id) ((during e (costC 1)).src false .zero) (e.passing p1)).1.frag? e.r).any
        (fun f => f.state == .running && f.mask != 0 && !f.trapWait) = true) ∧
    (∃ e, Issues (.launch .zero g0) (demo (fl := fun l => { l with det := true })) e (useSrc false .zero) ∧ e.pass g0 ≠ 0 ∧ e.l.det = true ∧
      (((e.during (costC 1)).faultItems e.r 8 (e.pass g0) 0 fun _ => 0).frag? e.r).all (fun h => h.mask == 0) = true ∧
      e.fits ((e.during (costC 1)).faultItems e.r 8 (e.pass g0) 0 fun _ => 0)) :=
  ⟨issues_with (by decide +kernel), issues_with (by decide +kernel)⟩

/-! ### Witnesses: time and issue -/

theorem a_tick_with_nothing_to_choose :
    State.reset.picks = [] ∧ State.reset.boundaryDue = false ∧ State.reset.toLook = none ∧ State.reset.firingDue = false ∧
    (∀ p ∈ State.reset.busyParts, (State.reset.arbitrate p).isNone = true ∧ State.reset.sampleDue p = false) ∧ State.reset.frac < 16 ∧
    ∀ l ∈ State.reset.launches, ∀ h, l.halted = some h → h.tick ≠ State.reset.tick := by decide +kernel

/-- Nothing has been chosen yet, at cycle 5. -/
def unpicked : State := { demo with picks := [], cycle := 5 }
def part0 : PartRef := ⟨0, 0⟩

theorem a_slot_is_open :
    unpicked.picks = [] ∧ (unpicked.part 0 0).openSlot unpicked.cycle false = true ∧ choose (unpicked.ready part0) false = some ⟨2, 0⟩ ∧
    ∀ x ∈ unpicked.ready part0, x.slot < 16 ∧ x.entry < 64 := by decide +kernel

theorem a_yield_is_over : ∃ f, (demo (ff := fun f => { f with yieldUntil := 3 })).frag? ⟨2, 0⟩ = some f ∧ f.yieldUntil ≠ 0 ∧ f.yieldUntil < unpicked.cycle :=
  some_with (by decide +kernel)

/-- A fragment of context 2 that waits. -/
def waits (x : WaitFor) (i : Instr) (s : State := demo) : State :=
  { s with ctxs := s.ctxs.map fun c => { c with frags := c.frags.map fun f => { f with wait := some ⟨15, x, i, 8, 0⟩ } } }

/-- What a translation gives. -/
def trOk (s : State) (core tcid : Nat) (va : W64) (who : Asker) (P : W64 → Nat → Bool) : Bool :=
  match s.translate core tcid va who with
  | .ok leaf phys => P leaf phys
  | _ => false

theorem tr_with {s : State} {core tcid : Nat} {va : W64} {who : Asker} {P : W64 → Nat → Prop} [∀ a b, Decidable (P a b)]
    (h : trOk s core tcid va who (fun a b => decide (P a b)) = true) : ∃ leaf phys, s.translate core tcid va who = .ok leaf phys ∧ P leaf phys := by
  unfold trOk at h
  split at h
  · rename_i l p e
    exact ⟨l, p, e, of_decide_eq_true h⟩
  · simp at h

def fetchDemo : State := waits (.fetch 0x4000) (.nop g0) (withShared [])

theorem a_line_can_be_fetched :
    fetchDemo.fetching 0 0 0x4000 ≠ [] ∧ fetchDemo.past = [] ∧ ∃ leaf phys, fetchDemo.translate 0 0 ((0x4000 : VAddr).setWidth 64) (.fetch 0x4000) = .ok leaf phys ∧ fetchable leaf = true ∧
      fetchDemo.badRead (leafTier leaf) phys 64 = false := ⟨by decide +kernel, rfl, tr_with (by decide +kernel)⟩

/-- Sampling at each tick, with a context in slot 0. -/
def sampling : State := { demo with picks := [], tick := 16, areas := [(2, ⟨0x8000, 14, 1 * 2 ^ 16, 0, 0, true, 0, 0⟩)] }

def req (level order : Nat) (running : Bool) : GReq := ⟨1, Lanes.below 64, 2, 0, 0, opaDemo, 0, [4], level, 0, running, order⟩
/-- The array of partition 0 holds requests. -/
def arrayed (l : List GReq) : State := (demo.updCore 0 fun k => { k with parts := [(0, { Part.reset with arr := l })] })

theorem array_requests :
    (bestReq ((arrayed [req 0 1 false, req 7 2 false]).part 0 0).arr = some (req 7 2 false) ∧
      ∀ x ∈ ((arrayed [req 0 1 false, req 7 2 false]).part 0 0).arr, x.running = false ∧ x.ageDue 0 = false) ∧
    (((arrayed [req 0 1 true]).part 0 0).arr.find? (fun x => x.running) = some (req 0 1 true) ∧ (req 0 1 true).groups = [4] ∧ 0 + 4 ≤ 4 ∧ (req 0 1 true).ageDue 4 = false ∧
      0 < ((arrayed [req 0 1 true]).core 0).parts.length) ∧
    (((arrayed [req 6 1 false]).part 0 0).arr = [req 6 1 false] ∧ (req 6 1 false).running = false ∧ (req 6 1 false).level < 7) := by decide +kernel

/-- Site 3 of tile 2 of strip 0 has a closed contraction. -/
def closing : State :=
  demo (fb := fun b => { b with tiles := [⟨2, some 0, [], false, [⟨1, 3, some ⟨0x44, 1, 1, false, false, 0, 0⟩, Lanes.below 64, [⟨0, [1], [1], 0⟩], [], some 0⟩], []⟩] })

theorem a_contraction_closes :
    ∃ b, closing.block? 1 = some b ∧ b.id = 1 ∧ (closing.launch? b.launch).any (fun l => !l.hdr.blockTiles.getLsbD 2) = true ∧
      (b.inst 2 (some 0)).next?.any (fun x => x.site == 3) = true ∧ closing.requestsOf b 2 (some 0) 1 = false := some_with (by decide +kernel)

/-! ### Witnesses: waits -/

theorem waiting_with {s : State} {r : FragRef} {x : WaitFor} {P : Ctx → Frag → Wait → Prop} [∀ c f w, Decidable (P c f w)]
    (h : atFrag s r (fun c f => f.wait.any fun w => decide (f.state = .running ∧ f.hasChildren = false ∧ w.what = x ∧
      (f.parent = none ∨ f.pc + BitVec.ofNat 58 w.len ≠ f.reconv) ∧ P c f w)) = true) : ∃ c f w, Waiting s r x c f w ∧ P c f w := by
  unfold atFrag at h
  cases hc : s.ctx? r.ctx with
  | none => simp [hc] at h
  | some c =>
    cases hf : c.frag? r.frag with
    | none => simp [hc, hf] at h
    | some f =>
      simp only [hc, hf] at h
      cases hw : f.wait with
      | none => simp [hw] at h
      | some w =>
        have h := of_decide_eq_true (by simpa [hw] using h : decide _ = true)
        exact ⟨c, f, w, ⟨hc, hf, h.1, h.2.1, hw, h.2.2.1, h.2.2.2.1⟩, h.2.2.2.2⟩

def fenceDemo : FenceOp := ⟨.ar, .sys, some 5, g0, false⟩

theorem waits_that_end :
    (∃ c f w, Waiting (waits .fence (.fence fenceDemo)) ⟨2, 0⟩ .fence c f w ∧ w.instr = .fence fenceDemo ∧
      ∀ p ∈ (waits .fence (.fence fenceDemo)).stores, p.ctx ≠ 2) ∧
    (∃ c f w, Waiting (waits .counter (.wait ⟨.cp, none, g0⟩)) ⟨2, 0⟩ .counter c f w ∧ w.instr = .wait ⟨.cp, none, g0⟩ ∧ c.counter .cp ≤ 0) ∧
    (∃ c f w, Waiting (waits .wchild .wchild) ⟨2, 0⟩ .wchild c f w ∧ ∀ y ∈ c.children, f.mask.getLsbD y.1 = true →
      ∀ l ∈ (waits .wchild .wchild).launches, l.seq = y.2 → l.state = .retired ∨ l.state = .done) ∧
    (∃ c f w, Waiting (waits .fullEmpty (.fwr ⟨16, false⟩ (.v 2) g0) (Tests.shared false)) ⟨2, 0⟩ .fullEmpty c f w ∧ w.instr = .fwr ⟨16, false⟩ (.v 2) g0 ∧
      c.fullBit 16 = false) ∧
    (∃ c f w, Waiting (waits .fullEmpty (.frd ⟨3, false⟩ 16 g0) (Tests.shared true)) ⟨2, 0⟩ .fullEmpty c f w ∧ w.instr = .frd ⟨3, false⟩ 16 g0 ∧ c.fullBit 16 = true) ∧
    (∃ c f w, Waiting (waits .await (.await ⟨⟨2, false, g0⟩, 3⟩)) ⟨2, 0⟩ .await c f w ∧ (demo.block? c.block).isSome = true ∧
      w.instr = .await ⟨⟨2, false, g0⟩, 3⟩ ∧ c.instKeys false f.mask ≠ [] ∧ (demo.block? c.block).all (fun b => b.tiles.isEmpty) = true) ∧
    (∃ c f w, Waiting (waits .await (.opa opaDemo)) ⟨2, 0⟩ .await c f w ∧ siteOf w.instr = some ⟨⟨2, false, g0⟩, 3⟩ ∧ w.instr = .opa opaDemo ∧
      (demo.block? c.block).all (fun b => b.tiles.isEmpty) = true) ∧
    (∃ c f w, Waiting (waits (.tlbi 7) (.tlbiAll g0)) ⟨2, 0⟩ (.tlbi 7) c f w ∧
      { waits (.tlbi 7) (.tlbiAll g0) with tlbis := [⟨7, 2, 0, 0, 0, [], some ⟨2, 0⟩⟩] }.beatsDone ⟨7, 2, 0, 0, 0, [], some ⟨2, 0⟩⟩ = true) ∧
    (∃ c f w, Waiting (waits .seal (.seal 12) (withRegion .stash)) ⟨2, 0⟩ .seal c f w ∧ w.instr = .seal 12 ∧
      ((withRegion .stash).launchOfCtx? c).any (fun l => ((withRegion .stash).regionOf 0 l f.regs.k[12]).any fun x => x.1 == 1) = true ∧
      (withRegion .stash).stashing 0 1 = false ∧ (∀ y ∈ (withRegion .stash).linesOf 0 1, y.d = 0) ∧
      ∀ b ∈ (withRegion .stash).writeBacks, b.die ≠ 0 ∨ b.slot ≠ 1) :=
  ⟨waiting_with (by decide +kernel), waiting_with (by decide +kernel), waiting_with (by decide +kernel), waiting_with (by decide +kernel),
    waiting_with (by decide +kernel), waiting_with (by decide +kernel), waiting_with (by decide +kernel), waiting_with (by decide +kernel),
    waiting_with (by decide +kernel)⟩

/-- Two contexts that name each other with one range. -/
def pairing : State :=
  let s := waits .shmap (.shmap ⟨none, false⟩ (some 10) (some (16, 23)))
  { s with ctxs := s.ctxs.flatMap fun c => [{ c with shWish := some (1, 16, 23) }, { c with id := 5, slot := 1, shWish := some (0, 16, 23) }] }

theorem contexts_to_pair :
    (∃ c f w, Waiting pairing ⟨2, 0⟩ .shmap c f w ∧ c.shWish = some (1, 16, 23) ∧ c.shmap = none ∧ c.id ≠ 5 ∧
      (pairing.slotCtx? c.core c.part 1).any (fun d => d.id == 5) = true) ∧
    (∃ d g v, Waiting pairing ⟨5, 0⟩ .shmap d g v ∧ d.mapping = some g ∧ d.shWish = some (0, 16, 23) ∧ d.shmap = none) :=
  ⟨waiting_with (by decide +kernel), waiting_with (by decide +kernel)⟩

/-- The word that `pmap` answers with. -/
def answersWord (x : Pmap) : Bool :=
  match x with
  | .word _ => true
  | _ => false

def pmapDemo (s : State := demo) : State := waits .pmap (.pmap 8 12 g0) s

/-- A child launch that a fragment has still to submit. -/
def submitting : State :=
  let s := waits .childQueue (.launch .zero g0)
  { s with toEnqueue := [(⟨2, 0⟩, { probeLaunch 0 0 with path := .child 2 1 0, queue := 48, state := .queued })] }

/-- An entry on its way, and a later one of its instruction. -/
def pushing : State := { queued [queueDemo] false with pushes := [⟨20, 2, 0, 0, 0, [1], none⟩, ⟨21, 2, 0, 1, 0, [2], none⟩] }

/-- The class layer at the request of a waiting `eslot.get`. -/
def layerDemo : W64 := 0
def drainWait : State := waits .qdrain (.qdrain ⟨some 8, none, 0⟩) (withShared drainDesc)

/-- The final step of a request whose leaf is as it was, or has been made valid meanwhile. -/
def finalStep (old : W64) : State := { pmapDemo (withShared []) with pmapping := some ⟨⟨2, 0⟩, 1, 0, 0x1C008, old, 0x5⟩ }

theorem a_final_step :
    (∃ c f w, Waiting (finalStep 0x41F) ⟨2, 0⟩ .pmap c f w ∧ c.shmap = none ∧ w.instr = .pmap 8 12 g0) ∧ (finalStep 0x41F).memOk = true ∧
    (finalStep 0x41F).tier1.readW64 0x1C008 = 0x41F ∧ (finalStep 4).tier1.readW64 0x1C008 ≠ 4 ∧
    ((finalStep 4).block? 1).any (fun b => ((finalStep 4).launch? b.launch).isSome) = true :=
  ⟨waiting_with (by decide +kernel), by decide +kernel, by decide +kernel, by decide +kernel, by decide +kernel⟩

theorem requests_to_serve :
    (∃ c f w, Waiting (pmapDemo (withShared [])) ⟨2, 0⟩ .pmap c f w ∧ c.shmap = none ∧ w.instr = .pmap 8 12 g0 ∧
      (pmapDemo (withShared [])).firstPmap = some ⟨2, 0⟩ ∧
      (pmapDemo (withShared [])).pmapping = none ∧ answersWord ((pmapDemo (withShared [])).pmap ⟨2, 0⟩ 1 0 f.regs.k[12]) = true) ∧
    (demo.tcid 0).valid = false ∧
    ((withShared []).tcid 0).valid = true ∧ (0x4000 : W64).toNat < 2 ^ 58 ∧ ((withShared []).tcid 0).root < (withShared []).tier1Limit ∧
    (match (withShared []).pmapTable 0x4000 3 ((withShared []).tcid 0).root with
      | .ok base => leafValid ((withShared []).tier1.readW64 (base + 8 * bitsN (0x4000 : W64).toNat 14 11))
      | .error _ => false) = true ∧
    (∃ c f w, Waiting submitting ⟨2, 0⟩ .childQueue c f w ∧ submitting.queueFree 48 = true ∧ c.id = 2 ∧ c.block = 1 ∧
      submitting.toEnqueue = [(⟨2, 0⟩, { probeLaunch 0 0 with path := .child 2 1 0, queue := 48, state := .queued })]) ∧
    (∃ c f w, Waiting (waits (.eslot layerDemo) (.eslotGet 10 13) slotted) ⟨2, 0⟩ (.eslot layerDemo) c f w ∧ w.instr = .eslotGet 10 13 ∧ f.regs.k[13].toNat < 2 ^ 32 ∧
      (waits (.eslot layerDemo) (.eslotGet 10 13) slotted).slotAhead 0 w.stamp = false ∧
      (slotted.die 0).slotSet.any (fun x => decide (slotLayer f.regs.k[13] < x.layers) &&
        (x.slots.zipIdx.find? fun z => z.1.state != .empty && z.1.key == f.regs.k[13]).any fun z => z.1.state == .ready) = true) ∧
    (∃ c f w, Waiting drainWait ⟨2, 0⟩ .qdrain c f w ∧ w.instr = .qdrain ⟨some 8, none, 0⟩ ∧
      (drainWait.waitEnv ⟨2, 0⟩).any (fun e => match parseDrain (e.queueDesc ⟨some 8, none, 0⟩ 192) with
        | .ok q => !e.drainWaits q
        | .error _ => false) = true) ∧
    (∃ c, pushing.ctx? 2 = some c ∧ (pushing.launchOfCtx? c).any (fun l => l.tcid == 0) = true ∧ pushing.queueFor 0 0 = some (0, queueDemo) ∧
      (pushing.die 0).queues = [queueDemo]) :=
  ⟨waiting_with (by decide +kernel), by decide +kernel, by decide +kernel, by decide +kernel, by decide +kernel, by decide +kernel,
    waiting_with (by decide +kernel), waiting_with (by decide +kernel), waiting_with (by decide +kernel), some_with (by decide +kernel)⟩

/-! ### Witnesses: memory's own events, the engine and the ports -/

/-- The die's lines, requests and regions set. -/
def onDie (s : State) (f : Die → Die) : State := { s with dies := s.dies.set 0 (f s.dies[0]) }

/-- A posted store of 4 bytes to a plain region, with its command. -/
def storeDemo : State :=
  let s := withRegion .plain id (demo (fc := fun c => { c with counters := c.counters.set 1 1 }))
  { s with
    stores := [⟨9, 2, 0, 8, 0, 1, 1, [(0, 1), (1, 2), (2, 3), (3, 4)], []⟩]
    cmds := [{ Cmd.new 8 ((s.ctx? 2).getD aCtx) aFrag 0 0 .sp (.sp 1) 0 0 with pending := 1 }] }

theorem a_store_on_its_way :
    storeDemo.memOk = true ∧ storeDemo.stores = [⟨9, 2, 0, 8, 0, 1, 1, [(0, 1), (1, 2), (2, 3), (3, 4)], []⟩] ∧
    (storeDemo.regionAt? 0 1).any (fun x => x.kind == .plain) = true ∧ SMap.getD (storeDemo.die 0).gens 1 0 = 1 ∧ [0, 1, 2, 3].Nodup ∧
    (storeDemo.ctx? 2).isSome = true ∧ storeDemo.cmds.length = 1 ∧
    ∀ c ∈ storeDemo.cmds, c.id = 8 ∧ c.ctx = 2 ∧ c.path = .sp ∧ ({ c with pending := 0 } : Cmd).complete = true := by decide +kernel

def isOk {ε α : Type} (x : Except ε α) : Bool :=
  match x with
  | .ok _ => true
  | .error _ => false

/-- A walk of a mapped page, and of one that is not, for fragment 0, which has asked, or for nobody. -/
def walking (va : W64) (askers : List Asker) : State :=
  { withShared [] with
    walks := [⟨11, 1, 0, va, askers⟩]
    ctxs := (withShared []).ctxs.map fun c => { c with frags := c.frags.map fun f => { f with asks := [pageAsk va] } } }

theorem walks_that_end :
    (walking 0x4000 []).walks.find? (fun x => x.id == 11) = some ⟨11, 1, 0, 0x4000, []⟩ ∧ isOk ((walking 0x4000 []).walk 0 0 0x4000).2 = true ∧
    isOk ((walking 0xC000 [.frag ⟨2, 0⟩]).walk 0 0 0xC000).2 = false ∧ (walking 0xC000 [.frag ⟨2, 0⟩]).walkFaults = [] ∧
    ((walking 0xC000 [.frag ⟨2, 0⟩]).frag? ⟨2, 0⟩).any (fun g => g.asks.contains (pageAsk 0xC000)) = true ∧
    isOk ((walking 0xC000 []).walk 0 0 0xC000).2 = false := by
  decide +kernel

/-- A first touch or a fill of line 0 of a mapped region at the global address 0x4000. -/
def touching (lines : List Line) : State :=
  onDie (withRegion .mapped (fun r => { r with globalBase := 0x4000 }) (withShared [] 0x100001)) fun d =>
    { d with lineReqs := [⟨0, 1, 0, 0, 0, false, true, []⟩], lines := lines }

theorem lines_to_touch_and_fill :
    ((touching []).die 0).lineReqs.find? (fun q => q.slot == 1 && q.line == 0) = some ⟨0, 1, 0, 0, 0, false, true, []⟩ ∧
    ((touching []).die 0).line? 1 0 = none ∧ ((touching []).die 0).lines.length < Config.lineTranslations ∧
    ((touching []).regionAt? 0 1).any (fun x => x.lined && trOk (touching []) 0 x.tcid (x.lineVa 0) (.line ⟨0, 1, 0⟩) fun l _ => decide (leafTier l ≤ 1)) = true ∧
    (touching [⟨1, 0, 0x41F, 0x4000, Horizon.none, 3, 0, 0, 0⟩]).memOk = true ∧ (touching [⟨1, 0, 0x41F, 0x4000, Horizon.none, 3, 0, 0, 0⟩]).past = [] ∧
    ((touching [⟨1, 0, 0x41F, 0x4000, Horizon.none, 3, 0, 0, 0⟩]).die 0).line? 1 0 = some ⟨1, 0, 0x41F, 0x4000, Horizon.none, 3, 0, 0, 0⟩ ∧
    (((touching [⟨1, 0, 0x41F, 0x4000, Horizon.none, 3, 0, 0, 0⟩]).die 0).lineReqs.any fun q => q.slot == 1 && q.line == 0 && q.fill) = true := by decide +kernel

def writingBack (tier : W64) : State := { demo with writeBacks := [⟨0, 1, 0, 0x41F + tier * 2 ^ 58, 0x4000, [(0, 1), (5, 2)], [], .none⟩] }

theorem write_backs :
    (writingBack 0).memOk = true ∧ [0, 5].Nodup ∧ (writingBack 1).writeBacks.length = 1 ∧ (writingBack 1).mgmt.tier2Up.all id = true ∧
    (∀ w ∈ (writingBack 0).writeBacks, leafTier w.leaf = 0) ∧ ∀ w ∈ (writingBack 1).writeBacks, leafTier w.leaf = 1 := by decide +kernel

/-- A copy of 8 bytes from the global address 0x4000 to 0x4100 in one row that signals its arrival. -/
def copyCmd : Cmd :=
  let d : CopyDesc :=
    { transpose := false, conv := 0, arrive := true, toStrided := false, denseSpace := 0, stridedSpace := 0, layout := 0, esize := 3, ndim := 1
      strided := 0x4000, dense := 0x4100, expOff := 0, arriveOff := 8, ext := List.replicate 9 0, pitch := 0, stride := List.replicate 9 0 }
  { Cmd.new 8 aCtx aFrag 0 0 .cp (.copy d false) 0 1 with
    rows := [0], trans := [(1, 0x41F)] }
def copying : State := { withShared [] with cmds := [copyCmd] }

theorem steps_of_the_element :
    copying.steps copyCmd 0 = [.rd (.mem 0 0x4000) 8, .make (fun x => x) 8, .ready, .wr (.mem 0 0x4100) 8] := rfl

theorem an_element_to_move :
    copying.cmd? 8 = some copyCmd ∧ copyCmd.id = 8 ∧ copying.mayRun copyCmd 0 = true ∧ copying.collReady copyCmd 0 = true ∧ copying.leads copyCmd 0 = true ∧
    copyCmd.covered 0 = true ∧ copying.beatRun copyCmd 0 63 = [0] ∧ copyCmd.parts = [] ∧ copyCmd.beat = none ∧ copying.past = [] ∧
    copying.badRead 0 0x4000 8 = false ∧ copying.memOk = true := by decide +kernel

theorem a_row_to_arrive :
    copying.memOk = true ∧
    (({ copying with cmds := copying.cmds.map fun c => { c with doneCount := 1 } } : State).cmd? 8).any (fun c => c.rowDone 0 && c.rows.contains 0 &&
      (copying.block? c.block).any fun b => (copying.badLocal c.block 0 .shared (effAddr b.shSize 4 8 0) 4).isNone) = true := by decide +kernel

/-- A window of 16 KiB at 0x4000 with every permission. -/
def windowed : State :=
  { State.reset with ual := { State.reset.ual with windows := [(3, ⟨true, false, 0x4000, 0x4000, 7, 0, true, true, true, 0⟩)], podSize := 4 } }

theorem remote_accesses :
    windowed.ual.portsUp[(0 : Fin 16)] = true ∧ windowed.window? ⟨0, 2, false, 0, 1, 4, 0, 8, 7, .read⟩ = none ∧
    windowed.window? ⟨0, 2, false, 0, 1, 3, 0x3FFC, 8, 7, .read⟩ = none ∧
    windowed.window? ⟨0, 2, false, 0, 1, 3, 0x3FF8, 8, 7, .read⟩ = some ⟨true, false, 0x4000, 0x4000, 7, 0, true, true, true, 0⟩ ∧
    windowed.window? ⟨0, 2, false, 0, 1, 3, 0, 4, 7, .write [1, 2, 3, 4]⟩ = some ⟨true, false, 0x4000, 0x4000, 7, 0, true, true, true, 0⟩ ∧
    windowed.badRead 0 0x7FF8 8 = false ∧ windowed.downUnits 0 0x4000 4 = [] := by decide +kernel

/-- A write to another device is on its way, and nothing of its element follows. -/
def remote : State :=
  { copying with
    cmds := copying.cmds.map fun c => { c with parts := [⟨0, 3, [], false, .writing⟩] }
    ual := { State.reset.ual with requests := [⟨30, 2, 8, 0, 5, 1, 3, 0, 7, 0, .write [1], 1⟩] } }

def reqDemo : RemoteReq := ⟨30, 2, 8, 0, 5, 1, 3, 0, 7, 0, .write [1], 1⟩

theorem a_response_to_take :
    remote.ual.requests = [reqDemo] ∧ (remote.cmd? 8).any (fun c => decide (c.parts = [⟨0, 3, [], false, .writing⟩]) &&
      (((({ remote with ual := { remote.ual with requests := [] } } : State).serveReq reqDemo true).answer c reqDemo .refused []).1.steps c 0 |>.drop 4).isEmpty) =
        true := by decide +kernel

theorem a_contribution :
    (grouped.collGroup? 0).any (fun x => x.populated.contains 5) = true ∧ ({ grouped with ual := { grouped.ual with device := 1 } } : State).ownsSlot 0 5 = false ∧
    grouped.inst? 0 0 = none ∧ grouped.ual.portsUp[(3 : Fin 16)] = true ∧ (grouped.collGroup? 7).isNone = true ∧
    (grouped.collGroup? 0).any (fun x => x.generation != 9 && !x.populated.contains 6) = true := by decide +kernel

/-! ### Witnesses: launches, blocks and contexts -/

/-- A launch of TCID 0 at the head of queue 2, enqueued at 0. -/
def launchDemo : Launch := { probeLaunch 5 0 with state := .queued, queue := 2, nextBlock := 0 }
/-- The machine with that launch and nothing else, at a cycle. -/
def launching (l : Launch) (cycle : Nat) : State := { State.reset with launches := [l], cycle := cycle, launchSeq := 5 }
def activeDemo : Launch := { launchDemo with state := .active }

theorem launches_to_run :
    ((launching launchDemo 65536).queued 2 = [launchDemo] ∧ (launching launchDemo 65536).ageDue launchDemo = true ∧
      (launching launchDemo 65536).launch? 5 = some launchDemo) ∧
    ((launching launchDemo 0).actives = [] ∧ (∀ h ∈ (launching launchDemo 0).heads, (launching launchDemo 0).ageDue h = false) ∧
      (launching launchDemo 0).nextHead = some launchDemo ∧ launchDemo.hdr.scratchSize = 0) ∧
    (((launching activeDemo 0).die 3).placedAt ≤ 0 ∧ (∀ k ∈ (launching activeDemo 0).launches, (launching activeDemo 0).starvedDue k = false) ∧
      (launching activeDemo 0).placing = [activeDemo] ∧ activeDemo.resuming = false ∧
      ((((launching activeDemo 0).coresFor 3 activeDemo 0).findSome? ((launching activeDemo 0).spotOn activeDemo.hdr (newNeeds activeDemo.hdr))).isSome = true)) ∧
    ((sortOn (fun l => l.activeOrder) (launching activeDemo 65536).launches).find? (launching activeDemo 65536).starvedDue = some activeDemo) ∧
    (({ demo with blocks := demo.blocks.map fun b => { b with placed := false } } : State).clearing 0).any (fun b => b.toClear == 0 && b.id == 1) = true := by
  decide +kernel

/-- The last item has exited. -/
def itemsOver : State := demo (fc := fun c => { c with live := 0, retired := Lanes.below 64, frags := [] })

theorem a_context_departs :
    ∃ c, itemsOver.ctx? 2 = some c ∧ c.id = 2 ∧ c.state = .resident ∧ c.live = 0 ∧ itemsOver.haltedCtx c = false ∧ itemsOver.drained c false = true :=
  some_with (by decide +kernel)

def gone : State := demo (fc := fun c => { c with live := 0, state := .left, frags := [] })

theorem a_block_retires :
    ∃ b, gone.block? 1 = some b ∧ b.id = 1 ∧ (gone.launch? b.launch).any (fun l => l.halted.isNone && decide (l.blocks ≤ l.retiredBlocks.length + 1)) = true ∧
      b.placed = true ∧ (∀ c ∈ gone.ctxs, c.block = b.id → c.state = .left) ∧ gone.childrenRetired b = true ∧
      ∀ x ∈ gone.blocks, x.launch = b.launch → x.id = b.id := some_with (by decide +kernel)

def retiredDemo (det : Bool) (st : LaunchState) : Launch := { launchDemo with det := det, state := st, retiredBlocks := [0] }

theorem launches_end :
    ((launching (retiredDemo false .retired) 0).launch? 5 = some (retiredDemo false .retired) ∧ (retiredDemo false .retired).recs = [] ∧
      (retiredDemo false .retired).halted = none) ∧
    ((launching (retiredDemo true .done) 0).launch? 5 = some (retiredDemo true .done)) ∧
    ((launching (retiredDemo true .retired) 0).launches.find? (fun x => x.tcid == 0 && x.det && (launching (retiredDemo true .retired) 0).over x) =
        some (retiredDemo true .retired) ∧ (launching (retiredDemo true .retired) 0).logPending 5 = false ∧ (launching (retiredDemo true .retired) 0).log = []) ∧
    ((State.reset.die 3).nextFiring ≤ 16 ∧ State.reset.candidates 3 false none = []) := by decide +kernel

/-- A queue with an entry that is due, whose firing is taken. -/
def firing : State :=
  { queued [{ queueDemo with chip := List.replicate 8 ⟨[1, 2, 3, 0], ⟨0, 0⟩⟩, quota := 8 }] false with cycle := 16, tick := 200 }

theorem a_firing_is_taken :
    (match firing.candidates 0 false none with
      | q :: _ => (firing.fire 0 q).2.isSome
      | [] => false) = true ∧ (firing.die 0).nextFiring ≤ firing.cycle := by decide +kernel

def regrouping : State := waits .regroup (.regroup (.v 6) (some (16, 23)))

theorem a_block_regroups :
    ∃ b, regrouping.block? 1 = some b ∧ b.id = 1 ∧ (regrouping.launch? b.launch).any (fun l => l.halted.isNone) = true ∧
      ((sortOn (fun c => c.iidx ((Lanes.lowest c.live).getD 0)) (regrouping.sourcesOf b.id)).head?).any (fun c => c.regrouping.isSome) = true ∧
      (∀ c ∈ regrouping.sourcesOf b.id, c.regrouping.isSome = true ∧ c.state = .resident ∧ c.stopping = false ∧ c.halted = false ∧
        ∀ n ∈ c.counters.toList, n = 0) ∧ (regrouping.ctxs.map fun c => c.id).Nodup := some_with (by decide +kernel)

/-- A parked context; a fragment without an entry; one parked for room. -/
def parkedCtx : State := demo (fc := fun c => { c with state := .parked })
def entryless : State := demo (ff := fun f => { f with entryParked := some 3 })
def parkedFrag : State := demo (ff := fun f => { f with state := .parked })

/-- A parked context that finds no slot free, since all sixteen are taken, one of them by a context of its block that waits at `wchild`, with an overflow
area for its record. -/
def noRoom : State :=
  let s := waits .wchild .wchild
  { s with
    areas := [(3, ⟨0x100000, 20, 0, 0, 0, true, 0, 0⟩)]
    ctxs := s.ctxs.flatMap fun c => { c with id := 50, slot := 0, state := .parked, frags := c.frags.map fun f => { f with wait := none } } ::
      (List.range 16).map fun n => { c with id := 20 + n, slot := n } }

/-- All 64 entries of a partition held, that of fragment 1 by a fragment that has arrived. -/
def noEntry : State :=
  demo (fc := fun c => { c with frags := c.frags.flatMap fun f =>
    { f with entryParked := some 3 } :: (List.range 64).map fun n => { f with id := n + 1, entry := n, state := if n = 0 then .arrived else .running } })

theorem contexts_that_return :
    (∃ c, parkedCtx.ctx? 2 = some c ∧ c.id = 2 ∧ (parkedCtx.parkedAt c.core c.part).head? = some c ∧ parkedCtx.ctxFits c = true ∧
      (c.waitsForOthers && parkedCtx.parkedIn c.block) = false) ∧
    (∃ c, noRoom.ctx? 50 = some c ∧ c.id = 50 ∧ c.state = .parked ∧ c.waitsForOthers = false ∧ noRoom.ctxFits c = false ∧
      (sortOn (fun y => y.id) ((noRoom.ctxsOf c.block).filter fun y => y.state == .resident && y.waitsForOthers)).head?.any
        (fun x => (noRoom.parkCtx x.id).isSome) = true) ∧
    (∃ c f, entryless.ctx? 2 = some c ∧ c.frag? 0 = some f ∧ c.state = .resident ∧ f.entryParked = some 3 ∧
      (∀ x ∈ entryless.fragsAt c.core c.part, 3 ≤ x.2.entryParked.getD (2 ^ 80)) ∧ 0 < entryless.freeEntries c.core c.part) ∧
    (∃ c f, noEntry.ctx? 2 = some c ∧ c.frag? 0 = some f ∧ c.state = .resident ∧ f.entryParked = some 3 ∧ f.entryReady = true ∧
      noEntry.freeEntries c.core c.part = 0 ∧ (noEntry.entryGivers (noEntry.fragsAt c.core c.part)).head?.any (fun y => y.2.id == 1) = true ∧
      ∀ x ∈ noEntry.fragsAt c.core c.part, x.2.entryReady = true → 3 ≤ x.2.entryParked.getD (2 ^ 80)) ∧
    (∃ c f, parkedFrag.ctx? 2 = some c ∧ c.frag? 0 = some f ∧ f.state = .parked ∧ f.park = none ∧ f.hasChildren = false ∧ f.entryParked = none ∧
      c.state = .resident ∧ 0 < parkedFrag.stripRoom c f) :=
  ⟨some_with (by decide +kernel), some_with (by decide +kernel), frag_with (r := ⟨2, 0⟩) (by decide +kernel), frag_with (r := ⟨2, 0⟩) (by decide +kernel),
    frag_with (r := ⟨2, 0⟩) (by decide +kernel)⟩

/-- A launch under pre-emption at the address 0x100000, its context asked to stop at 0, and stopped. -/
def preempting (stopping : Bool) : State :=
  { demo (fl := fun l => { l with preempting := true, saveArea := some 0x100000 }) (fc := fun c => { c with preempt := some 0, stopping := stopping }) with
    cycle := Config.preemptTicks }

/-- The same with a partner by `shmap`, which is asked to stop too. -/
def preemptingPair : State :=
  let s := preempting false
  { s with ctxs := s.ctxs.flatMap fun c => [{ c with shmap := some ⟨5, 16, 23, List.replicate 8 false, []⟩ }, { c with id := 5, slot := 1 }] }

theorem contexts_that_leave :
    (∃ c, (preempting false).ctx? 2 = some c ∧ c.id = 2 ∧ c.preempt = some 0 ∧ c.stopping = false ∧ c.inHandler = false ∧ c.state = .resident ∧
      0 + Config.preemptTicks ≤ (preempting false).cycle ∧ (preempting false).partnerOf c = none) ∧
    (∃ c, preemptingPair.ctx? 2 = some c ∧ c.id = 2 ∧ c.preempt = some 0 ∧ c.stopping = false ∧ c.inHandler = false ∧ c.state = .resident ∧
      0 + Config.preemptTicks ≤ preemptingPair.cycle ∧ (preemptingPair.partnerOf c).any (fun p => p.id == 5 && !p.inHandler && p.preempt.isSome) = true) ∧
    ((preempting true).memOk = true ∧ ∃ b, (preempting true).block? 1 = some b ∧ b.id = 1 ∧ b.saved = false ∧
      ((preempting true).launch? b.launch).any (fun l => l.preempting && l.halted.isNone) = true ∧
      sortOn (fun c => c.id) (((preempting true).ctxsOf b.id).filter fun c => c.state != .left) ≠ [] ∧
      ∀ c ∈ sortOn (fun c => c.id) (((preempting true).ctxsOf b.id).filter fun c => c.state != .left), (preempting true).mayWrite c = true) :=
  ⟨some_with (by decide +kernel), some_with (by decide +kernel), by decide +kernel, some_with (by decide +kernel)⟩

/-- A die of n copies of one line wants another. -/
def crowded (n : Nat) (x : Line) : State :=
  onDie (withRegion .mapped) fun d => { d with lines := List.replicate n x, lineReqs := [⟨0, 1, 9, 0, 0, false, true, []⟩] }

theorem fold_oldest (x : Line) (n : Nat) :
    (List.replicate n x).foldl (fun best y =>
      match best with
      | none => some y
      | some b => if y.used < b.used then some y else best) (some x) = some x := by
  induction n with
  | zero => rfl
  | succ n ih => simpa [List.replicate_succ] using ih

/-- Line 0 of the region in slot 1, with the bytes of `d` dirty. -/
def oldLine (d : BitVec 256) : Line := ⟨1, 0, 0x41F, 0x4000, Horizon.none, d, d, 0, 0⟩

theorem crowded_lines (n : Nat) (x : Line) : ((crowded n x).die 0).lines = List.replicate n x := rfl
theorem crowded_reqs (n : Nat) (x : Line) : ((crowded n x).die 0).lineReqs = [⟨0, 1, 9, 0, 0, false, true, []⟩] := rfl

theorem crowded_with (n : Nat) (d : BitVec 256) (h : Config.lineTranslations ≤ n + 1) :
    ((crowded (n + 1) (oldLine d)).die 0).toReplace = some (oldLine d) ∧ ((crowded (n + 1) (oldLine d)).regionAt? 0 1).isSome = true ∧
      ((crowded (n + 1) (oldLine d)).die 0).wantsLine = true ∧ (crowded (n + 1) (oldLine d)).writeBacks = [] ∧
      (crowded (n + 1) (oldLine d)).stores = [] := by
  refine ⟨?_, rfl, ?_, rfl, rfl⟩
  · have v : ((crowded (n + 1) (oldLine d)).die 0).victim = none := rfl
    rw [Die.toReplace, v]
    simp only [Option.bind_none]
    rw [Die.oldestLine, crowded_lines]
    exact fold_oldest (oldLine d) n
  · have e : ((crowded (n + 1) (oldLine d)).die 0).line? 1 9 = none := by
      rw [Die.line?, crowded_lines, List.find?_eq_none]
      intro y hy
      rw [List.eq_of_mem_replicate hy]
      simp [oldLine]
    rw [Die.wantsLine, crowded_lines, crowded_reqs]
    simp [e, h]

/-- A line that has been picked is the one to replace. -/
theorem victim_is_replaced :
    (let s := onDie (withRegion .mapped) fun d => { d with lines := [oldLine 3], victim := some (1, 0) }
     (s.die 0).toReplace = some (oldLine 3) ∧ (s.die 0).victim = some (1, 0)) := by decide +kernel

/-- A dirty and a clean line to be replaced, not yet picked. -/
theorem a_line_to_replace :
    (∃ s : State, (s.die 0).toReplace = some (oldLine 3) ∧ (oldLine 3).d ≠ 0 ∧ (s.regionAt? 0 1).isSome = true ∧ (s.die 0).wantsLine = true ∧
      s.stores = [] ∧ (s.die 0).victim = none) ∧
    (∃ s : State, (s.die 0).toReplace = some (oldLine 0) ∧ (oldLine 0).d = 0 ∧ (s.regionAt? 0 1).isSome = true ∧ (s.die 0).wantsLine = true ∧
      s.stores = [] ∧ s.writeBacks = []) := by
  have a := crowded_with 65535 3 (Nat.le_refl _)
  have b := crowded_with 65535 0 (Nat.le_refl _)
  exact ⟨⟨_, a.1, by decide, a.2.1, a.2.2.1, a.2.2.2.2, rfl⟩, ⟨_, b.1, rfl, b.2.1, b.2.2.1, b.2.2.2.2, b.2.2.2.1⟩⟩

/-! ### Witnesses: the host, the links and the management controller -/

/-- A mailbox that has applied 4 commands of 6. -/
def mailed : State := { State.reset with mbox := { State.reset.mbox with tail := 6, applied := 4, ring := [(7, List.replicate 32 0)] } }

theorem host_writes :
    mailed.hostLink = true ∧ ((5 : W32) - mailed.mbox.applied).toNat < (mailed.mbox.tail - mailed.mbox.applied).toNat ∧
    4096 < ((4101 : W32) - mailed.mbox.applied).toNat ∧
    ((mailed.mbox.tail - mailed.mbox.applied).toNat ≤ ((4100 : W32) - mailed.mbox.applied).toNat ∧ ((4100 : W32) - mailed.mbox.applied).toNat ≤ 4096) ∧
    mailed.mbox.covered 7 = none ∧ (List.replicate 32 (0 : W64)).length = 32 ∧ (mailed.mbox.slot 7).length = 32 ∧ mailed.mbox.queued = [] ∧
    0x100000 ≤ 0x100000 ∧ 7 * 256 + 248 < 0x100000 ∧
    ({ mailed with mgmt := { mailed.mgmt with hostUp := false } } : State).hostLink = false := by decide +kernel

def armed : State := { State.reset with mgmt := { State.reset.mgmt with portOpen := true, solstice := some 0, stopAt := none } }
def halted : State := demo (fc := fun c => { c with halted := true })

theorem management_conditions :
    (State.reset.mgmt.thaw = true ∧ State.reset.mgmt.stopped = false ∧ ∀ l ∈ State.reset.launches, l.state.activated = false) ∧
    2 ≤ State.reset.rate ∧ (armed.mgmt.portOpen = true ∧ armed.tick + 4096 ≤ 4096 ∧ armed.mgmt.shadows = none) ∧
    State.reset.mgmt.portOpen = false ∧ ¬ (armed.tick + 4096 ≤ 4095) ∧
    (armed.mgmt.solstice = some 0 ∧ 0 ≤ armed.tick ∧ armed.picks = []) ∧
    ({ armed.mgmt with shadows := some armed.shadowsNow }.shadows ≠ none) ∧
    ({ armed.mgmt with stopAt := some 0, solstice := none }.stopAt = some 0) ∧
    ((gated []).mgmt.stopped = true ∧ (gated []).mgmt.portOpen = true) ∧ State.reset.ual.portsUp[(15 : Fin 16)] = true ∧
    State.reset.mgmt.tier2Up[(7 : Fin 8)] = true ∧
    (remote.ual.requests.length = 1 ∧ (∀ q ∈ remote.ual.requests, q.port = 5) ∧ (remote.cmd? 8).isSome = true ∧
      ∀ c ∈ remote.cmds, (match c.kind with | .coll _ _ => false | _ => true) = true ∧ ∀ x ∈ c.parts, x.stage ≠ .ready) := by decide +kernel

/-- The debugger has written k5. -/
def rewritten : State := demo (fc := fun c => { c with halted := true, debugWrites := [(0, .kreg 5 9)] })

theorem a_halted_context :
    (∃ c f, halted.ctx? 2 = some c ∧ c.frag? 0 = some f ∧ c.halted = true ∧ f.hasChildren = false ∧ f.resumes = true ∧ 63 < c.width ∧
      f.mask.getLsbD 63 = true ∧ (halted.block? c.block).isSome = true ∧ c.id = 2 ∧ c.debugWrites = [] ∧ ∀ g ∈ c.frags, g.shadow = none) ∧
    (∃ c f, rewritten.ctx? 2 = some c ∧ c.frag? 0 = some f ∧ c.halted = true ∧ c.frags = [f] ∧ f.shadow = none ∧ f.resumes = true ∧
      (rewritten.block? c.block).isSome = true ∧ c.debugWrites = [(f.id, .kreg 5 9)] ∧ c.id = 2) :=
  ⟨frag_with (r := ⟨2, 0⟩) (by decide +kernel), frag_with (r := ⟨2, 0⟩) (by decide +kernel)⟩

/-! ### Witnesses: mailbox commands -/

/-- One command at the head of the ring. -/
def mailbox (ws : List W64) (s : State) : State :=
  { s with mbox := { s.mbox with tail := 1, applied := 0, ring := [(0, ws ++ List.replicate (32 - ws.length) 0)] } }

/-- A command's first word for TCID 0. -/
def word0 (code : Nat) : W64 := BitVec.ofNat 64 (code * 2 ^ 56)

def applies (s : State) (i : Instr) (P : Command → Bool) : Bool :=
  match s.command? with
  | some c =>
    decide (c.row = i) && !c.reserved && (!s.mgmt.recovery || c.code == 0x01 || c.code == 0x15) && (!ownedCode c.code || (s.tcid c.tcid).valid) && P c
  | none => false

theorem applies_with {s : State} {i : Instr} {α : Type} {f : Command → Option α} (h : applies s i (fun c => (f c).isSome) = true) :
    ∃ c x, Applies i s c ∧ f c = some x := by
  unfold applies at h
  cases hc : s.command? with
  | none => simp [hc] at h
  | some c =>
    simp only [hc, Bool.and_eq_true, Bool.or_eq_true, Bool.not_eq_true', decide_eq_true_eq, beq_iff_eq] at h
    obtain ⟨⟨⟨⟨r, v⟩, y⟩, o⟩, p⟩ := h
    obtain ⟨x, hx⟩ := Option.isSome_iff_exists.mp p
    exact ⟨c, x, ⟨hc, r, v, fun m => by simpa [m] using y, fun m => by simpa [m] using o⟩, hx⟩

/-- Pages of TCID 0 and regions as `withRegion` has them. -/
def device : State := paged State.reset
def words : List Nat → List W64 := List.map (BitVec.ofNat 64)

/-- Word lists of commands that are carried out, each with a state. -/
def carriedDemo : List (Instr × List W64 × State) :=
  [(.writeMemory, word0 0x01 :: words [0x4000, 232], device),
   (.writeMemory, word0 0x01 :: words [0x4000, 0x4, 1], device),
   (.readMemory, word0 0x02 :: words [0x4000, 16], device),
   (.launchCommand, word0 0x03 :: words [0x8000, 64], device),
   (.preEmpt, word0 0x04 :: words [1, 0x100000], demo),
   (.resume, word0 0x05 :: words [1, 0x100000], demo (fl := fun l => { l with preemptNoted := true, saveArea := some 0x100000 })),
   (.debuggerHalt, word0 0x06 :: words [1, 0, 0], demo),
   (.debuggerRead, word0 0x06 :: words [1, 0, 9, 5], demo (fc := fun c => { c with halted := true })),
   (.invalidate, word0 0x08 :: words [2], device),
   (.poolTail, word0 0x09 :: words [7], { device with tcids := [(0, ⟨0x8000000000000004, 0, 0x20001, 0⟩)] }),
   (.parkAnswerResume, word0 0x0A :: words [4, 0], demo (ff := fun f => { f with state := .parked, park := some ⟨4, 2, 1, 1, 0, false, none⟩ })),
   (.parkAnswerFail, word0 0x0A :: words [4, 1], demo (ff := fun f => { f with state := .parked, park := some ⟨4, 2, 1, 1, 0, false, none⟩ })),
   (.invalidHandleCounterRead, word0 0x14 :: words [0, 255], device),
   (.dropCountRead, word0 0x14 :: words [1, 0], queued [queueDemo] true),
   (.refusedCounterRead, word0 0x14 :: words [2, 1023], device),
   (.lostCountRead, word0 0x14 :: words [3, 3], device),
   (.errorLogRead, word0 0x14 :: words [4, 0], { device with mgmt := { device.mgmt with errors := [⟨1, 2, 3, 4⟩] } }),
   (.errorLogRemove, word0 0x14 :: words [4, 1], { device with mgmt := { device.mgmt with errors := [⟨1, 2, 3, 4⟩] } }),
   (.writePhysical, word0 0x17 :: words [0x0FFFFFFF, 1, 9], device),
   (.readPhysical, word0 0x18 :: words [0x0FFFFFF0, 16], device),
   (.unknownCommand, word0 0x19 :: [], device)]

theorem carried_commands : ∀ x ∈ carriedDemo, ∃ c t, Applies x.1 (mailbox x.2.1 x.2.2) c ∧ carried (mailbox x.2.1 x.2.2) c x.1 = some t := by
  have h : (carriedDemo.all fun x => applies (mailbox x.2.1 x.2.2) x.1 fun c => (carried (mailbox x.2.1 x.2.2) c x.1).isSome) = true := by
    decide +kernel
  intro x hx
  exact applies_with (List.all_eq_true.mp h x hx)

/-- The same of the commands that write a table. -/
def tabledDemo : List (Instr × List W64 × State) :=
  [(.translationContextEntry, word0 0x07 :: words [4095, 0x8000000000000004], device),
   (.queueEntry, word0 0x0B :: words [0x8000000000000000, 0x8000, 0x4000], device),
   (.classEntry, word0 0x0C :: words [15, 0x8000000000000000, 65536 + 65536 * 2 ^ 32], device),
   (.slotSetEntry, word0 0x0D :: words [3, 2, 4096, 1], { device with mgmt := { device.mgmt with thaw := false } }),
   (.windowEntry, word0 0x0E :: words [1023, 0xF1D, 0x4000, 0x4000, 7], device),
   (.linkTables, word0 0x0F :: words [4, 511, 255], device),
   (.collectiveGroup, word0 0x10 :: words [255, 9], device),
   (.collectiveGroup, word0 0x10 :: words [0x100, 0, 6, 4095], grouped),
   (.collectiveGroup, word0 0x10 :: words [0x200, 63, 1], grouped),
   (.areas, word0 0x11 :: words [8 * 256, 0x100000], device),
   (.areaConsumedCount, word0 0x11 :: words [131, 5], device),
   (.regionFree, word0 0x12 :: words [1, 0x100001], withRegion .plain id device),
   (.stashQuotas, word0 0x13 :: words [0x100001, 2, 3], withRegion .stash id device)]

theorem tabled_commands : ∀ x ∈ tabledDemo, ∃ c t, Applies x.1 (mailbox x.2.1 x.2.2) c ∧ tabled (mailbox x.2.1 x.2.2) c x.1 = some t := by
  have h : (tabledDemo.all fun x => applies (mailbox x.2.1 x.2.2) x.1 fun c => (tabled (mailbox x.2.1 x.2.2) c x.1).isSome) = true := by
    decide +kernel
  intro x hx
  exact applies_with (List.all_eq_true.mp h x hx)

theorem a_region_to_create :
    ∃ c x, Applies .regionCreate (mailbox (word0 0x12 :: words [0x1A00]) { device with mgmt := { device.mgmt with thaw := false } }) c ∧
      (c.region.bind fun e => ({ device with mgmt := { device.mgmt with thaw := false } } : State).createRegion (bitsN (c.w 1) 4 2) e) = some x :=
  applies_with (by decide +kernel)

/-- A reserved bit, recovery, a TCID that is not valid, and unknown codes. -/
theorem refused_commands :
    (mailbox [word0 0x14 + 0x100000000] device).command?.any (fun c => c.reserved) = true ∧
    (mailbox [word0 0x02] { device with mgmt := { device.mgmt with recovery := true } }).command?.any (fun c => c.code != 0x01 && c.code != 0x15) = true ∧
    (mailbox [word0 0x0B] State.reset).command?.any (fun c => ownedCode c.code && !(State.reset.tcid c.tcid).valid) = true ∧
    (mailbox [word0 0x00] device).command?.any (fun c => c.code == 0) = true ∧
    (mailbox [word0 0x19] device).command?.any (fun c => decide (0x18 < c.code)) = true := by decide +kernel

theorem a_handle_to_name :
    ∃ x, demo.createRegion 3 (mkRegion .plain 26 0) = some x ∧ 0 < x.2 ∧ x.2 < 2 ^ 14 ∧ SMap.getD (demo.die 3).gens x.2 0 < 2 ^ 12 - 1 :=
  some_with (by decide +kernel)

/-! ### Witnesses: every step -/

theorem a_step_from_reset : State.reset.memOk = true ∧ (match step State.reset with | .next _ => true | _ => false) = true := by decide +kernel

/-- The first instruction of a launch is executed: `nop` goes on to the next address. -/
theorem test_first_instruction :
    (match step (State.reset.withFetchWord 64 0x00001C4E27138801) with
      | .next t => (t.frag? ⟨2, 0⟩).any fun f => f.pc == 0x1048
      | _ => false) = true := by decide +kernel

end Sys2Proof.Tests
end

section
/-! Comparisons, selection and predicate logic: where `sel` and the plane of its predicate part. -/

namespace Sys2Proof.Machine

open Sys2Proof

/-- An untagged `sel` asks its predicate for the item index at the position itself (`PTag.at`); it does not go by the predicate's plane. -/
theorem aluSel_at_untagged (x : SelOp) (V : View) (pass : Lanes) {p : Nat} (hn : p < V.n) (hp : pass.getLsbD p = true) :
    ((aluSel x).val V pass false).at p =
      if (V.regs.predNot x.q x.qneg).at V.places p then (V.src x.x.ty.wide x.x.a).at p else (V.bsrc x.x.ty x.x.b).at p := by
  simp [aluSel, Val.at, hn, hp]

/-- A regrouped context of one strip with a single item, item 0, at position 0; p1 is THR, below 1 (R158, R179). -/
def oneItemView : View :=
  { launch := false, n := 64, strips := 1, origin := 0, base := 0, bidx := 0, items := some (Lanes.single 0), exist := 1, mat := [],
    own := Lanes.single 0, regs := { emptyRegs with preds := emptyRegs.preds.set 1 (.thr 1 true) }, ctr := 0 }

/-- `sel.n32` of 0 and 1 by p1. -/
def selZeroOne : SelOp := ⟨⟨.n32, .zero, .zero, .imm 1, optOf ⟨0, false⟩⟩, 1, false⟩

/-- Position 1 has no item; `Places.at` falls back on index 0 there, which is below the threshold. -/
theorem oneItemView_p1_at_emptyPosition :
    (oneItemView.regs.predNot selZeroOne.q selZeroOne.qneg).at oneItemView.places 1 = true := by decide +kernel

/-- The plane counts the items below the threshold, of which there is one, so that it ends before position 1. -/
theorem oneItemView_p1_plane_emptyPosition :
    (oneItemView.plane (oneItemView.regs.predNot selZeroOne.q selZeroOne.qneg)).getLsbD 1 = false := by decide +kernel

theorem selZeroOne_sources_differ (V : View) :
    (V.src selZeroOne.x.ty.wide selZeroOne.x.a).at 1 ≠ (V.bsrc selZeroOne.x.ty selZeroOne.x.b).at 1 := by
  change (0 : W64) ≠ immVal .n32 1
  decide

/-- Refutes O13: its clause on `sel` has neither `Placed V` nor `p < V.exist` among its premises. In a regrouped view with one item and a
mask that passes the empty position 1, `sel` takes its first source there although the plane of its predicate is clear. No fragment owns such
a position, so that the machine never shows the difference; the clause wants the premises that the clause on `cmp` has. The clause on
thresholds fails likewise for want of `V.n ≤ 1024`: at 17 strips, position 1,024 lies outside every plane. -/
theorem not_predicatesAndSelection : ¬ Obligations.PredicatesAndSelection := by
  rintro ⟨⟨-, hsel⟩, -⟩
  have hn : 1 < oneItemView.n := by decide
  have hp : (Lanes.single 1).getLsbD 1 = true := by decide +kernel
  have h := hsel selZeroOne oneItemView (Lanes.single 1) false 1 hn hp
  rw [aluSel_at_untagged selZeroOne oneItemView _ hn hp, oneItemView_p1_at_emptyPosition, oneItemView_p1_plane_emptyPosition] at h
  exact selZeroOne_sources_differ oneItemView h

end Sys2Proof.Machine
end

section
/-! Integer rows: the element operations of R271 to R279 as operations on words of any width, division with its corners (R209), and the tags
that a row's result may keep (R159, R160). -/

namespace Sys2Proof.Machine

open Sys2Proof Sys2Proof.Claims

/-! ### Elements and words -/

/-- An operation on one word of any width; the Bool says that the type is signed. -/
abbrev WordOp1 := (w : Nat) → Bool → BitVec w → BitVec w

/-- An operation on two words of any width. -/
abbrev WordOp2 := (w : Nat) → Bool → BitVec w → BitVec w → BitVec w

/-- The model's element operation `g` is the word operation `f`, at the width and the signedness of every type. -/
def ElemsBy1 (g : IntTy → Nat → Nat) (f : WordOp1) : Prop :=
  ∀ (t : IntTy) (a : BitVec t.bits), g t a.toNat = (f t.bits t.signed a).toNat

def ElemsBy2 (g : IntTy → Nat → Nat → Nat) (f : WordOp2) : Prop :=
  ∀ (t : IntTy) (a b : BitVec t.bits), g t a.toNat b.toNat = (f t.bits t.signed a b).toNat

theorem bits_pos (t : IntTy) : 0 < t.bits := by cases t <;> decide
theorem bits_le (t : IntTy) : t.bits ≤ 64 := by cases t <;> decide

theorem sgnN_toNat {w : Nat} (a : BitVec w) : sgnN w a.toNat = a.toInt := by
  rw [sgnN, Nat.mod_eq_of_lt a.isLt, BitVec.toInt_eq_toNat_cond]
  norm_cast

theorem wrapN_eq (w : Nat) (z : Int) : wrapN w z = (BitVec.ofInt w z).toNat := by
  rw [wrapN, BitVec.toNat_ofInt]
  norm_cast

theorem ofInt_toNat {w : Nat} (a : BitVec w) : BitVec.ofInt w (a.toNat : Int) = a := by
  rw [BitVec.ofInt_natCast, BitVec.ofNat_toNat, BitVec.setWidth_eq]

theorem readN_signed {t : IntTy} (hs : t.signed = true) (a : BitVec t.bits) : readN t a.toNat = a.toInt := by
  rw [readN, if_pos hs, sgnN_toNat]

theorem readN_unsigned {t : IntTy} (hs : t.signed = false) (a : BitVec t.bits) : readN t a.toNat = a.toNat := by
  rw [readN, if_neg (by simp [hs]), Nat.mod_eq_of_lt a.isLt]

theorem readN_toNat (t : IntTy) (a : BitVec t.bits) : readN t a.toNat = if t.signed then a.toInt else (a.toNat : Int) := by
  cases hs : t.signed with
  | false => exact readN_unsigned hs a
  | true => exact readN_signed hs a

theorem readN_le_iff (t : IntTy) (a b : BitVec t.bits) :
    readN t a.toNat ≤ readN t b.toNat ↔ ¬ (if t.signed then b.slt a else b.ult a) = true := by
  rw [readN_toNat, readN_toNat]
  cases t.signed
  · simp [BitVec.ult]
  · simp [BitVec.slt]

/-! ### Arithmetic (R271, R273, R275) -/

theorem addE_by_words : ElemsBy2 addE fun _ _ a b => a + b := fun _ a b => (BitVec.toNat_add a b).symm

theorem subE_by_words : ElemsBy2 subE fun _ _ a b => a - b := by
  intro t a b
  rw [subE, wrapN_eq, Int.sub_eq_add_neg, BitVec.ofInt_add, BitVec.ofInt_neg, ofInt_toNat, ofInt_toNat, ← BitVec.sub_eq_add_neg]

theorem minE_by_words : ElemsBy2 minE fun _ s a b => if (if s then b.slt a else b.ult a) then b else a := by
  intro t a b
  simp only [minE, readN_le_iff, ite_not]
  exact (apply_ite BitVec.toNat _ _ _).symm

theorem maxE_by_words : ElemsBy2 maxE fun _ s a b => if (if s then a.slt b else a.ult b) then b else a := by
  intro t a b
  simp only [maxE, readN_le_iff, ite_not]
  exact (apply_ite BitVec.toNat _ _ _).symm

theorem ofInt_natAbs_toInt {w : Nat} (a : BitVec w) : BitVec.ofInt w a.toInt.natAbs = if a.msb then -a else a := by
  by_cases h : a.toInt < 0
  · rw [Int.ofNat_natAbs_of_nonpos (le_of_lt h), BitVec.ofInt_neg, BitVec.ofInt_toInt, BitVec.msb_eq_toInt, if_pos (by simpa using h)]
  · rw [Int.natAbs_of_nonneg (not_lt.mp h), BitVec.ofInt_toInt, BitVec.msb_eq_toInt, if_neg (by simpa using h)]

theorem absE_by_words : ElemsBy1 absE fun _ s a => if s && a.msb then -a else a := by
  intro t a
  beta_reduce
  rw [absE, readN_toNat, wrapN_eq]
  cases t.signed
  · simp
  · rw [if_pos rfl, ofInt_natAbs_toInt, Bool.true_and]

theorem negE_by_words : ElemsBy1 negE fun _ _ a => -a := by
  intro t a
  rw [negE, wrapN_eq, BitVec.ofInt_neg, BitVec.ofInt_natCast, BitVec.ofNat_toNat, BitVec.setWidth_eq]

theorem mov_by_words : ElemsBy1 (fun _ a => a) fun _ _ a => a := fun _ _ => rfl

theorem mulE_by_words : ElemsBy2 mulE fun _ _ a b => a * b := fun _ a b => (BitVec.toNat_mul a b).symm

/-- The upper half of a number modulo 2^(2w). -/
theorem setWidth_ofInt_double (w : Nat) (z : Int) : ((BitVec.ofInt (2 * w) z) >>> w).setWidth w = BitVec.ofInt w (z / 2 ^ w) := by
  have hpos : (0 : Int) < 2 ^ w := by positivity
  apply BitVec.eq_of_toNat_eq
  rw [BitVec.toNat_setWidth, BitVec.toNat_ushiftRight, Nat.shiftRight_eq_div_pow, BitVec.toNat_ofInt, BitVec.toNat_ofInt]
  zify
  rw [Int.toNat_of_nonneg (Int.emod_nonneg _ (by positivity)), Int.toNat_of_nonneg (Int.emod_nonneg _ hpos.ne'), two_mul, pow_add]
  conv_rhs => rw [← Int.mul_ediv_add_emod z (2 ^ w * 2 ^ w), mul_assoc, Int.mul_add_ediv_left _ _ hpos.ne', Int.mul_add_emod_self_left]

theorem mulhE_by_words : ElemsBy2 mulhE fun w s a b =>
    if s then ((a.signExtend (2 * w) * b.signExtend (2 * w)) >>> w).setWidth w
    else ((a.setWidth (2 * w) * b.setWidth (2 * w)) >>> w).setWidth w := by
  intro t a b
  rw [mulhE, readN_toNat, readN_toNat, wrapN_eq, ← setWidth_ofInt_double, BitVec.ofInt_mul]
  cases t.signed
  · simp
  · rfl

theorem leaE_by_words (k : Nat) : ElemsBy2 (fun t a b => leaE t k a b) fun _ _ a b => a + (b <<< k) := by
  intro t a b
  simp only [leaE]
  rw [BitVec.toNat_add, BitVec.toNat_shiftLeft, Nat.shiftLeft_eq, Nat.add_mod_mod]

/-! ### Logic, shifts and rotations (R276, R277) -/

theorem andE_by_words : ElemsBy2 andE fun _ _ a b => a &&& b := fun _ a b => (BitVec.toNat_and a b).symm

theorem orE_by_words : ElemsBy2 orE fun _ _ a b => a ||| b := fun _ a b => (BitVec.toNat_or a b).symm

theorem xorE_by_words : ElemsBy2 xorE fun _ _ a b => a ^^^ b := fun _ a b => (BitVec.toNat_xor a b).symm

theorem notE_by_words : ElemsBy1 notE fun _ _ a => ~~~a := by
  intro t a
  rw [notE, Nat.mod_eq_of_lt a.isLt, BitVec.toNat_not]

theorem andnE_by_words : ElemsBy2 andnE fun _ _ a b => a &&& ~~~b := by
  intro t a b
  rw [andnE, notE_by_words, BitVec.toNat_and]

theorem shlE_by_words : ElemsBy2 shlE fun w _ a b => a <<< (b.toNat % w) := by
  intro t a b
  rw [shlE, BitVec.toNat_shiftLeft, Nat.shiftLeft_eq]

theorem shrE_by_words : ElemsBy2 shrE fun w _ a b => a >>> (b.toNat % w) := by
  intro t a b
  rw [shrE, BitVec.toNat_ushiftRight, Nat.shiftRight_eq_div_pow]

theorem sarE_by_words : ElemsBy2 sarE fun w _ a b => a.sshiftRight (b.toNat % w) := by
  intro t a b
  beta_reduce
  rw [sarE, sgnN_toNat, wrapN_eq, BitVec.sshiftRight_eq, Int.shiftRight_eq_div_pow]
  norm_cast

/-- The two parts of a rotated word share no bit. -/
theorem toNat_shiftLeft_or_ushiftRight {w k m : Nat} (a : BitVec w) (h : k + m = w) :
    (a <<< k ||| a >>> m).toNat = (a.toNat * 2 ^ k + a.toNat / 2 ^ m) % 2 ^ w := by
  have hdisj : a <<< k &&& a >>> m = 0#w := by
    ext i hi
    by_cases hik : i < k
    · simp [hik]
    · simp [BitVec.getLsbD_of_ge a (m + i) (by omega)]
  rw [← BitVec.add_eq_or_of_and_eq_zero _ _ hdisj, BitVec.toNat_add, BitVec.toNat_shiftLeft, BitVec.toNat_ushiftRight,
    Nat.shiftLeft_eq, Nat.shiftRight_eq_div_pow, Nat.mod_add_mod]

theorem rolE_by_words : ElemsBy2 rolE fun w _ a b => a.rotateLeft (b.toNat % w) := by
  intro t a b
  have hk := Nat.mod_lt b.toNat (bits_pos t)
  beta_reduce
  rw [rolE, BitVec.rotateLeft_def, Nat.mod_mod, toNat_shiftLeft_or_ushiftRight a (by omega)]

theorem rorE_by_words : ElemsBy2 rorE fun w _ a b => a.rotateRight (b.toNat % w) := by
  intro t a b
  have hk := Nat.mod_lt b.toNat (bits_pos t)
  beta_reduce
  rw [rorE, BitVec.rotateRight_def, Nat.mod_mod, BitVec.or_comm, toNat_shiftLeft_or_ushiftRight a (by omega), Nat.add_comm]

/-! ### Bit counts and bit order (R208, R278) -/

theorem bitN_toNat {w : Nat} (a : BitVec w) (i : Nat) : bitN a.toNat i = a.getLsbD i := by
  rw [bitN, BitVec.getLsbD, Nat.testBit_eq_decide_div_mod_eq]
  rfl

theorem setBits_toNat {w : Nat} (a : BitVec w) : setBits w a.toNat = (List.range w).filter fun i => a.getLsbD i := by
  simp only [setBits, bitN_toNat]

theorem toNat_ofNat_of_le {w n : Nat} (h : n ≤ w) : (BitVec.ofNat w n).toNat = n := by
  rw [BitVec.toNat_ofNat, Nat.mod_eq_of_lt (lt_of_le_of_lt h Nat.lt_two_pow_self)]

theorem find?_range_lt {w i : Nat} {p : Nat → Bool} (h : (List.range w).find? p = some i) : i < w :=
  List.mem_range.mp (List.mem_of_find?_eq_some h)

theorem popcE_by_words : ElemsBy1 popcE fun w _ a => BitVec.ofNat w ((List.range w).filter fun i => a.getLsbD i).length := by
  intro t a
  rw [popcE, setBits_toNat, toNat_ofNat_of_le]
  simpa using List.length_filter_le (fun i => a.getLsbD i) (List.range t.bits)

theorem ctzE_by_words : ElemsBy1 ctzE fun w _ a => BitVec.ofNat w (((List.range w).find? fun i => a.getLsbD i).getD w) := by
  intro t a
  beta_reduce
  rw [ctzE, setBits_toNat, List.head?_filter]
  cases h : (List.range t.bits).find? fun i => a.getLsbD i with
  | none => exact (toNat_ofNat_of_le le_rfl).symm
  | some i => exact (toNat_ofNat_of_le (find?_range_lt h).le).symm

theorem ffsE_by_words : ElemsBy1 ffsE fun w _ a =>
    BitVec.ofNat w ((((List.range w).find? fun i => a.getLsbD i).map fun i => i + 1).getD 0) := by
  intro t a
  beta_reduce
  rw [ffsE, setBits_toNat, List.head?_filter]
  cases h : (List.range t.bits).find? fun i => a.getLsbD i with
  | none => exact (toNat_ofNat_of_le (Nat.zero_le _)).symm
  | some i => exact (toNat_ofNat_of_le (find?_range_lt h)).symm

/-- The highest set bit is the first one from the top. -/
theorem getLast?_filter_getLsbD {w : Nat} (a : BitVec w) :
    ((List.range w).filter fun i => a.getLsbD i).getLast? = ((List.range w).find? fun i => a.getMsbD i).map fun i => w - 1 - i := by
  rw [List.getLast?_filter, List.range_eq_range', List.reverse_range', List.find?_map, ← List.range_eq_range', Nat.zero_add]
  congr 1
  apply List.find?_congr
  intro i hi
  simp [BitVec.getMsbD, List.mem_range.mp hi]

theorem clzE_by_words : ElemsBy1 clzE fun w _ a => BitVec.ofNat w (((List.range w).find? fun i => a.getMsbD i).getD w) := by
  intro t a
  beta_reduce
  rw [clzE, setBits_toNat, getLast?_filter_getLsbD]
  cases h : (List.range t.bits).find? fun i => a.getMsbD i with
  | none => exact (toNat_ofNat_of_le le_rfl).symm
  | some i =>
    have hi := find?_range_lt h
    rw [Option.getD_some, toNat_ofNat_of_le hi.le]
    change t.bits - 1 - (t.bits - 1 - i) = i
    omega

theorem testBit_joinN_one (l : List Nat) (i : Nat) : (joinN 1 l).testBit i = (l.getD i 0).testBit 0 := by
  induction l generalizing i with
  | nil => simp [joinN]
  | cons x xs ih =>
    cases i with
    | zero => simp [joinN]
    | succ i =>
      rw [List.getD_cons_succ, ← ih, joinN, pow_one, Nat.testBit_succ]
      congr 1
      omega

theorem brevE_by_words : ElemsBy1 brevE fun _ _ a => a.reverse := by
  intro t a
  beta_reduce
  apply Nat.eq_of_testBit_eq
  intro i
  rw [brevE, testBit_joinN_one, BitVec.testBit_toNat, BitVec.getLsbD_reverse, BitVec.getMsbD]
  by_cases hi : i < t.bits
  · simp [hi, bitsN, Nat.testBit_eq_decide_div_mod_eq, BitVec.getLsbD]
  · simp [hi]

/-! ### Division (R209, R274) -/

theorem ofInt_tdiv_toInt {w : Nat} (a b : BitVec w) : BitVec.ofInt w (a.toInt.tdiv b.toInt) = a.sdiv b := by
  apply BitVec.eq_of_toInt_eq
  rw [BitVec.toInt_ofInt, BitVec.toInt_sdiv]

theorem divE_zero (t : IntTy) (a : Nat) : divE t a 0 = 2 ^ t.bits - 1 := by rw [divE, Nat.zero_mod, if_pos rfl]
theorem remE_zero (t : IntTy) (a : Nat) : remE t a 0 = a := by rw [remE, Nat.zero_mod, if_pos rfl]

section
variable {t : IntTy} (a : BitVec t.bits) {b : BitVec t.bits}

theorem toNat_mod_ne_zero (hb : b ≠ 0) : b.toNat % 2 ^ t.bits ≠ 0 := by
  rw [Nat.mod_eq_of_lt b.isLt]
  exact fun h => hb (BitVec.eq_of_toNat_eq h)

theorem divE_signed (hs : t.signed = true) (hb : b ≠ 0) : divE t a.toNat b.toNat = (a.sdiv b).toNat := by
  rw [divE, if_neg (toNat_mod_ne_zero hb), readN_signed hs, readN_signed hs, wrapN_eq, ofInt_tdiv_toInt]

theorem divE_unsigned (hs : t.signed = false) (hb : b ≠ 0) : divE t a.toNat b.toNat = (a.udiv b).toNat := by
  rw [divE, if_neg (toNat_mod_ne_zero hb), readN_unsigned hs, readN_unsigned hs, wrapN_eq, ← Int.ofNat_tdiv, ← BitVec.toNat_udiv,
    ofInt_toNat, BitVec.udiv_eq]

theorem remE_signed (hs : t.signed = true) (hb : b ≠ 0) : remE t a.toNat b.toNat = (a.srem b).toNat := by
  rw [remE, if_neg (toNat_mod_ne_zero hb), readN_signed hs, readN_signed hs, wrapN_eq, ← BitVec.toInt_srem, BitVec.ofInt_toInt]

theorem remE_unsigned (hs : t.signed = false) (hb : b ≠ 0) : remE t a.toNat b.toNat = (a.umod b).toNat := by
  rw [remE, if_neg (toNat_mod_ne_zero hb), readN_unsigned hs, readN_unsigned hs, wrapN_eq, ← Int.ofNat_tmod, ← BitVec.toNat_umod,
    ofInt_toNat, BitVec.umod_eq]

end

theorem divE_by_words : ElemsBy2 divE fun w s a b => if b = 0 then BitVec.allOnes w else if s then a.sdiv b else a.udiv b := by
  intro t a b
  beta_reduce
  by_cases hb : b = 0
  · rw [hb, if_pos rfl, BitVec.toNat_allOnes]
    exact divE_zero t a.toNat
  · rw [if_neg hb]
    cases hs : t.signed with
    | false => exact divE_unsigned a hs hb
    | true => exact divE_signed a hs hb

theorem remE_by_words : ElemsBy2 remE fun _ s a b => if b = 0 then a else if s then a.srem b else a.umod b := by
  intro t a b
  beta_reduce
  by_cases hb : b = 0
  · rw [hb, if_pos rfl]
    exact remE_zero t a.toNat
  · rw [if_neg hb]
    cases hs : t.signed with
    | false => exact remE_unsigned a hs hb
    | true => exact remE_signed a hs hb

theorem exists_word {w n : Nat} (h : n < 2 ^ w) : ∃ a : BitVec w, a.toNat = n :=
  ⟨BitVec.ofNat w n, by rw [BitVec.toNat_ofNat, Nat.mod_eq_of_lt h]⟩

theorem toNat_intMin {w : Nat} (h : 0 < w) : (BitVec.intMin w).toNat = 2 ^ (w - 1) := by
  rw [BitVec.toNat_intMin, Nat.mod_eq_of_lt (Nat.pow_lt_pow_right (by decide) (by omega))]

theorem neg_one_ne_zero (t : IntTy) : -1#t.bits ≠ 0 := fun h => (bits_pos t).ne' (BitVec.neg_one_eq_zero_iff.mp h)

theorem srem_neg_one {w : Nat} (hw : 0 < w) (a : BitVec w) : a.srem (-1#w) = 0#w := by
  apply BitVec.srem_zero_of_dvd
  rw [BitVec.neg_one_eq_allOnes, BitVec.toInt_allOnes, if_pos hw]
  exact ⟨-a.toInt, by ring⟩

theorem divE_intMin_neg_one {t : IntTy} (hs : t.signed = true) :
    divE t (BitVec.intMin t.bits).toNat (-1#t.bits).toNat = (BitVec.intMin t.bits).toNat := by
  rw [divE_signed _ hs (neg_one_ne_zero t), BitVec.intMin_sdiv_neg_one]

theorem remE_neg_one {t : IntTy} (hs : t.signed = true) (a : BitVec t.bits) : remE t a.toNat (-1#t.bits).toNat = 0 := by
  rw [remE_signed _ hs (neg_one_ne_zero t), srem_neg_one (bits_pos t), BitVec.toNat_zero]

theorem readN_divE {t : IntTy} {a b : BitVec t.bits} (hb : b ≠ 0) (hab : t.signed = true → a ≠ BitVec.intMin t.bits ∨ b ≠ -1#t.bits) :
    readN t (divE t a.toNat b.toNat) = (readN t a.toNat).tdiv (readN t b.toNat) := by
  cases hs : t.signed with
  | false =>
    rw [divE_unsigned a hs hb, readN_unsigned hs, readN_unsigned hs, readN_unsigned hs, ← Int.ofNat_tdiv, BitVec.udiv_eq, BitVec.toNat_udiv]
  | true =>
    rw [divE_signed a hs hb, readN_signed hs, readN_signed hs, readN_signed hs, BitVec.toInt_sdiv_of_ne_or_ne a b (hab hs)]

theorem readN_remE {t : IntTy} {a b : BitVec t.bits} (hb : b ≠ 0) :
    readN t (remE t a.toNat b.toNat) = (readN t a.toNat).tmod (readN t b.toNat) := by
  cases hs : t.signed with
  | false =>
    rw [remE_unsigned a hs hb, readN_unsigned hs, readN_unsigned hs, readN_unsigned hs, ← Int.ofNat_tmod, BitVec.umod_eq, BitVec.toNat_umod]
  | true =>
    rw [remE_signed a hs hb, readN_signed hs, readN_signed hs, readN_signed hs, BitVec.toInt_srem]

/-- R209 for an element of any integer type. -/
theorem division_with_corners (t : IntTy) (a b : Nat) (ha : a < 2 ^ t.bits) (hb : b < 2 ^ t.bits) :
    (b = 0 → divE t a b = 2 ^ t.bits - 1 ∧ remE t a b = a) ∧
    (t.signed = true → a = 2 ^ (t.bits - 1) → b = 2 ^ t.bits - 1 → divE t a b = a ∧ remE t a b = 0) ∧
    (b ≠ 0 → ¬ (t.signed = true ∧ a = 2 ^ (t.bits - 1) ∧ b = 2 ^ t.bits - 1) →
      readN t (divE t a b) = (readN t a).tdiv (readN t b) ∧ readN t (remE t a b) = (readN t a).tmod (readN t b)) := by
  have hmin : (BitVec.intMin t.bits).toNat = 2 ^ (t.bits - 1) := toNat_intMin (bits_pos t)
  have hone : (-1#t.bits).toNat = 2 ^ t.bits - 1 := by rw [BitVec.neg_one_eq_allOnes, BitVec.toNat_allOnes]
  refine ⟨?_, ?_, ?_⟩
  · rintro rfl
    exact ⟨divE_zero t a, remE_zero t a⟩
  · rintro hs rfl rfl
    rw [← hmin, ← hone]
    exact ⟨divE_intMin_neg_one hs, remE_neg_one hs _⟩
  · intro hb0 hov
    obtain ⟨x, rfl⟩ := exists_word ha
    obtain ⟨y, rfl⟩ := exists_word hb
    have hy : y ≠ 0 := fun h => hb0 (by rw [h]; rfl)
    have hxy : t.signed = true → x ≠ BitVec.intMin t.bits ∨ y ≠ -1#t.bits := by
      intro hs
      by_contra! h
      exact hov ⟨hs, by rw [h.1, hmin], by rw [h.2, hone]⟩
    exact ⟨readN_divE hy hxy, readN_remE hy⟩

/-! ### The tags of sources (R157, R185, R217) -/

/-- A value that is AFF only at the width of an instruction: a 32-bit AFF value is not linear modulo 2^64 (R185). -/
def Val.affAt (wide : Bool) : Val → Prop
  | .aff w _ _ => w = wide
  | _ => True

@[simp] theorem affAt_uni (wide : Bool) (v : W64) : (Val.uni v).affAt wide := trivial
@[simp] theorem affAt_mat (wide : Bool) (xs : List W64) : (Val.mat xs).affAt wide := trivial
@[simp] theorem affAt_aff (wide : Bool) (b st : W64) : (Val.aff wide b st).affAt wide := rfl

@[simp] theorem affAt_mkAff (wide : Bool) (b st : W64) : (mkAff wide b st).affAt wide := by
  unfold mkAff
  dsimp only
  split_ifs <;> simp

@[simp] theorem affAt_to32 (x : Val) : x.to32.affAt false := by
  cases x with
  | uni v => simp [Val.to32]
  | mat xs => simp [Val.to32]
  | aff w b st =>
    rw [Val.to32]
    split <;> simp

@[simp] theorem affAt_to64 (n : Nat) (x : Val) : (x.to64 n).affAt true := by
  match x with
  | .uni _ => simp [Val.to64]
  | .mat _ => simp [Val.to64]
  | .aff true _ _ => simp [Val.to64]
  | .aff false _ _ => simp [Val.to64]

@[simp] theorem affAt_v32 (V : View) (r : Nat) : (V.v32 r).affAt false := by
  rw [View.v32]
  split <;> simp

@[simp] theorem affAt_v64 (V : View) (r : Nat) : (V.v64 r).affAt true := by
  rw [View.v64]
  split
  · simp
  · split <;> simp
  · simp

@[simp] theorem affAt_idx (V : View) : V.idx.affAt true := by
  rw [View.idx]
  split <;> simp

@[simp] theorem affAt_iidx (V : View) : V.iidx.affAt true := by
  rw [View.iidx]
  split <;> simp

@[simp] theorem affAt_lane (V : View) : V.lane.affAt true := by
  rw [View.lane]
  split
  · simp
  · split <;> simp

theorem affAt_src (V : View) (wide : Bool) (x : Src) : (V.src wide x).affAt wide := by
  cases x with
  | bidx => cases hl : V.launch <;> cases wide <;> simp [View.src, hl]
  | v n => cases wide <;> simp [View.src, View.vec]
  | _ => cases wide <;> simp [View.src]

theorem affAt_bsrc (V : View) (t : IntTy) (x : BSrc) : (V.bsrc t x).affAt t.wide := by
  cases x with
  | reg y => exact affAt_src V t.wide y
  | imm i => simp [View.bsrc]

/-! ### A row's result at a passing item (R159, R162) -/

theorem at_mat_of_pass {n p : Nat} {pass : Lanes} (g : Nat → W64) (hn : p < n) (hp : pass.getLsbD p = true) :
    (Val.mat ((List.range n).map fun i => if pass.getLsbD i then g i else 0)).at p = g p := by
  simp [Val.at, hn, hp]

theorem at_of_isUni {x : Val} (h : x.isUni = true) (p q : Nat) : x.at p = x.at q := by
  match x, h with
  | .uni _, _ => rfl

/-- A result with a tag has at every passing item the value without one, as long as an AFF tag gives it. -/
theorem lift_at {n p : Nat} {pass : Lanes} {keep affTy wide : Bool} {rule : TagRule} {f : List W64 → W64} {xs : List Val}
    (hn : p < n) (hp : pass.getLsbD p = true)
    (haff : affTy = true → ∀ b st, affResult rule f xs = some (b, st) → (mkAff wide b st).at p = f (xs.map fun x => x.at p)) :
    (lift n pass keep rule affTy wide f xs).at p = f (xs.map fun x => x.at p) := by
  have hmat := at_mat_of_pass (fun i => f (xs.map fun x => x.at i)) hn hp
  unfold lift
  dsimp only
  split
  · exact hmat
  · split
    · next huni =>
      rw [Val.at]
      congr 1
      exact List.map_congr_left fun x hx => at_of_isUni (List.all_eq_true.mp huni x hx) 0 p
    · split
      · next hty =>
        split
        · next b st hres => exact haff hty b st hres
        · exact hmat
      · exact hmat

/-! ### Words of a scalar type -/

/-- A 64-bit value cut to the width of an instruction. -/
def cut (wide : Bool) (x : W64) : W64 := if wide then x else low32 x

/-- The word of a type at position p of an AFF value. -/
def line (t : IntTy) (b st : W64) (p : Nat) : BitVec t.bits := b.setWidth t.bits + st.setWidth t.bits * BitVec.ofNat t.bits p

theorem at_aff (wide : Bool) (b st : W64) (p : Nat) : (Val.aff wide b st).at p = cut wide (b + st * BitVec.ofNat 64 p) := rfl

theorem mkAff_eq (wide : Bool) (b st : W64) :
    mkAff wide b st = if cut wide st = 0 then .uni (cut wide b) else .aff wide (cut wide b) (cut wide st) := rfl

@[simp] theorem setWidth_setWidth_bits (t : IntTy) (y : BitVec t.bits) : (y.setWidth 64).setWidth t.bits = y := by
  rw [BitVec.setWidth_setWidth_of_le _ (bits_le t), BitVec.setWidth_eq]

section
variable {t : IntTy} (ht : t.scalar = true)
include ht

theorem elems_of_scalar : t.elems = 1 := by
  match t, ht with
  | .i32, _ | .n32, _ | .i64, _ | .n64, _ => rfl

theorem cut_eq (x : W64) : cut t.wide x = (x.setWidth t.bits).setWidth 64 := by
  match t, ht with
  | .i32, _ | .n32, _ => rfl
  | .i64, _ | .n64, _ => simp [cut, IntTy.wide, IntTy.bits]

theorem setWidth_cut (x : W64) : (cut t.wide x).setWidth t.bits = x.setWidth t.bits := by
  rw [cut_eq ht, setWidth_setWidth_bits]

theorem line_cut (b st : W64) (p : Nat) : line t (cut t.wide b) (cut t.wide st) p = line t b st p := by
  rw [line, setWidth_cut ht, setWidth_cut ht, line]

theorem at_aff_eq_line (b st : W64) (p : Nat) : (Val.aff t.wide b st).at p = (line t b st p).setWidth 64 := by
  rw [at_aff, cut_eq ht, BitVec.setWidth_add _ _ (bits_le t), BitVec.setWidth_mul _ _ (bits_le t), BitVec.setWidth_ofNat_of_le (bits_le t), line]

theorem at_mkAff (b st : W64) (p : Nat) : (mkAff t.wide b st).at p = (line t b st p).setWidth 64 := by
  rw [mkAff_eq, ← line_cut ht]
  split
  · next h =>
    rw [h, Val.at, cut_eq ht, line, setWidth_setWidth_bits]
    simp
  · exact at_aff_eq_line ht _ _ p

theorem setWidth_at_of_parts {x : Val} (hx : x.affAt t.wide) {b st : W64} (h : x.parts? = some (b, st)) (p : Nat) :
    (x.at p).setWidth t.bits = line t b st p := by
  cases x with
  | mat xs => contradiction
  | uni v =>
    cases h
    simp [Val.at, line]
  | aff w b' st' =>
    cases h
    cases hx
    rw [at_aff_eq_line ht, setWidth_setWidth_bits]

end

/-- An operation on words as one on 64-bit values. -/
def onWords1 (f : WordOp1) (t : IntTy) (u : W64) : W64 := (f t.bits t.signed (u.setWidth t.bits)).setWidth 64

/-- The same of an operation on two words. -/
def onWords2 (f : WordOp2) (t : IntTy) (u v : W64) : W64 := (f t.bits t.signed (u.setWidth t.bits) (v.setWidth t.bits)).setWidth 64

@[simp] theorem setWidth_onWords1 (f : WordOp1) (t : IntTy) (u : W64) :
    (onWords1 f t u).setWidth t.bits = f t.bits t.signed (u.setWidth t.bits) := setWidth_setWidth_bits t _

@[simp] theorem setWidth_onWords2 (f : WordOp2) (t : IntTy) (u v : W64) :
    (onWords2 f t u v).setWidth t.bits = f t.bits t.signed (u.setWidth t.bits) (v.setWidth t.bits) := setWidth_setWidth_bits t _

theorem elemN_zero (w : Nat) (x : W64) : elemN w 0 x.toNat = (x.setWidth w).toNat := by
  simp [elemN, bitsN]

theorem joinN_singleton {w : Nat} (y : BitVec w) : BitVec.ofNat 64 (joinN w [y.toNat]) = y.setWidth 64 := by
  rw [joinN, joinN, Nat.mul_zero, Nat.add_zero, Nat.mod_eq_of_lt y.isLt, BitVec.ofNat_toNat]

section
variable {t : IntTy} (ht : t.scalar = true)
include ht

theorem int1_eq_onWords1 {g : IntTy → Nat → Nat} {f : WordOp1} (h : ElemsBy1 g f) (u : W64) : int1 t (g t) u = onWords1 f t u := by
  rw [int1, mapE1, elems_of_scalar ht, List.range_one, List.map_singleton, elemN_zero, h, joinN_singleton, onWords1]

theorem int2_eq_onWords2 {g : IntTy → Nat → Nat → Nat} {f : WordOp2} (h : ElemsBy2 g f) (u v : W64) :
    int2 t (g t) u v = onWords2 f t u v := by
  rw [int2, mapE2, elems_of_scalar ht, List.range_one, List.map_singleton, elemN_zero, elemN_zero, h, joinN_singleton, onWords2]

theorem onWords1_eq (f : WordOp1) (u : W64) :
    onWords1 f t u = if t.wide then f 64 t.signed u else (f 32 t.signed (u.setWidth 32)).setWidth 64 := by
  match t, ht with
  | .i32, _ | .n32, _ => rfl
  | .i64, _ | .n64, _ => simp [onWords1, IntTy.wide, IntTy.bits]

theorem onWords2_eq (f : WordOp2) (u v : W64) :
    onWords2 f t u v = if t.wide then f 64 t.signed u v else (f 32 t.signed (u.setWidth 32) (v.setWidth 32)).setWidth 64 := by
  match t, ht with
  | .i32, _ | .n32, _ => rfl
  | .i64, _ | .n64, _ => simp [onWords2, IntTy.wide, IntTy.bits]

end

/-! ### AFF results (R160) -/

/-- What R160 asks of an operation for an AFF result by the rule: applied to base and to stride it gives those of the result, modulo
2^W. -/
def LineRule1 : TagRule → WordOp1 → Prop
  | .linear, f => ∀ (w : Nat) (s : Bool) (b st i : BitVec w), f w s (b + st * i) = f w s b + f w s st * i
  | _, _ => True

def LineRule2 : TagRule → WordOp2 → Prop
  | .plain, _ => True
  | .linear, f => ∀ (w : Nat) (s : Bool) (b c st su i : BitVec w), f w s (b + st * i) (c + su * i) = f w s b c + f w s st su * i
  | .scale, f => ∀ (w : Nat) (s : Bool) (b st u i : BitVec w),
      f w s (b + st * i) u = f w s b u + f w s st u * i ∧ f w s u (b + st * i) = f w s u b + f w s u st * i
  | .shift, f => ∀ (w : Nat) (s : Bool) (b st u i : BitVec w), f w s (b + st * i) u = f w s b u + f w s st u * i

theorem affResult_linear1 {f : List W64 → W64} {x : Val} {b st : W64} (h : affResult .linear f [x] = some (b, st)) :
    ∃ bx sx, x.parts? = some (bx, sx) ∧ f [bx] = b ∧ f [sx] = st := by
  cases hx : x.parts? with
  | none => simp [affResult, hx] at h
  | some q => exact ⟨q.1, q.2, rfl, by simpa [affResult, hx] using h⟩

theorem affResult_linear2 {f : List W64 → W64} {x y : Val} {b st : W64} (h : affResult .linear f [x, y] = some (b, st)) :
    ∃ bx sx by_ sy, x.parts? = some (bx, sx) ∧ y.parts? = some (by_, sy) ∧ f [bx, by_] = b ∧ f [sx, sy] = st := by
  cases hx : x.parts? with
  | none => simp [affResult, hx] at h
  | some q =>
    cases hy : y.parts? with
    | none => simp [affResult, hy] at h
    | some r => exact ⟨q.1, q.2, r.1, r.2, rfl, rfl, by simpa [affResult, hx, hy] using h⟩

section
variable {t : IntTy} (ht : t.scalar = true)
include ht

theorem line_of_affResult1 {rule : TagRule} {f : WordOp1} (hr : LineRule1 rule f) {x : Val} (hx : x.affAt t.wide) {b st : W64}
    (h : affResult rule (fun l => onWords1 f t (arg0 l)) [x] = some (b, st)) (p : Nat) :
    line t b st p = f t.bits t.signed ((x.at p).setWidth t.bits) := by
  cases rule with
  | plain => contradiction
  | scale => cases x <;> contradiction
  | shift => cases x <;> contradiction
  | linear =>
    obtain ⟨bx, sx, hxp, rfl, rfl⟩ := affResult_linear1 h
    rw [setWidth_at_of_parts ht hx hxp, line, line, hr]
    simp [arg0]

theorem line_of_affResult2 {rule : TagRule} {f : WordOp2} (hr : LineRule2 rule f) {x y : Val} (hx : x.affAt t.wide) (hy : y.affAt t.wide)
    {b st : W64} (h : affResult rule (fun l => onWords2 f t (arg0 l) (arg1 l)) [x, y] = some (b, st)) (p : Nat) :
    line t b st p = f t.bits t.signed ((x.at p).setWidth t.bits) ((y.at p).setWidth t.bits) := by
  cases rule with
  | plain => contradiction
  | linear =>
    obtain ⟨bx, sx, by_, sy, hxp, hyp, rfl, rfl⟩ := affResult_linear2 h
    rw [setWidth_at_of_parts ht hx hxp, setWidth_at_of_parts ht hy hyp, line, line, line, hr]
    simp [arg0, arg1]
  | scale =>
    match x, y with
    | .aff w bx sx, .uni u =>
      cases h
      rw [setWidth_at_of_parts ht hx rfl, line, line, (hr ..).1]
      simp [arg0, arg1, Val.at]
    | .uni u, .aff w by_ sy =>
      cases h
      rw [setWidth_at_of_parts ht hy rfl, line, line, (hr ..).2]
      simp [arg0, arg1, Val.at]
  | shift =>
    match x, y with
    | .aff w bx sx, .uni u =>
      cases h
      rw [setWidth_at_of_parts ht hx rfl, line, line, hr]
      simp [arg0, arg1, Val.at]

end

theorem intAlu1_val_at (x : Alu1) {rule : TagRule} {g : IntTy → Nat → Nat} {f : WordOp1} (ht : x.ty.scalar = true) (hg : ElemsBy1 g f)
    (hr : LineRule1 rule f) (V : View) {pass : Lanes} (keep : Bool) {p : Nat} (hn : p < V.n) (hp : pass.getLsbD p = true) :
    ((intAlu1 x rule g).val V pass keep).at p = onWords1 f x.ty ((V.src x.ty.wide x.a).at p) := by
  change (lift V.n pass keep rule x.ty.scalar x.ty.wide (fun l => int1 x.ty (g x.ty) (arg0 l)) [V.src x.ty.wide x.a]).at p = _
  simp only [int1_eq_onWords1 ht hg]
  refine lift_at hn hp fun _ b st hres => ?_
  rw [at_mkAff ht, line_of_affResult1 ht hr (affAt_src V _ _) hres]
  rfl

theorem intAlu2_val_at (x : Alu2) {rule : TagRule} {g : IntTy → Nat → Nat → Nat} {f : WordOp2} {t32 t64 : Nat} (ht : x.ty.scalar = true)
    (hg : ElemsBy2 g f) (hr : LineRule2 rule f) (V : View) {pass : Lanes} (keep : Bool) {p : Nat} (hn : p < V.n)
    (hp : pass.getLsbD p = true) :
    ((intAlu2 x rule g t32 t64).val V pass keep).at p = onWords2 f x.ty ((V.src x.ty.wide x.a).at p) ((V.bsrc x.ty x.b).at p) := by
  change (lift V.n pass keep rule x.ty.scalar x.ty.wide (fun l => int2 x.ty (g x.ty) (arg0 l) (arg1 l))
    [V.src x.ty.wide x.a, V.bsrc x.ty x.b]).at p = _
  simp only [int2_eq_onWords2 ht hg]
  refine lift_at hn hp fun _ b st hres => ?_
  rw [at_mkAff ht, line_of_affResult2 ht hr (affAt_src V _ _) (affAt_bsrc V _ _) hres]
  rfl

theorem shiftLeft_eq_mul {w : Nat} (a : BitVec w) (k : Nat) : a <<< k = a * BitVec.twoPow w k := (BitVec.mul_twoPow_eq_shiftLeft a k).symm

theorem add_lineRule : LineRule2 .linear fun _ _ a b => a + b := fun _ _ b c st su i => by ring
theorem sub_lineRule : LineRule2 .linear fun _ _ a b => a - b := fun _ _ b c st su i => by ring
theorem neg_lineRule : LineRule1 .linear fun _ _ a => -a := fun _ _ b st i => by ring
theorem mov_lineRule : LineRule1 .linear fun _ _ a => a := fun _ _ _ _ _ => rfl
theorem mul_lineRule : LineRule2 .scale fun _ _ a b => a * b := fun _ _ b st u i => ⟨by ring, by ring⟩

theorem shl_lineRule : LineRule2 .shift fun w _ a b => a <<< (b.toNat % w) := by
  intro w s b st u i
  simp only [shiftLeft_eq_mul]
  ring

theorem lea_lineRule (k : Nat) : LineRule2 .linear fun _ _ a b => a + (b <<< k) := by
  intro w s b c st su i
  simp only [shiftLeft_eq_mul]
  ring

/-! ### The rows (R271-R279) -/

theorem scalar1_row {i : Instr} {x : Alu1} {a : Alu} {f : WordOp1} (h : scalar1 i = some (x, a, f)) :
    ∃ rule g, a = intAlu1 x rule g ∧ ElemsBy1 g f ∧ LineRule1 rule f := by
  unfold scalar1 at h
  split at h <;> cases h
  · exact ⟨_, _, rfl, negE_by_words, neg_lineRule⟩
  · exact ⟨_, _, rfl, notE_by_words, trivial⟩
  · exact ⟨_, _, rfl, mov_by_words, mov_lineRule⟩
  · exact ⟨_, _, rfl, absE_by_words, trivial⟩
  · exact ⟨_, _, rfl, clzE_by_words, trivial⟩
  · exact ⟨_, _, rfl, ctzE_by_words, trivial⟩
  · exact ⟨_, _, rfl, ffsE_by_words, trivial⟩
  · exact ⟨_, _, rfl, popcE_by_words, trivial⟩
  · exact ⟨_, _, rfl, brevE_by_words, trivial⟩

theorem scalar2_row {i : Instr} {x : Alu2} {a : Alu} {f : WordOp2} (h : scalar2 i = some (x, a, f)) :
    ∃ rule g t32 t64, a = intAlu2 x rule g t32 t64 ∧ ElemsBy2 g f ∧ LineRule2 rule f := by
  unfold scalar2 at h
  split at h <;> cases h
  · exact ⟨_, _, _, _, rfl, addE_by_words, add_lineRule⟩
  · exact ⟨_, _, _, _, rfl, subE_by_words, sub_lineRule⟩
  · exact ⟨_, _, _, _, rfl, mulE_by_words, mul_lineRule⟩
  · exact ⟨_, _, _, _, rfl, mulhE_by_words, trivial⟩
  · exact ⟨_, _, _, _, rfl, divE_by_words, trivial⟩
  · exact ⟨_, _, _, _, rfl, remE_by_words, trivial⟩
  · exact ⟨_, _, _, _, rfl, minE_by_words, trivial⟩
  · exact ⟨_, _, _, _, rfl, maxE_by_words, trivial⟩
  · exact ⟨_, _, _, _, rfl, andE_by_words, trivial⟩
  · exact ⟨_, _, _, _, rfl, orE_by_words, trivial⟩
  · exact ⟨_, _, _, _, rfl, xorE_by_words, trivial⟩
  · exact ⟨_, _, _, _, rfl, andnE_by_words, trivial⟩
  · exact ⟨_, _, _, _, rfl, shlE_by_words, shl_lineRule⟩
  · exact ⟨_, _, _, _, rfl, shrE_by_words, trivial⟩
  · exact ⟨_, _, _, _, rfl, sarE_by_words, trivial⟩
  · exact ⟨_, _, _, _, rfl, rolE_by_words, trivial⟩
  · exact ⟨_, _, _, _, rfl, rorE_by_words, trivial⟩
  · exact ⟨_, _, _, _, rfl, leaE_by_words _, lea_lineRule _⟩

/-- Settles O11: every scalar row is `intAlu1` or `intAlu2` of an element operation that is the row's word operation, under a tag rule that the
operation obeys; division is the word division of `BitVec`, whose corners are those of R209. -/
theorem integerResults : Obligations.IntegerResults := by
  refine ⟨division_with_corners, ?_, ?_⟩
  · intro i x a f hi ht V pass keep p hn hp
    obtain ⟨rule, g, t32, t64, rfl, hg, hr⟩ := scalar2_row hi
    exact (intAlu2_val_at x ht hg hr V keep hn hp).trans (onWords2_eq ht f _ _)
  · intro i x a f hi ht V pass keep p hn hp
    obtain ⟨rule, g, rfl, hg, hr⟩ := scalar1_row hi
    exact (intAlu1_val_at x ht hg hr V keep hn hp).trans (onWords1_eq ht f _)

end Sys2Proof.Machine
end
